-- ==== Sys2Proof/Word.lean ====
section
/-! DEFINITION. The widths and numbers the manual uses (00_scope.md, Conventions). -/

namespace Sys2Proof

/-- One byte of a management frame (R167). -/
abbrev Byte := BitVec 8

/-- A 16-bit number: a frame's index, a threshold, a fire count (R140, R146, R167). -/
abbrev Half := BitVec 16

/-- A 32-bit count that wraps: the counters, the round number, the global slot count (R6, R7, R134). -/
abbrev Word := BitVec 32

/-- A 40-bit byte address (00_scope.md, Conventions). -/
abbrev Addr := BitVec 40

/-- A granule number: an address divided by 4096 (00_scope.md, Conventions). -/
abbrev Granule := BitVec 28

/-- One beat: 16 bytes of data (00_scope.md, Conventions). -/
abbrev Beat := BitVec 128

/-- A partition P0 to P7 (R23). -/
abbrev PartitionId := Fin 8

/-- An initiator number (R61). -/
abbrev Initiator := Fin 32

/-- A tag of an initiator (R61). -/
abbrev Tag := Fin 16

/-- A d-tag: the number of an in-flight entry (R97). -/
abbrev DTag := Fin 16

/-- An event line EVIN0 to EVIN3 or EVOUT0 to EVOUT3 (R155, R157). -/
abbrev EventLine := Fin 4

/-- An initiator number with a tag: it names one outstanding request (R61). -/
structure Pair where
  initiator : Initiator
  tag : Tag
  deriving DecidableEq, Repr

end Sys2Proof
end

