-- ==== Sys2Proof/Config.lean ====
section
/-! DEFINITION. The sizes the manual fixes and the values it leaves open.
The other free value, the state after a short RSTN pulse (R1), is `Config.undefinedState`; it stands in Machine/State.lean, where its type is. -/

namespace Sys2Proof
namespace Config

/-- The entry pool holds 64 queue entries (R35), and the quotas never sum to more (R24). -/
def poolSize : Nat := 64

/-- The write-data buffer holds up to 256 beats (R82). -/
def bufferBeats : Nat := 256

/-- The write-data unit holds 48 open-write records (R83). -/
def openWriteRecords : Nat := 48

/-- The fault queue holds up to 16 records (R160). -/
def faultRecords : Nat := 16

/-- DRSTN stays low for 64 CLK on entry to RELEASING (R130). -/
def drstnPulseClk : Nat := 64

/-- A per-round count stays at 65535 (R135). -/
def perRoundLimit : Nat := 65535

/-- FREE VALUE (log entry 9). Causes that different blocks emit at one moment reach the trigger unit in either order (R148, R160).
For the delivery numbered by the first argument, this says whether the cause at the second position is taken after the one at the third. -/
opaque laterCauseFirst : Nat → Nat → Nat → Bool

/-- FREE VALUE (log entry 7). The TIMEOUT faults of one round start reach the fault queue in turn, and other faults and a POP FAULT may come between
two of them (R161). For the slot start numbered by the first argument, this says whether the next one reaches the queue with the slot start itself, when the
second argument's number of others waits behind it. -/
opaque timeoutAtOnce : Nat → Nat → Bool

/-- FREE VALUE (log entry 14). The byte the part drives on SDO in the place of a byte of write data, which R167 and R177 do not give.
The argument numbers the occasion. -/
opaque unstatedSdo : Nat → Byte

end Config
end Sys2Proof
end

