-- ==== Sys2Proof/Syntax.lean ====
section
/-! DEFINITION. The commands: one constructor of `Instr` for each row of spec/opcode_table.json, and the types of their operands. -/

namespace Sys2Proof

/-- The two schedule tables (R2). -/
inductive TableName where
  | a
  | b
  deriving DecidableEq, Repr, Inhabited

/-- The parts of a schedule table that one WRITE ENTRY or READ ENTRY names (R19). -/
inductive SchedulePart where
  | header
  | slot
  | allowance
  deriving DecidableEq, Repr

/-- The tables a READ ENTRY or WRITE ENTRY may name (R177, Tables and entries). -/
inductive EntryTable where
  | schedule (table : TableName) (part : SchedulePart)
  | partitions
  | initiatorMap
  | regions
  | monitors
  | triggers
  | attentionMask
  deriving DecidableEq, Repr

/-- The write data of one schedule table entry (R177): the header's two bytes, a slot entry's byte, or the allowance vector's eight bytes. -/
inductive ScheduleEntryData where
  | header (roundLength slotLength : Byte)
  | slot (entry : Byte)
  | allowance (p0 p1 p2 p3 p4 p5 p6 p7 : Byte)
  deriving DecidableEq, Repr

/-- The commands that return data, with the argument or index that chooses it (R170). -/
inductive ReadCommand where
  | readEntry (table : EntryTable) (index : Half)
  | popFault
  | readStatus
  | readCounters (argument : Byte)
  | readSnapshot (index : Half)
  deriving DecidableEq, Repr

/-- Bytes 0 to 3 of a frame: the command code, the argument, and the index, high byte first (R167). -/
structure IndexBytes where
  code : Byte
  argument : Byte
  high : Byte
  low : Byte
  deriving DecidableEq, Repr

/-- The memory controller's outcome in an answer (R96). -/
inductive AnswerStatus where
  | ok
  | err
  deriving DecidableEq, Repr

/-- The commands of the block, in the order of spec/opcode_table.json.
`extra` on a management frame is how many whole bytes it ran beyond its needed length (R168). -/
inductive Instr where
  /-- PIN_RESET (R1): RSTN is taken low and held for at least 16 CLK. -/
  | pinReset
  /-- RSTN_RETURNS_HIGH (R8); `selnLow` is the level of SELN then (R167). -/
  | rstnReturnsHigh (selnLow : Bool)
  /-- SLOT_START (R5). -/
  | slotStart
  /-- DEADLINE_EXPIRY (R102): each entry whose deadline round is the present round expires. -/
  | deadlineExpiry
  /-- READ_REQUEST (R63); `beats` is 0 to 31 as carried (R61). -/
  | readRequest (initiator : Initiator) (tag : Tag) (address : Addr) (beats : Nat)
  /-- WRITE_REQUEST (R63). -/
  | writeRequest (initiator : Initiator) (tag : Tag) (address : Addr) (beats : Nat)
  /-- UNNAMED_KIND_REQUEST (R62): the kind code names none of READ, WRITE and CANCEL. -/
  | unnamedKindRequest (initiator : Initiator) (tag : Tag) (address : Addr) (beats : Nat)
  /-- CANCEL (R118); its address and beats are ignored (R61). -/
  | cancel (initiator : Initiator) (tag : Tag)
  /-- WRITE_DATA_BEAT (R81). -/
  | writeDataBeat (initiator : Initiator) (tag : Tag) (data : Beat) (last : Bool)
  /-- DOWNSTREAM_TAKE (R95). -/
  | downstreamTake
  /-- ANSWER (R96). -/
  | answer (dtag : DTag) (status : AnswerStatus) (data : List Beat)
  /-- ARBITER_CHOICE (R107). -/
  | arbiterChoice
  /-- RESPONSE_DELIVERY (R105). -/
  | responseDelivery
  /-- DRSTN_PULSE_END (R131). -/
  | drstnPulseEnd
  /-- EVIN_EDGE (R155): the line has held `high`, another level than its seen one, for 4 CLK. -/
  | evinEdge (line : EventLine) (high : Bool)
  /-- EVIN_FIRST_LEVEL (R156). -/
  | evinFirstLevel (line : EventLine) (high : Bool)
  /-- EVOUT_PULSE_END (R158). -/
  | evoutPulseEnd (line : EventLine)
  /-- HELD_CAUSE_TAKEN (R152). -/
  | heldCauseTaken
  /-- INDEX_COMPLETE (R167, R170): byte 3 of a read frame ends. -/
  | indexComplete (bytes : IndexBytes)
  /-- FRAME_CUT_SHORT (R168); `bytes` are the whole bytes received. -/
  | frameCutShort (bytes : List Byte)
  /-- UNKNOWN (R168); `bytes` are the whole bytes received. -/
  | unknown (bytes : List Byte)
  /-- READ_ENTRY (R170): the frame closes. -/
  | readEntry (table : EntryTable) (index : Half) (extra : Nat)
  /-- WRITE_SCHEDULE_ENTRY (R19). -/
  | writeScheduleEntry (table : TableName) (index : Half) (data : ScheduleEntryData) (extra : Nat)
  /-- WRITE_PARTITION_RECORD (R25): bytes 0 to 3 of the entry; byte 0 stands in the state's place. -/
  | writePartitionRecord (index : Half) (state quota slack limit : Byte) (extra : Nat)
  /-- WRITE_INITIATOR_MAP (R69). -/
  | writeInitiatorMap (index : Half) (value : Byte) (extra : Nat)
  /-- WRITE_REGION (R69): base and limit as carried, the top four bits of each unused. -/
  | writeRegion (index : Half) (base limit : Word) (mask flags : Byte) (extra : Nat)
  /-- WRITE_MONITOR (R143). -/
  | writeMonitor (index : Half) (flags object condition argument : Byte) (threshold : Half) (extra : Nat)
  /-- WRITE_TRIGGER (R147); `fireCount` is what the frame carries in the fire count's place. -/
  | writeTrigger (index : Half) (flags cause causeArgument action actionArgument : Byte) (fireCount : Half) (extra : Nat)
  /-- WRITE_ATTENTION_MASK (R164). -/
  | writeAttentionMask (index : Half) (mask : Byte) (extra : Nat)
  /-- REQUEST_SWITCH (R13). -/
  | requestSwitch (argument : Byte) (extra : Nat)
  /-- SET_PARTITION_STATE (R28): the target is the index's low byte (R175). -/
  | setPartitionState (argument : Byte) (index : Half) (extra : Nat)
  /-- FLUSH_PARTITION (R122). -/
  | flushPartition (argument : Byte) (extra : Nat)
  /-- PATH_RESTART (R126, R127). -/
  | pathRestart (extra : Nat)
  /-- POP_FAULT (R171): the frame closes. -/
  | popFault (extra : Nat)
  /-- ACKNOWLEDGE (R165). -/
  | acknowledge (causes : Byte) (extra : Nat)
  /-- READ_STATUS (R172): the frame closes. -/
  | readStatus (extra : Nat)
  /-- READ_COUNTERS (R173): the frame closes. -/
  | readCounters (argument : Byte) (extra : Nat)
  /-- CLEAR_COUNTERS (R138). -/
  | clearCounters (extra : Nat)
  /-- READ_SNAPSHOT (R173): the frame closes. -/
  | readSnapshot (index : Half) (extra : Nat)
  /-- SHORT_RSTN_PULSE (R1). -/
  | shortRstnPulse
  /-- FRAME_OPEN_ACROSS_RESET (R167): SELN rises for the frame that was open across the reset. -/
  | frameOpenAcrossReset
  deriving DecidableEq, Repr

end Sys2Proof
end

