-- ==== Sys2Proof/Decode.lean ====
section
/-! DEFINITION. From words and frames to commands. No row of spec/opcode_table.json gives bits, so `decodeTableWord` spells nothing;
`decodeFrame` reads the bytes of a closed management frame as R167, R168 and R177 give, `decodeBits` its bits, and `encodeFrame` writes the bytes. -/

namespace Sys2Proof

/-- The command a word spells by the opcode table's bits: no row of the table gives any (log entry 21). -/
def decodeTableWord (_nbits _w : Nat) : Option Instr := none

/-! ### Numbers and bytes: multi-byte numbers go most significant byte first (R177) -/

/-- Two bytes as a 16-bit number. -/
def halfOf (b1 b0 : Byte) : Half := b1 ++ b0

/-- Four bytes as a 32-bit number. -/
def wordOf (b3 b2 b1 b0 : Byte) : Word := b3 ++ b2 ++ b1 ++ b0

/-- Byte `k` of a number, byte 0 the least significant. -/
def byteAt {n : Nat} (k : Nat) (v : BitVec n) : Byte := v.extractLsb' (8 * k) 8

/-- The two bytes of a 16-bit number. -/
def halfBytes (v : Half) : List Byte := [byteAt 1 v, byteAt 0 v]

/-- The four bytes of a 32-bit number. -/
def wordBytes (v : Word) : List Byte := [byteAt 3 v, byteAt 2 v, byteAt 1 v, byteAt 0 v]

/-! ### Codes and lengths of frames (R177) -/

/-- The table a table code names, if any. -/
def entryTableOf (code : Byte) : Option EntryTable :=
  if code = 0x00 then some (.schedule .a .header)
  else if code = 0x01 then some (.schedule .a .slot)
  else if code = 0x02 then some (.schedule .a .allowance)
  else if code = 0x03 then some (.schedule .b .header)
  else if code = 0x04 then some (.schedule .b .slot)
  else if code = 0x05 then some (.schedule .b .allowance)
  else if code = 0x08 then some .partitions
  else if code = 0x09 then some .initiatorMap
  else if code = 0x0A then some .regions
  else if code = 0x0B then some .monitors
  else if code = 0x0C then some .triggers
  else if code = 0x0D then some .attentionMask
  else none

/-- The code of a table. -/
def entryTableCode : EntryTable → Byte
  | .schedule .a .header => 0x00
  | .schedule .a .slot => 0x01
  | .schedule .a .allowance => 0x02
  | .schedule .b .header => 0x03
  | .schedule .b .slot => 0x04
  | .schedule .b .allowance => 0x05
  | .partitions => 0x08
  | .initiatorMap => 0x09
  | .regions => 0x0A
  | .monitors => 0x0B
  | .triggers => 0x0C
  | .attentionMask => 0x0D

/-- The length of one entry of a table in bytes. -/
def entryLength : EntryTable → Nat
  | .schedule _ .header => 2
  | .schedule _ .slot => 1
  | .schedule _ .allowance => 8
  | .partitions => 4
  | .initiatorMap => 1
  | .regions => 10
  | .monitors => 6
  | .triggers => 7
  | .attentionMask => 1

/-- How many bytes READ COUNTERS returns: 44 for a partition, 32 for the global set and when refused (R173). -/
def countersLength (argument : Byte) : Nat := if argument.toNat < 8 then 44 else 32

/-- How many bytes READ SNAPSHOT returns: 44 for index 1 to 8, 37 for index 0 and when refused (R173). -/
def snapshotLength (index : Half) : Nat := if 1 ≤ index.toNat ∧ index.toNat ≤ 8 then 44 else 37

/-- How many bytes a read command returns (R168, R177). -/
def readLength : ReadCommand → Nat
  | .readEntry table _ => entryLength table
  | .popFault => 16
  | .readStatus => 16
  | .readCounters argument => countersLength argument
  | .readSnapshot index => snapshotLength index

/-- The read command named by bytes 0 to 3 of a frame, if they name one. -/
def readCommandOf (code argument : Byte) (index : Half) : Option ReadCommand :=
  if code = 0x01 then (entryTableOf argument).map (.readEntry · index)
  else if code = 0x20 then some .popFault
  else if code = 0x30 then some .readStatus
  else if code = 0x31 then some (.readCounters argument)
  else if code = 0x33 then some (.readSnapshot index)
  else none

/-- The read command that bytes 0 to 3 name, if they name one. -/
def IndexBytes.command (b : IndexBytes) : Option ReadCommand := readCommandOf b.code b.argument (halfOf b.high b.low)

/-- Bytes 0 to 3 in the order in which they come. -/
def IndexBytes.list (b : IndexBytes) : List Byte := [b.code, b.argument, b.high, b.low]

/-- Bytes 0 to 3 of a read command's frame; places that name no operand hold 00h. -/
def readHeader : ReadCommand → List Byte
  | .readEntry table index => [0x01, entryTableCode table] ++ halfBytes index
  | .popFault => [0x20, 0, 0, 0]
  | .readStatus => [0x30, 0, 0, 0]
  | .readCounters argument => [0x31, argument, 0, 0]
  | .readSnapshot index => [0x33, 0] ++ halfBytes index

/-- The command of a read frame that closes at its needed length or more, `extra` bytes beyond it. -/
def ReadCommand.close (extra : Nat) : ReadCommand → Instr
  | .readEntry table index => .readEntry table index extra
  | .popFault => .popFault extra
  | .readStatus => .readStatus extra
  | .readCounters argument => .readCounters argument extra
  | .readSnapshot index => .readSnapshot index extra

/-- The command of a WRITE ENTRY frame whose write data is `data`; none when `data` is shorter than the entry (R168). -/
def decodeWrite (table : EntryTable) (index : Half) (data : List Byte) : Option Instr :=
  match table, data with
  | .schedule t .header, r :: l :: rest => some (.writeScheduleEntry t index (.header r l) rest.length)
  | .schedule t .slot, e :: rest => some (.writeScheduleEntry t index (.slot e) rest.length)
  | .schedule t .allowance, a0 :: a1 :: a2 :: a3 :: a4 :: a5 :: a6 :: a7 :: rest =>
    some (.writeScheduleEntry t index (.allowance a0 a1 a2 a3 a4 a5 a6 a7) rest.length)
  | .partitions, s :: q :: f :: l :: rest => some (.writePartitionRecord index s q f l rest.length)
  | .initiatorMap, v :: rest => some (.writeInitiatorMap index v rest.length)
  | .regions, b3 :: b2 :: b1 :: b0 :: l3 :: l2 :: l1 :: l0 :: m :: f :: rest =>
    some (.writeRegion index (wordOf b3 b2 b1 b0) (wordOf l3 l2 l1 l0) m f rest.length)
  | .monitors, f :: o :: c :: a :: t1 :: t0 :: rest => some (.writeMonitor index f o c a (halfOf t1 t0) rest.length)
  | .triggers, f :: c :: ca :: a :: aa :: n1 :: n0 :: rest =>
    some (.writeTrigger index f c ca a aa (halfOf n1 n0) rest.length)
  | .attentionMask, m :: rest => some (.writeAttentionMask index m rest.length)
  | _, _ => none

/-- The command of a frame with code, argument and index, and `data` from byte 5 on; none when it is cut short (R168). -/
def decodeBody (code argument : Byte) (index : Half) (data : List Byte) : Option (Option Instr) :=
  if code = 0x02 then
    match entryTableOf argument with
    | none => some none
    | some table => (decodeWrite table index data).map some
  else if code = 0x10 then some (some (.requestSwitch argument data.length))
  else if code = 0x11 then some (some (.setPartitionState argument index data.length))
  else if code = 0x12 then some (some (.flushPartition argument data.length))
  else if code = 0x13 then some (some (.pathRestart data.length))
  else if code = 0x21 then
    match data with
    | c :: rest => some (some (.acknowledge c rest.length))
    | [] => none
  else if code = 0x32 then some (some (.clearCounters data.length))
  else
    match readCommandOf code argument index with
    | none => some none
    | some command => if data.length < readLength command then none else some (some (command.close (data.length - readLength command)))

/-- The command taken when a frame of these whole bytes closes: by its code and table code, against its needed length (R167, R168, R177).
Total: every list of bytes is a command, UNKNOWN or cut short. -/
def decodeFrame (bytes : List Byte) : Instr :=
  match bytes with
  | code :: argument :: hi :: lo :: _ :: data =>
    match decodeBody code argument (halfOf hi lo) data with
    | some (some command) => command
    | some none => .unknown bytes
    | none => .frameCutShort bytes
  | _ => .frameCutShort bytes

/-! ### Frames as bits (R167) -/

/-- The bits of a byte as they cross the port, the most significant first (R167). -/
def bitsOfByte (b : Byte) : List Bool :=
  [b.getLsbD 7, b.getLsbD 6, b.getLsbD 5, b.getLsbD 4, b.getLsbD 3, b.getLsbD 2, b.getLsbD 1, b.getLsbD 0]

/-- The byte of eight bits, the most significant first (R167). -/
def byteOfBits (b7 b6 b5 b4 b3 b2 b1 b0 : Bool) : Byte :=
  [b7, b6, b5, b4, b3, b2, b1, b0].foldl (fun v b => (v <<< 1) ||| (if b then 1 else 0)) 0

/-- The whole bytes of the bits received before SELN rises: each eight bits make one byte, counted from byte 0, and the bits after the last whole
byte are discarded (R167). -/
def bytesOfBits : List Bool → List Byte
  | b7 :: b6 :: b5 :: b4 :: b3 :: b2 :: b1 :: b0 :: rest => byteOfBits b7 b6 b5 b4 b3 b2 b1 b0 :: bytesOfBits rest
  | _ => []

/-- The command taken when a frame of these bits, as SDI carried them, closes (R167, R168). -/
def decodeBits (bits : List Bool) : Instr := decodeFrame (bytesOfBits bits)

/-! ### The encoder -/

/-- A frame: bytes 0 to 3, byte 4 (ignored by the part), the data, and `extra` bytes beyond the needed length. -/
def frameBytes (header data : List Byte) (extra : Nat) : List Byte :=
  header ++ [0] ++ data ++ List.replicate extra 0

/-- The header of a WRITE ENTRY. -/
def writeHeader (table : EntryTable) (index : Half) : List Byte := [0x02, entryTableCode table] ++ halfBytes index

/-- The frame bytes of a read command that closes `extra` bytes beyond its needed length. -/
def encodeRead (command : ReadCommand) (extra : Nat) : List Byte :=
  frameBytes (readHeader command) (List.replicate (readLength command) 0) extra

/-- The part of a schedule table that write data is for. -/
def ScheduleEntryData.part : ScheduleEntryData → SchedulePart
  | .header _ _ => .header
  | .slot _ => .slot
  | .allowance _ _ _ _ _ _ _ _ => .allowance

/-- The bytes of a schedule entry's write data. -/
def ScheduleEntryData.bytes : ScheduleEntryData → List Byte
  | .header r l => [r, l]
  | .slot e => [e]
  | .allowance a0 a1 a2 a3 a4 a5 a6 a7 => [a0, a1, a2, a3, a4, a5, a6, a7]

/-- The bytes of the management frame whose close is this command; none for a command that is no frame's close (R177, Frame). -/
def encodeFrame : Instr → Option (List Byte)
  | .frameCutShort bytes => some bytes
  | .unknown bytes => some bytes
  | .readEntry table index extra => some (encodeRead (.readEntry table index) extra)
  | .popFault extra => some (encodeRead .popFault extra)
  | .readStatus extra => some (encodeRead .readStatus extra)
  | .readCounters argument extra => some (encodeRead (.readCounters argument) extra)
  | .readSnapshot index extra => some (encodeRead (.readSnapshot index) extra)
  | .writeScheduleEntry t index data extra => some (frameBytes (writeHeader (.schedule t data.part) index) data.bytes extra)
  | .writePartitionRecord index s q f l extra => some (frameBytes (writeHeader .partitions index) [s, q, f, l] extra)
  | .writeInitiatorMap index v extra => some (frameBytes (writeHeader .initiatorMap index) [v] extra)
  | .writeRegion index base limit m f extra =>
    some (frameBytes (writeHeader .regions index) (wordBytes base ++ wordBytes limit ++ [m, f]) extra)
  | .writeMonitor index f o c a t extra => some (frameBytes (writeHeader .monitors index) ([f, o, c, a] ++ halfBytes t) extra)
  | .writeTrigger index f c ca a aa n extra =>
    some (frameBytes (writeHeader .triggers index) ([f, c, ca, a, aa] ++ halfBytes n) extra)
  | .writeAttentionMask index m extra => some (frameBytes (writeHeader .attentionMask index) [m] extra)
  | .requestSwitch argument extra => some (frameBytes [0x10, argument, 0, 0] [] extra)
  | .setPartitionState argument index extra => some (frameBytes ([0x11, argument] ++ halfBytes index) [] extra)
  | .flushPartition argument extra => some (frameBytes [0x12, argument, 0, 0] [] extra)
  | .pathRestart extra => some (frameBytes [0x13, 0, 0, 0] [] extra)
  | .acknowledge causes extra => some (frameBytes [0x21, 0, 0, 0] [causes] extra)
  | .clearCounters extra => some (frameBytes [0x32, 0, 0, 0] [] extra)
  | .pinReset => none
  | .rstnReturnsHigh _ => none
  | .slotStart => none
  | .deadlineExpiry => none
  | .readRequest _ _ _ _ => none
  | .writeRequest _ _ _ _ => none
  | .unnamedKindRequest _ _ _ _ => none
  | .cancel _ _ => none
  | .writeDataBeat _ _ _ _ => none
  | .downstreamTake => none
  | .answer _ _ _ => none
  | .arbiterChoice => none
  | .responseDelivery => none
  | .drstnPulseEnd => none
  | .evinEdge _ _ => none
  | .evinFirstLevel _ _ => none
  | .evoutPulseEnd _ => none
  | .heldCauseTaken => none
  | .indexComplete _ => none
  | .shortRstnPulse => none
  | .frameOpenAcrossReset => none

end Sys2Proof
end

