-- ==== Sys2Proof/Machine/State.lean ====
section
/-! DEFINITION. The state of the block as plain data, one structure for each block of 00_scope.md, and its value at reset. -/

namespace Sys2Proof
namespace Machine

/-- What RSTN makes of the part: held low in a full reset (R8), running, or not defined after a low pulse that was too short (R1). -/
inductive ResetLine where
  | heldLow
  | running
  | undefined
  deriving DecidableEq, Repr, Inhabited

/-! ### Schedule unit -/

/-- A slot entry: partition and lend flag are present for OWNED alone (R2, R3). -/
inductive SlotEntry where
  | owned (partition : PartitionId) (lend : Bool)
  | openSlot
  | quiet
  deriving DecidableEq, Repr, Inhabited

/-- A schedule table (R2). -/
structure ScheduleTable where
  roundLength : Nat
  slotLength : Nat
  entries : Vector SlotEntry 32
  allowance : Vector Nat 8
  deriving DecidableEq, Repr, Inhabited

/-- The schedule unit's state (R8). -/
structure ScheduleUnit where
  tableA : ScheduleTable
  tableB : ScheduleTable
  active : TableName
  pendingTarget : Option TableName
  round : Word
  slot : Nat
  slotCount : Word
  remaining : Vector Nat 8
  slackPointer : PartitionId
  deriving DecidableEq, Repr, Inhabited

/-! ### Partition control and queue manager -/

/-- The states of a partition (R27). -/
inductive PartitionState where
  | off
  | run
  | hold
  | closing
  deriving DecidableEq, Repr, Inhabited

/-- A partition record (R23). -/
structure PartitionRecord where
  state : PartitionState
  quota : Nat
  slack : Bool
  responseLimit : Nat
  deriving DecidableEq, Repr, Inhabited

/-- The kind of an accepted request (R36). -/
inductive AccessKind where
  | read
  | write
  deriving DecidableEq, Repr

/-- The answer status of a withdrawn entry (R38). -/
inductive WithdrawalStatus where
  | cancelled
  | aborted
  deriving DecidableEq, Repr

/-- The state of a pool entry in use (R35): WAITING, or ANSWERING with its answer status and whether the answer is released (R38). -/
inductive EntryState where
  | waiting
  | answering (status : WithdrawalStatus) (released : Bool)
  deriving DecidableEq, Repr

/-- A pool entry in use (R36, R38); `dataComplete` is absent for a READ. -/
structure PoolEntry where
  partition : PartitionId
  pair : Pair
  kind : AccessKind
  address : Addr
  beats : Nat
  stamp : Word
  dataComplete : Option Bool
  state : EntryState
  deriving DecidableEq, Repr

/-! ### Intake -/

/-- A region table entry (R67); bit n of the mask admits Pn. -/
structure Region where
  base : Granule
  limit : Granule
  mask : Byte
  readAllow : Bool
  writeAllow : Bool
  enabled : Bool
  deriving DecidableEq, Repr, Inhabited

/-- The statuses the intake answers with (R75). -/
inductive RefusalStatus where
  | retry
  | refused
  | tagErr
  deriving DecidableEq, Repr

/-- The response record in the refusal slot (R75). -/
structure RefusalRecord where
  pair : Pair
  status : RefusalStatus
  deriving DecidableEq, Repr

/-- The intake's state (R65, R67, R70, R75). -/
structure Intake where
  map : Vector (Option PartitionId) 32
  regions : Vector Region 16
  heldPairs : List Pair
  refusal : Option RefusalRecord
  deriving DecidableEq, Repr, Inhabited

/-! ### Write-data unit -/

/-- The states of an open-write record in use (R83). -/
inductive RecordState where
  | receiving
  | complete
  | discarding
  deriving DecidableEq, Repr

/-- An open-write record in use (R83); `owner` names the owning WAITING entry by its pair.
`stored` are the beats the write-data buffer holds for this write, in the order they arrived (R82, R85; log entry 12). -/
structure OpenWrite where
  pair : Pair
  owner : Option Pair
  partition : PartitionId
  declared : Nat
  received : Nat
  state : RecordState
  stored : List Beat
  deriving DecidableEq, Repr

/-- The write-data unit's state (R82, R83). -/
structure WriteData where
  reserved : Nat
  records : List OpenWrite
  deriving DecidableEq, Repr, Inhabited

/-! ### Faults -/

/-- The eleven fault kinds (R159). -/
inductive FaultKind where
  | shape
  | tag
  | unmapped
  | closed
  | range
  | wdata
  | strayData
  | downErr
  | timeout
  | late
  | strayAnswer
  deriving DecidableEq, Repr

/-- A fault record (R159); an absent field is none. -/
structure FaultRecord where
  kind : FaultKind
  partition : Option PartitionId
  pair : Option Pair
  address : Option Addr
  dtag : Option DTag
  round : Word
  slot : Nat
  deriving DecidableEq, Repr

/-! ### Completion unit -/

/-- What an in-flight entry keeps of its transaction (R56, R97). -/
structure Transaction where
  partition : PartitionId
  pair : Pair
  kind : AccessKind
  address : Addr
  beats : Nat
  deadline : Option Word
  deriving DecidableEq, Repr

/-- The answer status of a RETURNING entry (R97). -/
inductive FlightAnswer where
  | okay
  | derr
  | timeout
  deriving DecidableEq, Repr

/-- An in-flight entry (R97). ORPHANED has answer status TIMEOUT, and says whether the response is still owed. -/
inductive FlightEntry where
  | free
  | issued (t : Transaction)
  | returning (t : Transaction) (answer : FlightAnswer) (readBeats : List Beat)
  | orphaned (t : Transaction) (owed : Bool)
  deriving DecidableEq, Repr, Inhabited

/-- The record in the downstream output register (R58). -/
structure IssueRecord where
  dtag : DTag
  kind : AccessKind
  address : Addr
  beats : Nat
  data : Option (List Beat)
  deriving DecidableEq, Repr

/-- The three source classes of the response channel (R106). -/
inductive ResponseClass where
  | refusal
  | withdrawn
  | inFlight
  deriving DecidableEq, Repr, Inhabited

/-- The statuses of an upstream response (R105). -/
inductive ResponseStatus where
  | okay
  | retry
  | refused
  | tagErr
  | aborted
  | cancelled
  | timeout
  | derr
  deriving DecidableEq, Repr

/-- An upstream response record (R105). -/
structure ResponseRecord where
  pair : Pair
  status : ResponseStatus
  data : Option (List Beat)
  deriving DecidableEq, Repr

/-- Where the response on offer came from (R106): the refusal slot, the ANSWERING entry of a pair, or an in-flight entry. -/
inductive ResponseSource where
  | refusal
  | withdrawn (pair : Pair)
  | inFlight (dtag : DTag)
  deriving DecidableEq, Repr

/-- The record on offer upstream with its source (R105). -/
structure Offer where
  source : ResponseSource
  record : ResponseRecord
  deriving DecidableEq, Repr

/-- The completion unit's state (R95, R97, R105, R107); `places` lists the d-tags of the IN-FLIGHT class by place in turn (R109).
`timeouts` are the TIMEOUT faults of the last round start's expiries that have not reached the fault queue yet, in d-tag order (R102, R161; log entry 7). -/
structure Completion where
  table : Vector FlightEntry 16
  output : Option IssueRecord
  places : List DTag
  turn : ResponseClass
  offer : Option Offer
  timeouts : List FaultRecord
  deriving DecidableEq, Repr, Inhabited

/-! ### Path restart control -/

/-- The restart phase (R126). -/
inductive RestartPhase where
  | idle
  | draining
  | releasing
  deriving DecidableEq, Repr, Inhabited

/-- Path restart control's state; `pulse` is the width in CLK of the DRSTN pulse under way (R130; log entry 3). -/
structure RestartControl where
  phase : RestartPhase
  pulse : Option Nat
  deriving DecidableEq, Repr, Inhabited

/-! ### Counters and monitors -/

/-- The ten counters (R134) and two per-round counts (R135) of one partition. -/
structure PartitionCounters where
  accepted : Word
  retried : Word
  refused : Word
  lateCancels : Word
  ownedIssues : Word
  slackIssues : Word
  lostOwned : Word
  completedOk : Word
  completedError : Word
  withdrawn : Word
  lostRound : Nat
  retriedRound : Nat
  deriving DecidableEq, Repr, Inhabited

/-- The six global counters the counters unit holds itself (R136). -/
structure GlobalCounters where
  stalled : Word
  quiet : Word
  idle : Word
  restart : Word
  unmappedRetries : Word
  unmappedLateCancels : Word
  deriving DecidableEq, Repr, Inhabited

/-- All counters of the counters unit (R134 to R136). -/
structure Counters where
  parts : Vector PartitionCounters 8
  global : GlobalCounters
  deriving DecidableEq, Repr, Inhabited

/-- The snapshot record (R139): position, the eight global counters (the first two are the schedule unit's), and every partition's counters. -/
structure Snapshot where
  round : Word
  slot : Nat
  roundNumber : Word
  slotCount : Word
  counters : Counters
  deriving DecidableEq, Repr, Inhabited

/-- A monitor's object (R140). -/
inductive MonitorObject where
  | queue
  | age
  | lostRound
  | retryRound
  | inFlight
  | orphans
  | wbuf
  | faults
  deriving DecidableEq, Repr, Inhabited

/-- A monitor's condition (R140). -/
inductive MonitorCondition where
  | atOrAbove
  | below
  deriving DecidableEq, Repr, Inhabited

/-- A monitor (R140); the partition argument is kept as written (R174). -/
structure Monitor where
  enabled : Bool
  object : MonitorObject
  argument : Byte
  condition : MonitorCondition
  threshold : Half
  last : Bool
  deriving DecidableEq, Repr, Inhabited

/-! ### Causes and attention -/

/-- A cause on its way to the trigger unit, with the argument it carries (R148). -/
inductive Cause where
  | monitor (m : Fin 4)
  | roundStart (table : TableName)
  | switchTaken
  | evinRise (line : EventLine)
  | evinFall (line : EventLine)
  | fault (kind : FaultKind)
  | partitionOff (partition : PartitionId)
  | restartDone
  deriving DecidableEq, Repr

/-- The fault queue, the latched attention causes and the enable mask (R160, R163, R164), bits as R177 gives: 0 FAULT, 1 OVERFLOW,
2 TRIGGER, 3 SNAPSHOT, 4 SWITCH, 5 RESTART, 6 CLOSED. FAULT is a level cause and is never latched. -/
structure Attention where
  queue : List FaultRecord
  latched : BitVec 7
  mask : BitVec 7
  deriving DecidableEq, Repr, Inhabited

/-! ### Trigger unit -/

/-- A trigger's mode (R146); REPEAT is `recurring`. -/
inductive TriggerMode where
  | single
  | recurring
  deriving DecidableEq, Repr, Inhabited

/-- The causes a trigger entry may name (R148). -/
inductive CauseCode where
  | monitor
  | roundStart
  | switchTaken
  | evinRise
  | evinFall
  | fault
  | partitionOff
  | restartDone
  deriving DecidableEq, Repr, Inhabited

/-- The actions a trigger entry may name (R150). -/
inductive ActionCode where
  | requestSwitch
  | setRun
  | setHold
  | setClosing
  | flush
  | evoutSet
  | evoutClear
  | evoutPulse
  | snapshot
  | attention
  | arm
  | disarm
  | clearMonitor
  deriving DecidableEq, Repr, Inhabited

/-- A trigger entry (R146); arguments are kept as written (R177). -/
structure Trigger where
  enabled : Bool
  mode : TriggerMode
  armed : Bool
  cause : CauseCode
  causeArgument : Byte
  action : ActionCode
  actionArgument : Byte
  fireCount : Half
  deriving DecidableEq, Repr, Inhabited

/-- An event output (R157): its level and the width in CLK of the pulse under way, if any (log entry 3). -/
structure EventOutput where
  level : Bool
  pulse : Option Nat
  deriving DecidableEq, Repr, Inhabited

/-- The trigger unit's state. `held` are the causes raised by actions, oldest first (R152).
`raised` are the causes that the blocks have emitted within the present command and the trigger unit has not taken yet (R148): it is empty between commands. -/
structure TriggerUnit where
  entries : Vector Trigger 8
  seen : Vector (Option Bool) 4
  outputs : Vector EventOutput 4
  held : List Cause
  raised : List Cause
  deriving DecidableEq, Repr, Inhabited

/-! ### Management port -/

/-- A command's status (R169). -/
inductive Status where
  | done
  | busy
  | locked
  | range
  | state
  | invalid
  | unknown
  | empty
  deriving DecidableEq, Repr, Inhabited

/-- What a read command captures when its index bytes complete: the values it returns, and its status (R170). -/
structure Capture where
  command : ReadCommand
  data : List Byte
  status : Status
  deriving DecidableEq, Repr

/-- The frame assembler while a read frame is open past its index bytes: the bytes of the open frame and the count of bytes received (R167), and
what was captured when they completed (R170). -/
structure OpenFrame where
  bytes : List Byte
  received : Nat
  captured : Capture
  deriving DecidableEq, Repr

/-- The management port's state (R167, R169). `selnLow` is the level of SELN as the last command leaves it; `acrossReset`: SELN has been low since
RSTN returned high (log entry 17). `sdo` are the bytes the part drove on SDO in the last frame that closed (log entry 14). -/
structure Port where
  lastStatus : Status
  frame : Option OpenFrame
  selnLow : Bool
  acrossReset : Bool
  sdo : List Byte
  deriving DecidableEq, Repr, Inhabited

/-! ### The machine -/

/-- The whole state of the part, the queue of waiting commands (log entry 1) and the counter of the free values (log entries 6, 7, 9 and 14). -/
structure State where
  line : ResetLine
  sched : ScheduleUnit
  parts : Vector PartitionRecord 8
  pool : List PoolEntry
  intake : Intake
  writes : WriteData
  flight : Completion
  restart : RestartControl
  counters : Counters
  snapshot : Snapshot
  monitors : Vector Monitor 4
  triggers : TriggerUnit
  attention : Attention
  port : Port
  free : Nat
  pending : List Instr
  deriving DecidableEq, Repr, Inhabited

/-- The reasons a run can stop with a fault: there are none. The spec's faults are records in the fault queue (R159), which are state, and it
gives every command an effect. Nobody raises one, so this is safe. -/
inductive Fault where
  deriving DecidableEq, Repr

/-- The reasons a step can be refused. -/
inductive Refusal where
  /-- Raised by exec's arm of a command that has no meaning yet, by its mnemonic. No arm does. Safe: a run stops there. -/
  | notModelled (mnemonic : String)
  deriving DecidableEq, Repr

/-! ### Names for what the operations decide -/

/-- A quantity that a monitor may watch: its object with the object's partition (R141). -/
inductive Quantity where
  | queue (p : PartitionId)
  | age (p : PartitionId)
  | lostRound (p : PartitionId)
  | retryRound (p : PartitionId)
  | inFlight
  | orphans
  | wbuf
  | faults
  deriving DecidableEq, Repr

/-- The seven attention causes (R163). -/
inductive AttentionCause where
  | fault
  | overflow
  | trigger
  | snapshot
  | switch
  | restart
  | closed
  deriving DecidableEq, Repr

/-- The six outcomes of a slot (R44). -/
inductive SlotOutcome where
  | restart
  | quiet
  | stalled
  | ownedIssue (p : PartitionId)
  | slackIssue (p : PartitionId)
  | idle
  deriving DecidableEq, Repr

/-- What the slot decision gives: the partition charged a lost slot, if any, and the slot's outcome (R44). -/
structure Decision where
  lost : Option PartitionId
  outcome : SlotOutcome
  deriving DecidableEq, Repr

/-- What the intake decides for a READ, a WRITE or a request of an unnamed kind (R63). -/
inductive Verdict where
  | retry
  | refused (kind : FaultKind)
  | tagErr
  | accepted (p : PartitionId)
  deriving DecidableEq, Repr

/-- A request as the intake takes it (R61); the kind is none when its code names none of READ, WRITE and CANCEL. -/
structure Request where
  kind : Option AccessKind
  pair : Pair
  address : Addr
  beats : Nat
  deriving DecidableEq, Repr

/-- What a frame close gives: the state after the command's effect, and the command's status (R169). -/
structure Taken where
  state : State
  status : Status
  deriving DecidableEq, Repr

/-! ### Reset values -/

/-- Table A after a pin reset (R4). -/
def ScheduleTable.resetA : ScheduleTable :=
  { roundLength := 8, slotLength := 16
    entries := Vector.ofFn fun i => if i.val < 8 then .openSlot else .quiet
    allowance := #v[32, 0, 0, 0, 0, 0, 0, 0] }

/-- Table B after a pin reset (R4). -/
def ScheduleTable.resetB : ScheduleTable :=
  { roundLength := 8, slotLength := 16, entries := Vector.replicate 32 .quiet, allowance := Vector.replicate 8 0 }

/-- The schedule unit while RSTN is low (R8). -/
def ScheduleUnit.reset : ScheduleUnit :=
  { tableA := .resetA, tableB := .resetB, active := .a, pendingTarget := none, round := 0, slot := 0, slotCount := 0
    remaining := #v[32, 0, 0, 0, 0, 0, 0, 0], slackPointer := 0 }

/-- A partition record after a pin reset, but P0's (R23). -/
def PartitionRecord.resetOff : PartitionRecord := { state := .off, quota := 0, slack := false, responseLimit := 0 }

/-- P0's record after a pin reset (R23). -/
def PartitionRecord.resetP0 : PartitionRecord := { state := .run, quota := 64, slack := true, responseLimit := 0 }

/-- Regions 1 to 15 after a pin reset (R67). -/
def Region.resetOff : Region := { base := 0, limit := 0, mask := 0, readAllow := false, writeAllow := false, enabled := false }

/-- Region 0 after a pin reset (R67). -/
def Region.resetAll : Region :=
  { base := 0, limit := 268435455, mask := 0xFF, readAllow := true, writeAllow := true, enabled := true }

/-- The intake after a pin reset (R79). -/
def Intake.reset : Intake :=
  { map := Vector.replicate 32 (some 0), regions := (Vector.replicate 16 Region.resetOff).set 0 Region.resetAll, heldPairs := [], refusal := none }

/-- Every counter and per-round count at 0 (R134, R135, R138). -/
def PartitionCounters.zero : PartitionCounters :=
  { accepted := 0, retried := 0, refused := 0, lateCancels := 0, ownedIssues := 0, slackIssues := 0, lostOwned := 0
    completedOk := 0, completedError := 0, withdrawn := 0, lostRound := 0, retriedRound := 0 }

/-- The six global counters at 0 (R136, R138). -/
def GlobalCounters.zero : GlobalCounters :=
  { stalled := 0, quiet := 0, idle := 0, restart := 0, unmappedRetries := 0, unmappedLateCancels := 0 }

/-- All counters at 0. -/
def Counters.zero : Counters := { parts := Vector.replicate 8 .zero, global := .zero }

/-- A monitor after a pin reset (R140). -/
def Monitor.reset : Monitor :=
  { enabled := false, object := .queue, argument := 0, condition := .atOrAbove, threshold := 0, last := false }

/-- A trigger entry after a pin reset (R146): ROUND START with argument either (2), ATTENTION. DESIGN CHOICE (log entry 15): the action argument is 0. -/
def Trigger.reset : Trigger :=
  { enabled := false, mode := .single, armed := false, cause := .roundStart, causeArgument := 2, action := .attention
    actionArgument := 0, fireCount := 0 }

/-- The part while RSTN is held low in a full reset: every reset value of the chapters (R1). The queue is empty. -/
def State.reset : State :=
  { line := .heldLow
    sched := .reset
    parts := (Vector.replicate 8 PartitionRecord.resetOff).set 0 PartitionRecord.resetP0
    pool := []
    intake := .reset
    writes := { reserved := 0, records := [] }
    flight := { table := Vector.replicate 16 .free, output := none, places := [], turn := .refusal, offer := none, timeouts := [] }
    restart := { phase := .idle, pulse := none }
    counters := .zero
    snapshot := { round := 0, slot := 0, roundNumber := 0, slotCount := 0, counters := .zero }
    monitors := Vector.replicate 4 .reset
    triggers :=
      { entries := Vector.replicate 8 .reset, seen := Vector.replicate 4 none
        outputs := Vector.replicate 4 { level := false, pulse := none }, held := [], raised := [] }
    attention := { queue := [], latched := 0, mask := 0 }
    port := { lastStatus := .done, frame := none, selnLow := false, acrossReset := false, sdo := [] }
    free := 0
    pending := [] }

end Machine

/-- FREE VALUE (log entry 6): "the state of the part is not defined" after a low pulse on RSTN shorter than 16 CLK (R1).
The argument numbers the occasion; nothing is known of the value. -/
opaque Config.undefinedState : Nat → Machine.State

end Sys2Proof
end

