-- ==== Sys2Proof/Machine/Ops.lean ====
section
/-! DEFINITION. The shared operations: reading the state, counting, raising causes, handing values to monitors, recording faults,
withdrawing entries, and closing. -/

namespace Sys2Proof
namespace Machine

/-! ### Numbered lists and tables -/

def allPartitions : List PartitionId := [0, 1, 2, 3, 4, 5, 6, 7]

def allDTags : List DTag := [0, 1, 2, 3, 4, 5, 6, 7, 8, 9, 10, 11, 12, 13, 14, 15]

def allMonitors : List (Fin 4) := [0, 1, 2, 3]

def allTriggers : List (Fin 8) := [0, 1, 2, 3, 4, 5, 6, 7]

/-- The number a byte names among the first `n`: used only where a range check has passed. -/
def byteIndex (n : Nat) [NeZero n] (b : Byte) : Fin n := Fin.ofNat n b.toNat

/-- Replace entry `i` of a table by `f` of it. -/
def modifyAt {α : Type} {n : Nat} (v : Vector α n) (i : Fin n) (f : α → α) : Vector α n := v.set i (f v[i])

/-- Replace every entry of a table by `f` of it. -/
def mapAll {α : Type} {n : Nat} (f : α → α) (v : Vector α n) : Vector α n := Vector.ofFn fun i => f v[i]

/-! ### Reading the state -/

/-- The schedule table of a name. -/
def ScheduleUnit.table (u : ScheduleUnit) : TableName → ScheduleTable
  | .a => u.tableA
  | .b => u.tableB

/-- The active table (R5). -/
def ScheduleUnit.activeTable (u : ScheduleUnit) : ScheduleTable := u.table u.active

/-- The used entry of the active table for the present slot index (R3). -/
def ScheduleUnit.slotEntry (u : ScheduleUnit) : SlotEntry :=
  if h : u.slot < 32 then u.activeTable.entries[u.slot] else .quiet

/-- The entry is WAITING (R35). -/
def PoolEntry.isWaiting (e : PoolEntry) : Bool :=
  match e.state with
  | .waiting => true
  | .answering _ _ => false

/-- The entry is ANSWERING with its answer released (R38, R106). -/
def PoolEntry.isReleased (e : PoolEntry) : Bool :=
  match e.state with
  | .waiting => false
  | .answering _ released => released

/-- The entry stands in partition p's queue (R37). -/
def PoolEntry.inQueue (p : PartitionId) (e : PoolEntry) : Bool := e.isWaiting && e.partition == p

/-- The entry is a WAITING WRITE: it holds a reservation (R82). -/
def PoolEntry.reserves (e : PoolEntry) : Bool := e.isWaiting && e.kind == .write

/-- Partition p's queue, head first (R37). -/
def State.queue (s : State) (p : PartitionId) : List PoolEntry := s.pool.filter (PoolEntry.inQueue p)

/-- The head of partition p's queue, if it is not empty (R37). -/
def State.head (s : State) (p : PartitionId) : Option PoolEntry := s.pool.find? (PoolEntry.inQueue p)

/-- The entries partition p holds, WAITING and ANSWERING together (R24). -/
def State.heldCount (s : State) (p : PartitionId) : Nat := s.pool.countP (fun e => e.partition == p)

/-- The head is ready: a READ, or a WRITE whose data is complete (R40). -/
def PoolEntry.ready (e : PoolEntry) : Bool :=
  match e.kind with
  | .read => true
  | .write => e.dataComplete == some true

/-- Partition p's head age in slots, modulo 2 to the power 32; 0 when its queue is empty (R41). -/
def State.headAge (s : State) (p : PartitionId) : Word :=
  match s.head p with
  | none => 0
  | some e => s.sched.slotCount - e.stamp

/-- The in-flight entry is FREE (R97). -/
def FlightEntry.isFree : FlightEntry → Bool
  | .free => true
  | .issued _ => false
  | .returning _ _ _ => false
  | .orphaned _ _ => false

/-- The in-flight entry is ORPHANED (R97). -/
def FlightEntry.isOrphan : FlightEntry → Bool
  | .free => false
  | .issued _ => false
  | .returning _ _ _ => false
  | .orphaned _ _ => true

/-- The in-flight entry holds its request's pair: it is ISSUED, RETURNING, or ORPHANED with its response owed (R70, R97). -/
def FlightEntry.heldPair : FlightEntry → Option Pair
  | .free => none
  | .issued t => some t.pair
  | .returning t _ _ => some t.pair
  | .orphaned t owed => if owed then some t.pair else none

/-- The in-flight entry is work of partition p that holds closing back: ISSUED or RETURNING (R32). -/
def FlightEntry.outstandingFor (p : PartitionId) : FlightEntry → Bool
  | .free => false
  | .issued t => t.partition == p
  | .returning t _ _ => t.partition == p
  | .orphaned _ _ => false

/-- The in-flight occupancy: entries that are not FREE (R98). -/
def State.occupancy (s : State) : Nat := s.flight.table.toList.countP (fun e => !e.isFree)

/-- The orphan count (R98). -/
def State.orphanCount (s : State) : Nat := s.flight.table.toList.countP FlightEntry.isOrphan

/-- The lowest-numbered FREE in-flight entry, if any (R56). -/
def State.lowestFree (s : State) : Option DTag := allDTags.find? (fun d => s.flight.table[d].isFree)

/-- The open-write record that holds a pair (R81). -/
def State.findRecord (s : State) (pair : Pair) : Option OpenWrite := s.writes.records.find? (fun r => r.pair == pair)

/-- The mapped partition of an initiator, or none (R65). -/
def State.mapped (s : State) (i : Initiator) : Option PartitionId := s.intake.map[i]

/-! ### Monitors -/

/-- What a monitor watches (R141). -/
def Monitor.quantity (m : Monitor) : Quantity :=
  match m.object with
  | .queue => .queue (byteIndex 8 m.argument)
  | .age => .age (byteIndex 8 m.argument)
  | .lostRound => .lostRound (byteIndex 8 m.argument)
  | .retryRound => .retryRound (byteIndex 8 m.argument)
  | .inFlight => .inFlight
  | .orphans => .orphans
  | .wbuf => .wbuf
  | .faults => .faults

/-- The present value of a quantity (R141). -/
def State.quantity (s : State) : Quantity → Nat
  | .queue p => s.heldCount p
  | .age p => (s.headAge p).toNat
  | .lostRound p => s.counters.parts[p].lostRound
  | .retryRound p => s.counters.parts[p].retriedRound
  | .inFlight => s.occupancy
  | .orphans => s.orphanCount
  | .wbuf => s.writes.reserved
  | .faults => s.attention.queue.length

/-- The result of evaluating a value (R142). -/
def Monitor.result (m : Monitor) (value : Nat) : Bool :=
  match m.condition with
  | .atOrAbove => decide (m.threshold.toNat ≤ value)
  | .below => decide (value < m.threshold.toNat)

/-- The monitor is handed values of this quantity: it is enabled and watches it (R141, R142). -/
def Monitor.hears (q : Quantity) (m : Monitor) : Bool := m.enabled && m.quantity == q

/-- The monitor after being handed a value, if it hears the quantity (R142). -/
def Monitor.evaluate (q : Quantity) (value : Nat) (m : Monitor) : Monitor :=
  if m.hears q then { m with last := m.result value } else m

/-- The monitor fires at this value: its result goes from false to true (R142). -/
def Monitor.fires (q : Quantity) (value : Nat) (m : Monitor) : Bool := m.hears q && !m.last && m.result value

/-! ### Raising causes and attention -/

/-- A block emits a cause (R148): it waits for the trigger unit to take it within this command. -/
def State.raise (s : State) (c : Cause) : State := { s with triggers := { s.triggers with raised := s.triggers.raised ++ [c] } }

/-- The bit of an attention cause (R177). -/
def AttentionCause.bit : AttentionCause → BitVec 7
  | .fault => 1
  | .overflow => 2
  | .trigger => 4
  | .snapshot => 8
  | .switch => 16
  | .restart => 32
  | .closed => 64

/-- A latched attention cause becomes pending, or stays so (R163). -/
def State.latch (s : State) (c : AttentionCause) : State :=
  { s with attention := { s.attention with latched := s.attention.latched ||| c.bit } }

/-- The present value of a quantity is handed to every enabled monitor that watches it.
Those that cross into their condition fire, in increasing monitor number (R141, R142). -/
def State.hand (s : State) (q : Quantity) : State :=
  { s with
    monitors := mapAll (Monitor.evaluate q (s.quantity q)) s.monitors
    triggers :=
      { s.triggers with
        raised := s.triggers.raised ++ (allMonitors.filter fun i => s.monitors[i].fires q (s.quantity q)).map Cause.monitor } }

/-- Several quantities are handed out one after the other. -/
def State.handAll (s : State) (qs : List Quantity) : State := qs.foldl State.hand s

/-- The quantities among these whose value is another than it was `before` are handed out, one after the other (R41, R82, R98). -/
def State.handChanged (s before : State) (qs : List Quantity) : State :=
  qs.foldl (fun t q => if t.quantity q = before.quantity q then t else t.hand q) s

/-- Monitor `i` becomes `m` with last result false, and evaluates its object's present value at once if it is enabled (R143, R144). -/
def State.rearmMonitor (s : State) (i : Fin 4) (m : Monitor) : State :=
  let fires := m.enabled && m.result (s.quantity m.quantity)
  let s' := { s with monitors := s.monitors.set i { m with last := fires } }
  if fires then s'.raise (.monitor i) else s'

/-! ### Counters -/

/-- A counter of one partition moves (R134). -/
def State.countPart (s : State) (p : PartitionId) (f : PartitionCounters → PartitionCounters) : State :=
  { s with counters := { s.counters with parts := modifyAt s.counters.parts p f } }

/-- A global counter moves (R136). -/
def State.countGlobal (s : State) (f : GlobalCounters → GlobalCounters) : State :=
  { s with counters := { s.counters with global := f s.counters.global } }

/-- A per-round count rises, and stays at 65535 (R135). -/
def bumpRound (n : Nat) : Nat := if n < Config.perRoundLimit then n + 1 else n

/-- RETRIED and the retried count of the round rise, and the count is handed out (R76, R135). -/
def State.countRetry (s : State) (p : PartitionId) : State :=
  (s.countPart p fun c => { c with retried := c.retried + 1, retriedRound := bumpRound c.retriedRound }).hand (.retryRound p)

/-- LOST OWNED and the lost-owned count of the round rise, and the count is handed out (R49, R135). -/
def State.countLost (s : State) (p : PartitionId) : State :=
  (s.countPart p fun c => { c with lostOwned := c.lostOwned + 1, lostRound := bumpRound c.lostRound }).hand (.lostRound p)

/-- Both per-round counts of every partition become 0 and are handed out, even where they were 0 (R135). -/
def State.clearRoundCounts (s : State) : State :=
  let cleared := mapAll (fun c => { c with lostRound := 0, retriedRound := 0 }) s.counters.parts
  { s with counters := { s.counters with parts := cleared } }.handAll
    (allPartitions.flatMap fun p => [.lostRound p, .retryRound p])

/-! ### Faults -/

/-- The record of a fault with these fields, at the present round and slot (R159). -/
def State.faultRecord (s : State) (kind : FaultKind) (partition : Option PartitionId) (pair : Option Pair) (address : Option Addr)
    (dtag : Option DTag) : FaultRecord :=
  { kind := kind, partition := partition, pair := pair, address := address, dtag := dtag, round := s.sched.round, slot := s.sched.slot }

/-- A fault reaches the fault queue, which stores its record, or drops it and sets OVERFLOW, and emits the FAULT cause either way (R160). -/
def State.storeFault (s : State) (record : FaultRecord) : State :=
  let kept :=
    if s.attention.queue.length < Config.faultRecords then
      { s with attention := { s.attention with queue := s.attention.queue ++ [record] } }.hand .faults
    else s.latch .overflow
  kept.raise (.fault record.kind)

/-- A block raises a fault with these fields, and it reaches the fault queue with the event that raises it (R159, R160). -/
def State.recordFault (s : State) (kind : FaultKind) (partition : Option PartitionId) (pair : Option Pair) (address : Option Addr)
    (dtag : Option DTag) : State :=
  s.storeFault (s.faultRecord kind partition pair address dtag)

/-- The next of the TIMEOUT faults on their way reaches the fault queue (R160, R161); with none on its way nothing happens (log entries 4 and 7). -/
def State.timeoutArrives (s : State) : State :=
  match s.flight.timeouts with
  | [] => s
  | record :: rest => { s with flight := { s.flight with timeouts := rest } }.storeFault record

/-! ### Closing -/

/-- Partition p has work that holds closing back (R32). -/
def State.outstanding (s : State) (p : PartitionId) : Bool :=
  s.pool.any (fun e => e.partition == p) || s.flight.table.toList.any (FlightEntry.outstandingFor p) ||
    s.writes.records.any (fun r => r.state == .discarding && r.partition == p)

/-- Partition p's state becomes `state`. -/
def State.setState (s : State) (p : PartitionId) (state : PartitionState) : State :=
  { s with parts := modifyAt s.parts p fun r => { r with state := state } }

/-- The closing check: a CLOSING partition with no outstanding work becomes OFF, PARTITION OFF is emitted and CLOSED is set (R32). -/
def State.closingCheck (s : State) (p : PartitionId) : State :=
  if s.parts[p].state == .closing && !s.outstanding p then
    ((s.setState p .off).raise (.partitionOff p)).latch .closed
  else s

/-! ### Withdrawal -/

/-- The answer of a WAITING entry withdrawn now would be held back: it is a WRITE whose record has received some beats but not all (R38, R89). -/
def State.holdsBack (s : State) (e : PoolEntry) : Bool :=
  e.kind == .write && s.writes.records.any fun r => r.pair == e.pair && r.state == .receiving && decide (1 ≤ r.received)

/-- What becomes of a withdrawn write's record: none when it is freed (R89). -/
def OpenWrite.afterWithdrawal (r : OpenWrite) : Option OpenWrite :=
  match r.state with
  | .complete => none
  | .receiving => if r.received = 0 then none else some { r with state := .discarding, owner := none, stored := [] }
  | .discarding => some r

/-- The entry, when it is among those withdrawn, becomes ANSWERING with this status (R38). -/
def State.withdrawnEntry (s : State) (chosen : PoolEntry → Bool) (status : WithdrawalStatus) (e : PoolEntry) : PoolEntry :=
  if e.isWaiting && chosen e then { e with state := .answering status (!s.holdsBack e) } else e

/-- The reservation the withdrawn WRITEs give up (R89). -/
def State.withdrawnBeats (s : State) (chosen : PoolEntry → Bool) : Nat :=
  ((s.pool.filter fun e => e.reserves && chosen e).map PoolEntry.beats).sum

/-- The records after the withdrawal of the chosen entries (R89). -/
def State.withdrawnRecords (s : State) (chosen : PoolEntry → Bool) : List OpenWrite :=
  s.writes.records.filterMap fun r =>
    if s.pool.any (fun e => e.reserves && chosen e && e.pair == r.pair) then r.afterWithdrawal else some r

/-- Every WAITING entry that is chosen is withdrawn: it becomes ANSWERING, and for a WRITE the reservation is released and the record freed
or made DISCARDING (R38, R89). The values that changed are handed out by the caller. -/
def State.withdraw (s : State) (chosen : PoolEntry → Bool) (status : WithdrawalStatus) : State :=
  { s with
    pool := s.pool.map (s.withdrawnEntry chosen status)
    writes := { reserved := s.writes.reserved - s.withdrawnBeats chosen, records := s.withdrawnRecords chosen } }

/-- One WAITING entry, named by its pair, is withdrawn, and the head age and reserved count are handed out where they changed (R86, R119). -/
def State.withdrawPair (s : State) (p : PartitionId) (pair : Pair) (status : WithdrawalStatus) : State :=
  (s.withdraw (fun e => e.pair == pair) status).handChanged s [.age p, .wbuf]

/-- Partition p is flushed: every WAITING entry of p is withdrawn with ABORTED; then the head age and reserved count are handed out where they changed (R124). -/
def State.flush (s : State) (p : PartitionId) : State :=
  (s.withdraw (fun e => e.partition == p) .aborted).handChanged s [.age p, .wbuf]

/-- The entry's answer is released when it is the ANSWERING one that holds this pair (R90). -/
def PoolEntry.releaseFor (pair : Pair) (e : PoolEntry) : PoolEntry :=
  match e.state with
  | .waiting => e
  | .answering status released => if e.pair = pair then { e with state := .answering status true } else { e with state := .answering status released }

/-- A DISCARDING record is freed: its held-back answer is released, and the closing check of its partition is made (R90). -/
def State.freeDiscarding (s : State) (r : OpenWrite) : State :=
  { s with
    pool := s.pool.map (PoolEntry.releaseFor r.pair)
    writes := { s.writes with records := s.writes.records.filter fun x => x.pair != r.pair } }.closingCheck r.partition

/-! ### Table switches -/

/-- The table passes validation (R12). Condition 5 holds of every OWNED entry by its type. -/
def ScheduleTable.valid (t : ScheduleTable) : Bool :=
  decide (4 ≤ t.roundLength ∧ t.roundLength ≤ 32) && decide (8 ≤ t.slotLength ∧ t.slotLength ≤ 64) &&
    (t.entries.toList.take t.roundLength).any (fun e => e != .quiet) && t.allowance.toList.all (fun a => decide (a ≤ 32))

/-- A REQUEST SWITCH is validated and, if its table passes, the table becomes the pending target (R11, R13, R14). -/
def State.requestTarget (s : State) (t : TableName) : Taken :=
  if (s.sched.table t).valid then { state := { s with sched := { s.sched with pendingTarget := some t } }, status := .done }
  else { state := s, status := .invalid }

/-! ### Changing a partition's state -/

/-- The state table of R28: the new state when it is taken, or the status it is refused with. -/
def stateChange (present : PartitionState) (quota : Nat) (target : PartitionState) : Except Status PartitionState :=
  match present, target with
  | .off, .run => if 1 ≤ quota then .ok .run else .error .range
  | .off, .hold => if 1 ≤ quota then .ok .hold else .error .range
  | .off, .closing => .ok .off
  | .off, .off => .error .state
  | .run, .run => .ok .run
  | .run, .hold => .ok .hold
  | .run, .closing => .ok .closing
  | .run, .off => .error .state
  | .hold, .run => .ok .run
  | .hold, .hold => .ok .hold
  | .hold, .closing => .ok .closing
  | .hold, .off => .error .state
  | .closing, .run => .ok .run
  | .closing, .hold => .error .state
  | .closing, .closing => .error .state
  | .closing, .off => .error .state

/-- A state change is applied by the checks of R28 from the second on; a partition that enters CLOSING is checked at once (R31, R178). -/
def State.changeState (s : State) (p : PartitionId) (target : PartitionState) : Taken :=
  if s.restart.phase ≠ .idle then { state := s, status := .busy }
  else
    match stateChange s.parts[p].state s.parts[p].quota target with
    | .error status => { state := s, status := status }
    | .ok state =>
      let changed := s.setState p state
      { state := if state = .closing then changed.closingCheck p else changed, status := .done }

/-! ### Snapshot -/

/-- A snapshot is taken, and the SNAPSHOT attention cause set (R139). -/
def State.takeSnapshot (s : State) : State :=
  { s with
    snapshot :=
      { round := s.sched.round, slot := s.sched.slot, roundNumber := s.sched.round, slotCount := s.sched.slotCount
        counters := s.counters } }.latch .snapshot

end Machine
end Sys2Proof
end

