-- ==== Sys2Proof/Machine/Triggers.lean ====
section
/-! DEFINITION. The trigger unit: matching causes, firing entries, applying actions, the held causes, and the frame of every command's effect. -/

namespace Sys2Proof
namespace Machine

/-! ### Matching (R148) -/

/-- The code of a fault kind (R177). -/
def FaultKind.code : FaultKind → Nat
  | .shape => 0
  | .tag => 1
  | .unmapped => 2
  | .closed => 3
  | .range => 4
  | .wdata => 5
  | .strayData => 6
  | .downErr => 7
  | .timeout => 8
  | .late => 9
  | .strayAnswer => 10

/-- The code of a table as a cause argument (R177). -/
def tableCode : TableName → Nat
  | .a => 0
  | .b => 1

/-- The cause code of a cause. -/
def Cause.causeCode : Cause → CauseCode
  | .monitor _ => .monitor
  | .roundStart _ => .roundStart
  | .switchTaken => .switchTaken
  | .evinRise _ => .evinRise
  | .evinFall _ => .evinFall
  | .fault _ => .fault
  | .partitionOff _ => .partitionOff
  | .restartDone => .restartDone

/-- An entry's cause argument agrees with the argument a cause carries (R148). -/
def Cause.agrees (c : Cause) (argument : Nat) : Bool :=
  match c with
  | .monitor m => argument == m.val
  | .roundStart t => argument == tableCode t || argument == 2
  | .switchTaken => true
  | .evinRise k => argument == k.val
  | .evinFall k => argument == k.val
  | .fault kind => argument == kind.code
  | .partitionOff p => argument == p.val
  | .restartDone => true

/-- The entry fires for this cause: it is enabled, armed, and matches it (R149). -/
def Trigger.answers (c : Cause) (t : Trigger) : Bool :=
  t.enabled && t.armed && t.cause == c.causeCode && c.agrees t.causeArgument.toNat

/-! ### Actions (R150) -/

/-- The table a REQUEST SWITCH action names (R177). -/
def actionTable (argument : Byte) : TableName := if argument = 0 then .a else .b

/-- An event output's state is replaced by `f` of it. -/
def State.setOutput (s : State) (k : EventLine) (f : EventOutput → EventOutput) : State :=
  { s with triggers := { s.triggers with outputs := modifyAt s.triggers.outputs k f } }

/-- A trigger entry is replaced by `f` of it. -/
def State.setTrigger (s : State) (i : Fin 8) (f : Trigger → Trigger) : State :=
  { s with triggers := { s.triggers with entries := modifyAt s.triggers.entries i f } }

/-- EVOUT SET and EVOUT CLEAR: the level is set and a pulse under way ends (R157). -/
def State.driveOutput (s : State) (k : EventLine) (level : Bool) : State := s.setOutput k fun _ => { level := level, pulse := none }

/-- EVOUT PULSE: a pulse as wide as the active table's slot length starts, or its width starts again (R158). -/
def State.pulseOutput (s : State) (k : EventLine) : State :=
  s.setOutput k fun o => { o with pulse := some s.sched.activeTable.slotLength }

/-- The FLUSH action flushes when the restart phase is IDLE, and does nothing otherwise (R123). -/
def State.flushAction (s : State) (p : PartitionId) : State := if s.restart.phase = .idle then s.flush p else s

/-- A SET action: what SET PARTITION STATE would do, silent where it would be refused (R29). -/
def State.setAction (s : State) (p : PartitionId) (target : PartitionState) : State := (s.changeState p target).state

/-- ARM arms an enabled entry (R153). -/
def Trigger.arm (t : Trigger) : Trigger := { t with armed := t.armed || t.enabled }

/-- DISARM disarms an entry (R153). -/
def Trigger.disarm (t : Trigger) : Trigger := { t with armed := false }

/-- A fired entry's action is applied by the block that owns the state it changes (R150). -/
def State.applyAction (s : State) (action : ActionCode) (argument : Byte) : State :=
  match action with
  | .requestSwitch => (s.requestTarget (actionTable argument)).state
  | .setRun => s.setAction (byteIndex 8 argument) .run
  | .setHold => s.setAction (byteIndex 8 argument) .hold
  | .setClosing => s.setAction (byteIndex 8 argument) .closing
  | .flush => s.flushAction (byteIndex 8 argument)
  | .evoutSet => s.driveOutput (byteIndex 4 argument) true
  | .evoutClear => s.driveOutput (byteIndex 4 argument) false
  | .evoutPulse => s.pulseOutput (byteIndex 4 argument)
  | .snapshot => s.takeSnapshot
  | .attention => s.latch .trigger
  | .arm => s.setTrigger (byteIndex 8 argument) Trigger.arm
  | .disarm => s.setTrigger (byteIndex 8 argument) Trigger.disarm
  | .clearMonitor => s.rearmMonitor (byteIndex 4 argument) s.monitors[byteIndex 4 argument]

/-! ### The order of causes -/

/-- The MONITOR causes of one event go in increasing monitor number (R142); the other causes keep the order they were raised in. -/
def orderRaised (raised : List Cause) : List Cause :=
  raised.filter (fun c => c.causeCode != .monitor) ++ allMonitors.flatMap fun m => raised.filter fun c => c == .monitor m

/-- The blocks that emit causes (R148). -/
inductive CauseBlock where
  | countersUnit
  | scheduleUnit
  | triggerUnit
  | faultQueue
  | partitionControl
  | restartControl
  deriving DecidableEq, Repr

/-- The block that emits a cause (R148). -/
def Cause.block : Cause → CauseBlock
  | .monitor _ => .countersUnit
  | .roundStart _ => .scheduleUnit
  | .switchTaken => .scheduleUnit
  | .evinRise _ => .triggerUnit
  | .evinFall _ => .triggerUnit
  | .fault _ => .faultQueue
  | .partitionOff _ => .partitionControl
  | .restartDone => .restartControl

/-- A cause takes its place before those already placed: behind none of its own block, and behind another block's as the free value has it. -/
def placeCause (occasion position : Nat) (c : Cause) : List Cause → List Cause
  | [] => [c]
  | d :: ds =>
    if d.block = c.block then c :: d :: ds
    else if Config.laterCauseFirst occasion position ds.length then d :: placeCause occasion position c ds
    else c :: d :: ds

/-- The order in which the trigger unit takes the causes of one event: causes of one block in their own order, those of different blocks
in either order (R148, R160; log entry 9). -/
def takenOrder (occasion : Nat) : List Cause → List Cause
  | [] => []
  | c :: cs => placeCause occasion cs.length c (takenOrder occasion cs)

/-! ### Firing (R149) -/

/-- The causes raised since are held, after those held already, until a later CLK period (R152). -/
def State.holdRaised (s : State) : State :=
  { s with triggers := { s.triggers with held := s.triggers.held ++ orderRaised s.triggers.raised, raised := [] } }

/-- A firing entry: its fire count rises, SINGLE is disarmed (R149). -/
def Trigger.fire (t : Trigger) : Trigger :=
  { t with fireCount := t.fireCount + 1, armed := match t.mode with | .single => false | .recurring => t.armed }

/-- Entry `i` fires: its count rises, it is disarmed if SINGLE, and its action is applied; what the action raises is held (R149, R152). -/
def State.fireEntry (s : State) (i : Fin 8) : State :=
  ((s.setTrigger i Trigger.fire).applyAction s.triggers.entries[i].action s.triggers.entries[i].actionArgument).holdRaised

/-- The entries that fire for a cause, as the entries stand when it is taken, in increasing number (R149). -/
def State.firing (s : State) (c : Cause) : List (Fin 8) := allTriggers.filter fun i => s.triggers.entries[i].answers c

/-- The trigger unit takes a cause: every entry found fires (R149). -/
def State.takeCause (s : State) (c : Cause) : State := (s.firing c).foldl State.fireEntry s

/-- The causes a command's effect has raised are taken, one after the other (R148, R149). A command that raised none is over.
What the actions of a delivery raise is held, and is taken after every cause of this event: whether R152 would have it before the event's remaining
causes of other blocks is the model's choice (log entry 25). -/
def State.settle (s : State) : State :=
  if s.triggers.raised = [] then s
  else
    (takenOrder s.free (orderRaised s.triggers.raised)).foldl State.takeCause
      { s with triggers := { s.triggers with raised := [] }, free := s.free + 1 }

/-- The TIMEOUT faults still on their way reach the fault queue, one after the other, each an event of its own whose causes are taken (R148, R161). It is done
before a later event of the completion unit, which is behind them in the queue (R161; log entry 7). -/
def State.settleTimeouts (s : State) : State := s.flight.timeouts.foldl (fun t _ => t.timeoutArrives.settle) s

/-! ### The frame of every command -/

/-- The state after a step taken while the state is not defined, or by the pulse that makes it so (R1; log entry 6). -/
def State.madeUndefined (s : State) : State :=
  { Config.undefinedState s.free with line := .undefined, free := s.free + 1, pending := s.pending }

/-- A command's effect, made while the part runs. While RSTN is held low no command is taken (R8, R61, R81, R96, R146, R167).
While the state is not defined its effect is not defined either (R1). -/
def live (s : State) (effect : State → State) : Host.Outcome State Fault Refusal :=
  match s.line with
  | .running => .next (effect s)
  | .heldLow => .next s
  | .undefined => .next s.madeUndefined

/-- A command's effect, followed by the trigger unit's taking of the causes it raised. -/
def event (s : State) (effect : State → State) : Host.Outcome State Fault Refusal := live s fun s => (effect s).settle

end Machine
end Sys2Proof
end

