-- ==== Sys2Proof/Machine/Restart.lean ====
section
/-! DEFINITION. Path restart control: the phases, their ends, and the DRSTN pulse (chapter 7, R126 to R131). -/

namespace Sys2Proof
namespace Machine

/-- The end-of-DRAINING check: no ISSUED or RETURNING entry, no owed TIMEOUT, no refusal and no released answer (R129). -/
def State.drained (s : State) : Bool :=
  s.flight.table.toList.all (fun e => e.heldPair.isNone) && s.intake.refusal.isNone && s.pool.all fun e => !e.isReleased

/-- An ORPHANED entry becomes FREE (R130). -/
def FlightEntry.freeOrphan : FlightEntry → FlightEntry
  | .orphaned _ _ => .free
  | .free => .free
  | .issued t => .issued t
  | .returning t a d => .returning t a d

/-- Entry to RELEASING: DRSTN goes low for 64 CLK, orphans are freed and the output register emptied, and every DISCARDING record is freed with its answer released (R130). -/
def State.enterReleasing (s : State) : State :=
  let emptied :=
    { s with
      restart := { phase := .releasing, pulse := some Config.drstnPulseClk }
      flight := { s.flight with table := mapAll FlightEntry.freeOrphan s.flight.table, output := none } }.handAll [.inFlight, .orphans]
  (emptied.writes.records.filter fun r => r.state == .discarding).foldl State.freeDiscarding emptied

/-- The end-of-RELEASING check: no pulse, no ANSWERING entry, no refusal (R131). -/
def State.released (s : State) : Bool :=
  s.restart.pulse.isNone && s.pool.all PoolEntry.isWaiting && s.intake.refusal.isNone

/-- The phase returns to IDLE, RESTART DONE is emitted and RESTART is set (R131). -/
def State.finishRestart (s : State) : State :=
  (({ s with restart := { s.restart with phase := .idle } }).raise .restartDone).latch .restart

/-- DRAINING ends when its check finds nothing left (R129). -/
def State.drainCheck (s : State) : State := if s.restart.phase == .draining && s.drained then s.enterReleasing else s

/-- RELEASING ends when its check finds nothing left (R131). -/
def State.releaseCheck (s : State) : State := if s.restart.phase == .releasing && s.released then s.finishRestart else s

/-- The check path restart control makes at each delivery, by its phase (R129, R131). -/
def State.restartCheck (s : State) : State :=
  match s.restart.phase with
  | .idle => s
  | .draining => s.drainCheck
  | .releasing => s.releaseCheck

/-- A path restart begins: DRAINING, every partition flushed from P0 to P7, and the check made at once (R127). -/
def State.beginRestart (s : State) : State :=
  (allPartitions.foldl State.flush { s with restart := { s.restart with phase := .draining } }).drainCheck

/-- The DRSTN pulse under way ends, and the end-of-RELEASING check is made (R131). -/
def State.endPulse (s : State) : State :=
  if s.restart.pulse.isSome then { s with restart := { s.restart with pulse := none } }.releaseCheck else s

/-- DRSTN_PULSE_END (R131). Without a pulse there is no end of one (log entry 4). -/
def execDrstnPulseEnd (s : State) : Host.Outcome State Fault Refusal := event s State.endPulse

end Machine
end Sys2Proof
end

