-- ==== Sys2Proof/Machine/Flags.lean ====
section
/-! DEFINITION. The flags and pins that follow the state: the attention pending set, ATTNN, DRSTN and the event output lines. -/

namespace Sys2Proof
namespace Machine

/-- The attention pending set: FAULT follows the fault queue, the others are latched (R163). -/
def Attention.pendingSet (a : Attention) : BitVec 7 :=
  a.latched ||| (if a.queue.isEmpty then 0 else AttentionCause.fault.bit)

/-- A cause is in the pending set. -/
def Attention.isPending (a : Attention) (c : AttentionCause) : Bool := a.pendingSet &&& c.bit != 0

/-- ATTNN is driven low: at least one cause is both pending and enabled (R164). -/
def State.attnnLow (s : State) : Bool := s.attention.pendingSet &&& s.attention.mask != 0

/-- DRSTN is driven low: while RSTN is low, and through its pulse (R117, R130, R133). -/
def State.drstnLow (s : State) : Bool := s.line == .heldLow || s.restart.pulse.isSome

/-- An EVOUT line is driven at its level while not pulsing, at the opposite while pulsing, and low while RSTN is low (R157). -/
def State.evoutHigh (s : State) (k : EventLine) : Bool :=
  s.line != .heldLow && (s.triggers.outputs[k].level != s.triggers.outputs[k].pulse.isSome)

/-- SDO is driven: not while RSTN is low, and not while SELN is high (R167). -/
def State.sdoDriven (s : State) : Bool := s.line != .heldLow && s.port.selnLow

/-- The intake is ready to take a request: RSTN is high and the refusal slot is empty (R61, R79). -/
def State.intakeReady (s : State) : Bool := s.line != .heldLow && s.intake.refusal.isNone

/-- The latched causes left by an ACKNOWLEDGE of this set: each one it names is cleared (R165). -/
def Attention.acknowledge (a : Attention) (causes : Byte) : Attention :=
  { a with latched := a.latched &&& ~~~(causes.extractLsb' 0 7) }

end Machine
end Sys2Proof
end

