-- ==== Sys2Proof/Machine/Operands.lean ====
section
/-! DEFINITION. The operand forms of the management port: the codes, the fields of entries as they are written, and the bytes of everything
a read command returns (R172, R173, R177). -/

namespace Sys2Proof
namespace Machine

/-! ### Codes (R177) -/

/-- The code of a status. -/
def Status.code : Status → Byte
  | .done => 0
  | .busy => 1
  | .locked => 2
  | .range => 3
  | .state => 4
  | .invalid => 5
  | .unknown => 6
  | .empty => 7

/-- The code of a partition state. -/
def PartitionState.code : PartitionState → BitVec 2
  | .off => 0
  | .run => 1
  | .hold => 2
  | .closing => 3

/-- The partition state a target code names, if any. -/
def partitionStateOf (code : Byte) : Option PartitionState :=
  if code = 0 then some .off
  else if code = 1 then some .run
  else if code = 2 then some .hold
  else if code = 3 then some .closing
  else none

/-- The table an argument names, if any (R13). -/
def tableOf (code : Byte) : Option TableName :=
  if code = 0 then some .a
  else if code = 1 then some .b
  else none

/-- The code of a restart phase. -/
def RestartPhase.code : RestartPhase → Byte
  | .idle => 0
  | .draining => 1
  | .releasing => 2

/-- The code of a monitor object. -/
def MonitorObject.code : MonitorObject → Byte
  | .queue => 0
  | .age => 1
  | .lostRound => 2
  | .retryRound => 3
  | .inFlight => 4
  | .orphans => 5
  | .wbuf => 6
  | .faults => 7

/-- The monitor object a code names, if any. -/
def monitorObjectOf (code : Byte) : Option MonitorObject :=
  [.queue, .age, .lostRound, .retryRound, .inFlight, .orphans, .wbuf, .faults].find? fun o => MonitorObject.code o == code

/-- The object takes a partition argument (R140). -/
def MonitorObject.takesPartition : MonitorObject → Bool
  | .queue => true
  | .age => true
  | .lostRound => true
  | .retryRound => true
  | .inFlight => false
  | .orphans => false
  | .wbuf => false
  | .faults => false

/-- The code of a monitor condition. -/
def MonitorCondition.code : MonitorCondition → Byte
  | .atOrAbove => 0
  | .below => 1

/-- The monitor condition a code names, if any. -/
def monitorConditionOf (code : Byte) : Option MonitorCondition :=
  [.atOrAbove, .below].find? fun c => MonitorCondition.code c == code

/-- The code of a trigger cause. -/
def CauseCode.code : CauseCode → Byte
  | .monitor => 0
  | .roundStart => 1
  | .switchTaken => 2
  | .evinRise => 3
  | .evinFall => 4
  | .fault => 5
  | .partitionOff => 6
  | .restartDone => 7

/-- The trigger cause a code names, if any. -/
def causeCodeOf (code : Byte) : Option CauseCode :=
  [.monitor, .roundStart, .switchTaken, .evinRise, .evinFall, .fault, .partitionOff, .restartDone].find? fun c => CauseCode.code c == code

/-- The cause argument is in the range its cause allows; a cause that takes none ignores it (R148, R177). -/
def CauseCode.allows (c : CauseCode) (argument : Byte) : Bool :=
  match c with
  | .monitor => decide (argument.toNat ≤ 3)
  | .roundStart => decide (argument.toNat ≤ 2)
  | .switchTaken => true
  | .evinRise => decide (argument.toNat ≤ 3)
  | .evinFall => decide (argument.toNat ≤ 3)
  | .fault => decide (argument.toNat ≤ 10)
  | .partitionOff => decide (argument.toNat ≤ 7)
  | .restartDone => true

/-- The code of a trigger action. -/
def ActionCode.code : ActionCode → Byte
  | .requestSwitch => 0
  | .setRun => 1
  | .setHold => 2
  | .setClosing => 3
  | .flush => 4
  | .evoutSet => 5
  | .evoutClear => 6
  | .evoutPulse => 7
  | .snapshot => 8
  | .attention => 9
  | .arm => 10
  | .disarm => 11
  | .clearMonitor => 12

/-- The trigger action a code names, if any. -/
def actionCodeOf (code : Byte) : Option ActionCode :=
  [.requestSwitch, .setRun, .setHold, .setClosing, .flush, .evoutSet, .evoutClear, .evoutPulse, .snapshot, .attention, .arm, .disarm,
    .clearMonitor].find? fun a => ActionCode.code a == code

/-- The action argument is in the range its action allows; an action that takes none ignores it (R150, R177). -/
def ActionCode.allows (a : ActionCode) (argument : Byte) : Bool :=
  match a with
  | .requestSwitch => decide (argument.toNat ≤ 1)
  | .setRun => decide (argument.toNat ≤ 7)
  | .setHold => decide (argument.toNat ≤ 7)
  | .setClosing => decide (argument.toNat ≤ 7)
  | .flush => decide (argument.toNat ≤ 7)
  | .evoutSet => decide (argument.toNat ≤ 3)
  | .evoutClear => decide (argument.toNat ≤ 3)
  | .evoutPulse => decide (argument.toNat ≤ 3)
  | .snapshot => true
  | .attention => true
  | .arm => decide (argument.toNat ≤ 7)
  | .disarm => decide (argument.toNat ≤ 7)
  | .clearMonitor => decide (argument.toNat ≤ 3)

/-! ### Entries -/

/-- The entry an index names among `n`, if any. -/
def indexIn (n : Nat) (index : Half) : Option (Fin n) := if h : index.toNat < n then some ⟨index.toNat, h⟩ else none

/-- A byte with one flag at bit `k`. -/
def flagByte (k : Nat) (flag : Bool) : Byte := if flag then 1 <<< k else 0

/-- A slot entry as it is written: a kind code of 3 or an OWNED entry's partition above 7 names none (R19, R177). -/
def slotEntryOf (b : Byte) : Option SlotEntry :=
  if b.extractLsb' 6 2 = 0 then some .quiet
  else if b.extractLsb' 6 2 = 1 then some .openSlot
  else if b.extractLsb' 6 2 = 2 then
    if h : (b.extractLsb' 0 4).toNat < 8 then some (.owned ⟨(b.extractLsb' 0 4).toNat, h⟩ (b.getLsb 4)) else none
  else none

/-- The byte of a slot entry. -/
def SlotEntry.byte : SlotEntry → Byte
  | .quiet => 0x00
  | .openSlot => 0x40
  | .owned p lend => 0x80 ||| flagByte 4 lend ||| BitVec.ofNat 8 p.val

/-- An initiator map value: 0 to 7 a partition, FFh for NONE (R69, R177). The outer option is none for any other value. -/
def mapValueOf (b : Byte) : Option (Option PartitionId) :=
  if h : b.toNat < 8 then some (some ⟨b.toNat, h⟩)
  else if b = 0xFF then some none
  else none

/-- The byte of an initiator map entry. -/
def mapByte : Option PartitionId → Byte
  | none => 0xFF
  | some p => BitVec.ofNat 8 p.val

/-- The bytes of a partition record. -/
def PartitionRecord.bytes (r : PartitionRecord) : List Byte :=
  [r.state.code.setWidth 8, BitVec.ofNat 8 r.quota, flagByte 0 r.slack, BitVec.ofNat 8 r.responseLimit]

/-- The bytes of a region entry. -/
def Region.bytes (g : Region) : List Byte :=
  wordBytes (g.base.setWidth 32) ++ wordBytes (g.limit.setWidth 32) ++
    [g.mask, flagByte 0 g.readAllow ||| flagByte 1 g.writeAllow ||| flagByte 2 g.enabled]

/-- The bytes of a monitor entry. -/
def Monitor.bytes (m : Monitor) : List Byte :=
  [flagByte 0 m.enabled ||| flagByte 7 m.last, m.object.code, m.condition.code, m.argument] ++ halfBytes m.threshold

/-- The mode bit of a trigger entry. -/
def TriggerMode.isRepeat : TriggerMode → Bool
  | .single => false
  | .recurring => true

/-- The mode a trigger entry's mode bit names. -/
def triggerModeOf (bit : Bool) : TriggerMode := if bit then .recurring else .single

/-- The bytes of a trigger entry. -/
def Trigger.bytes (t : Trigger) : List Byte :=
  [flagByte 0 t.enabled ||| flagByte 1 t.mode.isRepeat ||| flagByte 7 t.armed, t.cause.code, t.causeArgument, t.action.code,
    t.actionArgument] ++ halfBytes t.fireCount

/-- The bytes of a schedule table's header, slot entry or allowance vector at an index; none when the index names no entry (R21). -/
def ScheduleTable.bytes (t : ScheduleTable) (part : SchedulePart) (index : Half) : Option (List Byte) :=
  match part with
  | .header => (indexIn 1 index).map fun _ => [BitVec.ofNat 8 t.roundLength, BitVec.ofNat 8 t.slotLength]
  | .slot => (indexIn 32 index).map fun i => [t.entries[i].byte]
  | .allowance => (indexIn 1 index).map fun _ => t.allowance.toList.map (BitVec.ofNat 8)

/-- The bytes of a table's entry; none when the index names no entry of the table (R170, R177). -/
def State.entryBytes (s : State) (table : EntryTable) (index : Half) : Option (List Byte) :=
  match table with
  | .schedule t part => (s.sched.table t).bytes part index
  | .partitions => (indexIn 8 index).map fun i => s.parts[i].bytes
  | .initiatorMap => (indexIn 32 index).map fun i => [mapByte s.intake.map[i]]
  | .regions => (indexIn 16 index).map fun i => s.intake.regions[i].bytes
  | .monitors => (indexIn 4 index).map fun i => s.monitors[i].bytes
  | .triggers => (indexIn 8 index).map fun i => s.triggers.entries[i].bytes
  | .attentionMask => (indexIn 1 index).map fun _ => [s.attention.mask.setWidth 8]

/-! ### The fault record and the status (R177) -/

/-- The bytes of a fault record: an absent field has its present bit at 0 and reads as 00h. -/
def FaultRecord.bytes (r : FaultRecord) : List Byte :=
  [BitVec.ofNat 8 r.kind.code,
    flagByte 0 r.partition.isSome ||| flagByte 1 r.pair.isSome ||| flagByte 2 r.address.isSome ||| flagByte 3 r.dtag.isSome,
    match r.partition with | none => 0 | some p => BitVec.ofNat 8 p.val,
    match r.pair with | none => 0 | some q => BitVec.ofNat 8 q.initiator.val,
    match r.pair with | none => 0 | some q => BitVec.ofNat 8 q.tag.val] ++
  (match r.address with | none => [0, 0, 0, 0, 0] | some a => [byteAt 4 a, byteAt 3 a, byteAt 2 a, byteAt 1 a, byteAt 0 a]) ++
  [match r.dtag with | none => 0 | some d => BitVec.ofNat 8 d.val] ++ wordBytes r.round ++ [BitVec.ofNat 8 r.slot]

/-- The code of a pending target: 0 NONE, 1 A, 2 B. -/
def targetCode : Option TableName → Byte
  | none => 0
  | some .a => 1
  | some .b => 2

/-- The 16 bytes of READ STATUS (R172). -/
def State.statusBytes (s : State) : List Byte :=
  [BitVec.ofNat 8 (tableCode s.sched.active), targetCode s.sched.pendingTarget] ++ wordBytes s.sched.round ++
    [BitVec.ofNat 8 s.sched.slot, s.restart.phase.code,
      s.parts[7].state.code ++ s.parts[6].state.code ++ s.parts[5].state.code ++ s.parts[4].state.code,
      s.parts[3].state.code ++ s.parts[2].state.code ++ s.parts[1].state.code ++ s.parts[0].state.code,
      BitVec.ofNat 8 s.occupancy, BitVec.ofNat 8 s.orphanCount] ++ halfBytes (BitVec.ofNat 16 s.writes.reserved) ++
    [s.attention.pendingSet.setWidth 8, flagByte 0 (s.attention.isPending .overflow)]

/-! ### Counters and snapshot (R173) -/

/-- The 44 bytes of a partition's counters: the ten counters in the order of R134, then the two per-round counts. -/
def PartitionCounters.bytes (c : PartitionCounters) : List Byte :=
  [c.accepted, c.retried, c.refused, c.lateCancels, c.ownedIssues, c.slackIssues, c.lostOwned, c.completedOk, c.completedError,
    c.withdrawn].flatMap wordBytes ++ halfBytes (BitVec.ofNat 16 c.lostRound) ++ halfBytes (BitVec.ofNat 16 c.retriedRound)

/-- The 32 bytes of the eight global counters in the order of R136. -/
def globalBytes (round slotCount : Word) (g : GlobalCounters) : List Byte :=
  [round, slotCount, g.stalled, g.quiet, g.idle, g.restart, g.unmappedRetries, g.unmappedLateCancels].flatMap wordBytes

/-- What READ COUNTERS returns; none when the argument names neither a partition nor the global set (R137). -/
def State.countersBytes (s : State) (argument : Byte) : Option (List Byte) :=
  if h : argument.toNat < 8 then some (s.counters.parts[argument.toNat].bytes)
  else if argument = 8 then some (globalBytes s.sched.round s.sched.slotCount s.counters.global)
  else none

/-- Part `index` of the snapshot record: position and global counters, or the counters of partition `index` − 1; none above 8. -/
def Snapshot.bytes (n : Snapshot) (index : Half) : Option (List Byte) :=
  if index = 0 then some (wordBytes n.round ++ [BitVec.ofNat 8 n.slot] ++ globalBytes n.roundNumber n.slotCount n.counters.global)
  else if h : index.toNat - 1 < 8 then some (n.counters.parts[index.toNat - 1].bytes)
  else none

/-! ### Captures (R170) -/

/-- The bytes a read command returns from this state; none when it is refused (R170). -/
def State.readData (s : State) : ReadCommand → Option (List Byte)
  | .readEntry table index => s.entryBytes table index
  | .popFault => s.attention.queue.head?.map FaultRecord.bytes
  | .readStatus => some s.statusBytes
  | .readCounters argument => s.countersBytes argument
  | .readSnapshot index => s.snapshot.bytes index

/-- The status a refused read command gives (R170). -/
def readRefusal : ReadCommand → Status
  | .readEntry _ _ => .range
  | .popFault => .empty
  | .readStatus => .range
  | .readCounters _ => .range
  | .readSnapshot _ => .range

/-- What the part captures when the index bytes complete: the values returned with DONE, or 00h in every byte with the refusal (R170). -/
def State.capture (s : State) (command : ReadCommand) : Capture :=
  match s.readData command with
  | some data => { command := command, data := data, status := .done }
  | none => { command := command, data := List.replicate (readLength command) 0, status := readRefusal command }

end Machine
end Sys2Proof
end

