-- ==== Sys2Proof/Machine/Port.lean ====
section
/-! DEFINITION. The management port: frames that close, are cut short or name nothing, captures at index completion, and the read commands
(chapter 11). -/

namespace Sys2Proof
namespace Machine

/-! ### What stands on SDO (R167 to R169) -/

/-- The first `total` bytes the part drives in a frame: 00h in bytes 0 to 3, the last status in byte 4, a free value in each place of write
data (log entry 14), the read data, and 00h beyond the needed length. -/
def State.sdoBytes (s : State) (written : Nat) (data : List Byte) (total : Nat) : List Byte :=
  ([0, 0, 0, 0, s.port.lastStatus.code] ++ ((List.range written).map fun k => Config.unstatedSdo (s.free + k)) ++ data ++
    List.replicate total 0).take total

/-- A frame may be open and may be taken: the port is not waiting out a frame that was open across a reset (R167). -/
def Port.listens (p : Port) : Bool := !p.acrossReset

/-- A frame of another command may come: the port listens, and no read frame is open, since frames do not overlap (R171; log entry 13). -/
def Port.idle (p : Port) : Bool := p.listens && p.frame.isNone

/-! ### Frames that close (R168, R169, R174, R175) -/

/-- A frame with `written` bytes of write data and `extra` bytes beyond is taken: its command's effect is made, and its status becomes the last status. -/
def State.takeFrame (s : State) (written extra : Nat) (effect : State → Taken) : State :=
  if s.port.idle then
    let taken := effect s
    { taken.state with
      port := { taken.state.port with lastStatus := taken.status, selnLow := false, sdo := s.sdoBytes written [] (5 + written + extra) }
      free := taken.state.free + written }
  else s

/-- The read frame that closes: the open one, when its index bytes name this command; or one whose index bytes complete now (R170; log entry 13). -/
def State.closingFrame (s : State) (command : ReadCommand) : Option Capture :=
  if s.port.listens then
    match s.port.frame with
    | none => some (s.capture command)
    | some f => if f.captured.command = command then some f.captured else none
  else none

/-- A read frame closes at its needed length or more: the captured status becomes the last status, and the assembler is empty (R167, R169, R170). -/
def State.finishRead (s : State) (f : Capture) (extra : Nat) : State :=
  { s with
    port :=
      { s.port with
        lastStatus := f.status, frame := none, selnLow := false, sdo := s.sdoBytes 0 f.data (5 + f.data.length + extra) } }

/-- A read command that changes nothing but the port is taken (R169, R170). -/
def State.takeRead (s : State) (command : ReadCommand) (extra : Nat) : State :=
  match s.closingFrame command with
  | none => s
  | some f => s.finishRead f extra

/-- The oldest fault record is removed, and the occupancy handed out (R162). -/
def State.popRecord (s : State) : State :=
  { s with attention := { s.attention with queue := s.attention.queue.tail } }.hand .faults

/-- POP FAULT is taken: the record shifted out is removed, and none if there was none when the index bytes completed (R171; log entry 19). -/
def State.takePop (s : State) (extra : Nat) : State :=
  match s.closingFrame .popFault with
  | none => s
  | some f => if f.status = .done then (s.finishRead f extra).popRecord else s.finishRead f extra

/-- Byte 3 of a read frame ends: the assembler holds its four bytes, and the data and status are captured (R167, R170).
Bytes that name no read command complete the index bytes of no read frame (log entry 4). -/
def State.openRead (s : State) (bytes : IndexBytes) : State :=
  match bytes.command with
  | none => s
  | some command =>
    if s.port.idle then
      { s with
        port :=
          { s.port with
            frame := some { bytes := bytes.list, received := 4, captured := s.capture command }, selnLow := true } }
    else s

/-! ### Frames cut short (R168) -/

/-- The command that a frame's bytes name from byte 0 to 3, when it is a read command. -/
def readNamed : List Byte → Option ReadCommand
  | code :: argument :: hi :: lo :: _ => readCommandOf code argument (halfOf hi lo)
  | _ => none

/-- What the part drove in a frame that was cut short: read data where the bytes name a read command, else the places of write data. -/
def State.sdoCut (s : State) (bytes : List Byte) : List Byte :=
  match s.port.frame with
  | some f => s.sdoBytes 0 f.captured.data bytes.length
  | none =>
    match readNamed bytes with
    | some command => s.sdoBytes 0 (s.capture command).data bytes.length
    | none => s.sdoBytes (bytes.length - 5) [] bytes.length

/-- How many free values a frame cut short uses up: one for each place of write data (log entry 14). -/
def writtenCut (bytes : List Byte) : Nat :=
  match readNamed bytes with
  | some _ => 0
  | none => bytes.length - 5

/-- The frame that is cut short can be the one open: no read frame is open, or the bytes are those it holds and what came after (log entry 13). -/
def Port.mayCut (p : Port) (bytes : List Byte) : Bool :=
  p.listens && (match p.frame with | none => true | some f => f.bytes.isPrefixOf bytes)

/-- A frame that is cut short is ignored: only the frame assembler empties (R168). -/
def State.cutShort (s : State) (bytes : List Byte) : State :=
  if s.port.mayCut bytes then
    { s with port := { s.port with frame := none, selnLow := false, sdo := s.sdoCut bytes }, free := s.free + writtenCut bytes }
  else s

/-! ### The commands -/

/-- SELN goes high for the frame that was open across a reset (R167). With no such frame there is no end of one (log entry 4). -/
def State.endAcrossReset (s : State) : State :=
  if s.port.acrossReset then { s with port := { s.port with selnLow := false, acrossReset := false } } else s

/-- INDEX_COMPLETE (R167, R170). -/
def execIndexComplete (bytes : IndexBytes) (s : State) : Host.Outcome State Fault Refusal := live s fun s => s.openRead bytes

/-- FRAME_CUT_SHORT (R168). -/
def execFrameCutShort (bytes : List Byte) (s : State) : Host.Outcome State Fault Refusal := live s fun s => s.cutShort bytes

/-- UNKNOWN (R168): needed length 5, nothing changes, and the last status becomes UNKNOWN. -/
def execUnknown (bytes : List Byte) (s : State) : Host.Outcome State Fault Refusal :=
  live s fun s => s.takeFrame 0 (bytes.length - 5) fun s => { state := s, status := .unknown }

/-- READ_ENTRY (R170). -/
def execReadEntry (table : EntryTable) (index : Half) (extra : Nat) (s : State) : Host.Outcome State Fault Refusal :=
  live s fun s => s.takeRead (.readEntry table index) extra

/-- POP_FAULT (R162, R171). -/
def execPopFault (extra : Nat) (s : State) : Host.Outcome State Fault Refusal := event s fun s => s.takePop extra

/-- READ_STATUS (R172). -/
def execReadStatus (extra : Nat) (s : State) : Host.Outcome State Fault Refusal := live s fun s => s.takeRead .readStatus extra

/-- READ_COUNTERS (R173). -/
def execReadCounters (argument : Byte) (extra : Nat) (s : State) : Host.Outcome State Fault Refusal :=
  live s fun s => s.takeRead (.readCounters argument) extra

/-- READ_SNAPSHOT (R173). -/
def execReadSnapshot (index : Half) (extra : Nat) (s : State) : Host.Outcome State Fault Refusal :=
  live s fun s => s.takeRead (.readSnapshot index) extra

/-- FRAME_OPEN_ACROSS_RESET (R167): SELN goes high, no command is taken, and the next fall of SELN starts a frame. -/
def execFrameOpenAcrossReset (s : State) : Host.Outcome State Fault Refusal := live s State.endAcrossReset

end Machine
end Sys2Proof
end

