-- ==== Sys2Proof/Machine/Tables.lean ====
section
/-! DEFINITION. WRITE ENTRY on each table: the checks in their order and the replacement (R19, R25, R69, R140, R143, R147, R164). -/

namespace Sys2Proof
namespace Machine

/-- A refused command leaves the state as it was (R169). -/
def State.refuseWith (s : State) (status : Status) : Taken := { state := s, status := status }

/-! ### Schedule tables (R18, R19) -/

/-- The table is active or the pending target: no management write changes it (R18). -/
def ScheduleUnit.isLocked (u : ScheduleUnit) (t : TableName) : Bool := u.active == t || u.pendingTarget == some t

/-- A schedule table is replaced. -/
def ScheduleUnit.setTable (u : ScheduleUnit) (t : TableName) (table : ScheduleTable) : ScheduleUnit :=
  match t with
  | .a => { u with tableA := table }
  | .b => { u with tableB := table }

/-- How many entries a part of a schedule table has (R19). -/
def partEntries : SchedulePart → Nat
  | .header => 1
  | .slot => 32
  | .allowance => 1

/-- The table with one entry replaced; none when a field is out of its range (R19 check 3). -/
def ScheduleTable.replace (t : ScheduleTable) (index : Half) : ScheduleEntryData → Option ScheduleTable
  | .header r l =>
    if (4 ≤ r.toNat ∧ r.toNat ≤ 32) ∧ 8 ≤ l.toNat ∧ l.toNat ≤ 64 then some { t with roundLength := r.toNat, slotLength := l.toNat } else none
  | .slot e => (slotEntryOf e).map fun x => { t with entries := t.entries.set (Fin.ofNat 32 index.toNat) x }
  | .allowance a0 a1 a2 a3 a4 a5 a6 a7 =>
    if [a0, a1, a2, a3, a4, a5, a6, a7].all (fun a => decide (a.toNat ≤ 32)) then
      some { t with allowance := #v[a0.toNat, a1.toNat, a2.toNat, a3.toNat, a4.toNat, a5.toNat, a6.toNat, a7.toNat] }
    else none

/-- WRITE ENTRY on a schedule table (R19). -/
def State.writeSchedule (s : State) (t : TableName) (index : Half) (data : ScheduleEntryData) : Taken :=
  if partEntries data.part ≤ index.toNat then s.refuseWith .range
  else if s.sched.isLocked t then s.refuseWith .locked
  else
    match (s.sched.table t).replace index data with
    | none => s.refuseWith .range
    | some table => { state := { s with sched := s.sched.setTable t table }, status := .done }

/-! ### Partition records (R25) -/

/-- The sum of all eight quotas (R24). -/
def quotaSum (parts : Vector PartitionRecord 8) : Nat := (parts.toList.map PartitionRecord.quota).sum

/-- The record with its three written fields (R25). -/
def PartitionRecord.rewrite (r : PartitionRecord) (quota : Nat) (slack : Bool) (limit : Nat) : PartitionRecord :=
  { r with quota := quota, slack := slack, responseLimit := limit }

/-- WRITE ENTRY on the partition records (R25). -/
def State.writePartition (s : State) (index : Half) (quota slack limit : Byte) : Taken :=
  match indexIn 8 index with
  | none => s.refuseWith .range
  | some p =>
    let parts := modifyAt s.parts p fun r => r.rewrite quota.toNat (slack.getLsb 0) limit.toNat
    if 64 < quota.toNat ∨ 15 < limit.toNat then s.refuseWith .range
    else if quota.toNat ≠ s.parts[p].quota ∧ s.parts[p].state ≠ .off then s.refuseWith .state
    else if Config.poolSize < quotaSum parts then s.refuseWith .range
    else { state := { s with parts := parts }, status := .done }

/-! ### The initiator map and the regions (R69) -/

/-- WRITE ENTRY on the initiator map (R69). -/
def State.writeMap (s : State) (index : Half) (value : Byte) : Taken :=
  match indexIn 32 index, mapValueOf value with
  | some i, some v => { state := { s with intake := { s.intake with map := s.intake.map.set i v } }, status := .done }
  | some _, none => s.refuseWith .range
  | none, _ => s.refuseWith .range

/-- WRITE ENTRY on the region table (R69); the top four bits of base and limit are unused (R177). -/
def State.writeRegionEntry (s : State) (index : Half) (base limit : Word) (mask flags : Byte) : Taken :=
  match indexIn 16 index with
  | none => s.refuseWith .range
  | some i =>
    let region : Region :=
      { base := base.setWidth 28, limit := limit.setWidth 28, mask := mask, readAllow := flags.getLsb 0, writeAllow := flags.getLsb 1
        enabled := flags.getLsb 2 }
    if region.limit < region.base then s.refuseWith .range
    else { state := { s with intake := { s.intake with regions := s.intake.regions.set i region } }, status := .done }

/-! ### Monitors and triggers (R140, R143, R147) -/

/-- WRITE ENTRY on the monitors: the five fields are replaced, and the monitor is rearmed (R140, R143). -/
def State.writeMonitorEntry (s : State) (index : Half) (flags object condition argument : Byte) (threshold : Half) : Taken :=
  match indexIn 4 index with
  | none => s.refuseWith .range
  | some i =>
    match monitorObjectOf object, monitorConditionOf condition with
    | some o, some c =>
      if o.takesPartition && decide (7 < argument.toNat) then s.refuseWith .range
      else
        { state :=
            s.rearmMonitor i
              { enabled := flags.getLsb 0, object := o, argument := argument, condition := c, threshold := threshold, last := false }
          status := .done }
    | some _, none => s.refuseWith .range
    | none, _ => s.refuseWith .range

/-- WRITE ENTRY on the triggers: the six fields are replaced, armed takes the written value of enabled, and the fire count stays (R147). -/
def State.writeTriggerEntry (s : State) (index : Half) (flags cause causeArgument action actionArgument : Byte) : Taken :=
  match indexIn 8 index with
  | none => s.refuseWith .range
  | some i =>
    match causeCodeOf cause, actionCodeOf action with
    | some c, some a =>
      if c.allows causeArgument && a.allows actionArgument then
        { state :=
            s.setTrigger i fun t =>
              { enabled := flags.getLsb 0, mode := triggerModeOf (flags.getLsb 1), armed := flags.getLsb 0, cause := c
                causeArgument := causeArgument, action := a, actionArgument := actionArgument, fireCount := t.fireCount }
          status := .done }
      else s.refuseWith .range
    | some _, none => s.refuseWith .range
    | none, _ => s.refuseWith .range

/-! ### The attention mask (R164) -/

/-- WRITE ENTRY on the attention mask (R164). -/
def State.writeMask (s : State) (index : Half) (mask : Byte) : Taken :=
  if index = 0 then
    { state := { s with attention := { s.attention with mask := mask.extractLsb' 0 7 } }, status := .done }
  else s.refuseWith .range

/-! ### The commands -/

/-- WRITE_SCHEDULE_ENTRY (R19). -/
def execWriteScheduleEntry (table : TableName) (index : Half) (data : ScheduleEntryData) (extra : Nat) (s : State) :
    Host.Outcome State Fault Refusal :=
  live s fun s => s.takeFrame data.bytes.length extra fun s => s.writeSchedule table index data

/-- WRITE_PARTITION_RECORD (R25). What the frame carries in the state's place is ignored. -/
def execWritePartitionRecord (index : Half) (_state quota slack limit : Byte) (extra : Nat) (s : State) : Host.Outcome State Fault Refusal :=
  live s fun s => s.takeFrame 4 extra fun s => s.writePartition index quota slack limit

/-- WRITE_INITIATOR_MAP (R69). -/
def execWriteInitiatorMap (index : Half) (value : Byte) (extra : Nat) (s : State) : Host.Outcome State Fault Refusal :=
  live s fun s => s.takeFrame 1 extra fun s => s.writeMap index value

/-- WRITE_REGION (R69). -/
def execWriteRegion (index : Half) (base limit : Word) (mask flags : Byte) (extra : Nat) (s : State) : Host.Outcome State Fault Refusal :=
  live s fun s => s.takeFrame 10 extra fun s => s.writeRegionEntry index base limit mask flags

/-- WRITE_MONITOR (R140, R143). -/
def execWriteMonitor (index : Half) (flags object condition argument : Byte) (threshold : Half) (extra : Nat) (s : State) :
    Host.Outcome State Fault Refusal :=
  event s fun s => s.takeFrame 6 extra fun s => s.writeMonitorEntry index flags object condition argument threshold

/-- WRITE_TRIGGER (R147). What the frame carries in the fire count's place is ignored. -/
def execWriteTrigger (index : Half) (flags cause causeArgument action actionArgument : Byte) (_fireCount : Half) (extra : Nat) (s : State) :
    Host.Outcome State Fault Refusal :=
  live s fun s => s.takeFrame 7 extra fun s => s.writeTriggerEntry index flags cause causeArgument action actionArgument

/-- WRITE_ATTENTION_MASK (R164). -/
def execWriteAttentionMask (index : Half) (mask : Byte) (extra : Nat) (s : State) : Host.Outcome State Fault Refusal :=
  live s fun s => s.takeFrame 1 extra fun s => s.writeMask index mask

end Machine
end Sys2Proof
end

