-- ==== Sys2Proof/Machine/Commands.lean ====
section
/-! DEFINITION. The commands of the management port that ask for operations (R175). -/

namespace Sys2Proof
namespace Machine

/-- REQUEST SWITCH by the checks of R13. -/
def State.switchCommand (s : State) (argument : Byte) : Taken :=
  match tableOf argument with
  | none => s.refuseWith .range
  | some t => s.requestTarget t

/-- SET PARTITION STATE by the checks of R28; the target is the index's low byte (R175). -/
def State.setStateCommand (s : State) (argument target : Byte) : Taken :=
  match partitionStateOf target with
  | none => s.refuseWith .range
  | some state => if h : argument.toNat < 8 then s.changeState ⟨argument.toNat, h⟩ state else s.refuseWith .range

/-- FLUSH PARTITION by the checks of R122. -/
def State.flushCommand (s : State) (argument : Byte) : Taken :=
  if h : argument.toNat < 8 then
    if s.restart.phase ≠ .idle then s.refuseWith .busy else { state := s.flush ⟨argument.toNat, h⟩, status := .done }
  else s.refuseWith .range

/-- PATH RESTART: taken in IDLE, BUSY otherwise (R126). -/
def State.restartCommand (s : State) : Taken :=
  if s.restart.phase ≠ .idle then s.refuseWith .busy else { state := s.beginRestart, status := .done }

/-- ACKNOWLEDGE clears the latched causes it names (R165). -/
def State.acknowledgeCommand (s : State) (causes : Byte) : Taken :=
  { state := { s with attention := s.attention.acknowledge causes }, status := .done }

/-- CLEAR COUNTERS: every counter and per-round count becomes 0, and the per-round counts are handed out (R138). -/
def State.clearCommand (s : State) : Taken :=
  { state :=
      { s with counters := Counters.zero }.handAll (allPartitions.flatMap fun p => [.lostRound p, .retryRound p])
    status := .done }

/-! ### The commands -/

/-- REQUEST_SWITCH (R13). -/
def execRequestSwitch (argument : Byte) (extra : Nat) (s : State) : Host.Outcome State Fault Refusal :=
  live s fun s => s.takeFrame 0 extra fun s => s.switchCommand argument

/-- SET_PARTITION_STATE (R28, R175). -/
def execSetPartitionState (argument : Byte) (index : Half) (extra : Nat) (s : State) : Host.Outcome State Fault Refusal :=
  event s fun s => s.takeFrame 0 extra fun s => s.setStateCommand argument (index.extractLsb' 0 8)

/-- FLUSH_PARTITION (R122). -/
def execFlushPartition (argument : Byte) (extra : Nat) (s : State) : Host.Outcome State Fault Refusal :=
  event s fun s => s.takeFrame 0 extra fun s => s.flushCommand argument

/-- PATH_RESTART (R126, R127). -/
def execPathRestart (extra : Nat) (s : State) : Host.Outcome State Fault Refusal :=
  event s fun s => s.takeFrame 0 extra State.restartCommand

/-- ACKNOWLEDGE (R165). -/
def execAcknowledge (causes : Byte) (extra : Nat) (s : State) : Host.Outcome State Fault Refusal :=
  live s fun s => s.takeFrame 1 extra fun s => s.acknowledgeCommand causes

/-- CLEAR_COUNTERS (R138). -/
def execClearCounters (extra : Nat) (s : State) : Host.Outcome State Fault Refusal :=
  event s fun s => s.takeFrame 0 extra State.clearCommand

end Machine
end Sys2Proof
end

