-- ==== Sys2Proof/Machine/EventLines.lean ====
section
/-! DEFINITION. The event inputs, the end of an output's pulse, and the taking of held causes (chapter 9). -/

namespace Sys2Proof
namespace Machine

/-- The seen level of an event input becomes `high` (R155). -/
def State.setSeen (s : State) (k : EventLine) (high : Bool) : State :=
  { s with triggers := { s.triggers with seen := s.triggers.seen.set k (some high) } }

/-- An edge is seen: the seen level changes and EVIN RISE or EVIN FALL is raised. A line with no seen level, or one at its seen level, has no edge (R155, R156; log entry 4). -/
def State.seeEdge (s : State) (k : EventLine) (high : Bool) : State :=
  if s.triggers.seen[k] = some (!high) then (s.setSeen k high).raise (if high then .evinRise k else .evinFall k) else s

/-- The first level after a reset becomes the seen level, with no cause (R156). -/
def State.seeFirst (s : State) (k : EventLine) (high : Bool) : State :=
  if s.triggers.seen[k] = none then s.setSeen k high else s

/-- A pulse's width has run out: the line returns to its level (R158). -/
def State.endOutputPulse (s : State) (k : EventLine) : State := s.setOutput k fun o => { o with pulse := none }

/-- The oldest held cause is taken as a cause of its own (R152). -/
def State.takeHeld (s : State) : State :=
  match s.triggers.held with
  | [] => s
  | c :: cs => { s with triggers := { s.triggers with held := cs } }.takeCause c

/-- EVIN_EDGE (R155). -/
def execEvinEdge (line : EventLine) (high : Bool) (s : State) : Host.Outcome State Fault Refusal := event s fun s => s.seeEdge line high

/-- EVIN_FIRST_LEVEL (R156). -/
def execEvinFirstLevel (line : EventLine) (high : Bool) (s : State) : Host.Outcome State Fault Refusal := live s fun s => s.seeFirst line high

/-- EVOUT_PULSE_END (R158). -/
def execEvoutPulseEnd (line : EventLine) (s : State) : Host.Outcome State Fault Refusal := live s fun s => s.endOutputPulse line

/-- HELD_CAUSE_TAKEN (R152). With none held there is none to take (log entry 4). -/
def execHeldCauseTaken (s : State) : Host.Outcome State Fault Refusal := live s State.takeHeld

end Machine
end Sys2Proof
end

