-- ==== Sys2Proof/Machine/Intake.lean ====
section
/-! DEFINITION. The intake: the checks of a request in their order, acceptance, the refusal slot, and the routing of cancels (chapter 4, R118 to R120). -/

namespace Sys2Proof
namespace Machine

/-- The granule number of an address (00_scope.md, Conventions). -/
def granuleOf (address : Nat) : Nat := address / 4096

/-- The request is well-shaped: a named kind, 1 to 16 beats, an address that is a multiple of 16, and bytes within one granule (R62). -/
def Request.wellShaped (r : Request) : Bool :=
  r.kind.isSome && decide (1 ≤ r.beats ∧ r.beats ≤ 16) && decide (r.address.toNat % 16 = 0) &&
    decide (granuleOf r.address.toNat = granuleOf (r.address.toNat + r.beats * 16 - 1))

/-- The region allows this kind of access (R68). -/
def Region.allows (g : Region) : AccessKind → Bool
  | .read => g.readAllow
  | .write => g.writeAllow

/-- The region passes for the request of partition p (R68). -/
def Region.passes (g : Region) (r : Request) (p : PartitionId) : Bool :=
  g.enabled && decide (g.base.toNat ≤ granuleOf r.address.toNat ∧ granuleOf r.address.toNat ≤ g.limit.toNat) && g.mask.getLsb p &&
    r.kind.any g.allows

/-- At least one region passes (R68). -/
def State.regionPasses (s : State) (r : Request) (p : PartitionId) : Bool := s.intake.regions.toList.any fun g => g.passes r p

/-- The write-data unit has room for a WRITE: buffer room for its beats and a free record (R73). -/
def State.writeRoom (s : State) (beats : Nat) : Bool :=
  decide (beats ≤ Config.bufferBeats - s.writes.reserved) && decide (s.writes.records.length < Config.openWriteRecords)

/-- Checks 7 to 10, for a partition in RUN or HOLD (R63). -/
def State.admits (s : State) (r : Request) (p : PartitionId) : Verdict :=
  if !s.regionPasses r p then .refused .range
  else if s.heldCount p = s.parts[p].quota then .retry
  else if r.kind == some .write && !s.writeRoom r.beats then .retry
  else .accepted p

/-- The intake's decision: the first of the checks 1 to 10 whose condition holds (R63). -/
def State.verdict (s : State) (r : Request) : Verdict :=
  if s.restart.phase ≠ .idle then .retry
  else if !r.wellShaped then .refused .shape
  else if s.intake.heldPairs.contains r.pair then .tagErr
  else
    match s.mapped r.pair.initiator with
    | none => .refused .unmapped
    | some p =>
      match s.parts[p].state with
      | .off => .refused .closed
      | .closing => .retry
      | .run => s.admits r p
      | .hold => s.admits r p

/-- A response is placed in the refusal slot (R75). -/
def State.refuse (s : State) (pair : Pair) (status : RefusalStatus) : State :=
  { s with intake := { s.intake with refusal := some { pair := pair, status := status } } }

/-- REFUSED of the mapped partition rises, when the map gives one (R76). -/
def State.countRefused (s : State) (mapped : Option PartitionId) : State :=
  match mapped with
  | none => s
  | some p => s.countPart p fun c => { c with refused := c.refused + 1 }

/-- A RETRY is counted for the mapped partition, or among the unmapped retries (R76). -/
def State.countRetried (s : State) (mapped : Option PartitionId) : State :=
  match mapped with
  | none => s.countGlobal fun c => { c with unmappedRetries := c.unmappedRetries + 1 }
  | some p => s.countRetry p

/-- The address a fault of the intake carries: present for SHAPE and RANGE (R77). -/
def faultAddress (kind : FaultKind) (address : Addr) : Option Addr :=
  match kind with
  | .shape => some address
  | .range => some address
  | .tag => none
  | .unmapped => none
  | .closed => none
  | .wdata => none
  | .strayData => none
  | .downErr => none
  | .timeout => none
  | .late => none
  | .strayAnswer => none

/-- The queue entry an accepted request becomes (R36, R74). -/
def State.newEntry (s : State) (r : Request) (p : PartitionId) (kind : AccessKind) : PoolEntry :=
  { partition := p, pair := r.pair, kind := kind, address := r.address, beats := r.beats, stamp := s.sched.slotCount
    dataComplete := match kind with | .read => none | .write => some false
    state := .waiting }

/-- An accepted WRITE reserves its beats and opens a record (R84). -/
def State.openWrite (s : State) (r : Request) (p : PartitionId) : State :=
  { s with
    writes :=
      { reserved := s.writes.reserved + r.beats
        records := s.writes.records ++
          [{ pair := r.pair, owner := some r.pair, partition := p, declared := r.beats, received := 0, state := .receiving, stored := [] }] } }

/-- The entry joins the tail of its queue, its pair is held, and the held count and a new head's age are handed out (R74). -/
def State.enqueue (s : State) (r : Request) (p : PartitionId) (kind : AccessKind) : State :=
  { s with
    pool := s.pool ++ [s.newEntry r p kind]
    intake := { s.intake with heldPairs := s.intake.heldPairs ++ [r.pair] } }.handAll
    (.queue p :: if (s.head p).isNone then [.age p] else [])

/-- The request is accepted into partition p (R74). -/
def State.accept (s : State) (r : Request) (p : PartitionId) : State :=
  let counted := s.countPart p fun c => { c with accepted := c.accepted + 1 }
  match r.kind with
  | some .write => ((counted.enqueue r p .write).openWrite r p).hand .wbuf
  | some .read => counted.enqueue r p .read
  | none => counted.enqueue r p .read

/-- The verdict is carried out (R63, R75 to R77). -/
def State.applyVerdict (s : State) (r : Request) (verdict : Verdict) : State :=
  match verdict with
  | .retry => (s.countRetried (s.mapped r.pair.initiator)).refuse r.pair .retry
  | .tagErr =>
    ((s.countRefused (s.mapped r.pair.initiator)).refuse r.pair .tagErr).recordFault .tag (s.mapped r.pair.initiator) (some r.pair) none none
  | .refused kind =>
    ((s.countRefused (s.mapped r.pair.initiator)).refuse r.pair .refused).recordFault kind (s.mapped r.pair.initiator) (some r.pair)
      (faultAddress kind r.address) none
  | .accepted p => s.accept r p

/-- A request is taken from the request channel and handled whole. While the refusal slot holds a response it is not taken, and waits with its sender (R61, R75; log entry 4). -/
def State.takeRequest (s : State) (r : Request) : State := if s.intakeReady then s.applyVerdict r (s.verdict r) else s

/-- A late or unknown cancel is counted (R120). -/
def State.countLate (s : State) (mapped : Option PartitionId) : State :=
  match mapped with
  | none => s.countGlobal fun c => { c with unmappedLateCancels := c.unmappedLateCancels + 1 }
  | some p => s.countPart p fun c => { c with lateCancels := c.lateCancels + 1 }

/-- The WAITING entry that holds a pair, if any (R118). -/
def State.waitingFor (s : State) (pair : Pair) : Option PoolEntry := s.pool.find? fun e => e.isWaiting && e.pair == pair

/-- A CANCEL withdraws the WAITING entry that holds its pair, and is otherwise counted as late (R118 to R120). It is taken under the same readiness as a request (R78). -/
def State.takeCancel (s : State) (pair : Pair) : State :=
  if s.intakeReady then
    match s.waitingFor pair with
    | some e => s.withdrawPair e.partition pair .cancelled
    | none => s.countLate (s.mapped pair.initiator)
  else s

/-- READ_REQUEST (R63). -/
def execReadRequest (initiator : Initiator) (tag : Tag) (address : Addr) (beats : Nat) (s : State) : Host.Outcome State Fault Refusal :=
  event s fun s => s.takeRequest { kind := some .read, pair := { initiator := initiator, tag := tag }, address := address, beats := beats }

/-- WRITE_REQUEST (R63). -/
def execWriteRequest (initiator : Initiator) (tag : Tag) (address : Addr) (beats : Nat) (s : State) : Host.Outcome State Fault Refusal :=
  event s fun s => s.takeRequest { kind := some .write, pair := { initiator := initiator, tag := tag }, address := address, beats := beats }

/-- UNNAMED_KIND_REQUEST (R62, R63). -/
def execUnnamedKindRequest (initiator : Initiator) (tag : Tag) (address : Addr) (beats : Nat) (s : State) :
    Host.Outcome State Fault Refusal :=
  event s fun s => s.takeRequest { kind := none, pair := { initiator := initiator, tag := tag }, address := address, beats := beats }

/-- CANCEL (R78, R118). -/
def execCancel (initiator : Initiator) (tag : Tag) (s : State) : Host.Outcome State Fault Refusal :=
  event s fun s => s.takeCancel { initiator := initiator, tag := tag }

end Machine
end Sys2Proof
end

