-- ==== Sys2Proof/Machine/Slots.lean ====
section
/-! DEFINITION. Slot starts: the timing of slots and rounds (chapter 1), the slot decision and the act of issue (chapter 3), and the
expiry of deadlines at a round start (R102). -/

namespace Sys2Proof
namespace Machine

/-! ### Deadlines (R102) -/

/-- The entry is ISSUED and its deadline round is the present round: its round start has come (R102). -/
def FlightEntry.isDue (round : Word) : FlightEntry → Bool
  | .free => false
  | .issued t => t.deadline == some round
  | .returning _ _ _ => false
  | .orphaned _ _ => false

/-- The in-flight entries that are due, in increasing d-tag order (R102). -/
def State.dueEntries (s : State) : List DTag := allDTags.filter fun d => s.flight.table[d].isDue s.sched.round

/-- An in-flight entry is replaced. -/
def State.setFlight (s : State) (d : DTag) (e : FlightEntry) : State :=
  { s with flight := { s.flight with table := s.flight.table.set d e } }

/-- The entry takes the last place in the in-flight turn (R109). -/
def State.lastPlace (s : State) (d : DTag) : State := { s with flight := { s.flight with places := s.flight.places ++ [d] } }

/-- A TIMEOUT fault is raised, behind those already on their way to the fault queue (R161; log entry 7). -/
def State.sendTimeout (s : State) (record : FaultRecord) : State :=
  { s with flight := { s.flight with timeouts := s.flight.timeouts ++ [record] } }

/-- An ISSUED entry expires: ORPHANED with its TIMEOUT owed, the last place in turn, a TIMEOUT fault of the present position on its way, the orphan count, and
the closing check (R102, R115, R159). -/
def State.expire (s : State) (d : DTag) : State :=
  match s.flight.table[d] with
  | .issued t =>
    ((((s.setFlight d (.orphaned t true)).lastPlace d).sendTimeout
      (s.faultRecord .timeout (some t.partition) (some t.pair) (some t.address) (some d))).hand .orphans).closingCheck t.partition
  | .free => s
  | .returning _ _ _ => s
  | .orphaned _ _ => s

/-- Each entry that is due expires, in increasing d-tag order (R102); with none due nothing happens (log entries 4 and 7). -/
def State.expireDue (s : State) : State := s.dueEntries.foldl State.expire s

/-- Of the TIMEOUT faults on their way, here `waiting`, so many of the first as the free value has it reach the fault queue within this event (log entry 7). -/
def arriveAtOnce (occasion : Nat) : List FaultRecord → State → State
  | [], s => s
  | _ :: rest, s => if Config.timeoutAtOnce occasion rest.length then arriveAtOnce occasion rest s.timeoutArrives else s

/-- Some of the TIMEOUT faults a slot start finds on their way reach the fault queue with it, in turn (R161). -/
def State.someTimeoutsArrive (s : State) : State := arriveAtOnce s.free s.flight.timeouts s

/-! ### The round start (R15, R16) -/

/-- The pending target is examined: a switch to the inactive table is made, and a target that names the active table is cleared (R15 step 2). -/
def State.examineTarget (s : State) : State :=
  match s.sched.pendingTarget with
  | none => s
  | some t =>
    if t = s.sched.active then { s with sched := { s.sched with pendingTarget := none } }
    else ({ s with sched := { s.sched with active := t, pendingTarget := none } }.raise .switchTaken).latch .switch

/-- Every partition's remaining allowance is loaded from the active table (R9, R15 step 3). -/
def State.reloadAllowances (s : State) : State :=
  { s with sched := { s.sched with remaining := s.sched.activeTable.allowance } }

/-- The ROUND START cause carries the table active after the switch decision, and comes before SWITCH TAKEN (R16, R148). -/
def State.raiseRoundStart (s : State) (activeAfter : TableName) : State := s.raise (.roundStart activeAfter)

/-- The table that is active after a round start's switch decision (R15). -/
def ScheduleUnit.activeNext (u : ScheduleUnit) : TableName := u.pendingTarget.getD u.active

/-- What the schedule unit and the counters unit do at a round start (R15, R16, R135). -/
def State.switchRound (s : State) : State :=
  ((s.raiseRoundStart s.sched.activeNext).examineTarget.reloadAllowances).clearRoundCounts

/-- The work of a round start, before the decision of slot 0: each entry whose deadline round it begins expires with it (R15, R16, R102, R135). Its TIMEOUT
faults are then on their way to the fault queue (R161; log entry 7). The causes of every block are of this one event, and the trigger unit takes those of
different blocks in either order (R148; log entries 8 and 9). -/
def State.roundStart (s : State) : State := s.switchRound.expireDue

/-- The slot just ended was the last of its round (R5). -/
def ScheduleUnit.lastSlot (u : ScheduleUnit) : Bool := decide (u.activeTable.roundLength ≤ u.slot + 1)

/-- The slot index and the global slot count advance, and the round number at the end of a round (R5, R6, R7). -/
def ScheduleUnit.advance (u : ScheduleUnit) : ScheduleUnit :=
  if u.lastSlot then { u with slot := 0, round := u.round + 1, slotCount := u.slotCount + 1 }
  else { u with slot := u.slot + 1, slotCount := u.slotCount + 1 }

/-- The head age of every partition whose queue is not empty is handed out at a slot start (R16, R41). -/
def State.handAges (s : State) : State :=
  s.handAll ((allPartitions.filter fun p => (s.head p).isSome).map Quantity.age)

/-! ### The slot decision (R44) -/

/-- The partition's state allows issue (R27, R48). -/
def PartitionState.mayIssue : PartitionState → Bool
  | .off => false
  | .run => true
  | .hold => false
  | .closing => true

/-- Partition p is eligible: its state allows issue and its head is ready (R48). -/
def State.eligible (s : State) (p : PartitionId) : Bool :=
  s.parts[p].state.mayIssue && (match s.head p with | none => false | some e => e.ready)

/-- Partition p qualifies in slack arbitration (R52). -/
def State.qualifies (s : State) (p : PartitionId) : Bool :=
  s.eligible p && s.parts[p].slack && decide (1 ≤ s.sched.remaining[p])

/-- The search order of slack arbitration: from the pointer on, wrapping from P7 to P0 (R52). -/
def searchOrder (pointer : PartitionId) : List PartitionId := allPartitions.map fun k => pointer + k

/-- The winner of slack arbitration, if any (R52). -/
def State.slackWinner (s : State) : Option PartitionId := (searchOrder s.sched.slackPointer).find? s.qualifies

/-- The outcome of a slot that goes to slack arbitration (R44 steps 6 and 6a). -/
def State.slackOutcome (s : State) : SlotOutcome :=
  match s.slackWinner with
  | some w => .slackIssue w
  | none => .idle

/-- The path is full: no in-flight entry is FREE, or the output register holds a transaction (R47). -/
def State.stalled (s : State) : Bool := s.lowestFree.isNone || s.flight.output.isSome

/-- The slot decision (R44). -/
def State.decideSlot (s : State) : Decision :=
  if s.restart.phase ≠ .idle then { lost := none, outcome := .restart }
  else
    match s.sched.slotEntry with
    | .quiet => { lost := none, outcome := .quiet }
    | .openSlot => { lost := none, outcome := if s.stalled then .stalled else s.slackOutcome }
    | .owned p lend =>
      if s.stalled then { lost := none, outcome := .stalled }
      else if s.eligible p then { lost := none, outcome := .ownedIssue p }
      else { lost := some p, outcome := if lend then s.slackOutcome else .idle }

/-! ### The act of issue (R55 to R58) -/

/-- The deadline round of an issue by partition p, absent when its response limit is 0 (R56). -/
def State.deadlineFor (s : State) (p : PartitionId) : Option Word :=
  if s.parts[p].responseLimit = 0 then none else some (s.sched.round + BitVec.ofNat 32 s.parts[p].responseLimit)

/-- The beats the write-data buffer holds for a write, none for a READ (R57, R58). -/
def State.dataFor (s : State) (e : PoolEntry) : Option (List Beat) :=
  match e.kind with
  | .read => none
  | .write => some (match s.findRecord e.pair with | some r => r.stored | none => [])

/-- The head leaves its queue and the pool (R55). -/
def State.takeHead (s : State) (p : PartitionId) : State :=
  { s with pool := s.pool.eraseP (PoolEntry.inQueue p) }.handAll [.queue p, .age p]

/-- In-flight entry d becomes ISSUED for the queue entry (R56). -/
def State.fillFlight (s : State) (d : DTag) (e : PoolEntry) : State :=
  (s.setFlight d
    (.issued
      { partition := e.partition, pair := e.pair, kind := e.kind, address := e.address, beats := e.beats
        deadline := s.deadlineFor e.partition })).hand .inFlight

/-- An issued WRITE gives up its reservation, its beats and its record; a READ changes nothing here (R57, R88). -/
def State.releaseData (s : State) (e : PoolEntry) : State :=
  match e.kind with
  | .read => s
  | .write =>
    { s with
      writes := { reserved := s.writes.reserved - e.beats, records := s.writes.records.filter fun r => r.pair != e.pair } }.hand .wbuf

/-- The issue record is placed in the downstream output register (R58). -/
def State.placeRecord (s : State) (d : DTag) (e : PoolEntry) (data : Option (List Beat)) : State :=
  { s with
    flight :=
      { s.flight with output := some { dtag := d, kind := e.kind, address := e.address, beats := e.beats, data := data } } }

/-- The act of issue of partition p's head into the lowest-numbered FREE in-flight entry (R55 to R58). -/
def State.issue (s : State) (p : PartitionId) : State :=
  match s.head p, s.lowestFree with
  | some e, some d => ((((s.takeHead p).fillFlight d e).releaseData e).placeRecord d e (s.dataFor e))
  | none, _ => s
  | some _, none => s

/-- A slack issue by w: its allowance falls by 1, and the pointer moves past it (R53). -/
def State.chargeSlack (s : State) (w : PartitionId) : State :=
  { s with sched := { s.sched with remaining := modifyAt s.sched.remaining w fun n => n - 1, slackPointer := w + 1 } }

/-- The owner of a lost slot is charged (R49). -/
def State.chargeLost (s : State) (lost : Option PartitionId) : State :=
  match lost with
  | none => s
  | some p => s.countLost p

/-- The outcome of the slot is made, and its counter moves (R44). -/
def State.applyOutcome (s : State) (outcome : SlotOutcome) : State :=
  match outcome with
  | .restart => s.countGlobal fun c => { c with restart := c.restart + 1 }
  | .quiet => s.countGlobal fun c => { c with quiet := c.quiet + 1 }
  | .stalled => s.countGlobal fun c => { c with stalled := c.stalled + 1 }
  | .idle => s.countGlobal fun c => { c with idle := c.idle + 1 }
  | .ownedIssue p => (s.issue p).countPart p fun c => { c with ownedIssues := c.ownedIssues + 1 }
  | .slackIssue p => ((s.issue p).chargeSlack p).countPart p fun c => { c with slackIssues := c.slackIssues + 1 }

/-- The slot decision is made and carried out (R43, R44). -/
def State.runSlot (s : State) : State := (s.chargeLost s.decideSlot.lost).applyOutcome s.decideSlot.outcome

/-- A slot start's own work, before the decision: counts advance, a round start does its work, some of its TIMEOUT faults reach the fault queue, and ages are
handed out (R5, R15, R16, R161). -/
def State.startSlot (s : State) : State :=
  let advanced := { s with sched := s.sched.advance }
  (if s.sched.lastSlot then advanced.roundStart.someTimeoutsArrive else advanced).handAges

/-! ### The commands -/

/-- SLOT_START (R5, R43). A round start makes the expiries it owes (R102); the TIMEOUT faults of an earlier one have all reached the fault queue before it
(log entry 7). The causes this slot start raises are taken after its decision (log entry 8). -/
def execSlotStart (s : State) : Host.Outcome State Fault Refusal := event s fun s => s.settleTimeouts.startSlot.runSlot

/-- DEADLINE_EXPIRY (R102, R161): the expiries of the present round's start, if the round start has not made them, and the next TIMEOUT fault on its way
reaches the fault queue. A SLOT_START has made the expiries of its round already (log entry 7). -/
def execDeadlineExpiry (s : State) : Host.Outcome State Fault Refusal := event s fun s => s.expireDue.timeoutArrives

end Machine
end Sys2Proof
end

