-- ==== Sys2Proof/Machine/Reset.lean ====
section
/-! DEFINITION. The reset pin: the full pin reset, RSTN returning high with the first slot start, and the short pulse (R1, R8). -/

namespace Sys2Proof
namespace Machine

/-- Every block in its reset state, RSTN held low; the queue of commands is no part of the hardware and stays, and the free values go on (log entry 18). -/
def State.pinReset (s : State) : State := { State.reset with free := s.free, pending := s.pending }

/-- The part leaves reset: the first slot start is slot 0 of round 0, it carries count 0, and it is a round start (R8).
A frame open across the reset is waited out (R167). -/
def State.leaveReset (s : State) (selnLow : Bool) : State :=
  ({ s with line := .running, port := { s.port with selnLow := selnLow, acrossReset := selnLow } }.roundStart.handAges.runSlot).settle

/-- PIN_RESET (R1, R8). It ends a state that is not defined. -/
def execPinReset (s : State) : Host.Outcome State Fault Refusal := .next s.pinReset

/-- RSTN_RETURNS_HIGH (R8). RSTN that is high already does not return high (log entry 4). -/
def execRstnReturnsHigh (selnLow : Bool) (s : State) : Host.Outcome State Fault Refusal :=
  match s.line with
  | .heldLow => .next (s.leaveReset selnLow)
  | .running => .next s
  | .undefined => .next s.madeUndefined

/-- SHORT_RSTN_PULSE (R1): the state is not defined from then on. RSTN that is held low cannot go low (log entry 4). -/
def execShortRstnPulse (s : State) : Host.Outcome State Fault Refusal := live s State.madeUndefined

end Machine
end Sys2Proof
end

