-- ==== Sys2Proof/Machine/Responses.lean ====
section
/-! DEFINITION. The downstream port, answers, the response-channel arbiter and deliveries (chapter 6). -/

namespace Sys2Proof
namespace Machine

/-! ### The downstream port -/

/-- The memory controller takes the record in the output register (R95). -/
def State.takeDownstream (s : State) : State := { s with flight := { s.flight with output := none } }

/-! ### Answers (R99 to R101) -/

/-- The answer status and read beats an answer gives an ISSUED entry (R99). -/
def Transaction.outcome (t : Transaction) (status : AnswerStatus) (data : List Beat) : FlightAnswer × List Beat :=
  match status, t.kind with
  | .err, _ => (.derr, [])
  | .ok, .write => (.okay, [])
  | .ok, .read => if data.length = t.beats then (.okay, data) else (.derr, [])

/-- A fault that names a transaction and its d-tag (R115). -/
def State.recordFlightFault (s : State) (kind : FaultKind) (t : Transaction) (d : DTag) : State :=
  s.recordFault kind (some t.partition) (some t.pair) (some t.address) (some d)

/-- An answer for an ISSUED entry (R99). -/
def State.answerIssued (s : State) (d : DTag) (t : Transaction) (status : AnswerStatus) (data : List Beat) : State :=
  let returned := (s.setFlight d (.returning t (t.outcome status data).1 (t.outcome status data).2)).lastPlace d
  match (t.outcome status data).1 with
  | .okay => returned
  | .derr => returned.recordFlightFault .downErr t d
  | .timeout => returned

/-- An answer for an ORPHANED entry is late: RETURNING with TIMEOUT while its response is owed, FREE otherwise (R100). -/
def State.answerLate (s : State) (d : DTag) (t : Transaction) (owed : Bool) : State :=
  let faulted := s.recordFlightFault .late t d
  if owed then (faulted.setFlight d (.returning t .timeout [])).hand .orphans
  else (faulted.setFlight d .free).handAll [.inFlight, .orphans]

/-- An answer is taken and handled by the state of its d-tag's entry (R96). -/
def State.takeAnswer (s : State) (d : DTag) (status : AnswerStatus) (data : List Beat) : State :=
  match s.flight.table[d] with
  | .issued t => s.answerIssued d t status data
  | .orphaned t owed => s.answerLate d t owed
  | .free => s.recordFault .strayAnswer none none none (some d)
  | .returning _ _ _ => s.recordFault .strayAnswer none none none (some d)

/-! ### The arbiter (R105 to R109) -/

/-- The response status of a refusal. -/
def RefusalStatus.response : RefusalStatus → ResponseStatus
  | .retry => .retry
  | .refused => .refused
  | .tagErr => .tagErr

/-- The response status of a withdrawal answer. -/
def WithdrawalStatus.response : WithdrawalStatus → ResponseStatus
  | .cancelled => .cancelled
  | .aborted => .aborted

/-- The response status of an in-flight entry's answer. -/
def FlightAnswer.response : FlightAnswer → ResponseStatus
  | .okay => .okay
  | .derr => .derr
  | .timeout => .timeout

/-- The record of a withdrawal answer, with no data; a WAITING entry has none (R39). -/
def PoolEntry.offer (e : PoolEntry) : Option Offer :=
  match e.state with
  | .waiting => none
  | .answering status released =>
    if released then some { source := .withdrawn e.pair, record := { pair := e.pair, status := status.response, data := none } } else none

/-- The read data of a response: present for a READ whose status is OKAY (R105). -/
def responseData (kind : AccessKind) (answer : FlightAnswer) (data : List Beat) : Option (List Beat) :=
  match kind, answer with
  | .read, .okay => some data
  | .read, .derr => none
  | .read, .timeout => none
  | .write, _ => none

/-- The record of an in-flight entry's response: of a RETURNING entry, or of an ORPHANED one that owes its TIMEOUT (R106). -/
def FlightEntry.offer (d : DTag) : FlightEntry → Option Offer
  | .free => none
  | .issued _ => none
  | .returning t answer data =>
    some { source := .inFlight d, record := { pair := t.pair, status := answer.response, data := responseData t.kind answer data } }
  | .orphaned t owed =>
    if owed then some { source := .inFlight d, record := { pair := t.pair, status := .timeout, data := none } } else none

/-- The first response of a class: the refusal slot's, the withdrawal answer accepted first (R108; log entry 11), or the in-flight one with the earliest place (R109). -/
def State.firstOf (s : State) : ResponseClass → Option Offer
  | .refusal =>
    s.intake.refusal.map fun r => { source := .refusal, record := { pair := r.pair, status := r.status.response, data := none } }
  | .withdrawn => s.pool.findSome? PoolEntry.offer
  | .inFlight => s.flight.places.findSome? fun d => (s.flight.table[d]).offer d

/-- The class after a class, in the order REFUSAL, WITHDRAWN, IN-FLIGHT (R107). -/
def ResponseClass.after : ResponseClass → ResponseClass
  | .refusal => .withdrawn
  | .withdrawn => .inFlight
  | .inFlight => .refusal

/-- The order in which the arbiter looks at the classes from its turn (R107). -/
def ResponseClass.order (c : ResponseClass) : List ResponseClass := [c, c.after, c.after.after]

/-- The class of a source. -/
def ResponseSource.responseClass : ResponseSource → ResponseClass
  | .refusal => .refusal
  | .withdrawn _ => .withdrawn
  | .inFlight _ => .inFlight

/-- The arbiter's choice: with no record on offer, the first response of the first class from the turn on that holds one is offered (R107). -/
def State.choose (s : State) : State :=
  match s.flight.offer with
  | some _ => s
  | none =>
    match s.flight.turn.order.findSome? s.firstOf with
    | none => s
    | some o => { s with flight := { s.flight with offer := some o } }

/-! ### Delivery (R111 to R113) -/

/-- A pair is released from the held-pair set (R70). -/
def State.releasePair (s : State) (pair : Pair) : State :=
  { s with intake := { s.intake with heldPairs := s.intake.heldPairs.erase pair } }

/-- The entry is ANSWERING, released, and holds this pair. -/
def PoolEntry.answersFor (pair : Pair) (e : PoolEntry) : Bool := e.isReleased && e.pair == pair

/-- Delivery of a withdrawal answer: the entry is freed, its pair released, WITHDRAWN rises, the held count falls, and closing is checked (R39, R111). -/
def State.deliverWithdrawn (s : State) (pair : Pair) : State :=
  match s.pool.find? (PoolEntry.answersFor pair) with
  | none => s
  | some e =>
    (((({ s with pool := s.pool.eraseP (PoolEntry.answersFor pair) }.releasePair pair).countPart e.partition fun c =>
      { c with withdrawn := c.withdrawn + 1 }).hand (.queue e.partition))).closingCheck e.partition

/-- The completion counter of a response status (R112, R113). -/
def FlightAnswer.count (answer : FlightAnswer) (c : PartitionCounters) : PartitionCounters :=
  match answer with
  | .okay => { c with completedOk := c.completedOk + 1 }
  | .derr => { c with completedError := c.completedError + 1 }
  | .timeout => { c with completedError := c.completedError + 1 }

/-- The entry leaves the IN-FLIGHT class, and becomes `e`. -/
def State.leaveClass (s : State) (d : DTag) (e : FlightEntry) : State :=
  { s with flight := { s.flight with table := s.flight.table.set d e, places := s.flight.places.erase d } }

/-- Delivery of an in-flight entry's response: a RETURNING entry is freed (R112), an ORPHANED one stays and owes nothing more (R113). -/
def State.deliverInFlight (s : State) (d : DTag) : State :=
  match s.flight.table[d] with
  | .free => s
  | .issued _ => s
  | .returning t answer _ =>
    ((((s.leaveClass d .free).releasePair t.pair).countPart t.partition answer.count).hand .inFlight).closingCheck t.partition
  | .orphaned t owed =>
    if owed then ((s.leaveClass d (.orphaned t false)).releasePair t.pair).countPart t.partition (FlightAnswer.count .timeout) else s

/-- Delivery of the refusal slot's response empties it (R111). -/
def State.deliverRefusal (s : State) : State := { s with intake := { s.intake with refusal := none } }

/-- The response's source is finished with (R111 to R113). -/
def State.finishSource (s : State) (source : ResponseSource) : State :=
  match source with
  | .refusal => s.deliverRefusal
  | .withdrawn pair => s.deliverWithdrawn pair
  | .inFlight d => s.deliverInFlight d

/-- The upstream side takes the record on offer: the turn moves on, its source is finished with, and path restart control makes its check (R105, R107, R129, R131).
MODEL'S CHOICE (log entry 26): the check is part of the delivery, so an action that answers a PARTITION OFF or MONITOR cause of the same delivery is applied in the
phase the check leaves: IDLE where it ends RELEASING, RELEASING where it ends DRAINING. -/
def State.deliver (s : State) : State :=
  match s.flight.offer with
  | none => s
  | some o =>
    ({ s with flight := { s.flight with offer := none, turn := o.source.responseClass.after } }.finishSource o.source).restartCheck

/-! ### The commands -/

/-- DOWNSTREAM_TAKE (R95). An empty register offers nothing to take (log entry 4). -/
def execDownstreamTake (s : State) : Host.Outcome State Fault Refusal := live s State.takeDownstream

/-- ANSWER (R96). The answer is a later event than the last round start, so the TIMEOUT faults of that one reach the fault queue before it (R161; log entry 7). -/
def execAnswer (dtag : DTag) (status : AnswerStatus) (data : List Beat) (s : State) : Host.Outcome State Fault Refusal :=
  event s fun s => s.settleTimeouts.takeAnswer dtag status data

/-- ARBITER_CHOICE (R107). -/
def execArbiterChoice (s : State) : Host.Outcome State Fault Refusal := live s State.choose

/-- RESPONSE_DELIVERY (R105). With no record on offer there is none to take (log entry 4). -/
def execResponseDelivery (s : State) : Host.Outcome State Fault Refusal := event s State.deliver

end Machine
end Sys2Proof
end

