-- ==== Sys2Proof/Machine/Writes.lean ====
section
/-! DEFINITION. The write-data channel: gathering, completion, breaks, stray beats and discarding (chapter 5). -/

namespace Sys2Proof
namespace Machine

/-- The record that holds a pair is replaced by `f` of it. -/
def State.updateRecord (s : State) (pair : Pair) (f : OpenWrite → OpenWrite) : State :=
  { s with writes := { s.writes with records := s.writes.records.map fun r => if r.pair = pair then f r else r } }

/-- The beat breaks a RECEIVING write: an early last or a missing last, the beat itself counted (R86). -/
def OpenWrite.breaks (r : OpenWrite) (last : Bool) : Bool :=
  if last then decide (r.received + 1 < r.declared) else decide (r.received + 1 = r.declared)

/-- A beat is stored after the write's earlier ones (R85). -/
def OpenWrite.store (data : Beat) (r : OpenWrite) : OpenWrite :=
  { r with received := r.received + 1, stored := r.stored ++ [data] }

/-- The owning WAITING entry's data complete field becomes yes (R85). -/
def PoolEntry.completeFor (owner : Option Pair) (e : PoolEntry) : PoolEntry :=
  if e.isWaiting && owner == some e.pair then { e with dataComplete := some true } else e

/-- The record becomes COMPLETE with this beat, and its queue entry is ready (R85). -/
def State.completeWrite (s : State) (r : OpenWrite) (data : Beat) : State :=
  let marked := s.updateRecord r.pair fun x => { OpenWrite.store data x with state := .complete }
  { marked with pool := marked.pool.map (PoolEntry.completeFor r.owner) }

/-- The write breaks: its beats are discarded and its record freed, its entry becomes ANSWERING ABORTED with the answer released and its
reservation is given up, and a WDATA fault is recorded (R86, R94). -/
def State.breakWrite (s : State) (r : OpenWrite) : State :=
  (({ s with writes := { s.writes with records := s.writes.records.filter fun x => x.pair != r.pair } }).withdrawPair r.partition r.pair
    .aborted).recordFault .wdata (some r.partition) (some r.pair) none none

/-- A beat for a RECEIVING record (R85, R86). -/
def State.gather (s : State) (r : OpenWrite) (data : Beat) (last : Bool) : State :=
  if r.breaks last then s.breakWrite r
  else if last && r.received + 1 == r.declared then s.completeWrite r data
  else s.updateRecord r.pair (OpenWrite.store data)

/-- A beat for a DISCARDING record is dropped; the declared count or a last flag frees the record (R90). -/
def State.discard (s : State) (r : OpenWrite) (last : Bool) : State :=
  if last || r.received + 1 == r.declared then s.freeDiscarding r
  else s.updateRecord r.pair fun x => { x with received := x.received + 1 }

/-- A beat is taken from the write-data channel and handled by the state of its pair's record (R81). -/
def State.takeBeat (s : State) (pair : Pair) (data : Beat) (last : Bool) : State :=
  match s.findRecord pair with
  | none => s.recordFault .strayData none (some pair) none none
  | some r =>
    match r.state with
    | .receiving => s.gather r data last
    | .complete => s.recordFault .strayData (some r.partition) (some pair) none none
    | .discarding => s.discard r last

/-- WRITE_DATA_BEAT (R81). -/
def execWriteDataBeat (initiator : Initiator) (tag : Tag) (data : Beat) (last : Bool) (s : State) : Host.Outcome State Fault Refusal :=
  event s fun s => s.takeBeat { initiator := initiator, tag := tag } data last

end Machine
end Sys2Proof
end

