-- ==== Sys2Proof/Machine/Dispatch.lean ====
section
/-! DEFINITION. One arm for each command, each a call of its meaning. -/

namespace Sys2Proof
namespace Machine

def exec (i : Instr) (s : State) : Host.Outcome State Fault Refusal :=
  match i with
  | .pinReset => Sys2Proof.Machine.execPinReset s
  | .rstnReturnsHigh selnLow => Sys2Proof.Machine.execRstnReturnsHigh selnLow s
  | .slotStart => Sys2Proof.Machine.execSlotStart s
  | .deadlineExpiry => Sys2Proof.Machine.execDeadlineExpiry s
  | .readRequest initiator tag address beats => Sys2Proof.Machine.execReadRequest initiator tag address beats s
  | .writeRequest initiator tag address beats => Sys2Proof.Machine.execWriteRequest initiator tag address beats s
  | .unnamedKindRequest initiator tag address beats => Sys2Proof.Machine.execUnnamedKindRequest initiator tag address beats s
  | .cancel initiator tag => Sys2Proof.Machine.execCancel initiator tag s
  | .writeDataBeat initiator tag data last => Sys2Proof.Machine.execWriteDataBeat initiator tag data last s
  | .downstreamTake => Sys2Proof.Machine.execDownstreamTake s
  | .answer dtag status data => Sys2Proof.Machine.execAnswer dtag status data s
  | .arbiterChoice => Sys2Proof.Machine.execArbiterChoice s
  | .responseDelivery => Sys2Proof.Machine.execResponseDelivery s
  | .drstnPulseEnd => Sys2Proof.Machine.execDrstnPulseEnd s
  | .evinEdge line high => Sys2Proof.Machine.execEvinEdge line high s
  | .evinFirstLevel line high => Sys2Proof.Machine.execEvinFirstLevel line high s
  | .evoutPulseEnd line => Sys2Proof.Machine.execEvoutPulseEnd line s
  | .heldCauseTaken => Sys2Proof.Machine.execHeldCauseTaken s
  | .indexComplete bytes => Sys2Proof.Machine.execIndexComplete bytes s
  | .frameCutShort bytes => Sys2Proof.Machine.execFrameCutShort bytes s
  | .unknown bytes => Sys2Proof.Machine.execUnknown bytes s
  | .readEntry table index extra => Sys2Proof.Machine.execReadEntry table index extra s
  | .writeScheduleEntry table index data extra => Sys2Proof.Machine.execWriteScheduleEntry table index data extra s
  | .writePartitionRecord index state quota slack limit extra => Sys2Proof.Machine.execWritePartitionRecord index state quota slack limit extra s
  | .writeInitiatorMap index value extra => Sys2Proof.Machine.execWriteInitiatorMap index value extra s
  | .writeRegion index base limit mask flags extra => Sys2Proof.Machine.execWriteRegion index base limit mask flags extra s
  | .writeMonitor index flags object condition argument threshold extra => Sys2Proof.Machine.execWriteMonitor index flags object condition argument threshold extra s
  | .writeTrigger index flags cause causeArgument action actionArgument fireCount extra => Sys2Proof.Machine.execWriteTrigger index flags cause causeArgument action actionArgument fireCount extra s
  | .writeAttentionMask index mask extra => Sys2Proof.Machine.execWriteAttentionMask index mask extra s
  | .requestSwitch argument extra => Sys2Proof.Machine.execRequestSwitch argument extra s
  | .setPartitionState argument index extra => Sys2Proof.Machine.execSetPartitionState argument index extra s
  | .flushPartition argument extra => Sys2Proof.Machine.execFlushPartition argument extra s
  | .pathRestart extra => Sys2Proof.Machine.execPathRestart extra s
  | .popFault extra => Sys2Proof.Machine.execPopFault extra s
  | .acknowledge causes extra => Sys2Proof.Machine.execAcknowledge causes extra s
  | .readStatus extra => Sys2Proof.Machine.execReadStatus extra s
  | .readCounters argument extra => Sys2Proof.Machine.execReadCounters argument extra s
  | .clearCounters extra => Sys2Proof.Machine.execClearCounters extra s
  | .readSnapshot index extra => Sys2Proof.Machine.execReadSnapshot index extra s
  | .shortRstnPulse => Sys2Proof.Machine.execShortRstnPulse s
  | .frameOpenAcrossReset => Sys2Proof.Machine.execFrameOpenAcrossReset s

end Machine
end Sys2Proof
end

