-- ==== Sys2Proof/Machine/Step.lean ====
section
/-! DEFINITION. One step of the machine: the command at the front of its queue. -/

namespace Sys2Proof
namespace Machine

/-- A step takes the command at the front of the queue and makes its effect. On an empty queue the block idles (log entry 2). -/
def step (s : State) : Host.Outcome State Fault Refusal :=
  match s.pending with
  | [] => .next s
  | c :: rest => exec c { s with pending := rest }

/-- The command a word spells is put at the front of the queue; a word that spells none leaves the state (log entry 21). -/
def State.withFetchWord (s : State) (nbits w : Nat) : State :=
  match decodeTableWord nbits w with
  | none => s
  | some c => { s with pending := c :: s.pending }

end Machine
end Sys2Proof
end

