-- ==== Sys2Proof/Safety.lean ====
section
/-! DEFINITION. The guarantees the manual states of the part in every state, and the words the statements use. -/

namespace Sys2Proof
namespace Machine

/-! ### Guarantees of a state -/

/-- The header and allowances of a table are in their ranges (R2; conditions 1, 2 and 4 of R12). -/
def ScheduleTable.InRange (t : ScheduleTable) : Prop :=
  (4 ≤ t.roundLength ∧ t.roundLength ≤ 32) ∧ (8 ≤ t.slotLength ∧ t.slotLength ≤ 64) ∧ ∀ p : PartitionId, t.allowance[p] ≤ 32

/-- The active table and the pending target pass validation (R15), the slot index names a used entry of the active table (R5), and no
remaining allowance is above what the active table gives (R9). -/
def ScheduleUnit.Sound (u : ScheduleUnit) : Prop :=
  u.tableA.InRange ∧ u.tableB.InRange ∧ u.activeTable.valid = true ∧ (∀ t, u.pendingTarget = some t → (u.table t).valid = true) ∧
    u.slot < u.activeTable.roundLength ∧ ∀ p : PartitionId, u.remaining[p] ≤ u.activeTable.allowance[p]

/-- The entries a partition holds never exceed its quota, an OFF partition holds none, and the quotas sum to at most 64 (R24, R34). -/
def State.QuotaKept (s : State) : Prop :=
  (∀ p : PartitionId, s.heldCount p ≤ s.parts[p].quota) ∧ (∀ p : PartitionId, s.parts[p].state = .off → s.heldCount p = 0) ∧
    quotaSum s.parts ≤ Config.poolSize

/-- The reserved count is the sum of declared beats of WAITING writes, and at most 256 (R82). -/
def State.ReservationKept (s : State) : Prop :=
  s.writes.reserved = ((s.pool.filter PoolEntry.reserves).map PoolEntry.beats).sum ∧ s.writes.reserved ≤ Config.bufferBeats

/-- The pairs that pool entries and in-flight entries carry (R70). -/
def State.carriedPairs (s : State) : List Pair := s.pool.map PoolEntry.pair ++ s.flight.table.toList.filterMap FlightEntry.heldPair

/-- The held-pair set holds each pair once, and exactly the pairs that a pool entry or an in-flight entry carries, each carried once (R70). -/
def State.PairsKept (s : State) : Prop := s.intake.heldPairs.Nodup ∧ s.intake.heldPairs.Perm s.carriedPairs

/-- The queue entry that a record's state asks for (R83). -/
def OpenWrite.Owns (r : OpenWrite) (e : PoolEntry) : Prop :=
  e.pair = r.pair ∧ e.kind = .write ∧ e.partition = r.partition ∧ e.beats = r.declared ∧
    match r.state with
    | .receiving => e.state = .waiting ∧ e.dataComplete = some false
    | .complete => e.state = .waiting ∧ e.dataComplete = some true
    | .discarding => ∃ status, e.state = .answering status false

/-- What a record's own fields satisfy by its state (R83). -/
def OpenWrite.Fields (r : OpenWrite) : Prop :=
  match r.state with
  | .receiving => r.owner = some r.pair ∧ r.received < r.declared ∧ r.stored.length = r.received
  | .complete => r.owner = some r.pair ∧ r.received = r.declared ∧ r.stored.length = r.declared
  | .discarding => r.owner = none ∧ 1 ≤ r.received ∧ r.received < r.declared ∧ r.stored = []

/-- The entry needs an open-write record: a WAITING write, or a withdrawn entry whose answer is held back (R38, R83). -/
def PoolEntry.NeedsRecord (e : PoolEntry) : Prop :=
  (e.state = .waiting ∧ e.kind = .write) ∨ ∃ status, e.state = .answering status false

/-- At most 48 records are in use, no two hold one pair, each belongs to a queue entry as its state says, and every entry that needs a record has one (R70, R83). -/
def State.RecordsKept (s : State) : Prop :=
  s.writes.records.length ≤ Config.openWriteRecords ∧ (s.writes.records.map OpenWrite.pair).Nodup ∧
    (∀ r ∈ s.writes.records, r.Fields ∧ ∃ e ∈ s.pool, r.Owns e) ∧ ∀ e ∈ s.pool, e.NeedsRecord → ∃ r ∈ s.writes.records, r.pair = e.pair

/-- The in-flight entry waits for the response channel: RETURNING, or ORPHANED with its response owed (R106). -/
def FlightEntry.owes (e : FlightEntry) : Bool :=
  match e with
  | .free => false
  | .issued _ => false
  | .returning _ _ _ => true
  | .orphaned _ owed => owed

/-- Exactly the entries of the IN-FLIGHT class have a place in turn, each one place (R97, R109). -/
def State.PlacesKept (s : State) : Prop :=
  s.flight.places.Nodup ∧ ∀ d : DTag, d ∈ s.flight.places ↔ s.flight.table[d].owes = true

/-- The record on offer is that of a response still waiting in its class (R105, R106). -/
def State.OfferKept (s : State) : Prop :=
  ∀ o, s.flight.offer = some o →
    match o.source with
    | .refusal => s.firstOf .refusal = some o
    | .withdrawn pair => o.source = .withdrawn pair ∧ ∃ e ∈ s.pool, e.pair = pair ∧ e.offer = some o
    | .inFlight d => s.flight.table[d].offer d = some o

/-- A CLOSING partition has outstanding work: with none it is OFF (R31, R32). -/
def State.ClosingKept (s : State) : Prop := ∀ p : PartitionId, s.parts[p].state = .closing → s.outstanding p = true

/-- In DRAINING no entry is WAITING; in RELEASING no in-flight entry and no record is in use besides, and the output register is empty (R127, R130).
A DRSTN pulse is under way in RELEASING alone (R130, R131). -/
def State.RestartKept (s : State) : Prop :=
  (s.restart.phase ≠ .idle → ∀ e ∈ s.pool, e.isWaiting = false) ∧
    (s.restart.phase = .releasing →
      (∀ d : DTag, s.flight.table[d] = .free) ∧ s.writes.records = [] ∧ s.flight.output = none) ∧
    (s.restart.pulse.isSome = true → s.restart.phase = .releasing)

/-- An entry that is not enabled is never armed (R146). -/
def State.ArmedOnlyEnabled (s : State) : Prop := ∀ i : Fin 8, s.triggers.entries[i].armed = true → s.triggers.entries[i].enabled = true

/-- The fault queue holds 0 to 16 records (R160). -/
def State.FaultsKept (s : State) : Prop := s.attention.queue.length ≤ Config.faultRecords

/-- The FAULT bit of the latched set is never set: FAULT is pending while the queue holds a record, and only then (R163). -/
def State.FaultNotLatched (s : State) : Prop := s.attention.latched &&& AttentionCause.fault.bit = 0

/-- The last result of every enabled monitor whose object is not AGE is its condition on the present value of what it watches: each change of such a
quantity has been handed to it (R74, R98, R135, R141, R142, R160). -/
def State.MonitorsCurrent (s : State) : Prop :=
  ∀ i : Fin 4, s.monitors[i].enabled = true → s.monitors[i].object ≠ .age →
    s.monitors[i].last = s.monitors[i].result (s.quantity s.monitors[i].quantity)

/-- The same of every enabled monitor whose object is AGE: each change of a head age has been handed to it (R41, R55, R74, R119, R124, R141, R142). -/
def State.AgesCurrent (s : State) : Prop :=
  ∀ i : Fin 4, s.monitors[i].enabled = true → s.monitors[i].object = .age →
    s.monitors[i].last = s.monitors[i].result (s.quantity s.monitors[i].quantity)

/-- No cause is left that the trigger unit has not taken (R148; the model's own). -/
def State.CausesTaken (s : State) : Prop := s.triggers.raised = []

/-- RSTN held low: every block in its reset state (R1). -/
def State.LowIsReset (s : State) : Prop := s.line = .heldLow → s = { State.reset with free := s.free, pending := s.pending }

/-- Every guarantee together. -/
def State.Guarantees (s : State) : Prop :=
  s.sched.Sound ∧ s.QuotaKept ∧ s.ReservationKept ∧ s.PairsKept ∧ s.RecordsKept ∧ s.PlacesKept ∧ s.OfferKept ∧ s.ClosingKept ∧
    s.RestartKept ∧ s.ArmedOnlyEnabled ∧ s.FaultsKept ∧ s.FaultNotLatched ∧ s.MonitorsCurrent ∧ s.AgesCurrent ∧ s.CausesTaken ∧ s.LowIsReset

/-- A guarantee as it holds along a run: of every state but one that a short RSTN pulse has left undefined (R1; log entry 6). -/
def State.Defined (s : State) (guarantee : State → Prop) : Prop := s.line ≠ .undefined → guarantee s

/-! ### What events emit -/

/-- The causes that a block has emitted within the present command and the trigger unit has not taken yet, in the order it emitted them (R148). -/
def State.causesFrom (s : State) (b : CauseBlock) : List Cause := s.triggers.raised.filter fun c => c.block == b

/-- What the monitors make of an event that hands out no values but of the quantities `moved`, each as often as it stands there. A monitor that is disabled or watches
none of them stays as it is, and emits nothing. One whose quantity is handed out once at most emits its cause once if its last result has gone from false to true, and
otherwise not at all (R142). -/
structure MonitorsHanded (s u : State) (moved : List Quantity) : Prop where
  others : ∀ i : Fin 4, s.monitors[i].enabled = false ∨ s.monitors[i].quantity ∉ moved →
    u.monitors[i] = s.monitors[i] ∧ u.triggers.raised.count (.monitor i) = s.triggers.raised.count (.monitor i)
  once : ∀ i : Fin 4, moved.count s.monitors[i].quantity ≤ 1 →
    u.triggers.raised.count (.monitor i) =
      s.triggers.raised.count (.monitor i) + if s.monitors[i].last = false ∧ u.monitors[i].last = true then 1 else 0

/-- The per-round counts of every partition: handed out whenever they are cleared (R135, R138). -/
def roundCounts : List Quantity := ([0, 1, 2, 3, 4, 5, 6, 7] : List PartitionId).flatMap fun p => [.lostRound p, .retryRound p]

/-- The head ages of the queues that are not empty: handed out at a slot start (R16, R41). -/
def State.agesHanded (s : State) : List Quantity :=
  (([0, 1, 2, 3, 4, 5, 6, 7] : List PartitionId).filter fun p => (s.head p).isSome).map .age

/-- What an event emits, and that it emits no more (R148): every block but the counters unit emits its own of these causes, in their order, and nothing else, and the
counters unit emits what its monitors make of the values handed out. -/
structure Emits (s u : State) (causes : List Cause) (moved : List Quantity) : Prop where
  blocks : ∀ b : CauseBlock, b ≠ .countersUnit → u.causesFrom b = s.causesFrom b ++ causes.filter fun c => c.block == b
  monitors : MonitorsHanded s u moved

/-! ### What events leave unchanged -/

/-- The causes raised before stay raised, and every monitor whose last result has gone from false to true has raised its cause (R142, R148). -/
def CausesEmitted (s u : State) : Prop :=
  (∀ c ∈ s.triggers.raised, c ∈ u.triggers.raised) ∧
    ∀ i : Fin 4, s.monitors[i].last = false → u.monitors[i].last = true → Cause.monitor i ∈ u.triggers.raised

/-- What no event of the data path changes before the trigger unit acts on the causes it raised: the configuration, the port, the trigger unit
but for the causes raised, and the monitors but for their last results, those that fire raising their causes. -/
structure DataPathFrame (s u : State) : Prop where
  line : u.line = s.line
  sched : u.sched = s.sched
  map : u.intake.map = s.intake.map
  regions : u.intake.regions = s.intake.regions
  snapshot : u.snapshot = s.snapshot
  monitors : ∀ i : Fin 4, { u.monitors[i] with last := s.monitors[i].last } = s.monitors[i]
  causes : CausesEmitted s u
  entries : u.triggers.entries = s.triggers.entries
  seen : u.triggers.seen = s.triggers.seen
  outputs : u.triggers.outputs = s.triggers.outputs
  held : u.triggers.held = s.triggers.held
  mask : u.attention.mask = s.attention.mask
  port : u.port = s.port
  free : u.free = s.free
  pending : u.pending = s.pending

/-- The fault is recorded: stored at the tail, or dropped with OVERFLOW set when 16 are held, and its cause emitted (R159, R160). -/
def FaultRecorded (s u : State) (kind : FaultKind) (partition : Option PartitionId) (pair : Option Pair) (address : Option Addr)
    (dtag : Option DTag) : Prop :=
  (s.attention.queue.length < 16 →
    u.attention.queue =
      s.attention.queue ++
        [{ kind := kind, partition := partition, pair := pair, address := address, dtag := dtag, round := s.sched.round, slot := s.sched.slot }]) ∧
    (16 ≤ s.attention.queue.length → u.attention.queue = s.attention.queue ∧ u.attention.isPending .overflow = true) ∧
    Cause.fault kind ∈ u.triggers.raised

/-- No fault is recorded and no attention cause is set. -/
def NoFault (s u : State) : Prop := u.attention = s.attention

/-- The latched causes after a fault and nothing else: OVERFLOW joins them when the queue was full (R160). -/
def latchedByFault (s : State) : BitVec 7 :=
  if s.attention.queue.length < 16 then s.attention.latched else s.attention.latched ||| AttentionCause.overflow.bit

/-- The closing check of partition p was made when the rest of the event's effect stood (R32). -/
def ClosingChecked (s u : State) (p : PartitionId) : Prop :=
  if s.parts[p].state = .closing ∧ u.outstanding p = false then
    u.parts = modifyAt s.parts p (fun r => { r with state := .off }) ∧ Cause.partitionOff p ∈ u.triggers.raised ∧
      u.attention.isPending .closed = true
  else u.parts = s.parts

/-- What partition control emits at the closing check of partition p (R32, R148). -/
def closingCauses (s u : State) (p : PartitionId) : List Cause :=
  if s.parts[p].state = .closing ∧ u.outstanding p = false then [.partitionOff p] else []

/-- The TIMEOUT fault of an ISSUED entry's expiry; none for an entry of another state (R102, R115, R159). -/
def timeoutFault (round : Word) (slot : Nat) (d : DTag) : FlightEntry → Option FaultRecord
  | .issued t =>
    some
      { kind := .timeout, partition := some t.partition, pair := some t.pair, address := some t.address, dtag := some d, round := round
        slot := slot }
  | .free => none
  | .returning _ _ _ => none
  | .orphaned _ _ => none

/-- The entry is ISSUED for partition p, and this is its deadline round (R102). -/
def FlightEntry.DueFor (round : Word) (p : PartitionId) (e : FlightEntry) : Prop := ∃ t, e = .issued t ∧ t.deadline = some round ∧ t.partition = p

/-- These faults have reached the fault queue, in this order: it holds as many of them as there was room for, OVERFLOW is set where one was dropped, and it has
emitted the cause of each, in the same order, and no other (R148, R160). -/
structure FaultsArrived (s u : State) (records : List FaultRecord) : Prop where
  queue : u.attention.queue = s.attention.queue ++ records.take (16 - s.attention.queue.length)
  overflow : records ≠ [] → 16 < s.attention.queue.length + records.length → u.attention.isPending .overflow = true
  causes : u.causesFrom .faultQueue = s.causesFrom .faultQueue ++ records.map fun r => .fault r.kind

/-- Each entry of `s` that is ISSUED with this deadline round has expired, and no other: these are `due`, in increasing d-tag order. Each is ORPHANED with its TIMEOUT
owed, places and faults in that order, and the closing check of its partition is made (R32, R102, R115). Of the faults then on their way the first `arrived` have
reached the fault queue (R161). -/
structure Expired (s u : State) (round : Word) (slot arrived : Nat) (due : List DTag) : Prop where
  exactly : due.Pairwise (· < ·) ∧ ∀ d : DTag, d ∈ due ↔ ∃ p : PartitionId, s.flight.table[d].DueFor round p
  table : ∀ d : DTag,
    u.flight.table[d] =
      match s.flight.table[d] with
      | .issued t => if t.deadline = some round then .orphaned t true else .issued t
      | .free => .free
      | .returning t a beats => .returning t a beats
      | .orphaned t owed => .orphaned t owed
  places : u.flight.places = s.flight.places ++ due
  faults : ∃ faults : List FaultRecord,
    faults = s.flight.timeouts ++ (due.filterMap fun d => timeoutFault round slot d s.flight.table[d]) ∧
      u.flight.timeouts = faults.drop arrived ∧ FaultsArrived s u (faults.take arrived)
  closed : ∀ p : PartitionId, (∃ d : DTag, s.flight.table[d].DueFor round p) → s.parts[p].state = .closing → u.outstanding p = false →
    u.parts[p] = { s.parts[p] with state := .off } ∧ u.attention.isPending .closed = true
  parts : ∀ p : PartitionId, (¬(∃ d : DTag, s.flight.table[d].DueFor round p) ∨ s.parts[p].state ≠ .closing ∨ u.outstanding p = true) →
    u.parts[p] = s.parts[p]
  offs : ∃ offs : List PartitionId, offs.Nodup ∧
    (∀ p : PartitionId, p ∈ offs ↔ (∃ d : DTag, s.flight.table[d].DueFor round p) ∧ s.parts[p].state = .closing ∧ u.outstanding p = false) ∧
    u.causesFrom .partitionControl = s.causesFrom .partitionControl ++ offs.map Cause.partitionOff

/-- The counters after one counter of partition p has moved. -/
def countersWith (s : State) (p : PartitionId) (f : PartitionCounters → PartitionCounters) : Counters :=
  { s.counters with parts := modifyAt s.counters.parts p f }

/-! ### Layouts (R177) -/

/-- The number that these bytes carry, the most significant byte first (R177). -/
def bigEndian (bytes : List Byte) : Nat := bytes.foldl (fun n b => 256 * n + b.toNat) 0

/-- The number in the `width` bytes from byte `k` on. -/
def fieldAt (bytes : List Byte) (k width : Nat) : Nat := bigEndian ((bytes.drop k).take width)

/-- A flag as the value of bit `k` of a byte. -/
def bitValue (k : Nat) (flag : Bool) : Nat := if flag = true then 2 ^ k else 0

/-- The 16 bytes of a fault record: a field is read at its place, and an absent one has its present bit at 0 and reads as 0 (R177). -/
structure FaultRecord.Layout (r : FaultRecord) (bytes : List Byte) : Prop where
  length : bytes.length = 16
  kind :
    ([.shape, .tag, .unmapped, .closed, .range, .wdata, .strayData, .downErr, .timeout, .late, .strayAnswer] : List FaultKind)[fieldAt bytes 0 1]? =
      some r.kind
  present :
    fieldAt bytes 1 1 = bitValue 0 r.partition.isSome + bitValue 1 r.pair.isSome + bitValue 2 r.address.isSome + bitValue 3 r.dtag.isSome
  partition : fieldAt bytes 2 1 = r.partition.elim 0 Fin.val
  initiator : fieldAt bytes 3 1 = r.pair.elim 0 fun q => q.initiator.val
  tag : fieldAt bytes 4 1 = r.pair.elim 0 fun q => q.tag.val
  address : fieldAt bytes 5 5 = r.address.elim 0 BitVec.toNat
  dtag : fieldAt bytes 10 1 = r.dtag.elim 0 Fin.val
  round : fieldAt bytes 11 4 = r.round.toNat
  slot : r.slot < 256 → fieldAt bytes 15 1 = r.slot

/-- The 4 bytes of a partition record (R177). -/
def PartitionRecord.Layout (r : PartitionRecord) (bytes : List Byte) : Prop :=
  bytes.length = 4 ∧ ([.off, .run, .hold, .closing] : List PartitionState)[fieldAt bytes 0 1]? = some r.state ∧
    (r.quota < 256 → fieldAt bytes 1 1 = r.quota) ∧ fieldAt bytes 2 1 = bitValue 0 r.slack ∧
    (r.responseLimit < 256 → fieldAt bytes 3 1 = r.responseLimit)

/-- The 10 bytes of a region entry (R177). -/
def Region.Layout (g : Region) (bytes : List Byte) : Prop :=
  bytes.length = 10 ∧ fieldAt bytes 0 4 = g.base.toNat ∧ fieldAt bytes 4 4 = g.limit.toNat ∧ fieldAt bytes 8 1 = g.mask.toNat ∧
    fieldAt bytes 9 1 = bitValue 0 g.readAllow + bitValue 1 g.writeAllow + bitValue 2 g.enabled

/-- The 6 bytes of a monitor entry (R177). -/
def Monitor.Layout (m : Monitor) (bytes : List Byte) : Prop :=
  bytes.length = 6 ∧ fieldAt bytes 0 1 = bitValue 0 m.enabled + bitValue 7 m.last ∧
    ([.queue, .age, .lostRound, .retryRound, .inFlight, .orphans, .wbuf, .faults] : List MonitorObject)[fieldAt bytes 1 1]? = some m.object ∧
    ([.atOrAbove, .below] : List MonitorCondition)[fieldAt bytes 2 1]? = some m.condition ∧ fieldAt bytes 3 1 = m.argument.toNat ∧
    fieldAt bytes 4 2 = m.threshold.toNat

/-- The causes of a trigger entry, each at its code (R177). -/
def causeCodeTable : List CauseCode :=
  [.monitor, .roundStart, .switchTaken, .evinRise, .evinFall, .fault, .partitionOff, .restartDone]

/-- The actions of a trigger entry, each at its code (R177). -/
def actionCodeTable : List ActionCode :=
  [.requestSwitch, .setRun, .setHold, .setClosing, .flush, .evoutSet, .evoutClear, .evoutPulse, .snapshot, .attention, .arm, .disarm,
    .clearMonitor]

/-- The 7 bytes of a trigger entry (R177). -/
def Trigger.Layout (t : Trigger) (bytes : List Byte) : Prop :=
  bytes.length = 7 ∧
    fieldAt bytes 0 1 = bitValue 0 t.enabled + bitValue 1 (match t.mode with | .single => false | .recurring => true) + bitValue 7 t.armed ∧
    causeCodeTable[fieldAt bytes 1 1]? = some t.cause ∧ fieldAt bytes 2 1 = t.causeArgument.toNat ∧
    actionCodeTable[fieldAt bytes 3 1]? = some t.action ∧ fieldAt bytes 4 1 = t.actionArgument.toNat ∧ fieldAt bytes 5 2 = t.fireCount.toNat

/-- The 44 bytes of a partition's counters: the ten counters in the order of R134, and the two per-round counts (R173). -/
def PartitionCounters.Layout (c : PartitionCounters) (bytes : List Byte) : Prop :=
  bytes.length = 44 ∧
    ([0, 1, 2, 3, 4, 5, 6, 7, 8, 9].map fun k => fieldAt bytes (4 * k) 4) =
      [c.accepted, c.retried, c.refused, c.lateCancels, c.ownedIssues, c.slackIssues, c.lostOwned, c.completedOk, c.completedError,
        c.withdrawn].map BitVec.toNat ∧
    (c.lostRound ≤ 65535 → fieldAt bytes 40 2 = c.lostRound) ∧ (c.retriedRound ≤ 65535 → fieldAt bytes 42 2 = c.retriedRound)

/-- The 32 bytes of the eight global counters in the order of R136 (R173). -/
def GlobalCounters.Layout (round slotCount : Word) (g : GlobalCounters) (bytes : List Byte) : Prop :=
  bytes.length = 32 ∧
    ([0, 1, 2, 3, 4, 5, 6, 7].map fun k => fieldAt bytes (4 * k) 4) =
      [round, slotCount, g.stalled, g.quiet, g.idle, g.restart, g.unmappedRetries, g.unmappedLateCancels].map BitVec.toNat

/-! ### Requests -/

/-- The request that a command of the request channel carries (R61). -/
def requestOf : Instr → Option Request
  | .readRequest i t a b => some { kind := some .read, pair := { initiator := i, tag := t }, address := a, beats := b }
  | .writeRequest i t a b => some { kind := some .write, pair := { initiator := i, tag := t }, address := a, beats := b }
  | .unnamedKindRequest i t a b => some { kind := none, pair := { initiator := i, tag := t }, address := a, beats := b }
  | _ => none

/-- The request is answered at the intake: one response in the refusal slot, no trace of it elsewhere, and no cause emitted but these (R63, R75, R148). -/
def TurnedAway (s u : State) (r : Request) (status : RefusalStatus) (causes : List Cause) (moved : List Quantity) : Prop :=
  u.intake = { s.intake with refusal := some { pair := r.pair, status := status } } ∧ u.pool = s.pool ∧ u.writes = s.writes ∧
    u.flight = s.flight ∧ u.restart = s.restart ∧ u.parts = s.parts ∧ DataPathFrame s u ∧ Emits s u causes moved

/-- The counters after a RETRY: RETRIED and the retried count of the round, or the unmapped retries (R76, R135). -/
def retryCounters (s : State) (mapped : Option PartitionId) : Counters :=
  match mapped with
  | none => { s.counters with global := { s.counters.global with unmappedRetries := s.counters.global.unmappedRetries + 1 } }
  | some p =>
    countersWith s p fun c =>
      { c with retried := c.retried + 1, retriedRound := if c.retriedRound < 65535 then c.retriedRound + 1 else c.retriedRound }

/-- The counters after a REFUSED or TAGERR: REFUSED, or none for an unmapped initiator (R76). -/
def refusedCounters (s : State) (mapped : Option PartitionId) : Counters :=
  match mapped with
  | none => s.counters
  | some p => countersWith s p fun c => { c with refused := c.refused + 1 }

/-- The count a RETRY hands out: the retried count of the round of the mapped partition (R76, R135). -/
def retryMoved (mapped : Option PartitionId) : List Quantity := mapped.toList.map Quantity.retryRound

/-! ### Issues -/

/-- The quantities an issue changes: held count, head age, occupancy, and for a WRITE the reserved count (R55 to R57). -/
def issueMoved (p : PartitionId) (e : PoolEntry) : List Quantity := [.queue p, .age p, .inFlight] ++ if e.kind = .write then [.wbuf] else []

/-- The act of issue of partition p's head `e` into in-flight entry `d` (R55 to R58), but for the counter and the slack charge. -/
structure Issued (b u : State) (p : PartitionId) (e : PoolEntry) (d : DTag) : Prop where
  pool : ∃ before after, b.pool = before ++ e :: after ∧ (∀ x ∈ before, x.inQueue p = false) ∧ u.pool = before ++ after
  table :
    u.flight.table =
      b.flight.table.set d
        (.issued
          { partition := e.partition, pair := e.pair, kind := e.kind, address := e.address, beats := e.beats
            deadline :=
              if b.parts[e.partition].responseLimit = 0 then none
              else some (b.sched.round + BitVec.ofNat 32 b.parts[e.partition].responseLimit) })
  output :
    u.flight.output =
      some
        { dtag := d, kind := e.kind, address := e.address, beats := e.beats
          data := if e.kind = .write then some ((b.findRecord e.pair).elim [] OpenWrite.stored) else none }
  channel : u.flight.places = b.flight.places ∧ u.flight.turn = b.flight.turn ∧ u.flight.offer = b.flight.offer ∧ u.flight.timeouts = b.flight.timeouts
  readData : e.kind = .read → u.writes = b.writes
  writeData :
    e.kind = .write →
      u.writes.reserved = b.writes.reserved - e.beats ∧ u.writes.records = b.writes.records.filter fun r => r.pair != e.pair
  rest : u.intake = b.intake ∧ u.restart = b.restart ∧ u.parts = b.parts ∧ u.attention = b.attention ∧ u.counters.global = b.counters.global

/-- What a slot start leaves of the configuration and the trigger unit before its causes are taken. -/
structure SlotFrame (b u : State) : Prop where
  line : u.line = b.line
  snapshot : u.snapshot = b.snapshot
  monitors : ∀ i : Fin 4, { u.monitors[i] with last := b.monitors[i].last } = b.monitors[i]
  causes : CausesEmitted b u
  entries : u.triggers.entries = b.triggers.entries
  seen : u.triggers.seen = b.triggers.seen
  outputs : u.triggers.outputs = b.triggers.outputs
  held : u.triggers.held = b.triggers.held
  port : u.port = b.port
  free : u.free = b.free
  pending : u.pending = b.pending

/-- The state in which the slot decision is made: the TIMEOUT faults of an earlier round start have reached the fault queue (R161), and the slot start has done
its own work, a round start its expiries with it (R15, R43, R102). -/
def State.atDecision (s : State) : State := s.settleTimeouts.startSlot

/-! ### Frames of the management port -/

/-- The state `u` with the port as it stands when the frame of a command with `written` bytes of write data and `extra` bytes beyond has closed
with this status (R168, R169). -/
def State.framed (s u : State) (status : Status) (written extra : Nat) : State :=
  { u with
    port := { s.port with lastStatus := status, selnLow := false, sdo := s.sdoBytes written [] (5 + written + extra) }
    free := s.free + written }

/-- The port after a read frame has closed: the captured status, the assembler empty, SELN high, and on SDO four 00h bytes, the last status before,
the read data, and 00h beyond (R167 to R170). -/
def Port.afterRead (p : Port) (f : Capture) (extra : Nat) : Port :=
  { p with
    lastStatus := f.status, frame := none, selnLow := false
    sdo := [0, 0, 0, 0, p.lastStatus.code] ++ f.data ++ List.replicate extra 0 }

/-- The command is a frame that closes whole and asks for no read: the rows that the port takes only when no read frame is open. -/
def isTakenFrame : Instr → Bool
  | .unknown _ => true
  | .writeScheduleEntry _ _ _ _ => true
  | .writePartitionRecord _ _ _ _ _ _ => true
  | .writeInitiatorMap _ _ _ => true
  | .writeRegion _ _ _ _ _ _ => true
  | .writeMonitor _ _ _ _ _ _ _ => true
  | .writeTrigger _ _ _ _ _ _ _ _ => true
  | .writeAttentionMask _ _ _ => true
  | .requestSwitch _ _ => true
  | .setPartitionState _ _ _ => true
  | .flushPartition _ _ => true
  | .pathRestart _ => true
  | .acknowledge _ _ => true
  | .clearCounters _ => true
  | _ => false

/-- The command is a frame of the management port that closes, or the completion of a read frame's index bytes. -/
def isFrame : Instr → Bool
  | .indexComplete _ => true
  | .frameCutShort _ => true
  | .readEntry _ _ _ => true
  | .popFault _ => true
  | .readStatus _ => true
  | .readCounters _ _ => true
  | .readSnapshot _ _ => true
  | i => isTakenFrame i

end Machine
end Sys2Proof
end

