-- ==== Sys2Proof/WellFormed.lean ====
section
/-! DEFINITION. What a command's operands must satisfy beyond their types. -/

namespace Sys2Proof

/-- A request carries beats 0 to 31 (R61). -/
def requestBeatsOk (beats : Nat) : Bool := decide (beats ≤ 31)

/-- An answer carries 0 to 16 beats (R96). -/
def answerBeatsOk (data : List Beat) : Bool := decide (data.length ≤ 16)

/-- A frame whose close is FRAME_CUT_SHORT has fewer bytes than its command needs (R168). -/
def cutShortOk (bytes : List Byte) : Bool := decide (decodeFrame bytes = .frameCutShort bytes)

/-- A frame whose close is UNKNOWN has at least 5 bytes and a command code or table code that names nothing (R168). -/
def unknownOk (bytes : List Byte) : Bool := decide (decodeFrame bytes = .unknown bytes)

/-- The four bytes that complete a read frame's index name a read command (R170). -/
def indexBytesOk (bytes : IndexBytes) : Bool := bytes.command.isSome

/-- The operands are values the part can be given. -/
def Instr.wellFormed : Instr → Bool
  | .readRequest _ _ _ beats => requestBeatsOk beats
  | .writeRequest _ _ _ beats => requestBeatsOk beats
  | .unnamedKindRequest _ _ _ beats => requestBeatsOk beats
  | .answer _ _ data => answerBeatsOk data
  | .frameCutShort bytes => cutShortOk bytes
  | .unknown bytes => unknownOk bytes
  | .indexComplete bytes => indexBytesOk bytes
  | .pinReset => true
  | .rstnReturnsHigh _ => true
  | .slotStart => true
  | .deadlineExpiry => true
  | .cancel _ _ => true
  | .writeDataBeat _ _ _ _ => true
  | .downstreamTake => true
  | .arbiterChoice => true
  | .responseDelivery => true
  | .drstnPulseEnd => true
  | .evinEdge _ _ => true
  | .evinFirstLevel _ _ => true
  | .evoutPulseEnd _ => true
  | .heldCauseTaken => true
  | .readEntry _ _ _ => true
  | .writeScheduleEntry _ _ _ _ => true
  | .writePartitionRecord _ _ _ _ _ _ => true
  | .writeInitiatorMap _ _ _ => true
  | .writeRegion _ _ _ _ _ _ => true
  | .writeMonitor _ _ _ _ _ _ _ => true
  | .writeTrigger _ _ _ _ _ _ _ _ => true
  | .writeAttentionMask _ _ _ => true
  | .requestSwitch _ _ => true
  | .setPartitionState _ _ _ => true
  | .flushPartition _ _ => true
  | .pathRestart _ => true
  | .popFault _ => true
  | .acknowledge _ _ => true
  | .readStatus _ => true
  | .readCounters _ _ => true
  | .clearCounters _ => true
  | .readSnapshot _ _ => true
  | .shortRstnPulse => true
  | .frameOpenAcrossReset => true

end Sys2Proof
end

