-- ==== Sys2Proof/Certificates/Slice0/Obligations.lean ====
section
/-! DEFINITION. The statements for the provers. Where a command raises causes, a statement gives the state `u` that the command's own effect makes,
and the command answers `u.settle`: the same state after the trigger unit has taken the causes (CausesTakenFrame says what that may change). -/

open Sys2Proof Sys2Proof.Machine

/-! ### The machine -/

/-- A step runs the command at the front of the queue, on the rest of it, and idles on an empty queue. The queue is the model's own (log entries 1 and 2). -/
def Obligations.StepRunsFrontCommand : Prop :=
  (∀ (c : Instr) (rest : List Instr) (s : State), step { s with pending := c :: rest } = exec c { s with pending := rest }) ∧
    ∀ s : State, s.pending = [] → step s = .next s

/-- The values the chapters give every block while RSTN is low (R4, R8, R23, R61, R67, R79, R93, R117, R126, R134, R139, R140, R146, R152,
R156, R157, R166, R176). -/
def Obligations.ResetValues : Prop :=
  (State.reset.sched.tableA.roundLength = 8 ∧ State.reset.sched.tableA.slotLength = 16 ∧
    (∀ i : Fin 32, State.reset.sched.tableA.entries[i] = if i.val < 8 then .openSlot else .quiet) ∧
    (∀ p : PartitionId, State.reset.sched.tableA.allowance[p] = if p = 0 then 32 else 0) ∧ State.reset.sched.tableA.valid = true) ∧
  (State.reset.sched.tableB.roundLength = 8 ∧ State.reset.sched.tableB.slotLength = 16 ∧
    (∀ i : Fin 32, State.reset.sched.tableB.entries[i] = .quiet) ∧ (∀ p : PartitionId, State.reset.sched.tableB.allowance[p] = 0) ∧
    State.reset.sched.tableB.valid = false) ∧
  (State.reset.sched.active = .a ∧ State.reset.sched.pendingTarget = none ∧ State.reset.sched.round = 0 ∧ State.reset.sched.slot = 0 ∧
    State.reset.sched.slotCount = 0 ∧ (∀ p : PartitionId, State.reset.sched.remaining[p] = if p = 0 then 32 else 0) ∧
    State.reset.sched.slackPointer = 0) ∧
  (∀ p : PartitionId,
    State.reset.parts[p] =
      if p = 0 then { state := .run, quota := 64, slack := true, responseLimit := 0 }
      else { state := .off, quota := 0, slack := false, responseLimit := 0 }) ∧
  (State.reset.pool = [] ∧ State.reset.intake.heldPairs = [] ∧ State.reset.intake.refusal = none ∧
    (∀ i : Initiator, State.reset.intake.map[i] = some 0) ∧ State.reset.writes.reserved = 0 ∧ State.reset.writes.records = []) ∧
  (∀ k : Fin 16,
    State.reset.intake.regions[k] =
      if k = 0 then { base := 0, limit := 268435455, mask := 0xFF, readAllow := true, writeAllow := true, enabled := true }
      else { base := 0, limit := 0, mask := 0, readAllow := false, writeAllow := false, enabled := false }) ∧
  ((∀ d : DTag, State.reset.flight.table[d] = .free) ∧ State.reset.flight.output = none ∧ State.reset.flight.turn = .refusal ∧
    State.reset.flight.offer = none ∧ State.reset.flight.timeouts = [] ∧ State.reset.restart.phase = .idle ∧ State.reset.drstnLow = true ∧
    State.reset.intakeReady = false) ∧
  (State.reset.counters = Counters.zero ∧ State.reset.snapshot.counters = Counters.zero ∧ State.reset.snapshot.round = 0 ∧
    State.reset.snapshot.slot = 0 ∧ State.reset.snapshot.roundNumber = 0 ∧ State.reset.snapshot.slotCount = 0 ∧
    (∀ p : PartitionId,
      Counters.zero.parts[p] =
        { accepted := 0, retried := 0, refused := 0, lateCancels := 0, ownedIssues := 0, slackIssues := 0, lostOwned := 0, completedOk := 0
          completedError := 0, withdrawn := 0, lostRound := 0, retriedRound := 0 }) ∧
    Counters.zero.global = { stalled := 0, quiet := 0, idle := 0, restart := 0, unmappedRetries := 0, unmappedLateCancels := 0 }) ∧
  (∀ m : Fin 4,
    State.reset.monitors[m] =
      { enabled := false, object := .queue, argument := 0, condition := .atOrAbove, threshold := 0, last := false }) ∧
  (∀ i : Fin 8,
    State.reset.triggers.entries[i].enabled = false ∧ State.reset.triggers.entries[i].mode = .single ∧
      State.reset.triggers.entries[i].armed = false ∧ State.reset.triggers.entries[i].cause = .roundStart ∧
      State.reset.triggers.entries[i].causeArgument = 2 ∧ State.reset.triggers.entries[i].action = .attention ∧
      State.reset.triggers.entries[i].fireCount = 0) ∧
  (∀ k : EventLine, State.reset.triggers.seen[k] = none ∧ State.reset.triggers.outputs[k] = { level := false, pulse := none } ∧
    State.reset.evoutHigh k = false) ∧
  State.reset.triggers.held = [] ∧
  (State.reset.attention.queue = [] ∧ State.reset.attention.pendingSet = 0 ∧ State.reset.attention.mask = 0 ∧
    State.reset.attnnLow = false ∧ State.reset.port.lastStatus = .done ∧ State.reset.port.frame = none ∧ State.reset.sdoDriven = false)

/-- Every guarantee of Safety.lean holds at reset. -/
def Obligations.GuaranteesHoldAtReset : Prop := State.reset.Guarantees

/-- While RSTN is low no command but PIN_RESET and RSTN_RETURNS_HIGH has an effect (R8, R61, R81, R96, R146, R156, R167; log entry 24). -/
def Obligations.NothingTakenWhileLow : Prop :=
  ∀ (c : Instr) (s : State), s.line = .heldLow → c ≠ .pinReset → (∀ b, c ≠ .rstnReturnsHigh b) → exec c s = .next s

/-- A full pin reset gives every reset value in any state; a short pulse leaves a state that is not defined, and only a full reset ends that (R1).
The queue and the free-value counter are the model's own (log entry 18). -/
def Obligations.PinResetAndShortPulse : Prop :=
  (∀ s : State, exec .pinReset s = .next { State.reset with free := s.free, pending := s.pending }) ∧
    (∀ s : State, s.line = .running → ∃ t : State, exec .shortRstnPulse s = .next t ∧ t.line = .undefined ∧ t.pending = s.pending) ∧
    ∀ (c : Instr) (s : State), s.line = .undefined → c ≠ .pinReset → ∃ t : State, exec c s = .next t ∧ t.line = .undefined ∧ t.pending = s.pending

/-- RSTN returning high from reset makes slot 0 of round 0 at once, a round start, whose outcome with nothing queued is IDLE (R8, R54).
`selnLow` is the model's form of a frame open across the reset (log entry 17). RSTN that is high already does not return high (log entry 4). -/
def Obligations.LeavingReset : Prop :=
  (∀ (selnLow : Bool) (free : Nat) (pending : List Instr),
    exec (.rstnReturnsHigh selnLow) { State.reset with free := free, pending := pending } =
      .next
        { State.reset with
          line := .running
          counters := { Counters.zero with global := { GlobalCounters.zero with idle := 1 } }
          port := { State.reset.port with selnLow := selnLow, acrossReset := selnLow }
          free := free + 1
          pending := pending }) ∧
    ∀ (selnLow : Bool) (s : State), s.line = .running → exec (.rstnReturnsHigh selnLow) s = .next s

/-! ### Slot starts -/

/-- A slot start's own work: the counts advance, and at the end of a round the pending target is examined, the allowances are loaded, the
per-round counts cleared, ROUND START and then SWITCH TAKEN raised, and each entry whose deadline round begins expires (R5, R6, R7, R9, R15, R16, R102, R135, R148).
It emits no other cause: those of the monitors handed a value, of the TIMEOUT faults that reach the queue in d-tag order, and of partitions made OFF (R148).
Some of the first TIMEOUT faults then on their way reach the fault queue with it (R161). The head age of a queue that is not empty goes to its AGE monitors (R41).
`w` is the state once the TIMEOUT faults of an earlier round start have reached the queue: DeadlineExpiry says what it is, and it is `s` where none is on its way.
That the causes are taken after the decision, that a round start makes its expiries with it, and when TIMEOUT faults reach the queue are log entries 7 and 8; the
last slot is the one at or beyond the round length (log entry 20). -/
def Obligations.SlotStartTiming : Prop :=
  (∀ u : ScheduleUnit, u.table .a = u.tableA ∧ u.table .b = u.tableB ∧ u.activeTable = u.table u.active) ∧
  ∀ s w : State, s.line = .running → w = s.settleTimeouts →
    exec .slotStart s = .next s.atDecision.runSlot.settle ∧
      s.atDecision.sched.slotCount = w.sched.slotCount + 1 ∧
      (w.sched.slot + 1 < w.sched.activeTable.roundLength →
        s.atDecision.sched = { w.sched with slot := w.sched.slot + 1, slotCount := w.sched.slotCount + 1 } ∧
          s.atDecision.counters = w.counters ∧ s.atDecision.attention = w.attention ∧ s.atDecision.flight = w.flight ∧
          s.atDecision.parts = w.parts ∧ Emits w s.atDecision [] w.agesHanded) ∧
      (w.sched.activeTable.roundLength ≤ w.sched.slot + 1 →
        s.atDecision.sched.slot = 0 ∧ s.atDecision.sched.round = w.sched.round + 1 ∧
          s.atDecision.sched.active = w.sched.pendingTarget.getD w.sched.active ∧ s.atDecision.sched.pendingTarget = none ∧
          s.atDecision.sched.remaining = s.atDecision.sched.activeTable.allowance ∧
          (∀ p : PartitionId, s.atDecision.counters.parts[p] = { w.counters.parts[p] with lostRound := 0, retriedRound := 0 }) ∧
          s.atDecision.causesFrom .scheduleUnit =
            w.causesFrom .scheduleUnit ++
              .roundStart s.atDecision.sched.active :: (if s.atDecision.sched.active ≠ w.sched.active then [.switchTaken] else []) ∧
          (s.atDecision.sched.active ≠ w.sched.active → s.atDecision.attention.isPending .switch = true) ∧
          s.atDecision.causesFrom .triggerUnit = w.causesFrom .triggerUnit ∧
          s.atDecision.causesFrom .restartControl = w.causesFrom .restartControl ∧
          ∃ (n : Nat) (due : List DTag), Expired w s.atDecision (w.sched.round + 1) 0 n due ∧
            MonitorsHanded w s.atDecision
              (roundCounts ++ List.replicate due.length .orphans ++ List.replicate n .faults ++ w.agesHanded)) ∧
      (∀ (i : Fin 4) (p : PartitionId), w.monitors[i].enabled = true → w.monitors[i].quantity = .age p → w.head p ≠ none →
        s.atDecision.monitors[i].last = w.monitors[i].result (s.atDecision.headAge p).toNat) ∧
      s.atDecision.sched.tableA = w.sched.tableA ∧ s.atDecision.sched.tableB = w.sched.tableB ∧
      s.atDecision.sched.slackPointer = w.sched.slackPointer ∧ s.atDecision.counters.global = w.counters.global ∧
      s.atDecision.pool = w.pool ∧ s.atDecision.writes = w.writes ∧ s.atDecision.flight.output = w.flight.output ∧
      s.atDecision.flight.turn = w.flight.turn ∧ s.atDecision.flight.offer = w.flight.offer ∧ s.atDecision.intake = w.intake ∧
      s.atDecision.restart = w.restart ∧ SlotFrame w s.atDecision

/-- The outcomes in which nothing is issued, in the order of the decision: RESTART, QUIET, STALLED, and IDLE of an OPEN slot, of a lost slot that
is not lent, and of one that is lent with no partition qualifying (R3, R43 to R51, R54). The slot's entry is the active table's at the slot index. No cause is emitted but
those of the monitors of the lost-owned count of the round (R44, R148). The decision comes before the causes are taken (log entry 8). `modifyAt` changes one partition's counters
and leaves the others. -/
def Obligations.SlotWithoutIssue : Prop :=
  (∀ (v : Vector PartitionCounters 8) (p q : PartitionId) (f : PartitionCounters → PartitionCounters),
    (modifyAt v p f)[q] = if q = p then f v[q] else v[q]) ∧
  ∀ s : State, s.line = .running →
    (s.atDecision.restart.phase ≠ .idle →
      exec .slotStart s = .next (s.atDecision.countGlobal fun c => { c with restart := c.restart + 1 }).settle) ∧
    ∀ i : Fin 32, s.atDecision.sched.slot = i.val →
      (s.atDecision.restart.phase = .idle → s.atDecision.sched.activeTable.entries[i] = .quiet →
        exec .slotStart s = .next (s.atDecision.countGlobal fun c => { c with quiet := c.quiet + 1 }).settle) ∧
      (s.atDecision.restart.phase = .idle → s.atDecision.sched.activeTable.entries[i] ≠ .quiet →
        ((∀ d : DTag, s.atDecision.flight.table[d] ≠ .free) ∨ s.atDecision.flight.output ≠ none) →
        exec .slotStart s = .next (s.atDecision.countGlobal fun c => { c with stalled := c.stalled + 1 }).settle) ∧
      (s.atDecision.restart.phase = .idle → s.atDecision.sched.activeTable.entries[i] = .openSlot →
        (∃ d : DTag, s.atDecision.flight.table[d] = .free) → s.atDecision.flight.output = none →
        (∀ p : PartitionId, s.atDecision.qualifies p = false) →
        exec .slotStart s = .next (s.atDecision.countGlobal fun c => { c with idle := c.idle + 1 }).settle) ∧
      ∀ (p : PartitionId) (lend : Bool), s.atDecision.restart.phase = .idle → s.atDecision.sched.activeTable.entries[i] = .owned p lend →
        (∃ d : DTag, s.atDecision.flight.table[d] = .free) → s.atDecision.flight.output = none → s.atDecision.eligible p = false →
        (lend = true → ∀ q : PartitionId, s.atDecision.qualifies q = false) →
        ∃ u : State, exec .slotStart s = .next u.settle ∧
          u.counters =
            { parts := modifyAt s.atDecision.counters.parts p fun c =>
                { c with
                  lostOwned := c.lostOwned + 1
                  lostRound := if c.lostRound < 65535 then c.lostRound + 1 else c.lostRound }
              global := { s.atDecision.counters.global with idle := s.atDecision.counters.global.idle + 1 } } ∧
          u.sched = s.atDecision.sched ∧ u.pool = s.atDecision.pool ∧ u.writes = s.atDecision.writes ∧ u.flight = s.atDecision.flight ∧
          u.intake = s.atDecision.intake ∧ u.restart = s.atDecision.restart ∧ u.parts = s.atDecision.parts ∧
          u.attention = s.atDecision.attention ∧ SlotFrame s.atDecision u ∧ Emits s.atDecision u [] [.lostRound p]

/-- Who may issue: a partition is eligible when it is RUN or CLOSING and its head is a READ or a WRITE with its data complete, and qualifies for
slack when besides its flag is yes and its remaining allowance is 1 or more (R40, R48, R52). Its queue is its WAITING entries in order, its head the first of them, and the head
age the slot count less the head's stamp, 0 where the queue is empty (R37, R41). -/
def Obligations.WhoMayIssue : Prop :=
  (∀ (s : State) (p : PartitionId),
    s.queue p = s.pool.filter (fun e => decide (e.state = .waiting ∧ e.partition = p)) ∧ s.head p = (s.queue p).head? ∧
      s.headAge p = match s.queue p with | [] => 0 | e :: _ => s.sched.slotCount - e.stamp) ∧
  ∀ (s : State) (p : PartitionId),
    (s.eligible p = true ↔
      (s.parts[p].state = .run ∨ s.parts[p].state = .closing) ∧
        ∃ before e after, s.pool = before ++ e :: after ∧ (∀ x ∈ before, ¬(x.state = .waiting ∧ x.partition = p)) ∧ e.state = .waiting ∧
          e.partition = p ∧ (e.kind = .read ∨ (e.kind = .write ∧ e.dataComplete = some true))) ∧
      (s.qualifies p = true ↔ s.eligible p = true ∧ s.parts[p].slack = true ∧ 1 ≤ s.sched.remaining[p])

/-- An owned slot whose owner is eligible, with the path open, issues the owner's head; allowances and pointer do not move (R48, R55 to R58).
No cause is emitted but those of the monitors of the quantities an issue changes (R44, R148). The decision comes before the causes are taken (log entry 8). -/
def Obligations.OwnedIssue : Prop :=
  ∀ (s : State) (i : Fin 32) (p : PartitionId) (lend : Bool) (e : PoolEntry) (d : DTag), s.line = .running →
    s.atDecision.restart.phase = .idle → s.atDecision.sched.slot = i.val → s.atDecision.sched.activeTable.entries[i] = .owned p lend →
    s.atDecision.flight.output = none → s.atDecision.flight.table[d] = .free →
    (∀ d' : DTag, d' < d → s.atDecision.flight.table[d'] ≠ .free) → s.atDecision.eligible p = true → s.atDecision.head p = some e →
    ∃ u : State, exec .slotStart s = .next u.settle ∧ Issued s.atDecision u p e d ∧
      u.counters.parts = modifyAt s.atDecision.counters.parts p (fun c => { c with ownedIssues := c.ownedIssues + 1 }) ∧
      u.sched = s.atDecision.sched ∧ SlotFrame s.atDecision u ∧ Emits s.atDecision u [] (issueMoved p e)

/-- Slack arbitration of an OPEN slot, or of an owned slot lent after a loss: the first partition from the pointer on that qualifies wins, its head is
issued, its allowance falls by 1, and the pointer moves past it (R50 to R53). No cause is emitted but those of the monitors of the quantities that a loss and an issue
change (R44, R148). The decision comes before the causes are taken (log entry 8). -/
def Obligations.SlackIssue : Prop :=
  ∀ (s : State) (i : Fin 32) (k : Fin 8) (w : PartitionId) (e : PoolEntry) (d : DTag), s.line = .running →
    s.atDecision.restart.phase = .idle → s.atDecision.sched.slot = i.val → s.atDecision.flight.output = none → s.atDecision.flight.table[d] = .free →
    (∀ d' : DTag, d' < d → s.atDecision.flight.table[d'] ≠ .free) →
    w = s.atDecision.sched.slackPointer + k → (∀ j : Fin 8, j < k → s.atDecision.qualifies (s.atDecision.sched.slackPointer + j) = false) →
    s.atDecision.qualifies w = true → s.atDecision.head w = some e →
    (s.atDecision.sched.activeTable.entries[i] = .openSlot →
      ∃ u : State, exec .slotStart s = .next u.settle ∧ Issued s.atDecision u w e d ∧
        u.counters.parts = modifyAt s.atDecision.counters.parts w (fun c => { c with slackIssues := c.slackIssues + 1 }) ∧
        u.sched =
          { s.atDecision.sched with
            remaining := modifyAt s.atDecision.sched.remaining w (fun n => n - 1), slackPointer := w + 1 } ∧
        SlotFrame s.atDecision u ∧ Emits s.atDecision u [] (issueMoved w e)) ∧
    ∀ p : PartitionId, s.atDecision.sched.activeTable.entries[i] = .owned p true → s.atDecision.eligible p = false →
      ∃ u : State, exec .slotStart s = .next u.settle ∧ Issued s.atDecision u w e d ∧
        u.counters.parts =
          modifyAt
            (modifyAt s.atDecision.counters.parts p fun c =>
              { c with
                lostOwned := c.lostOwned + 1
                lostRound := if c.lostRound < 65535 then c.lostRound + 1 else c.lostRound }) w
            (fun c => { c with slackIssues := c.slackIssues + 1 }) ∧
        u.sched =
          { s.atDecision.sched with
            remaining := modifyAt s.atDecision.sched.remaining w (fun n => n - 1), slackPointer := w + 1 } ∧
        SlotFrame s.atDecision u ∧ Emits s.atDecision u [] (.lostRound p :: issueMoved w e)

/-- A table passes validation when all five conditions of R12 hold, and a table that fails any of them is not made pending (R12). -/
def Obligations.TableValidation : Prop :=
  (∀ (s : State) (x : TableName), (s.sched.table x).valid = false → (s.requestTarget x).state = s) ∧
  ∀ t : ScheduleTable,
    t.valid = true ↔
      (4 ≤ t.roundLength ∧ t.roundLength ≤ 32) ∧ (8 ≤ t.slotLength ∧ t.slotLength ≤ 64) ∧
        (∃ i : Fin 32, i.val < t.roundLength ∧ t.entries[i] ≠ .quiet) ∧ (∀ p : PartitionId, t.allowance[p] ≤ 32) ∧
        ∀ i : Fin 32, i.val < t.roundLength → ∀ (p : PartitionId) (lend : Bool), t.entries[i] = .owned p lend → p.val ≤ 7

/-- Each ISSUED entry whose deadline round is the present round expires, in increasing d-tag order: ORPHANED with its TIMEOUT owed, the last places in turn,
a TIMEOUT fault each on its way, and the closing check of its partition (R102, R115). The next TIMEOUT fault on its way reaches the fault queue (R160, R161). With none
due and none on its way there is no effect (log entry 4); a SLOT_START that is a round start has made its expiries already (log entry 7).
The TIMEOUT faults still on their way at a SLOT_START or an ANSWER are settled first: one after the other reaches the queue and its causes are taken. No other cause
is emitted than the monitors', the faults' and those of partitions made OFF (R148). -/
def Obligations.DeadlineExpiry : Prop :=
  (∀ s : State, s.line = .running →
    ∃ (u : State) (due : List DTag), exec .deadlineExpiry s = .next u.settle ∧ Expired s u s.sched.round s.sched.slot 1 due ∧
      MonitorsHanded s u (List.replicate due.length .orphans ++ [.faults]) ∧ u.causesFrom .scheduleUnit = s.causesFrom .scheduleUnit ∧
      u.causesFrom .triggerUnit = s.causesFrom .triggerUnit ∧ u.causesFrom .restartControl = s.causesFrom .restartControl ∧ u.flight.output = s.flight.output ∧
      u.flight.turn = s.flight.turn ∧ u.flight.offer = s.flight.offer ∧ u.pool = s.pool ∧ u.writes = s.writes ∧ u.intake = s.intake ∧
      u.restart = s.restart ∧ u.counters = s.counters ∧ DataPathFrame s u) ∧
    (∀ s : State, s.line = .running → s.CausesTaken → s.flight.timeouts = [] →
      (∀ (d : DTag) (t : Transaction), s.flight.table[d] = .issued t → t.deadline ≠ some s.sched.round) → exec .deadlineExpiry s = .next s) ∧
    (∀ s : State, s.flight.timeouts = [] → s.settleTimeouts = s) ∧
    ∀ (s : State) (record : FaultRecord) (rest : List FaultRecord), s.flight.timeouts = record :: rest →
      ∃ u : State, s.settleTimeouts = u.settle.settleTimeouts ∧ u.flight = { s.flight with timeouts := rest } ∧ FaultsArrived s u [record] ∧
        u.attention.latched = latchedByFault s ∧ u.pool = s.pool ∧ u.writes = s.writes ∧ u.intake = s.intake ∧ u.restart = s.restart ∧
        u.parts = s.parts ∧ u.counters = s.counters ∧ DataPathFrame s u ∧ Emits s u [.fault record.kind] [.faults]

/-! ### The intake -/

/-- A request is well-shaped when its kind is named and the three conditions of R62 hold, and it passes the region check when one of the 16 regions is enabled,
covers its granule, admits its partition and allows its kind (R62, R68). -/
def Obligations.ShapeAndRegionChecks : Prop :=
  (∀ r : Request,
    r.wellShaped = true ↔
      r.kind ≠ none ∧ (1 ≤ r.beats ∧ r.beats ≤ 16) ∧ r.address.toNat % 16 = 0 ∧
        r.address.toNat / 4096 = (r.address.toNat + r.beats * 16 - 1) / 4096) ∧
  ∀ (s : State) (r : Request) (p : PartitionId),
    s.regionPasses r p = true ↔
      ∃ k : Fin 16, s.intake.regions[k].enabled = true ∧
        (s.intake.regions[k].base.toNat ≤ r.address.toNat / 4096 ∧ r.address.toNat / 4096 ≤ s.intake.regions[k].limit.toNat) ∧
        s.intake.regions[k].mask.getLsb p = true ∧
        ((r.kind = some .read ∧ s.intake.regions[k].readAllow = true) ∨ (r.kind = some .write ∧ s.intake.regions[k].writeAllow = true))

/-- The checks 1 to 9 in their order, each with its answer, its counter and its fault, and no cause but the fault's and the monitors' (R63 to R66, R68, R71 to R73, R75 to
R77, R148). The channel is ready while RSTN is high and the refusal slot is empty (R61), an initiator is
mapped by its map entry (R65), and the held count of a partition is the number of its pool entries (R24). While the slot holds a response no request is taken, and it waits with its
sender (R61, R75; log entry 4). -/
def Obligations.RequestTurnedAway : Prop :=
  (∀ s : State, s.intakeReady = true ↔ s.line ≠ .heldLow ∧ s.intake.refusal = none) ∧
  (∀ (s : State) (i : Initiator) (p : PartitionId),
    s.mapped i = s.intake.map[i] ∧ s.heldCount p = (s.pool.filter fun e => decide (e.partition = p)).length) ∧
  (∀ (i : Instr) (r : Request) (s : State), requestOf i = some r → s.line = .running → s.CausesTaken → s.intake.refusal ≠ none →
    exec i s = .next s) ∧
  ∀ (i : Instr) (r : Request) (s : State), requestOf i = some r → s.line = .running → s.intake.refusal = none →
    (s.restart.phase ≠ .idle →
      ∃ u : State, exec i s = .next u.settle ∧ TurnedAway s u r .retry [] (retryMoved (s.mapped r.pair.initiator)) ∧
        u.counters = retryCounters s (s.mapped r.pair.initiator) ∧ NoFault s u) ∧
    (s.restart.phase = .idle → r.wellShaped = false →
      ∃ u : State, exec i s = .next u.settle ∧ TurnedAway s u r .refused [.fault .shape] [.faults] ∧
          u.counters = refusedCounters s (s.mapped r.pair.initiator) ∧
        FaultRecorded s u .shape (s.mapped r.pair.initiator) (some r.pair) (some r.address) none ∧ u.attention.latched = latchedByFault s) ∧
    (s.restart.phase = .idle → r.wellShaped = true → r.pair ∈ s.intake.heldPairs →
      ∃ u : State, exec i s = .next u.settle ∧ TurnedAway s u r .tagErr [.fault .tag] [.faults] ∧
          u.counters = refusedCounters s (s.mapped r.pair.initiator) ∧
        FaultRecorded s u .tag (s.mapped r.pair.initiator) (some r.pair) none none ∧ u.attention.latched = latchedByFault s) ∧
    (s.restart.phase = .idle → r.wellShaped = true → r.pair ∉ s.intake.heldPairs →
      (s.mapped r.pair.initiator = none →
        ∃ u : State, exec i s = .next u.settle ∧ TurnedAway s u r .refused [.fault .unmapped] [.faults] ∧
          u.counters = s.counters ∧
          FaultRecorded s u .unmapped none (some r.pair) none none ∧ u.attention.latched = latchedByFault s) ∧
      ∀ p : PartitionId, s.mapped r.pair.initiator = some p →
        (s.parts[p].state = .off →
          ∃ u : State, exec i s = .next u.settle ∧ TurnedAway s u r .refused [.fault .closed] [.faults] ∧
          u.counters = refusedCounters s (some p) ∧
            FaultRecorded s u .closed (some p) (some r.pair) none none ∧ u.attention.latched = latchedByFault s) ∧
        (s.parts[p].state = .closing →
          ∃ u : State, exec i s = .next u.settle ∧ TurnedAway s u r .retry [] [.retryRound p] ∧ u.counters = retryCounters s (some p) ∧ NoFault s u) ∧
        (s.parts[p].state = .run ∨ s.parts[p].state = .hold →
          (s.regionPasses r p = false →
            ∃ u : State, exec i s = .next u.settle ∧ TurnedAway s u r .refused [.fault .range] [.faults] ∧
          u.counters = refusedCounters s (some p) ∧
              FaultRecorded s u .range (some p) (some r.pair) (some r.address) none ∧ u.attention.latched = latchedByFault s) ∧
          (s.regionPasses r p = true → s.heldCount p = s.parts[p].quota →
            ∃ u : State, exec i s = .next u.settle ∧ TurnedAway s u r .retry [] [.retryRound p] ∧ u.counters = retryCounters s (some p) ∧ NoFault s u) ∧
          (s.regionPasses r p = true → s.heldCount p ≠ s.parts[p].quota → r.kind = some .write →
            (256 - s.writes.reserved < r.beats ∨ 48 ≤ s.writes.records.length) →
            ∃ u : State, exec i s = .next u.settle ∧ TurnedAway s u r .retry [] [.retryRound p] ∧ u.counters = retryCounters s (some p) ∧ NoFault s u)))

/-- A READ or WRITE that no check stops is accepted: it joins the tail of its partition's queue, its pair is held, ACCEPTED rises, and a WRITE reserves
its beats and opens a record (R36, R63 check 10, R74, R84). No cause is emitted but those of the monitors of the held count, of a new head's age and of the reserved
count (R74, R148). -/
def Obligations.RequestAccepted : Prop :=
  ∀ (i : Instr) (r : Request) (k : AccessKind) (p : PartitionId) (s : State), requestOf i = some r → r.kind = some k → s.line = .running →
    s.intake.refusal = none → s.restart.phase = .idle → r.wellShaped = true → r.pair ∉ s.intake.heldPairs →
    s.mapped r.pair.initiator = some p → s.parts[p].state = .run ∨ s.parts[p].state = .hold → s.regionPasses r p = true →
    s.heldCount p ≠ s.parts[p].quota → (k = .write → r.beats ≤ 256 - s.writes.reserved ∧ s.writes.records.length < 48) →
    ∃ u : State, exec i s = .next u.settle ∧
      u.pool =
        s.pool ++
          [{ partition := p, pair := r.pair, kind := k, address := r.address, beats := r.beats, stamp := s.sched.slotCount
             dataComplete := if k = .write then some false else none, state := .waiting }] ∧
      u.intake = { s.intake with heldPairs := s.intake.heldPairs ++ [r.pair] } ∧
      u.counters = countersWith s p (fun c => { c with accepted := c.accepted + 1 }) ∧ (k = .read → u.writes = s.writes) ∧
      (k = .write →
        u.writes.reserved = s.writes.reserved + r.beats ∧
          u.writes.records =
            s.writes.records ++
              [{ pair := r.pair, owner := some r.pair, partition := p, declared := r.beats, received := 0, state := .receiving, stored := [] }]) ∧
      u.flight = s.flight ∧ u.restart = s.restart ∧ u.parts = s.parts ∧ u.attention = s.attention ∧ DataPathFrame s u ∧
      Emits s u [] (.queue p :: ((if s.queue p = [] then [.age p] else []) ++ if k = .write then [.wbuf] else []))

/-- A CANCEL withdraws the WAITING entry that holds its pair, with CANCELLED; otherwise it is counted as late, and nothing is touched (R78, R118 to R120). A
withdrawal emits no cause but those of the monitors of the head age and the reserved count (R118, R119, R148). While the refusal slot holds a response it is not taken (R75, R78; log entry 4). -/
def Obligations.CancelOutcome : Prop :=
  (∀ (ini : Initiator) (tag : Tag) (s : State), s.line = .running → s.CausesTaken → s.intake.refusal ≠ none →
    exec (.cancel ini tag) s = .next s) ∧
  ∀ (ini : Initiator) (tag : Tag) (s : State), s.line = .running → s.intake.refusal = none →
    ((∃ e ∈ s.pool, e.state = .waiting ∧ e.pair = { initiator := ini, tag := tag }) →
      ∃ (u : State) (e : PoolEntry), exec (.cancel ini tag) s = .next u.settle ∧ e ∈ s.pool ∧ e.state = .waiting ∧
        e.pair = { initiator := ini, tag := tag } ∧ Emits s u [] [.age e.partition, .wbuf] ∧
        u.pool = s.pool.map (s.withdrawnEntry (fun e => e.pair == { initiator := ini, tag := tag }) .cancelled) ∧
        u.writes = (s.withdraw (fun e => e.pair == { initiator := ini, tag := tag }) .cancelled).writes ∧ u.intake = s.intake ∧
        u.flight = s.flight ∧ u.restart = s.restart ∧ u.parts = s.parts ∧ u.counters = s.counters ∧ NoFault s u ∧ DataPathFrame s u) ∧
    ((∀ e ∈ s.pool, e.state = .waiting → e.pair ≠ { initiator := ini, tag := tag }) →
      exec (.cancel ini tag) s =
        .next
          (State.settle
            { s with
              counters :=
                match s.mapped ini with
                | none =>
                  { s.counters with
                    global := { s.counters.global with unmappedLateCancels := s.counters.global.unmappedLateCancels + 1 } }
                | some p => countersWith s p fun c => { c with lateCancels := c.lateCancels + 1 } }))

/-- What a withdrawal makes of each WAITING entry chosen and of its record, what it takes off the reserved count, and that it leaves every other entry
and record as it was (R38, R89). -/
def Obligations.WithdrawalOfOneEntry : Prop :=
  ∀ (s : State) (chosen : PoolEntry → Bool) (status : WithdrawalStatus), s.RecordsKept →
    (∀ e ∈ s.pool, e.state = .waiting → chosen e = true →
      (e.kind = .read → { e with state := .answering status true } ∈ (s.withdraw chosen status).pool) ∧
        ∀ r ∈ s.writes.records, e.kind = .write → r.pair = e.pair →
          (r.state = .complete ∨ (r.state = .receiving ∧ r.received = 0) →
            { e with state := .answering status true } ∈ (s.withdraw chosen status).pool ∧
              ∀ x ∈ (s.withdraw chosen status).writes.records, x.pair ≠ e.pair) ∧
          (r.state = .receiving → 1 ≤ r.received →
            { e with state := .answering status false } ∈ (s.withdraw chosen status).pool ∧
              { r with state := .discarding, owner := none, stored := [] } ∈ (s.withdraw chosen status).writes.records)) ∧
    (s.withdraw chosen status).pool = s.pool.map (s.withdrawnEntry chosen status) ∧
    (∀ e : PoolEntry, e.state ≠ .waiting ∨ chosen e = false → s.withdrawnEntry chosen status e = e) ∧
    (∀ e : PoolEntry, e.state = .waiting → chosen e = true →
      ∃ released : Bool, s.withdrawnEntry chosen status e = { e with state := .answering status released } ∧
        (released = false ↔ e.kind = .write ∧ ∃ r ∈ s.writes.records, r.pair = e.pair ∧ r.state = .receiving ∧ 1 ≤ r.received)) ∧
    (s.withdraw chosen status).writes.reserved =
      s.writes.reserved - ((s.pool.filter fun e => e.isWaiting && e.kind == .write && chosen e).map PoolEntry.beats).sum ∧
    (∀ r ∈ s.writes.records,
      (∀ e ∈ s.pool, e.state = .waiting → e.kind = .write → chosen e = true → e.pair ≠ r.pair) →
        r ∈ (s.withdraw chosen status).writes.records) ∧
    (∀ x ∈ (s.withdraw chosen status).writes.records,
      x ∈ s.writes.records ∨
        ∃ r ∈ s.writes.records, r.state = .receiving ∧ 1 ≤ r.received ∧ x = { r with state := .discarding, owner := none, stored := [] }) ∧
    ((s.withdraw chosen status).writes.records.map OpenWrite.pair).Sublist (s.writes.records.map OpenWrite.pair) ∧
    s.withdraw chosen status = { s with pool := (s.withdraw chosen status).pool, writes := (s.withdraw chosen status).writes }

/-! ### Write data -/

/-- A beat for a RECEIVING record that does not break the write is stored, and the last one in good order completes it (R81, R85). The record found is the one of the pair. -/
def Obligations.BeatGathered : Prop :=
  (∀ (pair : Pair) (s : State), s.findRecord pair = s.writes.records.find? fun r => decide (r.pair = pair)) ∧
  ∀ (ini : Initiator) (tag : Tag) (data : Beat) (r : OpenWrite) (s : State), s.line = .running →
    s.findRecord { initiator := ini, tag := tag } = some r → r.state = .receiving →
    (r.received + 1 < r.declared →
      exec (.writeDataBeat ini tag data false) s =
        .next
          (State.settle
            { s with
              writes :=
                { s.writes with
                  records :=
                    s.writes.records.map fun x =>
                      if x.pair = { initiator := ini, tag := tag } then
                        { x with received := x.received + 1, stored := x.stored ++ [data] }
                      else x } })) ∧
    (r.received + 1 = r.declared → r.owner = some { initiator := ini, tag := tag } →
      exec (.writeDataBeat ini tag data true) s =
        .next
          (State.settle
            { s with
              pool :=
                s.pool.map fun e =>
                  if e.isWaiting = true ∧ e.pair = { initiator := ini, tag := tag } then { e with dataComplete := some true } else e
              writes :=
                { s.writes with
                  records :=
                    s.writes.records.map fun x =>
                      if x.pair = { initiator := ini, tag := tag } then
                        { x with received := x.received + 1, stored := x.stored ++ [data], state := .complete }
                      else x } }))

/-- A beat with an early or a missing last flag breaks the write: its record is freed, its entry withdrawn with ABORTED and released, its reservation
given up, and a WDATA fault recorded (R86, R94). -/
def Obligations.BeatBreaksWrite : Prop :=
  ∀ (ini : Initiator) (tag : Tag) (data : Beat) (last : Bool) (r : OpenWrite) (s : State), s.line = .running →
    s.findRecord { initiator := ini, tag := tag } = some r → r.state = .receiving →
    (last = true ∧ r.received + 1 < r.declared) ∨ (last = false ∧ r.received + 1 = r.declared) →
    ∃ u : State, exec (.writeDataBeat ini tag data last) s = .next u.settle ∧
      u.pool =
        s.pool.map (fun e =>
          if e.isWaiting = true ∧ e.pair = { initiator := ini, tag := tag } then { e with state := .answering .aborted true } else e) ∧
      u.writes.records = s.writes.records.filter (fun x => x.pair != { initiator := ini, tag := tag }) ∧
      u.writes.reserved =
        s.writes.reserved -
          ((s.pool.filter fun e => e.isWaiting && e.kind == .write && e.pair == { initiator := ini, tag := tag }).map PoolEntry.beats).sum ∧
      FaultRecorded s u .wdata (some r.partition) (some { initiator := ini, tag := tag }) none none ∧
      u.attention.latched = latchedByFault s ∧ u.intake = s.intake ∧ u.flight = s.flight ∧ u.restart = s.restart ∧ u.parts = s.parts ∧
      u.counters = s.counters ∧ DataPathFrame s u ∧ Emits s u [.fault .wdata] [.age r.partition, .wbuf, .faults]

/-- A beat that finds no record or a COMPLETE one is stray and dropped with a fault; one for a DISCARDING record is dropped without, and the last of
them frees the record, releases the held-back answer and has closing checked (R87, R90, R94). -/
def Obligations.BeatStrayOrDiscarded : Prop :=
  (∀ (pair : Pair) (e : PoolEntry),
    e.releaseFor pair =
      match e.state with
      | .waiting => e
      | .answering status _ => if e.pair = pair then { e with state := .answering status true } else e) ∧
  ∀ (ini : Initiator) (tag : Tag) (data : Beat) (last : Bool) (s : State), s.line = .running →
    (s.findRecord { initiator := ini, tag := tag } = none →
      ∃ u : State, exec (.writeDataBeat ini tag data last) s = .next u.settle ∧
        FaultRecorded s u .strayData none (some { initiator := ini, tag := tag }) none none ∧ u.attention.latched = latchedByFault s ∧
        u.pool = s.pool ∧ u.writes = s.writes ∧ u.intake = s.intake ∧ u.flight = s.flight ∧ u.restart = s.restart ∧ u.parts = s.parts ∧
        u.counters = s.counters ∧ DataPathFrame s u ∧ Emits s u [.fault .strayData] [.faults]) ∧
    ∀ r : OpenWrite, s.findRecord { initiator := ini, tag := tag } = some r →
      (r.state = .complete →
        ∃ u : State, exec (.writeDataBeat ini tag data last) s = .next u.settle ∧
          FaultRecorded s u .strayData (some r.partition) (some { initiator := ini, tag := tag }) none none ∧
          u.attention.latched = latchedByFault s ∧ u.pool = s.pool ∧ u.writes = s.writes ∧ u.intake = s.intake ∧ u.flight = s.flight ∧
          u.restart = s.restart ∧ u.parts = s.parts ∧ u.counters = s.counters ∧ DataPathFrame s u ∧
          Emits s u [.fault .strayData] [.faults]) ∧
      (r.state = .discarding → last = false → r.received + 1 ≠ r.declared →
        exec (.writeDataBeat ini tag data last) s =
          .next
            (State.settle
              { s with
                writes :=
                  { s.writes with
                    records :=
                      s.writes.records.map fun x =>
                        if x.pair = { initiator := ini, tag := tag } then { x with received := x.received + 1 } else x } })) ∧
      (r.state = .discarding → last = true ∨ r.received + 1 = r.declared →
        ∃ u : State, exec (.writeDataBeat ini tag data last) s = .next u.settle ∧
          u.pool = s.pool.map (PoolEntry.releaseFor { initiator := ini, tag := tag }) ∧
          u.writes = { s.writes with records := s.writes.records.filter fun x => x.pair != { initiator := ini, tag := tag } } ∧
          ClosingChecked s u r.partition ∧ u.attention.queue = s.attention.queue ∧ u.intake = s.intake ∧ u.flight = s.flight ∧
          u.restart = s.restart ∧ u.counters = s.counters ∧ DataPathFrame s u ∧ Emits s u (closingCauses s u r.partition) [])

/-! ### Downstream and answers -/

/-- The memory controller's take empties the output register and changes nothing else (R95; from an empty one nothing is taken, log entry 4).
An answer for an ISSUED entry makes it RETURNING, with the status and read beats of R99, the last place in turn, and a DOWN ERR fault with DERR (R99, R115).
`w` is the state once the TIMEOUT faults still on their way have reached the queue (R161; log entry 7): DeadlineExpiry says what it is, and it is `s` where none is. -/
def Obligations.TakeAndAnswer : Prop :=
  (∀ s : State, s.line = .running → exec .downstreamTake s = .next { s with flight := { s.flight with output := none } }) ∧
  ∀ (d : DTag) (status : AnswerStatus) (data : List Beat) (t : Transaction) (s w : State), s.line = .running → w = s.settleTimeouts →
    s.flight.table[d] = .issued t →
    ((status = .ok ∧ (t.kind = .write ∨ data.length = t.beats)) →
      exec (.answer d status data) s =
        .next
          (State.settle
            { w with
              flight :=
                { s.flight with
                  table := s.flight.table.set d (.returning t .okay (if t.kind = .read then data else []))
                  places := s.flight.places ++ [d]
                  timeouts := [] } })) ∧
    ((status = .err ∨ (t.kind = .read ∧ data.length ≠ t.beats)) →
      ∃ u : State, exec (.answer d status data) s = .next u.settle ∧
        u.flight =
          { s.flight with table := s.flight.table.set d (.returning t .derr []), places := s.flight.places ++ [d], timeouts := [] } ∧
        FaultRecorded w u .downErr (some t.partition) (some t.pair) (some t.address) (some d) ∧ u.attention.latched = latchedByFault w ∧
        u.pool = w.pool ∧ u.writes = w.writes ∧ u.intake = w.intake ∧ u.restart = w.restart ∧ u.parts = w.parts ∧
        u.counters = w.counters ∧ DataPathFrame w u ∧ Emits w u [.fault .downErr] [.faults])

/-- An answer for an ORPHANED entry is late, and one for a FREE or RETURNING entry is stray: each is dropped with its fault, and only the orphan
changes, to RETURNING with TIMEOUT while its response is owed and to FREE otherwise (R100, R101, R115). The fault follows the TIMEOUT faults of the last round start:
`w` is the state once those still on their way have reached the queue (R161; log entry 7), and it is `s` where none is (DeadlineExpiry). -/
def Obligations.AnswerLateOrStray : Prop :=
  ∀ (d : DTag) (status : AnswerStatus) (data : List Beat) (s w : State), s.line = .running → w = s.settleTimeouts →
    (∀ (t : Transaction) (owed : Bool), s.flight.table[d] = .orphaned t owed →
      ∃ u : State, exec (.answer d status data) s = .next u.settle ∧
        u.flight =
          { s.flight with table := s.flight.table.set d (if owed = true then .returning t .timeout [] else .free), timeouts := [] } ∧
        FaultRecorded w u .late (some t.partition) (some t.pair) (some t.address) (some d) ∧ u.attention.latched = latchedByFault w ∧
        u.pool = w.pool ∧ u.writes = w.writes ∧ u.intake = w.intake ∧ u.restart = w.restart ∧ u.parts = w.parts ∧
        u.counters = w.counters ∧ DataPathFrame w u ∧
        Emits w u [.fault .late] (.faults :: if owed = true then [.orphans] else [.inFlight, .orphans])) ∧
    (s.flight.table[d] = .free ∨ (∃ t a beats, s.flight.table[d] = .returning t a beats) →
      ∃ u : State, exec (.answer d status data) s = .next u.settle ∧ FaultRecorded w u .strayAnswer none none none (some d) ∧
        u.attention.latched = latchedByFault w ∧ u.flight = { s.flight with timeouts := [] } ∧ u.pool = w.pool ∧ u.writes = w.writes ∧
        u.intake = w.intake ∧ u.restart = w.restart ∧ u.parts = w.parts ∧ u.counters = w.counters ∧ DataPathFrame w u ∧
        Emits w u [.fault .strayAnswer] [.faults])

/-! ### The response channel -/

/-- The first response of each class: the refusal slot's, the released withdrawal answer accepted first, and the in-flight response with the
earliest place in turn (R105, R106, R108, R109; acceptance order is the model's form of the oldest stamp, log entry 11). -/
def Obligations.FirstOfEachClass : Prop :=
  ∀ s : State,
    (s.firstOf .refusal =
      s.intake.refusal.map fun r =>
        { source := .refusal
          record :=
            { pair := r.pair, status := (match r.status with | .retry => .retry | .refused => .refused | .tagErr => .tagErr), data := none } }) ∧
    (∀ (before after : List PoolEntry) (e : PoolEntry) (status : WithdrawalStatus), s.pool = before ++ e :: after →
      (∀ x ∈ before, ∀ y, x.state ≠ .answering y true) → e.state = .answering status true →
      s.firstOf .withdrawn =
        some
          { source := .withdrawn e.pair
            record := { pair := e.pair, status := (match status with | .cancelled => .cancelled | .aborted => .aborted), data := none } }) ∧
    ((∀ x ∈ s.pool, ∀ y, x.state ≠ .answering y true) → s.firstOf .withdrawn = none) ∧
    (∀ (d : DTag) (ds : List DTag) (t : Transaction), s.flight.places = d :: ds →
      (∀ (a : FlightAnswer) (beats : List Beat), s.flight.table[d] = .returning t a beats →
        s.firstOf .inFlight =
          some
            { source := .inFlight d
              record :=
                { pair := t.pair, status := (match a with | .okay => .okay | .derr => .derr | .timeout => .timeout)
                  data := if t.kind = .read ∧ a = .okay then some beats else none } }) ∧
      (s.flight.table[d] = .orphaned t true →
        s.firstOf .inFlight = some { source := .inFlight d, record := { pair := t.pair, status := .timeout, data := none } })) ∧
    (s.flight.places = [] → s.firstOf .inFlight = none)

/-- With no record on offer, the arbiter offers the first response of the first class from the turn on, in the order REFUSAL, WITHDRAWN, IN-FLIGHT,
that holds one; with a record on offer it does nothing (R105, R107). -/
def Obligations.ArbiterChoice : Prop :=
  ∀ s : State, s.line = .running →
    (s.flight.offer ≠ none → exec .arbiterChoice s = .next s) ∧
    (s.flight.offer = none →
      (∀ o, s.firstOf s.flight.turn = some o → exec .arbiterChoice s = .next { s with flight := { s.flight with offer := some o } }) ∧
      (∀ o, s.firstOf s.flight.turn = none → s.firstOf s.flight.turn.after = some o →
        exec .arbiterChoice s = .next { s with flight := { s.flight with offer := some o } }) ∧
      (∀ o, s.firstOf s.flight.turn = none → s.firstOf s.flight.turn.after = none → s.firstOf s.flight.turn.after.after = some o →
        exec .arbiterChoice s = .next { s with flight := { s.flight with offer := some o } }) ∧
      (s.firstOf .refusal = none → s.firstOf .withdrawn = none → s.firstOf .inFlight = none → exec .arbiterChoice s = .next s)) ∧
    (ResponseClass.refusal.after = .withdrawn ∧ ResponseClass.withdrawn.after = .inFlight ∧ ResponseClass.inFlight.after = .refusal)

/-- A delivery finishes with the response's source and moves the turn past its class, emitting no cause but the monitors' and that of a partition made OFF; and path
restart control makes its check (R39, R105, R107, R111 to R113, R129, R131, R148). That the check is made before the causes of the delivery are taken is the model's
choice (log entry 26). With no record on offer there is no delivery (log entry 4). -/
def Obligations.ResponseDelivery : Prop :=
  ∀ s : State, s.line = .running →
    (s.flight.offer = none → s.CausesTaken → exec .responseDelivery s = .next s) ∧
    (∀ record, s.flight.offer = some { source := .refusal, record := record } →
      ∃ v : State, exec .responseDelivery s = .next v.restartCheck.settle ∧
        v = { s with flight := { s.flight with offer := none, turn := .withdrawn }, intake := { s.intake with refusal := none } }) ∧
    (∀ (pair : Pair) (record : ResponseRecord) (before after : List PoolEntry) (e : PoolEntry) (status : WithdrawalStatus),
      s.flight.offer = some { source := .withdrawn pair, record := record } → s.pool = before ++ e :: after →
      (∀ x ∈ before, x.pair = pair → ∀ y, x.state ≠ .answering y true) → e.state = .answering status true → e.pair = pair →
      ∃ v : State, exec .responseDelivery s = .next v.restartCheck.settle ∧ v.pool = before ++ after ∧
        v.flight = { s.flight with offer := none, turn := .inFlight } ∧ v.intake = { s.intake with heldPairs := s.intake.heldPairs.erase pair } ∧
        v.counters = countersWith s e.partition (fun c => { c with withdrawn := c.withdrawn + 1 }) ∧ ClosingChecked s v e.partition ∧
        v.writes = s.writes ∧ v.restart = s.restart ∧ v.attention.queue = s.attention.queue ∧ DataPathFrame s v ∧
        Emits s v (closingCauses s v e.partition) [.queue e.partition]) ∧
    ∀ (d : DTag) (record : ResponseRecord), s.flight.offer = some { source := .inFlight d, record := record } →
      (∀ (t : Transaction) (a : FlightAnswer) (beats : List Beat), s.flight.table[d] = .returning t a beats →
        ∃ v : State, exec .responseDelivery s = .next v.restartCheck.settle ∧
          v.flight =
            { s.flight with
              table := s.flight.table.set d .free, places := s.flight.places.erase d, offer := none, turn := .refusal } ∧
          v.intake = { s.intake with heldPairs := s.intake.heldPairs.erase t.pair } ∧
          v.counters =
            countersWith s t.partition
              (fun c =>
                if a = .okay then { c with completedOk := c.completedOk + 1 } else { c with completedError := c.completedError + 1 }) ∧
          ClosingChecked s v t.partition ∧ v.pool = s.pool ∧ v.writes = s.writes ∧ v.restart = s.restart ∧
          v.attention.queue = s.attention.queue ∧ DataPathFrame s v ∧ Emits s v (closingCauses s v t.partition) [.inFlight]) ∧
      (∀ t : Transaction, s.flight.table[d] = .orphaned t true →
        exec .responseDelivery s =
          .next
            (State.restartCheck
              { s with
                flight :=
                  { s.flight with
                    table := s.flight.table.set d (.orphaned t false), places := s.flight.places.erase d, offer := none, turn := .refusal }
                intake := { s.intake with heldPairs := s.intake.heldPairs.erase t.pair }
                counters := countersWith s t.partition fun c => { c with completedError := c.completedError + 1 } }).settle)

/-! ### Path restart -/

/-- PATH RESTART taken in IDLE enters DRAINING, flushes every partition, and has the end of DRAINING checked; in any other phase it is BUSY (R126, R127).
Each WAITING entry is withdrawn with ABORTED, its answer released or held back as WithdrawalOfOneEntry says (R89, R124). The flushes emit no cause but those of the
monitors of head ages and of the reserved count (R124, R148). -/
def Obligations.PathRestartCommand : Prop :=
  ∀ (extra : Nat) (s : State), s.line = .running → s.port.idle = true →
    (s.restart.phase = .idle →
      ∃ v : State, exec (.pathRestart extra) s = .next (s.framed v.restartCheck .done 0 extra).settle ∧
        v.restart = { s.restart with phase := .draining } ∧ (∀ e ∈ v.pool, e.isWaiting = false) ∧
        List.Forall₂ (fun e x => if e.isWaiting = true then ∃ released : Bool, x = { e with state := .answering .aborted released } else x = e)
          s.pool v.pool ∧
        (s.PairsKept → v.pool = s.pool.map (s.withdrawnEntry (fun _ => true) .aborted)) ∧
        v.pool.map PoolEntry.pair = s.pool.map PoolEntry.pair ∧
        (∀ e ∈ s.pool, e.isWaiting = false → e ∈ v.pool) ∧ (s.ReservationKept → v.writes.reserved = 0) ∧
        (s.RecordsKept → ∀ r ∈ v.writes.records, r.state = .discarding) ∧ v.intake = s.intake ∧ v.flight = s.flight ∧
        v.parts = s.parts ∧ v.counters = s.counters ∧ NoFault s v ∧ DataPathFrame s v ∧
        Emits s v [] (([0, 1, 2, 3, 4, 5, 6, 7] : List PartitionId).flatMap fun p => [.age p, .wbuf])) ∧
    (s.restart.phase ≠ .idle → s.CausesTaken → exec (.pathRestart extra) s = .next (s.framed s .busy 0 extra))

/-- DRAINING ends at a check that finds its five conditions, and entry to RELEASING starts the DRSTN pulse of 64 CLK, frees every orphan, empties the output
register, and frees every DISCARDING record with its answer released (R129, R130). It emits no cause but those of the monitors of occupancy and orphan count, and makes
no partition OFF, where each record has its pool entry (R32, R83, R148). -/
def Obligations.EndOfDraining : Prop :=
  (∀ e : PoolEntry, (e.isWaiting = true ↔ e.state = .waiting) ∧ (e.isReleased = true ↔ ∃ status, e.state = .answering status true)) ∧
  ∀ v : State, v.restart.phase = .draining →
    (v.drained = true ↔
      (∀ (d : DTag) (t : Transaction), v.flight.table[d] ≠ .issued t) ∧
        (∀ (d : DTag) (t : Transaction) (a : FlightAnswer) (beats : List Beat), v.flight.table[d] ≠ .returning t a beats) ∧
        (∀ (d : DTag) (t : Transaction), v.flight.table[d] ≠ .orphaned t true) ∧ v.intake.refusal = none ∧
        ∀ e ∈ v.pool, e.isReleased = false) ∧
    (v.drained = false → v.restartCheck = v) ∧
    (v.drained = true →
      v.restartCheck.restart = { phase := .releasing, pulse := some 64 } ∧ v.restartCheck.drstnLow = true ∧
        (∀ d : DTag, v.restartCheck.flight.table[d] = .free) ∧ v.restartCheck.flight.output = none ∧
        v.restartCheck.flight.places = v.flight.places ∧ v.restartCheck.flight.turn = v.flight.turn ∧
        v.restartCheck.flight.offer = v.flight.offer ∧ v.restartCheck.flight.timeouts = v.flight.timeouts ∧
        v.restartCheck.writes.reserved = v.writes.reserved ∧
        (∀ r ∈ v.restartCheck.writes.records, r ∈ v.writes.records ∧ r.state ≠ .discarding) ∧
        (v.RecordsKept → v.restartCheck.parts = v.parts ∧ Emits v v.restartCheck [] [.inFlight, .orphans]) ∧
        (v.RecordsKept → (∀ e ∈ v.pool, e.isWaiting = false) →
          v.restartCheck.writes.records = [] ∧ ∀ e ∈ v.restartCheck.pool, e.isReleased = true) ∧
        v.restartCheck.pool.map PoolEntry.pair = v.pool.map PoolEntry.pair ∧ v.restartCheck.intake = v.intake ∧
        v.restartCheck.counters = v.counters ∧ v.restartCheck.sched = v.sched ∧ v.restartCheck.attention.queue = v.attention.queue ∧
        v.restartCheck.port = v.port)

/-- RELEASING ends when the pulse has ended, no ANSWERING entry remains and the refusal slot is empty: the phase is IDLE, RESTART DONE is raised and
RESTART set. The check is made when the pulse ends and at each delivery (R131). DRSTN is low while RSTN is low, and during the pulse (R130, R133). -/
def Obligations.EndOfReleasing : Prop :=
  (∀ s : State, s.drstnLow = true ↔ s.line = .heldLow ∨ s.restart.pulse ≠ none) ∧
  (∀ (s : State) (width : Nat), s.line = .running → s.restart = { phase := .releasing, pulse := some width } →
    ((∀ e ∈ s.pool, e.isWaiting = true) ∧ s.intake.refusal = none →
      exec .drstnPulseEnd s =
        .next
          (State.settle
            { s with
              restart := { phase := .idle, pulse := none }
              triggers := { s.triggers with raised := s.triggers.raised ++ [.restartDone] }
              attention := { s.attention with latched := s.attention.latched ||| AttentionCause.restart.bit } })) ∧
    (¬((∀ e ∈ s.pool, e.isWaiting = true) ∧ s.intake.refusal = none) →
      exec .drstnPulseEnd s = .next (State.settle { s with restart := { phase := .releasing, pulse := none } }))) ∧
  (∀ v : State, v.restart.phase = .releasing →
    ((v.restart.pulse = none ∧ (∀ e ∈ v.pool, e.isWaiting = true) ∧ v.intake.refusal = none) →
      v.restartCheck =
        { v with
          restart := { v.restart with phase := .idle }
          triggers := { v.triggers with raised := v.triggers.raised ++ [.restartDone] }
          attention := { v.attention with latched := v.attention.latched ||| AttentionCause.restart.bit } }) ∧
    (¬(v.restart.pulse = none ∧ (∀ e ∈ v.pool, e.isWaiting = true) ∧ v.intake.refusal = none) → v.restartCheck = v)) ∧
  ∀ v : State, v.restart.phase = .idle → v.restartCheck = v

/-! ### Event lines, triggers and monitors -/

/-- An edge changes the seen level and raises EVIN RISE or EVIN FALL; the first level after reset is seen with no cause (R155, R156). A line with no seen
level, or at it, has no edge (log entry 4). -/
def Obligations.EventInputs : Prop :=
  ∀ (k : EventLine) (high : Bool) (s : State), s.line = .running →
    (s.triggers.seen[k] = some (!high) →
      exec (.evinEdge k high) s =
        .next
          (State.settle
            { s with
              triggers :=
                { s.triggers with
                  seen := s.triggers.seen.set k (some high)
                  raised := s.triggers.raised ++ [if high then .evinRise k else .evinFall k] } })) ∧
    (s.triggers.seen[k] ≠ some (!high) → s.CausesTaken → exec (.evinEdge k high) s = .next s) ∧
    (s.triggers.seen[k] = none →
      exec (.evinFirstLevel k high) s = .next { s with triggers := { s.triggers with seen := s.triggers.seen.set k (some high) } }) ∧
    (s.triggers.seen[k] ≠ none → exec (.evinFirstLevel k high) s = .next s)

/-- EVOUT SET and CLEAR set the level and end a pulse; EVOUT PULSE starts one as wide as the active table's slot length; a line is driven opposite to its
level while pulsing; the end of a pulse returns it to its level (R157, R158; with no pulse nothing ends, log entry 4). -/
def Obligations.EventOutputs : Prop :=
  ∀ (k : EventLine) (s : State), s.line = .running →
    (exec (.evoutPulseEnd k) s =
      .next
        { s with
          triggers := { s.triggers with outputs := s.triggers.outputs.set k { level := s.triggers.outputs[k].level, pulse := none } } }) ∧
    (∀ w, s.triggers.outputs[k].pulse = some w → s.evoutHigh k = !s.triggers.outputs[k].level) ∧
    (s.triggers.outputs[k].pulse = none → s.evoutHigh k = s.triggers.outputs[k].level) ∧
    (∀ argument : Byte, argument.toNat = k.val →
      s.applyAction .evoutSet argument =
          { s with triggers := { s.triggers with outputs := s.triggers.outputs.set k { level := true, pulse := none } } } ∧
        s.applyAction .evoutClear argument =
          { s with triggers := { s.triggers with outputs := s.triggers.outputs.set k { level := false, pulse := none } } } ∧
        s.applyAction .evoutPulse argument =
          { s with
            triggers :=
              { s.triggers with
                outputs :=
                  s.triggers.outputs.set k { level := s.triggers.outputs[k].level, pulse := some s.sched.activeTable.slotLength } } })

/-- The oldest held cause is taken as a cause of its own, and leaves the held ones (R152). With none held there is none to take (log entry 4). -/
def Obligations.HeldCauseTaken : Prop :=
  ∀ s : State, s.line = .running →
    (s.triggers.held = [] → exec .heldCauseTaken s = .next s) ∧
    ∀ (c : Cause) (cs : List Cause), s.triggers.held = c :: cs →
      exec .heldCauseTaken s = .next (State.takeCause { s with triggers := { s.triggers with held := cs } } c)

/-- What the trigger unit's taking of a command's causes may change, and that it takes them all. With no cause raised, or none that an entry
answers, no block changes (R148, R150). The counter of free values is the model's own (log entry 9). -/
def Obligations.CausesTakenFrame : Prop :=
  ∀ s : State,
    (s.settle.line = s.line ∧ s.settle.sched = { s.sched with pendingTarget := s.settle.sched.pendingTarget } ∧ s.settle.intake = s.intake ∧
      s.settle.flight = s.flight ∧ s.settle.restart = s.restart ∧ s.settle.counters = s.counters ∧
      s.settle.triggers.seen = s.triggers.seen ∧ s.settle.attention.queue = s.attention.queue ∧ s.settle.attention.mask = s.attention.mask ∧
      s.settle.port = s.port ∧ s.settle.pending = s.pending) ∧
    s.settle.CausesTaken ∧ (s.CausesTaken → s.settle = s) ∧
    (s.triggers.raised ≠ [] → (∀ c ∈ s.triggers.raised, ∀ i : Fin 8, s.triggers.entries[i].answers c = false) →
      s.settle = { s with triggers := { s.triggers with raised := [] }, free := s.free + 1 })

/-- An entry answers a cause when it is enabled, armed, of the same cause and agrees in its argument. The entries that answer are fixed when the cause is taken,
and each fires once, in increasing number: its count rises by 1 and wraps, a SINGLE one is disarmed, and its action is applied with its argument, the causes
that raises being held (R146, R148, R149, R151, R152, R153). The causes of one event are each taken so, none lost, those of one block in the order it gives and
MONITOR causes in increasing number (R142, R148); the order of those of different blocks, and of held causes after them all, are log entries 9 and 25. -/
def Obligations.FiringOfEntries : Prop :=
  (∀ (t : Trigger) (c : Cause),
    t.answers c = true ↔
      t.enabled = true ∧ t.armed = true ∧
        match c with
        | .monitor m => t.cause = .monitor ∧ t.causeArgument.toNat = m.val
        | .roundStart x =>
          t.cause = .roundStart ∧ (t.causeArgument.toNat = (match x with | .a => 0 | .b => 1) ∨ t.causeArgument.toNat = 2)
        | .switchTaken => t.cause = .switchTaken
        | .evinRise k => t.cause = .evinRise ∧ t.causeArgument.toNat = k.val
        | .evinFall k => t.cause = .evinFall ∧ t.causeArgument.toNat = k.val
        | .fault kind =>
          t.cause = .fault ∧
            t.causeArgument.toNat =
              (match kind with
                | .shape => 0
                | .tag => 1
                | .unmapped => 2
                | .closed => 3
                | .range => 4
                | .wdata => 5
                | .strayData => 6
                | .downErr => 7
                | .timeout => 8
                | .late => 9
                | .strayAnswer => 10)
        | .partitionOff p => t.cause = .partitionOff ∧ t.causeArgument.toNat = p.val
        | .restartDone => t.cause = .restartDone) ∧
  (∀ (s : State) (c : Cause),
    s.takeCause c = (([0, 1, 2, 3, 4, 5, 6, 7] : List (Fin 8)).filter fun i => s.triggers.entries[i].answers c).foldl State.fireEntry s) ∧
  (∀ (s : State) (i : Fin 8),
    ∃ v : State,
      v =
          State.applyAction
            { s with
              triggers :=
                { s.triggers with
                  entries :=
                    s.triggers.entries.set i
                      { s.triggers.entries[i] with
                        fireCount := s.triggers.entries[i].fireCount + 1
                        armed := if s.triggers.entries[i].mode = .single then false else s.triggers.entries[i].armed } } }
            s.triggers.entries[i].action s.triggers.entries[i].actionArgument ∧
        s.fireEntry i =
          { v with triggers := { v.triggers with held := v.triggers.held ++ orderRaised v.triggers.raised, raised := [] } }) ∧
  (∀ c : Cause,
    c.block =
      match c with
      | .monitor _ => .countersUnit
      | .roundStart _ => .scheduleUnit
      | .switchTaken => .scheduleUnit
      | .evinRise _ => .triggerUnit
      | .evinFall _ => .triggerUnit
      | .fault _ => .faultQueue
      | .partitionOff _ => .partitionControl
      | .restartDone => .restartControl) ∧
  (∀ raised : List Cause,
    (orderRaised raised).Perm raised ∧
      (∀ b : CauseBlock, b ≠ .countersUnit →
        ((orderRaised raised).filter fun c => decide (c.block = b)) = raised.filter fun c => decide (c.block = b)) ∧
      ∀ i j : Fin 4, [Cause.monitor i, Cause.monitor j].Sublist (orderRaised raised) → i ≤ j) ∧
  (∀ s : State, s.triggers.raised ≠ [] →
    ∃ order : List Cause, order.Perm s.triggers.raised ∧
      (∀ b : CauseBlock, b ≠ .countersUnit →
        (order.filter fun c => decide (c.block = b)) = s.triggers.raised.filter fun c => decide (c.block = b)) ∧
      (∀ i j : Fin 4, [Cause.monitor i, Cause.monitor j].Sublist order → i ≤ j) ∧
      s.settle = order.foldl State.takeCause { s with triggers := { s.triggers with raised := [] }, free := s.free + 1 }) ∧
  (∀ (s : State) (c : Cause) (i : Fin 8),
    (s.takeCause c).triggers.entries[i].fireCount =
      s.triggers.entries[i].fireCount + (if s.triggers.entries[i].answers c = true then 1 else 0)) ∧
  ∀ (s : State) (c : Cause) (i : Fin 8), s.triggers.entries[i].answers c = true → s.triggers.entries[i].mode = .single →
    (∀ j : Fin 8, s.triggers.entries[j].answers c = true → s.triggers.entries[j].action ≠ .arm) →
    (s.takeCause c).triggers.entries[i].armed = false

/-- The actions but those of the event outputs (EventOutputs states these). ARM arms the named entry if it is enabled, DISARM disarms it, and neither changes
anything else; an entry that fires and whose own action is ARM of itself is armed after, whatever its mode, and one whose own action is DISARM of itself is not (R153).
REQUEST SWITCH makes a table that passes the pending target (R14); the SET actions do what R28 would answer DONE to, and nothing else (R29); FLUSH flushes, and
does nothing during a restart (R123); SNAPSHOT copies position and counters and sets its attention cause (R139); ATTENTION sets the TRIGGER cause (R150); CLEAR
MONITOR evaluates an enabled monitor anew (R144). -/
def Obligations.ArmAndDisarm : Prop :=
  (∀ (s : State) (i : Fin 8), s.triggers.entries[i].enabled = true → s.triggers.entries[i].actionArgument.toNat = i.val →
    (s.triggers.entries[i].action = .arm → (s.fireEntry i).triggers.entries[i].armed = true) ∧
      (s.triggers.entries[i].action = .disarm → (s.fireEntry i).triggers.entries[i].armed = false)) ∧
  (∀ (s : State) (i : Fin 8) (argument : Byte), argument.toNat = i.val →
    s.applyAction .arm argument =
        { s with
          triggers :=
            { s.triggers with
              entries :=
                s.triggers.entries.set i
                  (if s.triggers.entries[i].enabled = true then { s.triggers.entries[i] with armed := true } else s.triggers.entries[i]) } } ∧
      s.applyAction .disarm argument =
        { s with
          triggers := { s.triggers with entries := s.triggers.entries.set i { s.triggers.entries[i] with armed := false } } }) ∧
  (∀ (s : State) (x : TableName) (argument : Byte), argument.toNat = (match x with | .a => 0 | .b => 1) →
    ((s.sched.table x).valid = true →
      s.applyAction .requestSwitch argument = { s with sched := { s.sched with pendingTarget := some x } }) ∧
      ((s.sched.table x).valid = false → s.applyAction .requestSwitch argument = s)) ∧
  (∀ (s : State) (p : PartitionId) (argument : Byte), argument.toNat = p.val →
    (s.restart.phase ≠ .idle →
      s.applyAction .setRun argument = s ∧ s.applyAction .setHold argument = s ∧ s.applyAction .setClosing argument = s ∧
        s.applyAction .flush argument = s) ∧
    (s.restart.phase = .idle →
      s.applyAction .setRun argument =
          (if s.parts[p].state = .off ∧ s.parts[p].quota = 0 then s
          else { s with parts := s.parts.set p { s.parts[p] with state := .run } }) ∧
        s.applyAction .setHold argument =
          (if s.parts[p].state = .closing ∨ (s.parts[p].state = .off ∧ s.parts[p].quota = 0) then s
          else { s with parts := s.parts.set p { s.parts[p] with state := .hold } }) ∧
        s.applyAction .setClosing argument =
          (if s.parts[p].state = .closing ∨ s.parts[p].state = .off then s
          else if s.outstanding p = true then { s with parts := s.parts.set p { s.parts[p] with state := .closing } }
          else
            { s with
              parts := s.parts.set p { s.parts[p] with state := .off }
              triggers := { s.triggers with raised := s.triggers.raised ++ [.partitionOff p] }
              attention := { s.attention with latched := s.attention.latched ||| AttentionCause.closed.bit } }) ∧
        ∃ u : State, s.applyAction .flush argument = u ∧ u.pool = s.pool.map (s.withdrawnEntry (fun e => e.partition == p) .aborted) ∧
          u.writes = (s.withdraw (fun e => e.partition == p) .aborted).writes ∧ u.intake = s.intake ∧ u.flight = s.flight ∧
          u.restart = s.restart ∧ u.parts = s.parts ∧ u.counters = s.counters ∧ NoFault s u ∧ DataPathFrame s u ∧
          Emits s u [] [.age p, .wbuf])) ∧
  (∀ (s : State) (argument : Byte),
    s.applyAction .snapshot argument =
        { s with
          snapshot :=
            { round := s.sched.round, slot := s.sched.slot, roundNumber := s.sched.round, slotCount := s.sched.slotCount
              counters := s.counters }
          attention := { s.attention with latched := s.attention.latched ||| AttentionCause.snapshot.bit } } ∧
      s.applyAction .attention argument =
        { s with attention := { s.attention with latched := s.attention.latched ||| AttentionCause.trigger.bit } }) ∧
  ∀ (s : State) (i : Fin 4) (argument : Byte), argument.toNat = i.val →
    ∃ result : Bool, result = (s.monitors[i].enabled && s.monitors[i].result (s.quantity s.monitors[i].quantity)) ∧
      s.applyAction .clearMonitor argument =
        { s with
          monitors := s.monitors.set i { s.monitors[i] with last := result }
          triggers := { s.triggers with raised := s.triggers.raised ++ if result = true then [Cause.monitor i] else [] } }

/-- A monitor that is enabled and watches the quantity handed out takes the result of its condition, and fires when it goes from false to true; firings go in
increasing monitor number; every other monitor stays as it is. Of all the causes one event raised, those of monitors are taken in increasing
monitor number (R141, R142; that this holds across several quantities is log entry 10). -/
def Obligations.MonitorEvaluation : Prop :=
  (∀ (occasion : Nat) (raised : List Cause) (i j : Fin 4),
    [Cause.monitor i, Cause.monitor j].Sublist (takenOrder occasion (orderRaised raised)) → i ≤ j) ∧
  ∀ (s : State) (q : Quantity),
    (∀ i : Fin 4,
      (s.hand q).monitors[i] =
        if s.monitors[i].enabled = true ∧ s.monitors[i].quantity = q then
          { s.monitors[i] with
            last :=
              match s.monitors[i].condition with
              | .atOrAbove => decide (s.monitors[i].threshold.toNat ≤ s.quantity q)
              | .below => decide (s.quantity q < s.monitors[i].threshold.toNat) }
        else s.monitors[i]) ∧
    (s.hand q).triggers.raised =
      s.triggers.raised ++
        (([0, 1, 2, 3] : List (Fin 4)).filter fun i => !s.monitors[i].last && (s.hand q).monitors[i].last).map Cause.monitor ∧
    s.hand q = { s with monitors := (s.hand q).monitors, triggers := { s.triggers with raised := (s.hand q).triggers.raised } }

/-! ### The management port -/

/-- When a read frame's index bytes complete, the assembler holds them, and the values it returns and its status are captured, and nothing else changes; a read is
refused exactly as R170 gives, with 00h in every byte, and every capture is as long as the command's read data (R167, R168, R170, R173). The command and table codes
and the lengths are those of R177. `idle` is the port with no
read frame open (log entry 13). Bytes that name no read command complete no read frame's index (log entry 4). -/
def Obligations.IndexCompletion : Prop :=
  (∀ p : Port, p.idle = true ↔ p.frame = none ∧ p.acrossReset = false) ∧
  (∀ (b : IndexBytes) (s : State), s.line = .running →
    (∀ command : ReadCommand, b.command = some command → s.port.idle = true →
      exec (.indexComplete b) s =
        .next
          { s with
            port :=
              { s.port with
                frame := some { bytes := [b.code, b.argument, b.high, b.low], received := 4, captured := s.capture command }
                selnLow := true } }) ∧
      (b.command = none → exec (.indexComplete b) s = .next s)) ∧
  (∀ b : IndexBytes,
    b.command =
      if b.code = 0x01 then
        ((([(0x00, .schedule .a .header), (0x01, .schedule .a .slot), (0x02, .schedule .a .allowance), (0x03, .schedule .b .header),
            (0x04, .schedule .b .slot), (0x05, .schedule .b .allowance), (0x08, .partitions), (0x09, .initiatorMap), (0x0A, .regions),
            (0x0B, .monitors), (0x0C, .triggers), (0x0D, .attentionMask)] : List (Byte × EntryTable)).find? fun e => e.1 == b.argument).map
          fun e => .readEntry e.2 (halfOf b.high b.low))
      else if b.code = 0x20 then some .popFault
      else if b.code = 0x30 then some .readStatus
      else if b.code = 0x31 then some (.readCounters b.argument)
      else if b.code = 0x33 then some (.readSnapshot (halfOf b.high b.low))
      else none) ∧
  (∀ high low : Byte, (halfOf high low).toNat = 256 * high.toNat + low.toNat) ∧
  (∀ command : ReadCommand,
    readLength command =
      match command with
      | .readEntry (.schedule _ .header) _ => 2
      | .readEntry (.schedule _ .slot) _ => 1
      | .readEntry (.schedule _ .allowance) _ => 8
      | .readEntry .partitions _ => 4
      | .readEntry .initiatorMap _ => 1
      | .readEntry .regions _ => 10
      | .readEntry .monitors _ => 6
      | .readEntry .triggers _ => 7
      | .readEntry .attentionMask _ => 1
      | .popFault => 16
      | .readStatus => 16
      | .readCounters argument => if argument.toNat ≤ 7 then 44 else 32
      | .readSnapshot index => if 1 ≤ index.toNat ∧ index.toNat ≤ 8 then 44 else 37) ∧
  (∀ (command : ReadCommand) (s : State),
    (s.capture command).command = command ∧ (s.capture command).data.length = readLength command ∧
      (∀ data, s.readData command = some data → (s.capture command).data = data ∧ (s.capture command).status = .done) ∧
      (s.readData command = none →
        (s.capture command).data = List.replicate (readLength command) 0 ∧
          (s.capture command).status = if command = .popFault then .empty else .range)) ∧
  ∀ s : State,
    (∀ (table : EntryTable) (index : Half),
      s.readData (.readEntry table index) = none ↔
        (match table with
          | .schedule _ .header => 1
          | .schedule _ .slot => 32
          | .schedule _ .allowance => 1
          | .partitions => 8
          | .initiatorMap => 32
          | .regions => 16
          | .monitors => 4
          | .triggers => 8
          | .attentionMask => 1) ≤ index.toNat) ∧
    (∀ argument : Byte, s.readData (.readCounters argument) = none ↔ 8 < argument.toNat) ∧
    (∀ index : Half, s.readData (.readSnapshot index) = none ↔ 8 < index.toNat) ∧ s.readData .readStatus ≠ none ∧
    (s.readData .popFault = none ↔ s.attention.queue = [])

/-- READ ENTRY, READ STATUS, READ COUNTERS and READ SNAPSHOT close: the status captured becomes the last status, the captured bytes have gone out on SDO, and nothing
but the port changes (R167 to R170, R172, R173). A close with no INDEX_COMPLETE before it captures at once (log entry 13). -/
def Obligations.ReadCommandsClose : Prop :=
  ∀ (command : ReadCommand) (f : Capture) (extra : Nat) (s : State), s.line = .running → s.port.acrossReset = false →
    command ≠ .popFault →
    (∃ o, s.port.frame = some o ∧ o.captured = f ∧ f.command = command) ∨ (s.port.frame = none ∧ f = s.capture command) →
    exec (command.close extra) s = .next { s with port := s.port.afterRead f extra }

/-- Every layout of R177: each table's entry as READ ENTRY returns it, the 16 bytes of READ STATUS, the fault record, the counters and the nine parts of the
snapshot (R172, R173), and the codes of statuses and attention causes. A slot entry read back is the entry written, where kind 3 and a partition above 7 name none.
A byte crosses the port most significant bit first, and the bits after the last whole byte are discarded (R167). -/
def Obligations.BytesOfTheLayouts : Prop :=
  (∀ s : State, s.occupancy = s.quantity .inFlight ∧ s.orphanCount = s.quantity .orphans) ∧
  (∀ s : State, s.sched.slot < 32 → s.occupancy ≤ 16 → s.orphanCount ≤ 16 → s.writes.reserved ≤ 256 →
    ∃ b : List Byte, s.readData .readStatus = some b ∧ b.length = 16 ∧ ((b.getD 0 0).toNat = 0 ↔ s.sched.active = .a) ∧ ((b.getD 0 0).toNat = 1 ↔ s.sched.active = .b) ∧
      ((b.getD 1 0).toNat = 0 ↔ s.sched.pendingTarget = none) ∧ ((b.getD 1 0).toNat = 1 ↔ s.sched.pendingTarget = some .a) ∧
      ((b.getD 1 0).toNat = 2 ↔ s.sched.pendingTarget = some .b) ∧ fieldAt b 2 4 = s.sched.round.toNat ∧
      (b.getD 6 0).toNat = s.sched.slot ∧
      (b.getD 7 0).toNat = (match s.restart.phase with | .idle => 0 | .draining => 1 | .releasing => 2) ∧
      (∀ p : PartitionId,
        ((b.getD (if p.val < 4 then 9 else 8) 0).extractLsb' (2 * (p.val % 4)) 2).toNat =
          match s.parts[p].state with | .off => 0 | .run => 1 | .hold => 2 | .closing => 3) ∧
      (b.getD 10 0).toNat = s.occupancy ∧ (b.getD 11 0).toNat = s.orphanCount ∧
      fieldAt b 12 2 = s.writes.reserved ∧ (b.getD 14 0).toNat = s.attention.pendingSet.toNat ∧
      ((b.getD 15 0).toNat = 1 ↔ s.attention.isPending .overflow = true)) ∧
  (∀ e : SlotEntry,
    slotEntryOf e.byte = some e ∧
      e.byte.toNat = match e with | .quiet => 0 | .openSlot => 64 | .owned p lend => 128 + bitValue 4 lend + p.val) ∧
  (∀ b : Byte,
    slotEntryOf b =
      if b.toNat / 64 = 0 then some .quiet
      else if b.toNat / 64 = 1 then some .openSlot
      else if b.toNat / 64 = 2 ∧ b.toNat % 16 < 8 then some (.owned (Fin.ofNat 8 (b.toNat % 16)) (b.getLsb 4))
      else none) ∧
  (∀ (s : State) (x : TableName) (index : Half),
    (index = 0 →
      ∃ header allowance : List Byte, s.readData (.readEntry (.schedule x .header) index) = some header ∧ header.length = 2 ∧
        ((s.sched.table x).roundLength < 256 → fieldAt header 0 1 = (s.sched.table x).roundLength) ∧
        ((s.sched.table x).slotLength < 256 → fieldAt header 1 1 = (s.sched.table x).slotLength) ∧
        s.readData (.readEntry (.schedule x .allowance) index) = some allowance ∧ allowance.length = 8 ∧
        ∀ p : PartitionId, (s.sched.table x).allowance[p] < 256 → fieldAt allowance p.val 1 = (s.sched.table x).allowance[p]) ∧
      ∀ k : Fin 32, index.toNat = k.val → s.readData (.readEntry (.schedule x .slot) index) = some [(s.sched.table x).entries[k].byte]) ∧
  (∀ (s : State) (index : Half),
    (∀ p : PartitionId, index.toNat = p.val → ∃ b, s.readData (.readEntry .partitions index) = some b ∧ s.parts[p].Layout b) ∧
    (∀ i : Initiator, index.toNat = i.val →
      ∃ b, s.readData (.readEntry .initiatorMap index) = some b ∧ b.length = 1 ∧ fieldAt b 0 1 = s.intake.map[i].elim 0xFF Fin.val) ∧
    (∀ k : Fin 16, index.toNat = k.val → ∃ b, s.readData (.readEntry .regions index) = some b ∧ s.intake.regions[k].Layout b) ∧
    (∀ m : Fin 4, index.toNat = m.val → ∃ b, s.readData (.readEntry .monitors index) = some b ∧ s.monitors[m].Layout b) ∧
    (∀ i : Fin 8, index.toNat = i.val → ∃ b, s.readData (.readEntry .triggers index) = some b ∧ s.triggers.entries[i].Layout b) ∧
    (index = 0 →
      ∃ b, s.readData (.readEntry .attentionMask index) = some b ∧ b.length = 1 ∧ fieldAt b 0 1 = s.attention.mask.toNat)) ∧
  (∀ (s : State) (r : FaultRecord) (rs : List FaultRecord), s.attention.queue = r :: rs →
    ∃ b, s.readData .popFault = some b ∧ r.Layout b) ∧
  (∀ (s : State) (argument : Byte),
    (∀ p : PartitionId, argument.toNat = p.val → ∃ b, s.readData (.readCounters argument) = some b ∧ s.counters.parts[p].Layout b) ∧
      (argument = 8 →
        ∃ b, s.readData (.readCounters argument) = some b ∧ s.counters.global.Layout s.sched.round s.sched.slotCount b)) ∧
  (∀ (s : State) (index : Half),
    (index = 0 →
      ∃ b, s.readData (.readSnapshot index) = some b ∧ b.length = 37 ∧ fieldAt b 0 4 = s.snapshot.round.toNat ∧
        (s.snapshot.slot < 256 → fieldAt b 4 1 = s.snapshot.slot) ∧
        s.snapshot.counters.global.Layout s.snapshot.roundNumber s.snapshot.slotCount (b.drop 5)) ∧
      ∀ p : PartitionId, index.toNat = p.val + 1 →
        ∃ b, s.readData (.readSnapshot index) = some b ∧ s.snapshot.counters.parts[p].Layout b) ∧
  (([.done, .busy, .locked, .range, .state, .invalid, .unknown, .empty] : List Status).map Status.code = [0, 1, 2, 3, 4, 5, 6, 7] ∧
    ([.fault, .overflow, .trigger, .snapshot, .switch, .restart, .closed] : List AttentionCause).map AttentionCause.bit =
      [1, 2, 4, 8, 16, 32, 64]) ∧
  (∀ (bytes : List Byte) (tail : List Bool), tail.length < 8 →
    bytesOfBits
        (bytes.flatMap (fun b =>
          [b.getLsbD 7, b.getLsbD 6, b.getLsbD 5, b.getLsbD 4, b.getLsbD 3, b.getLsbD 2, b.getLsbD 1, b.getLsbD 0]) ++ tail) = bytes) ∧
  ∀ bits : List Bool, decodeBits bits = decodeFrame (bytesOfBits bits)

/-- POP FAULT returns the oldest record and removes it, and the record removed is the one captured; captured from an empty queue it removes nothing and gives
EMPTY (R162, R171; log entry 19). -/
def Obligations.PopFault : Prop :=
  ∀ (f : Capture) (extra : Nat) (s : State), s.line = .running → s.port.acrossReset = false →
    (∃ o, s.port.frame = some o ∧ o.captured = f ∧ f.command = .popFault) ∨ (s.port.frame = none ∧ f = s.capture .popFault) →
    (f.status = .done →
      ∃ u : State, exec (.popFault extra) s = .next u.settle ∧ u.attention = { s.attention with queue := s.attention.queue.tail } ∧
        u.port = s.port.afterRead f extra ∧ u.pool = s.pool ∧ u.writes = s.writes ∧ u.intake = s.intake ∧ u.flight = s.flight ∧
        u.restart = s.restart ∧ u.parts = s.parts ∧ u.counters = s.counters ∧ u.sched = s.sched ∧ u.free = s.free ∧
        u.triggers.entries = s.triggers.entries ∧ Emits s u [] [.faults]) ∧
    (f.status ≠ .done → s.CausesTaken → exec (.popFault extra) s = .next { s with port := s.port.afterRead f extra }) ∧
    (∀ (r : FaultRecord) (rs : List FaultRecord), s.attention.queue = r :: rs → s.capture .popFault = { command := .popFault, data := r.bytes, status := .done })

/-- A frame cut short takes no command and leaves the last status; an unknown command or table code sets it to UNKNOWN and changes nothing else; after a reset with SELN
low no frame is taken until SELN has gone high, and its going high takes no command (R167 to R169; log entries 13 and 14). SDO is driven exactly while SELN is low,
and not while RSTN is low (R167; where the model keeps SELN's level, log entry 17). -/
def Obligations.FramesThatChangeNothing : Prop :=
  (∀ (bytes : List Byte) (s : State), s.line = .running → s.port.acrossReset = false →
    s.port.frame = none ∨ (∃ o, s.port.frame = some o ∧ o.bytes <+: bytes) →
    ∃ t : State, exec (.frameCutShort bytes) s = .next t ∧
      t = { s with port := { s.port with frame := none, selnLow := false, sdo := t.port.sdo }, free := t.free } ∧
        t.port.sdo.length = bytes.length) ∧
  (∀ (bytes : List Byte) (s : State), s.line = .running → s.port.idle = true → 5 ≤ bytes.length →
    exec (.unknown bytes) s =
      .next
        { s with
          port :=
            { s.port with
              lastStatus := .unknown
              selnLow := false
              sdo := [0, 0, 0, 0, s.port.lastStatus.code] ++ List.replicate (bytes.length - 5) 0 } }) ∧
  (∀ s : State, s.line = .running →
    (s.port.acrossReset = true →
      exec .frameOpenAcrossReset s = .next { s with port := { s.port with selnLow := false, acrossReset := false } }) ∧
      (s.port.acrossReset = false → exec .frameOpenAcrossReset s = .next s)) ∧
  (∀ (c : Instr) (s : State), s.line = .running → s.CausesTaken → s.port.acrossReset = true → isFrame c = true → exec c s = .next s) ∧
  (∀ (written extra : Nat) (data : List Byte) (s : State),
    ∃ freeBytes : List Byte, freeBytes.length = written ∧
      s.sdoBytes written data (5 + written + data.length + extra) =
        [0, 0, 0, 0, s.port.lastStatus.code] ++ freeBytes ++ data ++ List.replicate extra 0) ∧
  ∀ s : State, s.sdoDriven = true ↔ s.line ≠ .heldLow ∧ s.port.selnLow = true

/-! ### Writes
`framed` gives the port after a frame that is taken: its status, and the bytes on SDO, those in the place of write data free values (log entry 14). -/

/-- WRITE ENTRY on a schedule table, by the checks of R19 in their order: RANGE for the index, LOCKED, RANGE for a field, and otherwise the one entry is replaced.
The bytes on SDO in the place of the write data are free values (log entry 14). -/
def Obligations.ScheduleWrite : Prop :=
  (∀ (u : ScheduleUnit) (t : TableName) (x : ScheduleTable),
    u.setTable t x = match t with | .a => { u with tableA := x } | .b => { u with tableB := x }) ∧
  ∀ (t : TableName) (index : Half) (data : ScheduleEntryData) (extra : Nat) (s : State), s.line = .running → s.port.idle = true →
    ((match data.part with | .header => 1 | .slot => 32 | .allowance => 1) ≤ index.toNat →
      exec (.writeScheduleEntry t index data extra) s = .next (s.framed s .range data.bytes.length extra)) ∧
    (index.toNat < (match data.part with | .header => 1 | .slot => 32 | .allowance => 1) →
      (s.sched.active = t ∨ s.sched.pendingTarget = some t →
        exec (.writeScheduleEntry t index data extra) s = .next (s.framed s .locked data.bytes.length extra)) ∧
      (s.sched.active ≠ t → s.sched.pendingTarget ≠ some t →
        (∀ r l, data = .header r l →
          ((4 ≤ r.toNat ∧ r.toNat ≤ 32) ∧ 8 ≤ l.toNat ∧ l.toNat ≤ 64 →
            exec (.writeScheduleEntry t index data extra) s =
              .next
                (s.framed
                  { s with sched := s.sched.setTable t { s.sched.table t with roundLength := r.toNat, slotLength := l.toNat } } .done 2 extra)) ∧
          (¬((4 ≤ r.toNat ∧ r.toNat ≤ 32) ∧ 8 ≤ l.toNat ∧ l.toNat ≤ 64) →
            exec (.writeScheduleEntry t index data extra) s = .next (s.framed s .range 2 extra))) ∧
        (∀ e, data = .slot e →
          (∀ x, slotEntryOf e = some x →
            exec (.writeScheduleEntry t index data extra) s =
              .next
                (s.framed
                  { s with
                    sched :=
                      s.sched.setTable t
                        { s.sched.table t with entries := (s.sched.table t).entries.set (Fin.ofNat 32 index.toNat) x } } .done 1 extra)) ∧
          (slotEntryOf e = none → exec (.writeScheduleEntry t index data extra) s = .next (s.framed s .range 1 extra))) ∧
        (∀ a0 a1 a2 a3 a4 a5 a6 a7, data = .allowance a0 a1 a2 a3 a4 a5 a6 a7 →
          ((∀ a ∈ [a0, a1, a2, a3, a4, a5, a6, a7], a.toNat ≤ 32) →
            exec (.writeScheduleEntry t index data extra) s =
              .next
                (s.framed
                  { s with
                    sched :=
                      s.sched.setTable t
                        { s.sched.table t with
                          allowance := #v[a0.toNat, a1.toNat, a2.toNat, a3.toNat, a4.toNat, a5.toNat, a6.toNat, a7.toNat] } } .done 8
                  extra)) ∧
          ((∃ a ∈ [a0, a1, a2, a3, a4, a5, a6, a7], 32 < a.toNat) →
            exec (.writeScheduleEntry t index data extra) s = .next (s.framed s .range 8 extra)))))

/-- WRITE ENTRY on the partition records, by the checks of R25 in their order. -/
def Obligations.PartitionRecordWrite : Prop :=
  ∀ (index : Half) (ignored quota flags limit : Byte) (extra : Nat) (s : State), s.line = .running → s.port.idle = true →
    (8 ≤ index.toNat →
      exec (.writePartitionRecord index ignored quota flags limit extra) s = .next (s.framed s .range 4 extra)) ∧
    ∀ p : PartitionId, index.toNat = p.val →
      (64 < quota.toNat ∨ 15 < limit.toNat →
        exec (.writePartitionRecord index ignored quota flags limit extra) s = .next (s.framed s .range 4 extra)) ∧
      (quota.toNat ≤ 64 → limit.toNat ≤ 15 →
        (quota.toNat ≠ s.parts[p].quota → s.parts[p].state ≠ .off →
          exec (.writePartitionRecord index ignored quota flags limit extra) s = .next (s.framed s .state 4 extra)) ∧
        (quota.toNat = s.parts[p].quota ∨ s.parts[p].state = .off →
          (64 < ((s.parts.toList.map PartitionRecord.quota).sum - s.parts[p].quota) + quota.toNat →
            exec (.writePartitionRecord index ignored quota flags limit extra) s = .next (s.framed s .range 4 extra)) ∧
          (((s.parts.toList.map PartitionRecord.quota).sum - s.parts[p].quota) + quota.toNat ≤ 64 →
            exec (.writePartitionRecord index ignored quota flags limit extra) s =
              .next
                (s.framed
                  { s with
                    parts :=
                      s.parts.set p
                        { state := s.parts[p].state, quota := quota.toNat, slack := flags.getLsb 0, responseLimit := limit.toNat } }
                  .done 4 extra))))

/-- WRITE ENTRY on the initiator map and on the region table, by the checks of R69 in their order. -/
def Obligations.MapAndRegionWrite : Prop :=
  (∀ (index : Half) (value : Byte) (extra : Nat) (s : State), s.line = .running → s.port.idle = true →
    (32 ≤ index.toNat ∨ (8 ≤ value.toNat ∧ value ≠ 0xFF) →
      exec (.writeInitiatorMap index value extra) s = .next (s.framed s .range 1 extra)) ∧
    (∀ i : Initiator, index.toNat = i.val →
      (∀ p : PartitionId, value.toNat = p.val →
        exec (.writeInitiatorMap index value extra) s =
          .next (s.framed { s with intake := { s.intake with map := s.intake.map.set i (some p) } } .done 1 extra)) ∧
      (value = 0xFF →
        exec (.writeInitiatorMap index value extra) s =
          .next (s.framed { s with intake := { s.intake with map := s.intake.map.set i none } } .done 1 extra)))) ∧
  ∀ (index : Half) (base limit : Word) (mask flags : Byte) (extra : Nat) (s : State), s.line = .running → s.port.idle = true →
    (16 ≤ index.toNat ∨ limit.toNat % 2 ^ 28 < base.toNat % 2 ^ 28 →
      exec (.writeRegion index base limit mask flags extra) s = .next (s.framed s .range 10 extra)) ∧
    (∀ k : Fin 16, index.toNat = k.val → base.toNat % 2 ^ 28 ≤ limit.toNat % 2 ^ 28 →
      exec (.writeRegion index base limit mask flags extra) s =
        .next
          (s.framed
            { s with
              intake :=
                { s.intake with
                  regions :=
                    s.intake.regions.set k
                      { base := base.setWidth 28, limit := limit.setWidth 28, mask := mask, readAllow := flags.getLsb 0
                        writeAllow := flags.getLsb 1, enabled := flags.getLsb 2 } } } .done 10 extra))

/-- WRITE ENTRY on the monitors, by the checks of R140 in their order; a taken write replaces the five fields, sets the last result false, and evaluates an
enabled monitor at once, which fires when its condition holds (R140, R143). The codes are R177's, what a monitor watches and the value that has are R141's. -/
def Obligations.MonitorWrite : Prop :=
  (∀ b : Byte,
    monitorObjectOf b =
        ([.queue, .age, .lostRound, .retryRound, .inFlight, .orphans, .wbuf, .faults] : List MonitorObject)[b.toNat]? ∧
      monitorConditionOf b = ([.atOrAbove, .below] : List MonitorCondition)[b.toNat]?) ∧
  (∀ m : Monitor,
    (∀ p : PartitionId, m.argument.toNat = p.val →
      (m.object = .queue → m.quantity = .queue p) ∧ (m.object = .age → m.quantity = .age p) ∧
        (m.object = .lostRound → m.quantity = .lostRound p) ∧ (m.object = .retryRound → m.quantity = .retryRound p)) ∧
      (m.object = .inFlight → m.quantity = .inFlight) ∧ (m.object = .orphans → m.quantity = .orphans) ∧
      (m.object = .wbuf → m.quantity = .wbuf) ∧ (m.object = .faults → m.quantity = .faults) ∧
      ∀ value : Nat,
        m.result value =
          match m.condition with
          | .atOrAbove => decide (m.threshold.toNat ≤ value)
          | .below => decide (value < m.threshold.toNat)) ∧
  (∀ (s : State) (p : PartitionId),
    s.quantity (.queue p) = (s.pool.filter fun e => e.partition == p).length ∧
      (s.queue p = [] → s.quantity (.age p) = 0) ∧
      (∀ e es, s.queue p = e :: es → s.quantity (.age p) = (s.sched.slotCount - e.stamp).toNat) ∧
      s.quantity (.lostRound p) = s.counters.parts[p].lostRound ∧ s.quantity (.retryRound p) = s.counters.parts[p].retriedRound ∧
      s.quantity .inFlight = (s.flight.table.toList.filter fun e => e != .free).length ∧
      s.quantity .orphans =
        (s.flight.table.toList.filter fun e => match e with | .orphaned _ _ => true | _ => false).length ∧
      s.quantity .wbuf = s.writes.reserved ∧ s.quantity .faults = s.attention.queue.length) ∧
  ∀ (index : Half) (flags object condition argument : Byte) (threshold : Half) (extra : Nat) (s : State), s.line = .running →
    s.port.idle = true →
    (4 ≤ index.toNat ∨ 7 < object.toNat ∨ 1 < condition.toNat ∨ (object.toNat ≤ 3 ∧ 7 < argument.toNat) → s.CausesTaken →
      exec (.writeMonitor index flags object condition argument threshold extra) s = .next (s.framed s .range 6 extra)) ∧
    ∀ (i : Fin 4) (o : MonitorObject) (c : MonitorCondition), index.toNat = i.val → monitorObjectOf object = some o →
      monitorConditionOf condition = some c → (object.toNat ≤ 3 → argument.toNat ≤ 7) →
      ∃ m : Monitor,
        m = { enabled := flags.getLsb 0, object := o, argument := argument, condition := c, threshold := threshold, last := m.last } ∧
        m.last = (m.enabled && m.result (s.quantity m.quantity)) ∧
        exec (.writeMonitor index flags object condition argument threshold extra) s =
          .next
            (s.framed
              { s with
                monitors := s.monitors.set i m
                triggers := { s.triggers with raised := s.triggers.raised ++ if m.last then [Cause.monitor i] else [] } }
              .done 6 extra).settle

/-- WRITE ENTRY on the triggers, by the checks of R147 in their order; a taken write replaces the six fields, arms by the written enabled, and leaves the fire
count. The codes, and the arguments each cause and action allows, are those of R148, R150 and R177. -/
def Obligations.TriggerWrite : Prop :=
  (∀ b : Byte, causeCodeOf b = causeCodeTable[b.toNat]? ∧ actionCodeOf b = actionCodeTable[b.toNat]?) ∧
  (∀ (c : CauseCode) (b : Byte),
    c.allows b = true ↔
      match c with
      | .monitor => b.toNat ≤ 3
      | .roundStart => b.toNat ≤ 2
      | .switchTaken => True
      | .evinRise => b.toNat ≤ 3
      | .evinFall => b.toNat ≤ 3
      | .fault => b.toNat ≤ 10
      | .partitionOff => b.toNat ≤ 7
      | .restartDone => True) ∧
  (∀ (a : ActionCode) (b : Byte),
    a.allows b = true ↔
      match a with
      | .requestSwitch => b.toNat ≤ 1
      | .setRun => b.toNat ≤ 7
      | .setHold => b.toNat ≤ 7
      | .setClosing => b.toNat ≤ 7
      | .flush => b.toNat ≤ 7
      | .evoutSet => b.toNat ≤ 3
      | .evoutClear => b.toNat ≤ 3
      | .evoutPulse => b.toNat ≤ 3
      | .snapshot => True
      | .attention => True
      | .arm => b.toNat ≤ 7
      | .disarm => b.toNat ≤ 7
      | .clearMonitor => b.toNat ≤ 3) ∧
  ∀ (index : Half) (flags cause causeArgument action actionArgument : Byte) (ignored : Half) (extra : Nat) (s : State), s.line = .running →
    s.port.idle = true →
    (8 ≤ index.toNat ∨ causeCodeOf cause = none ∨ actionCodeOf action = none ∨
        (∃ c, causeCodeOf cause = some c ∧ c.allows causeArgument = false) ∨ (∃ a, actionCodeOf action = some a ∧ a.allows actionArgument = false) →
      exec (.writeTrigger index flags cause causeArgument action actionArgument ignored extra) s = .next (s.framed s .range 7 extra)) ∧
    ∀ (i : Fin 8) (c : CauseCode) (a : ActionCode), index.toNat = i.val → causeCodeOf cause = some c → actionCodeOf action = some a →
      c.allows causeArgument = true → a.allows actionArgument = true →
      exec (.writeTrigger index flags cause causeArgument action actionArgument ignored extra) s =
        .next
          (s.framed
            { s with
              triggers :=
                { s.triggers with
                  entries :=
                    s.triggers.entries.set i
                      { enabled := flags.getLsb 0, mode := if flags.getLsb 1 then .recurring else .single, armed := flags.getLsb 0
                        cause := c, causeArgument := causeArgument, action := a, actionArgument := actionArgument
                        fireCount := s.triggers.entries[i].fireCount } } }
            .done 7 extra)

/-- WRITE ENTRY on the attention mask replaces all seven enables; ACKNOWLEDGE clears each latched cause it names and nothing else; ATTNN is low exactly while a cause
is both pending and enabled, and FAULT is pending exactly while the queue holds a record (R163 to R165). The byte on SDO in the place of the write data is a
free value (log entry 14). -/
def Obligations.AttentionCommands : Prop :=
  (∀ (index : Half) (mask : Byte) (extra : Nat) (s : State), s.line = .running → s.port.idle = true →
    (index = 0 →
      exec (.writeAttentionMask index mask extra) s =
        .next (s.framed { s with attention := { s.attention with mask := mask.extractLsb' 0 7 } } .done 1 extra)) ∧
    (index ≠ 0 → exec (.writeAttentionMask index mask extra) s = .next (s.framed s .range 1 extra))) ∧
  (∀ (causes : Byte) (extra : Nat) (s : State), s.line = .running → s.port.idle = true →
    ∃ l : BitVec 7,
      exec (.acknowledge causes extra) s = .next (s.framed { s with attention := { s.attention with latched := l } } .done 1 extra) ∧
        ∀ k : Nat, k < 7 → l.getLsbD k = (s.attention.latched.getLsbD k && !causes.getLsbD k)) ∧
  (∀ (a : Attention) (c : AttentionCause),
    (a.isPending c = true ↔ a.latched &&& c.bit ≠ 0 ∨ (c = .fault ∧ a.queue ≠ [])) ∧
      (a.isPending c = true ↔ a.pendingSet &&& c.bit ≠ 0)) ∧
  ∀ s : State,
    (s.attnnLow = true ↔ ∃ c : AttentionCause, s.attention.isPending c = true ∧ s.attention.mask &&& c.bit ≠ 0) ∧
      (s.attention.latched &&& AttentionCause.fault.bit = 0 → (s.attention.isPending .fault = true ↔ s.attention.queue ≠ []))

/-! ### Operations -/

/-- REQUEST SWITCH: RANGE for a target that is neither table, INVALID for one that fails validation, and otherwise it becomes the pending target (R11, R13). -/
def Obligations.SwitchCommand : Prop :=
  ∀ (argument : Byte) (extra : Nat) (s : State), s.line = .running → s.port.idle = true →
    (1 < argument.toNat → exec (.requestSwitch argument extra) s = .next (s.framed s .range 0 extra)) ∧
    ∀ t : TableName, argument.toNat = (match t with | .a => 0 | .b => 1) →
      ((s.sched.table t).valid = false → exec (.requestSwitch argument extra) s = .next (s.framed s .invalid 0 extra)) ∧
      ((s.sched.table t).valid = true →
        exec (.requestSwitch argument extra) s =
          .next (s.framed { s with sched := { s.sched with pendingTarget := some t } } .done 0 extra))

/-- SET PARTITION STATE, by the checks of R28: RANGE, BUSY, and then the table of present states and targets; a partition that enters CLOSING with nothing outstanding
is OFF at once, and one that was OFF stays OFF (R28, R31, R178). Outstanding are a pool entry, an ISSUED or RETURNING entry and a DISCARDING record of the partition (R32).
The target codes are R177's. -/
def Obligations.StateCommand : Prop :=
  (∀ b : Byte, partitionStateOf b = ([.off, .run, .hold, .closing] : List PartitionState)[b.toNat]?) ∧
  (∀ (s : State) (p : PartitionId),
    s.outstanding p = true ↔
      (∃ e ∈ s.pool, e.partition = p) ∨ (∃ (d : DTag) (t : Transaction), s.flight.table[d] = .issued t ∧ t.partition = p) ∨
        (∃ (d : DTag) (t : Transaction) (a : FlightAnswer) (beats : List Beat), s.flight.table[d] = .returning t a beats ∧ t.partition = p) ∨
        ∃ r ∈ s.writes.records, r.state = .discarding ∧ r.partition = p) ∧
  ∀ (argument : Byte) (index : Half) (extra : Nat) (s : State), s.line = .running → s.port.idle = true →
    (7 < argument.toNat ∨ 3 < index.toNat % 256 → s.CausesTaken →
      exec (.setPartitionState argument index extra) s = .next (s.framed s .range 0 extra)) ∧
    ∀ (p : PartitionId) (target : PartitionState), argument.toNat = p.val → partitionStateOf (index.extractLsb' 0 8) = some target →
      (s.restart.phase ≠ .idle → s.CausesTaken → exec (.setPartitionState argument index extra) s = .next (s.framed s .busy 0 extra)) ∧
      (s.restart.phase = .idle →
        (s.CausesTaken →
          target = .off ∨ (s.parts[p].state = .closing ∧ (target = .hold ∨ target = .closing)) →
          exec (.setPartitionState argument index extra) s = .next (s.framed s .state 0 extra)) ∧
        (s.CausesTaken → s.parts[p].state = .off → s.parts[p].quota = 0 → target = .run ∨ target = .hold →
          exec (.setPartitionState argument index extra) s = .next (s.framed s .range 0 extra)) ∧
        (target = .run ∨ (target = .hold ∧ s.parts[p].state ≠ .closing) → s.parts[p].state ≠ .off ∨ 1 ≤ s.parts[p].quota →
          exec (.setPartitionState argument index extra) s =
            .next (s.framed { s with parts := s.parts.set p { s.parts[p] with state := target } } .done 0 extra).settle) ∧
        (target = .closing → s.parts[p].state = .off → s.CausesTaken →
          exec (.setPartitionState argument index extra) s = .next (s.framed s .done 0 extra)) ∧
        (target = .closing → s.parts[p].state = .run ∨ s.parts[p].state = .hold →
          (s.outstanding p = true →
            exec (.setPartitionState argument index extra) s =
              .next (s.framed { s with parts := s.parts.set p { s.parts[p] with state := .closing } } .done 0 extra).settle) ∧
          (s.outstanding p = false →
            exec (.setPartitionState argument index extra) s =
              .next
                (s.framed
                  { s with
                    parts := s.parts.set p { s.parts[p] with state := .off }
                    triggers := { s.triggers with raised := s.triggers.raised ++ [.partitionOff p] }
                    attention := { s.attention with latched := s.attention.latched ||| AttentionCause.closed.bit } }
                  .done 0 extra).settle)))

/-- FLUSH PARTITION: RANGE, BUSY, and otherwise every WAITING entry of the partition is withdrawn with ABORTED, and nothing else of it is touched (R122, R124).
No cause is emitted but those of the monitors of the head age and of the reserved count (R124, R148). -/
def Obligations.FlushCommand : Prop :=
  ∀ (argument : Byte) (extra : Nat) (s : State), s.line = .running → s.port.idle = true →
    (7 < argument.toNat → s.CausesTaken → exec (.flushPartition argument extra) s = .next (s.framed s .range 0 extra)) ∧
    ∀ p : PartitionId, argument.toNat = p.val →
      (s.restart.phase ≠ .idle → s.CausesTaken → exec (.flushPartition argument extra) s = .next (s.framed s .busy 0 extra)) ∧
      (s.restart.phase = .idle →
        ∃ u : State, exec (.flushPartition argument extra) s = .next (s.framed u .done 0 extra).settle ∧
          u.pool = s.pool.map (s.withdrawnEntry (fun e => e.partition == p) .aborted) ∧ u.queue p = [] ∧ u.headAge p = 0 ∧
          (∀ q : PartitionId, u.heldCount q = s.heldCount q) ∧ (∀ q : PartitionId, q ≠ p → u.queue q = s.queue q) ∧
          u.writes = (s.withdraw (fun e => e.partition == p) .aborted).writes ∧ u.intake = s.intake ∧ u.flight = s.flight ∧
          u.restart = s.restart ∧ u.parts = s.parts ∧ u.counters = s.counters ∧ NoFault s u ∧ DataPathFrame s u ∧
          Emits s u [] [.age p, .wbuf])

/-- CLEAR COUNTERS sets every partition's counters and per-round counts and the six global counters to 0, hands the cleared per-round counts out, and leaves the
round number, the global slot count and the snapshot record (R138). -/
def Obligations.ClearCountersCommand : Prop :=
  ∀ (extra : Nat) (s : State), s.line = .running → s.port.idle = true →
    ∃ u : State, exec (.clearCounters extra) s = .next (s.framed u .done 0 extra).settle ∧ 
      (∀ p : PartitionId,
        u.counters.parts[p] =
          { accepted := 0, retried := 0, refused := 0, lateCancels := 0, ownedIssues := 0, slackIssues := 0, lostOwned := 0, completedOk := 0
            completedError := 0, withdrawn := 0, lostRound := 0, retriedRound := 0 }) ∧
      u.counters.global = { stalled := 0, quiet := 0, idle := 0, restart := 0, unmappedRetries := 0, unmappedLateCancels := 0 } ∧
      (∀ i : Fin 4, s.monitors[i].enabled = true →
        (∃ p : PartitionId, s.monitors[i].quantity = .lostRound p ∨ s.monitors[i].quantity = .retryRound p) →
        u.monitors[i].last = s.monitors[i].result 0) ∧
      u.pool = s.pool ∧ u.writes = s.writes ∧ u.intake = s.intake ∧ u.flight = s.flight ∧ u.restart = s.restart ∧ u.parts = s.parts ∧
      NoFault s u ∧ DataPathFrame s u ∧ Emits s u [] roundCounts

/-! ### Guarantees that every step keeps -/

/-- The active table and the pending target pass validation, the slot index stays below the active table's round length, and no remaining allowance is above what
the active table gives (R5, R9, R15). -/
def Obligations.ScheduleKept : Prop :=
  ∀ s t : State, s.Defined (fun s => s.sched.Sound ∧ s.LowIsReset) → step s = .next t → t.Defined (fun t => t.sched.Sound ∧ t.LowIsReset)

/-- No management write and no action changes the active table or the pending target's table, and the active table changes only at a round start (R18). -/
def Obligations.ActiveTableProtected : Prop :=
  ∀ (c : Instr) (s t : State), s.line = .running → exec c s = .next t → t.line = .running →
    (t.sched.active ≠ s.sched.active → c = .slotStart ∧ s.sched.activeTable.roundLength ≤ s.sched.slot + 1) ∧
      t.sched.table s.sched.active = s.sched.table s.sched.active ∧
      ∀ x, s.sched.pendingTarget = some x → t.sched.table x = s.sched.table x

/-- The entries a partition holds never exceed its quota, an OFF partition holds none, and the quotas never sum to more than 64 (R24, R34). -/
def Obligations.QuotaBoundKept : Prop :=
  (∀ parts : Vector PartitionRecord 8, quotaSum parts = (parts.toList.map PartitionRecord.quota).sum) ∧
  ∀ s t : State, s.Defined State.QuotaKept → step s = .next t → t.Defined State.QuotaKept

/-- The reserved count equals the sum of declared beats of WAITING writes, and never exceeds 256 (R82). -/
def Obligations.ReservationBoundKept : Prop :=
  (∀ e : PoolEntry, e.reserves = true ↔ e.state = .waiting ∧ e.kind = .write) ∧
  ∀ s t : State, s.Defined State.ReservationKept → step s = .next t → t.Defined State.ReservationKept

/-- A pair belongs to at most one accepted request, carried by one pool entry or one in-flight entry, and the held-pair set is exactly those pairs (R70). -/
def Obligations.HeldPairsKept : Prop :=
  (∀ e : FlightEntry,
    e.heldPair =
      match e with
      | .free => none
      | .issued t => some t.pair
      | .returning t _ _ => some t.pair
      | .orphaned t owed => if owed = true then some t.pair else none) ∧
  ∀ s t : State, s.Defined State.PairsKept → step s = .next t → t.Defined State.PairsKept

/-- The work in the part stays accounted for: the open-write records match their queue entries, a CLOSING partition has outstanding work, and the phases of a restart
hold what they say (R32, R83, R127, R130). -/
def Obligations.WorkAccountKept : Prop :=
  ∀ s t : State, s.Defined (fun s => s.PairsKept ∧ s.ReservationKept ∧ s.RecordsKept ∧ s.ClosingKept ∧ s.RestartKept) → step s = .next t →
    t.Defined (fun t => t.PairsKept ∧ t.ReservationKept ∧ t.RecordsKept ∧ t.ClosingKept ∧ t.RestartKept)

/-- Exactly the in-flight responses waiting for the channel have a place in turn, and the record on offer stays one that its class holds (R105, R106, R109). -/
def Obligations.ResponsesKept : Prop :=
  (∀ (e : PoolEntry) (status : WithdrawalStatus) (released : Bool), e.state = .answering status released →
    e.offer =
      if released = true then
        some
          { source := .withdrawn e.pair
            record := { pair := e.pair, status := (match status with | .cancelled => .cancelled | .aborted => .aborted), data := none } }
      else none) ∧
  (∀ e : PoolEntry, e.state = .waiting → e.offer = none) ∧
  (∀ (d : DTag) (e : FlightEntry),
    e.offer d =
      match e with
      | .free => none
      | .issued _ => none
      | .returning t a beats =>
        some
          { source := .inFlight d
            record :=
              { pair := t.pair, status := (match a with | .okay => .okay | .derr => .derr | .timeout => .timeout)
                data := if t.kind = .read ∧ a = .okay then some beats else none } }
      | .orphaned t owed =>
        if owed = true then some { source := .inFlight d, record := { pair := t.pair, status := .timeout, data := none } } else none) ∧
  ∀ s t : State, s.Defined (fun s => s.PlacesKept ∧ s.OfferKept ∧ s.PairsKept) → step s = .next t →
    t.Defined (fun t => t.PlacesKept ∧ t.OfferKept ∧ t.PairsKept)

/-- An entry that is not enabled is never armed, the fault queue never holds more than 16 records, FAULT is never latched, every enabled monitor has its condition on
the present value as last result, and no cause is left untaken (R41, R55, R74, R98, R119, R124, R135, R141, R142, R146, R160, R163). For the head ages the step starts
from a state in which each pair is held once and each open-write record has its entry (R70, R83: HeldPairsKept and WorkAccountKept). -/
def Obligations.TriggersAndFaultsKept : Prop :=
  (∀ s t : State, s.Defined (fun s => s.ArmedOnlyEnabled ∧ s.FaultsKept ∧ s.FaultNotLatched ∧ s.MonitorsCurrent ∧ s.CausesTaken) →
    step s = .next t → t.Defined (fun t => t.ArmedOnlyEnabled ∧ t.FaultsKept ∧ t.FaultNotLatched ∧ t.MonitorsCurrent ∧ t.CausesTaken)) ∧
  ∀ s t : State, s.Defined (fun s => (s.PairsKept ∧ s.RecordsKept) ∧ s.AgesCurrent) → step s = .next t → t.Defined State.AgesCurrent

/-! ### Frames as bytes -/

/-- The frame of every well-formed command of the management port is read back as that command, every operand at every value (R167, R168, R177). The command and table
codes and the lengths are those of R177: a frame of a command that returns no data, or of a WRITE ENTRY, is read from its bytes, byte 4 and the bytes beyond its needed
length ignored; a read command that INDEX_COMPLETE names closes at its needed length; a shorter frame is cut short, and a code that names nothing gives UNKNOWN. -/
def Obligations.FramesReadBack : Prop :=
  (∀ (i : Instr) (bytes : List Byte), i.wellFormed = true → encodeFrame i = some bytes → decodeFrame bytes = i) ∧
  (∀ (argument high low ignored : Byte) (data : List Byte),
    decodeFrame (0x10 :: argument :: high :: low :: ignored :: data) = .requestSwitch argument data.length ∧
      decodeFrame (0x11 :: argument :: high :: low :: ignored :: data) = .setPartitionState argument (halfOf high low) data.length ∧
      decodeFrame (0x12 :: argument :: high :: low :: ignored :: data) = .flushPartition argument data.length ∧
      decodeFrame (0x13 :: argument :: high :: low :: ignored :: data) = .pathRestart data.length ∧
      decodeFrame (0x32 :: argument :: high :: low :: ignored :: data) = .clearCounters data.length ∧
      ∀ causes : Byte, decodeFrame (0x21 :: argument :: high :: low :: ignored :: causes :: data) = .acknowledge causes data.length) ∧
  (∀ (t : TableName) (high low ignored b0 b1 b2 b3 b4 b5 b6 b7 b8 b9 : Byte) (data : List Byte),
    decodeFrame (0x02 :: (match t with | .a => 0x00 | .b => 0x03) :: high :: low :: ignored :: b0 :: b1 :: data) =
        .writeScheduleEntry t (halfOf high low) (.header b0 b1) data.length ∧
      decodeFrame (0x02 :: (match t with | .a => 0x01 | .b => 0x04) :: high :: low :: ignored :: b0 :: data) =
        .writeScheduleEntry t (halfOf high low) (.slot b0) data.length ∧
      decodeFrame
          (0x02 :: (match t with | .a => 0x02 | .b => 0x05) :: high :: low :: ignored :: b0 :: b1 :: b2 :: b3 :: b4 :: b5 :: b6 :: b7 :: data) =
        .writeScheduleEntry t (halfOf high low) (.allowance b0 b1 b2 b3 b4 b5 b6 b7) data.length ∧
      decodeFrame (0x02 :: 0x08 :: high :: low :: ignored :: b0 :: b1 :: b2 :: b3 :: data) =
        .writePartitionRecord (halfOf high low) b0 b1 b2 b3 data.length ∧
      decodeFrame (0x02 :: 0x09 :: high :: low :: ignored :: b0 :: data) = .writeInitiatorMap (halfOf high low) b0 data.length ∧
      decodeFrame (0x02 :: 0x0A :: high :: low :: ignored :: b0 :: b1 :: b2 :: b3 :: b4 :: b5 :: b6 :: b7 :: b8 :: b9 :: data) =
        .writeRegion (halfOf high low) (b0 ++ b1 ++ b2 ++ b3) (b4 ++ b5 ++ b6 ++ b7) b8 b9 data.length ∧
      decodeFrame (0x02 :: 0x0B :: high :: low :: ignored :: b0 :: b1 :: b2 :: b3 :: b4 :: b5 :: data) =
        .writeMonitor (halfOf high low) b0 b1 b2 b3 (halfOf b4 b5) data.length ∧
      decodeFrame (0x02 :: 0x0C :: high :: low :: ignored :: b0 :: b1 :: b2 :: b3 :: b4 :: b5 :: b6 :: data) =
        .writeTrigger (halfOf high low) b0 b1 b2 b3 b4 (halfOf b5 b6) data.length ∧
      decodeFrame (0x02 :: 0x0D :: high :: low :: ignored :: b0 :: data) = .writeAttentionMask (halfOf high low) b0 data.length) ∧
  (∀ (b : IndexBytes) (command : ReadCommand) (ignored : Byte) (data : List Byte), b.command = some command →
    (readLength command ≤ data.length →
      decodeFrame (b.code :: b.argument :: b.high :: b.low :: ignored :: data) =
        match command with
        | .readEntry table index => .readEntry table index (data.length - readLength command)
        | .popFault => .popFault (data.length - readLength command)
        | .readStatus => .readStatus (data.length - readLength command)
        | .readCounters argument => .readCounters argument (data.length - readLength command)
        | .readSnapshot index => .readSnapshot index (data.length - readLength command)) ∧
    (data.length < readLength command →
      decodeFrame (b.code :: b.argument :: b.high :: b.low :: ignored :: data) =
        .frameCutShort (b.code :: b.argument :: b.high :: b.low :: ignored :: data))) ∧
  (∀ bytes : List Byte, bytes.length < 5 → decodeFrame bytes = .frameCutShort bytes) ∧
  ∀ (code argument high low ignored : Byte) (data bytes : List Byte), bytes = code :: argument :: high :: low :: ignored :: data →
    (code = 0x21 → data = [] → decodeFrame bytes = .frameCutShort bytes) ∧
    (∀ length : Nat, code = 0x02 → data.length < length →
      (argument, length) ∈
        ([(0x00, 2), (0x01, 1), (0x02, 8), (0x03, 2), (0x04, 1), (0x05, 8), (0x08, 4), (0x09, 1), (0x0A, 10), (0x0B, 6), (0x0C, 7), (0x0D, 1)] :
          List (Byte × Nat)) →
      decodeFrame bytes = .frameCutShort bytes) ∧
    ((code ∉ ([0x01, 0x02, 0x10, 0x11, 0x12, 0x13, 0x20, 0x21, 0x30, 0x31, 0x32, 0x33] : List Byte)) ∨
        ((code = 0x01 ∨ code = 0x02) ∧
          argument ∉ ([0x00, 0x01, 0x02, 0x03, 0x04, 0x05, 0x08, 0x09, 0x0A, 0x0B, 0x0C, 0x0D] : List Byte)) →
      decodeFrame bytes = .unknown bytes)
end

