-- ==== Sys2Proof/Laws/State.lean ====
section
/-! SUPPORT. For each update of the state, the fields it leaves, true by computation: one lemma for each update, with one simp rule for each field.
An update that stands in a branch or a fold has its lemma in Laws/Frames.lean. -/

namespace Sys2Proof
namespace Machine

/-- Emitting a cause changes only the causes raised. -/
@[simp] theorem State.raise_fields (s : State) (c : Cause) :
    (s.raise c).line = s.line ∧ (s.raise c).sched = s.sched ∧ (s.raise c).parts = s.parts ∧ (s.raise c).pool = s.pool ∧
    (s.raise c).intake = s.intake ∧ (s.raise c).writes = s.writes ∧ (s.raise c).flight = s.flight ∧ (s.raise c).restart = s.restart ∧
    (s.raise c).counters = s.counters ∧ (s.raise c).snapshot = s.snapshot ∧ (s.raise c).monitors = s.monitors ∧
    (s.raise c).triggers.entries = s.triggers.entries ∧ (s.raise c).triggers.seen = s.triggers.seen ∧
    (s.raise c).triggers.outputs = s.triggers.outputs ∧ (s.raise c).triggers.held = s.triggers.held ∧
    (s.raise c).attention = s.attention ∧ (s.raise c).port = s.port ∧ (s.raise c).free = s.free ∧ (s.raise c).pending = s.pending :=
  ⟨rfl, rfl, rfl, rfl, rfl, rfl, rfl, rfl, rfl, rfl, rfl, rfl, rfl, rfl, rfl, rfl, rfl, rfl, rfl⟩

/-- Latching an attention cause changes only the latched causes. -/
@[simp] theorem State.latch_fields (s : State) (c : AttentionCause) :
    (s.latch c).line = s.line ∧ (s.latch c).sched = s.sched ∧ (s.latch c).parts = s.parts ∧ (s.latch c).pool = s.pool ∧
    (s.latch c).intake = s.intake ∧ (s.latch c).writes = s.writes ∧ (s.latch c).flight = s.flight ∧ (s.latch c).restart = s.restart ∧
    (s.latch c).counters = s.counters ∧ (s.latch c).snapshot = s.snapshot ∧ (s.latch c).monitors = s.monitors ∧
    (s.latch c).triggers = s.triggers ∧ (s.latch c).attention.queue = s.attention.queue ∧ (s.latch c).attention.mask = s.attention.mask ∧
    (s.latch c).port = s.port ∧ (s.latch c).free = s.free ∧ (s.latch c).pending = s.pending :=
  ⟨rfl, rfl, rfl, rfl, rfl, rfl, rfl, rfl, rfl, rfl, rfl, rfl, rfl, rfl, rfl, rfl, rfl⟩

/-- Handing a value out changes only the monitors and the causes raised. -/
@[simp] theorem State.hand_fields (s : State) (q : Quantity) :
    (s.hand q).line = s.line ∧ (s.hand q).sched = s.sched ∧ (s.hand q).parts = s.parts ∧ (s.hand q).pool = s.pool ∧
    (s.hand q).intake = s.intake ∧ (s.hand q).writes = s.writes ∧ (s.hand q).flight = s.flight ∧ (s.hand q).restart = s.restart ∧
    (s.hand q).counters = s.counters ∧ (s.hand q).snapshot = s.snapshot ∧ (s.hand q).triggers.entries = s.triggers.entries ∧
    (s.hand q).triggers.seen = s.triggers.seen ∧ (s.hand q).triggers.outputs = s.triggers.outputs ∧
    (s.hand q).triggers.held = s.triggers.held ∧ (s.hand q).attention = s.attention ∧ (s.hand q).port = s.port ∧
    (s.hand q).free = s.free ∧ (s.hand q).pending = s.pending :=
  ⟨rfl, rfl, rfl, rfl, rfl, rfl, rfl, rfl, rfl, rfl, rfl, rfl, rfl, rfl, rfl, rfl, rfl, rfl⟩

/-- Counting for a partition changes only the partitions’ counters. -/
@[simp] theorem State.countPart_fields (s : State) (p : PartitionId) (f : PartitionCounters → PartitionCounters) :
    (s.countPart p f).line = s.line ∧ (s.countPart p f).sched = s.sched ∧ (s.countPart p f).parts = s.parts ∧
    (s.countPart p f).pool = s.pool ∧ (s.countPart p f).intake = s.intake ∧ (s.countPart p f).writes = s.writes ∧
    (s.countPart p f).flight = s.flight ∧ (s.countPart p f).restart = s.restart ∧ (s.countPart p f).counters.global = s.counters.global ∧
    (s.countPart p f).snapshot = s.snapshot ∧ (s.countPart p f).monitors = s.monitors ∧ (s.countPart p f).triggers = s.triggers ∧
    (s.countPart p f).attention = s.attention ∧ (s.countPart p f).port = s.port ∧ (s.countPart p f).free = s.free ∧
    (s.countPart p f).pending = s.pending :=
  ⟨rfl, rfl, rfl, rfl, rfl, rfl, rfl, rfl, rfl, rfl, rfl, rfl, rfl, rfl, rfl, rfl⟩

/-- Counting globally changes only the global counters. -/
@[simp] theorem State.countGlobal_fields (s : State) (f : GlobalCounters → GlobalCounters) :
    (s.countGlobal f).line = s.line ∧ (s.countGlobal f).sched = s.sched ∧ (s.countGlobal f).parts = s.parts ∧
    (s.countGlobal f).pool = s.pool ∧ (s.countGlobal f).intake = s.intake ∧ (s.countGlobal f).writes = s.writes ∧
    (s.countGlobal f).flight = s.flight ∧ (s.countGlobal f).restart = s.restart ∧ (s.countGlobal f).counters.parts = s.counters.parts ∧
    (s.countGlobal f).snapshot = s.snapshot ∧ (s.countGlobal f).monitors = s.monitors ∧ (s.countGlobal f).triggers = s.triggers ∧
    (s.countGlobal f).attention = s.attention ∧ (s.countGlobal f).port = s.port ∧ (s.countGlobal f).free = s.free ∧
    (s.countGlobal f).pending = s.pending :=
  ⟨rfl, rfl, rfl, rfl, rfl, rfl, rfl, rfl, rfl, rfl, rfl, rfl, rfl, rfl, rfl, rfl⟩

/-- Setting a partition state changes only the records. -/
@[simp] theorem State.setState_fields (s : State) (p : PartitionId) (x : PartitionState) :
    (s.setState p x).line = s.line ∧ (s.setState p x).sched = s.sched ∧ (s.setState p x).pool = s.pool ∧
    (s.setState p x).intake = s.intake ∧ (s.setState p x).writes = s.writes ∧ (s.setState p x).flight = s.flight ∧
    (s.setState p x).restart = s.restart ∧ (s.setState p x).counters = s.counters ∧ (s.setState p x).snapshot = s.snapshot ∧
    (s.setState p x).monitors = s.monitors ∧ (s.setState p x).triggers = s.triggers ∧ (s.setState p x).attention = s.attention ∧
    (s.setState p x).port = s.port ∧ (s.setState p x).free = s.free ∧ (s.setState p x).pending = s.pending :=
  ⟨rfl, rfl, rfl, rfl, rfl, rfl, rfl, rfl, rfl, rfl, rfl, rfl, rfl, rfl, rfl⟩

/-- A withdrawal changes only the pool and the write-data unit. -/
@[simp] theorem State.withdraw_fields (s : State) (chosen : PoolEntry → Bool) (status : WithdrawalStatus) :
    (s.withdraw chosen status).line = s.line ∧ (s.withdraw chosen status).sched = s.sched ∧ (s.withdraw chosen status).parts = s.parts ∧
    (s.withdraw chosen status).intake = s.intake ∧ (s.withdraw chosen status).flight = s.flight ∧
    (s.withdraw chosen status).restart = s.restart ∧ (s.withdraw chosen status).counters = s.counters ∧
    (s.withdraw chosen status).snapshot = s.snapshot ∧ (s.withdraw chosen status).monitors = s.monitors ∧
    (s.withdraw chosen status).triggers = s.triggers ∧ (s.withdraw chosen status).attention = s.attention ∧
    (s.withdraw chosen status).port = s.port ∧ (s.withdraw chosen status).free = s.free ∧ (s.withdraw chosen status).pending = s.pending :=
  ⟨rfl, rfl, rfl, rfl, rfl, rfl, rfl, rfl, rfl, rfl, rfl, rfl, rfl, rfl⟩

/-- A snapshot changes only the record and the latched causes. -/
@[simp] theorem State.takeSnapshot_fields (s : State) :
    (s.takeSnapshot).line = s.line ∧ (s.takeSnapshot).sched = s.sched ∧ (s.takeSnapshot).parts = s.parts ∧
    (s.takeSnapshot).pool = s.pool ∧ (s.takeSnapshot).intake = s.intake ∧ (s.takeSnapshot).writes = s.writes ∧
    (s.takeSnapshot).flight = s.flight ∧ (s.takeSnapshot).restart = s.restart ∧ (s.takeSnapshot).counters = s.counters ∧
    (s.takeSnapshot).monitors = s.monitors ∧ (s.takeSnapshot).triggers = s.triggers ∧
    (s.takeSnapshot).attention.queue = s.attention.queue ∧ (s.takeSnapshot).attention.mask = s.attention.mask ∧
    (s.takeSnapshot).port = s.port ∧ (s.takeSnapshot).free = s.free ∧ (s.takeSnapshot).pending = s.pending :=
  ⟨rfl, rfl, rfl, rfl, rfl, rfl, rfl, rfl, rfl, rfl, rfl, rfl, rfl, rfl, rfl, rfl⟩

/-- Driving a line changes only the event outputs. -/
@[simp] theorem State.setOutput_fields (s : State) (k : EventLine) (f : EventOutput → EventOutput) :
    (s.setOutput k f).line = s.line ∧ (s.setOutput k f).sched = s.sched ∧ (s.setOutput k f).parts = s.parts ∧
    (s.setOutput k f).pool = s.pool ∧ (s.setOutput k f).intake = s.intake ∧ (s.setOutput k f).writes = s.writes ∧
    (s.setOutput k f).flight = s.flight ∧ (s.setOutput k f).restart = s.restart ∧ (s.setOutput k f).counters = s.counters ∧
    (s.setOutput k f).snapshot = s.snapshot ∧ (s.setOutput k f).monitors = s.monitors ∧
    (s.setOutput k f).triggers.entries = s.triggers.entries ∧ (s.setOutput k f).triggers.seen = s.triggers.seen ∧
    (s.setOutput k f).triggers.held = s.triggers.held ∧ (s.setOutput k f).triggers.raised = s.triggers.raised ∧
    (s.setOutput k f).attention = s.attention ∧ (s.setOutput k f).port = s.port ∧ (s.setOutput k f).free = s.free ∧
    (s.setOutput k f).pending = s.pending :=
  ⟨rfl, rfl, rfl, rfl, rfl, rfl, rfl, rfl, rfl, rfl, rfl, rfl, rfl, rfl, rfl, rfl, rfl, rfl, rfl⟩

/-- Changing a trigger entry changes only the entries. -/
@[simp] theorem State.setTrigger_fields (s : State) (i : Fin 8) (f : Trigger → Trigger) :
    (s.setTrigger i f).line = s.line ∧ (s.setTrigger i f).sched = s.sched ∧ (s.setTrigger i f).parts = s.parts ∧
    (s.setTrigger i f).pool = s.pool ∧ (s.setTrigger i f).intake = s.intake ∧ (s.setTrigger i f).writes = s.writes ∧
    (s.setTrigger i f).flight = s.flight ∧ (s.setTrigger i f).restart = s.restart ∧ (s.setTrigger i f).counters = s.counters ∧
    (s.setTrigger i f).snapshot = s.snapshot ∧ (s.setTrigger i f).monitors = s.monitors ∧
    (s.setTrigger i f).triggers.seen = s.triggers.seen ∧ (s.setTrigger i f).triggers.outputs = s.triggers.outputs ∧
    (s.setTrigger i f).triggers.held = s.triggers.held ∧ (s.setTrigger i f).triggers.raised = s.triggers.raised ∧
    (s.setTrigger i f).attention = s.attention ∧ (s.setTrigger i f).port = s.port ∧ (s.setTrigger i f).free = s.free ∧
    (s.setTrigger i f).pending = s.pending :=
  ⟨rfl, rfl, rfl, rfl, rfl, rfl, rfl, rfl, rfl, rfl, rfl, rfl, rfl, rfl, rfl, rfl, rfl, rfl, rfl⟩

/-- Setting a seen level changes only the seen levels. -/
@[simp] theorem State.setSeen_fields (s : State) (k : EventLine) (high : Bool) :
    (s.setSeen k high).line = s.line ∧ (s.setSeen k high).sched = s.sched ∧ (s.setSeen k high).parts = s.parts ∧
    (s.setSeen k high).pool = s.pool ∧ (s.setSeen k high).intake = s.intake ∧ (s.setSeen k high).writes = s.writes ∧
    (s.setSeen k high).flight = s.flight ∧ (s.setSeen k high).restart = s.restart ∧ (s.setSeen k high).counters = s.counters ∧
    (s.setSeen k high).snapshot = s.snapshot ∧ (s.setSeen k high).monitors = s.monitors ∧
    (s.setSeen k high).triggers.entries = s.triggers.entries ∧ (s.setSeen k high).triggers.outputs = s.triggers.outputs ∧
    (s.setSeen k high).triggers.held = s.triggers.held ∧ (s.setSeen k high).triggers.raised = s.triggers.raised ∧
    (s.setSeen k high).attention = s.attention ∧ (s.setSeen k high).port = s.port ∧ (s.setSeen k high).free = s.free ∧
    (s.setSeen k high).pending = s.pending :=
  ⟨rfl, rfl, rfl, rfl, rfl, rfl, rfl, rfl, rfl, rfl, rfl, rfl, rfl, rfl, rfl, rfl, rfl, rfl, rfl⟩

/-- Holding the causes raised changes only the held and the raised causes. -/
@[simp] theorem State.holdRaised_fields (s : State) :
    (s.holdRaised).line = s.line ∧ (s.holdRaised).sched = s.sched ∧ (s.holdRaised).parts = s.parts ∧ (s.holdRaised).pool = s.pool ∧
    (s.holdRaised).intake = s.intake ∧ (s.holdRaised).writes = s.writes ∧ (s.holdRaised).flight = s.flight ∧
    (s.holdRaised).restart = s.restart ∧ (s.holdRaised).counters = s.counters ∧ (s.holdRaised).snapshot = s.snapshot ∧
    (s.holdRaised).monitors = s.monitors ∧ (s.holdRaised).triggers.entries = s.triggers.entries ∧
    (s.holdRaised).triggers.seen = s.triggers.seen ∧ (s.holdRaised).triggers.outputs = s.triggers.outputs ∧
    (s.holdRaised).attention = s.attention ∧ (s.holdRaised).port = s.port ∧ (s.holdRaised).free = s.free ∧
    (s.holdRaised).pending = s.pending :=
  ⟨rfl, rfl, rfl, rfl, rfl, rfl, rfl, rfl, rfl, rfl, rfl, rfl, rfl, rfl, rfl, rfl, rfl, rfl⟩

/-- Replacing an in-flight entry changes only the table. -/
@[simp] theorem State.setFlight_fields (s : State) (d : DTag) (e : FlightEntry) :
    (s.setFlight d e).line = s.line ∧ (s.setFlight d e).sched = s.sched ∧ (s.setFlight d e).parts = s.parts ∧
    (s.setFlight d e).pool = s.pool ∧ (s.setFlight d e).intake = s.intake ∧ (s.setFlight d e).writes = s.writes ∧
    (s.setFlight d e).flight.output = s.flight.output ∧ (s.setFlight d e).flight.places = s.flight.places ∧
    (s.setFlight d e).flight.turn = s.flight.turn ∧ (s.setFlight d e).flight.offer = s.flight.offer ∧
    (s.setFlight d e).flight.timeouts = s.flight.timeouts ∧
    (s.setFlight d e).restart = s.restart ∧ (s.setFlight d e).counters = s.counters ∧ (s.setFlight d e).snapshot = s.snapshot ∧
    (s.setFlight d e).monitors = s.monitors ∧ (s.setFlight d e).triggers = s.triggers ∧ (s.setFlight d e).attention = s.attention ∧
    (s.setFlight d e).port = s.port ∧ (s.setFlight d e).free = s.free ∧ (s.setFlight d e).pending = s.pending :=
  ⟨rfl, rfl, rfl, rfl, rfl, rfl, rfl, rfl, rfl, rfl, rfl, rfl, rfl, rfl, rfl, rfl, rfl, rfl, rfl, rfl⟩

/-- Taking the last place changes only the places in turn. -/
@[simp] theorem State.lastPlace_fields (s : State) (d : DTag) :
    (s.lastPlace d).line = s.line ∧ (s.lastPlace d).sched = s.sched ∧ (s.lastPlace d).parts = s.parts ∧ (s.lastPlace d).pool = s.pool ∧
    (s.lastPlace d).intake = s.intake ∧ (s.lastPlace d).writes = s.writes ∧ (s.lastPlace d).flight.table = s.flight.table ∧
    (s.lastPlace d).flight.output = s.flight.output ∧ (s.lastPlace d).flight.turn = s.flight.turn ∧
    (s.lastPlace d).flight.offer = s.flight.offer ∧ (s.lastPlace d).flight.timeouts = s.flight.timeouts ∧ (s.lastPlace d).restart = s.restart ∧
    (s.lastPlace d).counters = s.counters ∧
    (s.lastPlace d).snapshot = s.snapshot ∧ (s.lastPlace d).monitors = s.monitors ∧ (s.lastPlace d).triggers = s.triggers ∧
    (s.lastPlace d).attention = s.attention ∧ (s.lastPlace d).port = s.port ∧ (s.lastPlace d).free = s.free ∧
    (s.lastPlace d).pending = s.pending :=
  ⟨rfl, rfl, rfl, rfl, rfl, rfl, rfl, rfl, rfl, rfl, rfl, rfl, rfl, rfl, rfl, rfl, rfl, rfl, rfl, rfl⟩

/-- A TIMEOUT fault that is raised changes only those on their way. -/
@[simp] theorem State.sendTimeout_fields (s : State) (r : FaultRecord) :
    (s.sendTimeout r).line = s.line ∧ (s.sendTimeout r).sched = s.sched ∧ (s.sendTimeout r).parts = s.parts ∧ (s.sendTimeout r).pool = s.pool ∧
    (s.sendTimeout r).intake = s.intake ∧ (s.sendTimeout r).writes = s.writes ∧ (s.sendTimeout r).flight.table = s.flight.table ∧
    (s.sendTimeout r).flight.output = s.flight.output ∧ (s.sendTimeout r).flight.places = s.flight.places ∧
    (s.sendTimeout r).flight.turn = s.flight.turn ∧ (s.sendTimeout r).flight.offer = s.flight.offer ∧
    (s.sendTimeout r).restart = s.restart ∧ (s.sendTimeout r).counters = s.counters ∧ (s.sendTimeout r).snapshot = s.snapshot ∧
    (s.sendTimeout r).monitors = s.monitors ∧ (s.sendTimeout r).triggers = s.triggers ∧ (s.sendTimeout r).attention = s.attention ∧
    (s.sendTimeout r).port = s.port ∧ (s.sendTimeout r).free = s.free ∧ (s.sendTimeout r).pending = s.pending :=
  ⟨rfl, rfl, rfl, rfl, rfl, rfl, rfl, rfl, rfl, rfl, rfl, rfl, rfl, rfl, rfl, rfl, rfl, rfl, rfl, rfl⟩

/-- Leaving the IN-FLIGHT class changes only the table and the places in turn. -/
@[simp] theorem State.leaveClass_fields (s : State) (d : DTag) (e : FlightEntry) :
    (s.leaveClass d e).line = s.line ∧ (s.leaveClass d e).sched = s.sched ∧ (s.leaveClass d e).parts = s.parts ∧
    (s.leaveClass d e).pool = s.pool ∧ (s.leaveClass d e).intake = s.intake ∧ (s.leaveClass d e).writes = s.writes ∧
    (s.leaveClass d e).flight.output = s.flight.output ∧ (s.leaveClass d e).flight.turn = s.flight.turn ∧
    (s.leaveClass d e).flight.offer = s.flight.offer ∧ (s.leaveClass d e).flight.timeouts = s.flight.timeouts ∧ (s.leaveClass d e).restart = s.restart ∧
    (s.leaveClass d e).counters = s.counters ∧ (s.leaveClass d e).snapshot = s.snapshot ∧ (s.leaveClass d e).monitors = s.monitors ∧
    (s.leaveClass d e).triggers = s.triggers ∧ (s.leaveClass d e).attention = s.attention ∧ (s.leaveClass d e).port = s.port ∧
    (s.leaveClass d e).free = s.free ∧ (s.leaveClass d e).pending = s.pending :=
  ⟨rfl, rfl, rfl, rfl, rfl, rfl, rfl, rfl, rfl, rfl, rfl, rfl, rfl, rfl, rfl, rfl, rfl, rfl, rfl⟩

/-- Placing an issue record changes only the output register. -/
@[simp] theorem State.placeRecord_fields (s : State) (d : DTag) (e : PoolEntry) (data : Option (List Beat)) :
    (s.placeRecord d e data).line = s.line ∧ (s.placeRecord d e data).sched = s.sched ∧ (s.placeRecord d e data).parts = s.parts ∧
    (s.placeRecord d e data).pool = s.pool ∧ (s.placeRecord d e data).intake = s.intake ∧ (s.placeRecord d e data).writes = s.writes ∧
    (s.placeRecord d e data).flight.table = s.flight.table ∧ (s.placeRecord d e data).flight.places = s.flight.places ∧
    (s.placeRecord d e data).flight.turn = s.flight.turn ∧ (s.placeRecord d e data).flight.offer = s.flight.offer ∧
    (s.placeRecord d e data).flight.timeouts = s.flight.timeouts ∧
    (s.placeRecord d e data).restart = s.restart ∧ (s.placeRecord d e data).counters = s.counters ∧
    (s.placeRecord d e data).snapshot = s.snapshot ∧ (s.placeRecord d e data).monitors = s.monitors ∧
    (s.placeRecord d e data).triggers = s.triggers ∧ (s.placeRecord d e data).attention = s.attention ∧
    (s.placeRecord d e data).port = s.port ∧ (s.placeRecord d e data).free = s.free ∧ (s.placeRecord d e data).pending = s.pending :=
  ⟨rfl, rfl, rfl, rfl, rfl, rfl, rfl, rfl, rfl, rfl, rfl, rfl, rfl, rfl, rfl, rfl, rfl, rfl, rfl, rfl⟩

/-- Charging a slack issue changes only the allowances and the pointer. -/
@[simp] theorem State.chargeSlack_fields (s : State) (w : PartitionId) :
    (s.chargeSlack w).line = s.line ∧ (s.chargeSlack w).sched.tableA = s.sched.tableA ∧ (s.chargeSlack w).sched.tableB = s.sched.tableB ∧
    (s.chargeSlack w).sched.active = s.sched.active ∧ (s.chargeSlack w).sched.pendingTarget = s.sched.pendingTarget ∧
    (s.chargeSlack w).sched.round = s.sched.round ∧ (s.chargeSlack w).sched.slot = s.sched.slot ∧
    (s.chargeSlack w).sched.slotCount = s.sched.slotCount ∧ (s.chargeSlack w).parts = s.parts ∧ (s.chargeSlack w).pool = s.pool ∧
    (s.chargeSlack w).intake = s.intake ∧ (s.chargeSlack w).writes = s.writes ∧ (s.chargeSlack w).flight = s.flight ∧
    (s.chargeSlack w).restart = s.restart ∧ (s.chargeSlack w).counters = s.counters ∧ (s.chargeSlack w).snapshot = s.snapshot ∧
    (s.chargeSlack w).monitors = s.monitors ∧ (s.chargeSlack w).triggers = s.triggers ∧ (s.chargeSlack w).attention = s.attention ∧
    (s.chargeSlack w).port = s.port ∧ (s.chargeSlack w).free = s.free ∧ (s.chargeSlack w).pending = s.pending :=
  ⟨rfl, rfl, rfl, rfl, rfl, rfl, rfl, rfl, rfl, rfl, rfl, rfl, rfl, rfl, rfl, rfl, rfl, rfl, rfl, rfl, rfl, rfl⟩

/-- The reload changes only the remaining allowances. -/
@[simp] theorem State.reloadAllowances_fields (s : State) :
    (s.reloadAllowances).line = s.line ∧ (s.reloadAllowances).sched.tableA = s.sched.tableA ∧
    (s.reloadAllowances).sched.tableB = s.sched.tableB ∧ (s.reloadAllowances).sched.active = s.sched.active ∧
    (s.reloadAllowances).sched.pendingTarget = s.sched.pendingTarget ∧ (s.reloadAllowances).sched.round = s.sched.round ∧
    (s.reloadAllowances).sched.slot = s.sched.slot ∧ (s.reloadAllowances).sched.slotCount = s.sched.slotCount ∧
    (s.reloadAllowances).sched.slackPointer = s.sched.slackPointer ∧ (s.reloadAllowances).parts = s.parts ∧
    (s.reloadAllowances).pool = s.pool ∧ (s.reloadAllowances).intake = s.intake ∧ (s.reloadAllowances).writes = s.writes ∧
    (s.reloadAllowances).flight = s.flight ∧ (s.reloadAllowances).restart = s.restart ∧ (s.reloadAllowances).counters = s.counters ∧
    (s.reloadAllowances).snapshot = s.snapshot ∧ (s.reloadAllowances).monitors = s.monitors ∧
    (s.reloadAllowances).triggers = s.triggers ∧ (s.reloadAllowances).attention = s.attention ∧ (s.reloadAllowances).port = s.port ∧
    (s.reloadAllowances).free = s.free ∧ (s.reloadAllowances).pending = s.pending :=
  ⟨rfl, rfl, rfl, rfl, rfl, rfl, rfl, rfl, rfl, rfl, rfl, rfl, rfl, rfl, rfl, rfl, rfl, rfl, rfl, rfl, rfl, rfl, rfl⟩

/-- ROUND START changes only the causes raised. -/
@[simp] theorem State.raiseRoundStart_fields (s : State) (t : TableName) :
    (s.raiseRoundStart t).line = s.line ∧ (s.raiseRoundStart t).sched = s.sched ∧ (s.raiseRoundStart t).parts = s.parts ∧
    (s.raiseRoundStart t).pool = s.pool ∧ (s.raiseRoundStart t).intake = s.intake ∧ (s.raiseRoundStart t).writes = s.writes ∧
    (s.raiseRoundStart t).flight = s.flight ∧ (s.raiseRoundStart t).restart = s.restart ∧ (s.raiseRoundStart t).counters = s.counters ∧
    (s.raiseRoundStart t).snapshot = s.snapshot ∧ (s.raiseRoundStart t).monitors = s.monitors ∧
    (s.raiseRoundStart t).triggers.entries = s.triggers.entries ∧ (s.raiseRoundStart t).triggers.seen = s.triggers.seen ∧
    (s.raiseRoundStart t).triggers.outputs = s.triggers.outputs ∧ (s.raiseRoundStart t).triggers.held = s.triggers.held ∧
    (s.raiseRoundStart t).attention = s.attention ∧ (s.raiseRoundStart t).port = s.port ∧ (s.raiseRoundStart t).free = s.free ∧
    (s.raiseRoundStart t).pending = s.pending :=
  ⟨rfl, rfl, rfl, rfl, rfl, rfl, rfl, rfl, rfl, rfl, rfl, rfl, rfl, rfl, rfl, rfl, rfl, rfl, rfl⟩

/-- Filling the refusal slot changes nothing else. -/
@[simp] theorem State.refuse_fields (s : State) (pair : Pair) (status : RefusalStatus) :
    (s.refuse pair status).line = s.line ∧ (s.refuse pair status).sched = s.sched ∧ (s.refuse pair status).parts = s.parts ∧
    (s.refuse pair status).pool = s.pool ∧ (s.refuse pair status).intake.map = s.intake.map ∧
    (s.refuse pair status).intake.regions = s.intake.regions ∧ (s.refuse pair status).intake.heldPairs = s.intake.heldPairs ∧
    (s.refuse pair status).writes = s.writes ∧ (s.refuse pair status).flight = s.flight ∧ (s.refuse pair status).restart = s.restart ∧
    (s.refuse pair status).counters = s.counters ∧ (s.refuse pair status).snapshot = s.snapshot ∧
    (s.refuse pair status).monitors = s.monitors ∧ (s.refuse pair status).triggers = s.triggers ∧
    (s.refuse pair status).attention = s.attention ∧ (s.refuse pair status).port = s.port ∧ (s.refuse pair status).free = s.free ∧
    (s.refuse pair status).pending = s.pending :=
  ⟨rfl, rfl, rfl, rfl, rfl, rfl, rfl, rfl, rfl, rfl, rfl, rfl, rfl, rfl, rfl, rfl, rfl, rfl⟩

/-- Emptying the refusal slot changes nothing else. -/
@[simp] theorem State.deliverRefusal_fields (s : State) :
    (s.deliverRefusal).line = s.line ∧ (s.deliverRefusal).sched = s.sched ∧ (s.deliverRefusal).parts = s.parts ∧
    (s.deliverRefusal).pool = s.pool ∧ (s.deliverRefusal).intake.map = s.intake.map ∧
    (s.deliverRefusal).intake.regions = s.intake.regions ∧ (s.deliverRefusal).intake.heldPairs = s.intake.heldPairs ∧
    (s.deliverRefusal).writes = s.writes ∧ (s.deliverRefusal).flight = s.flight ∧ (s.deliverRefusal).restart = s.restart ∧
    (s.deliverRefusal).counters = s.counters ∧ (s.deliverRefusal).snapshot = s.snapshot ∧ (s.deliverRefusal).monitors = s.monitors ∧
    (s.deliverRefusal).triggers = s.triggers ∧ (s.deliverRefusal).attention = s.attention ∧ (s.deliverRefusal).port = s.port ∧
    (s.deliverRefusal).free = s.free ∧ (s.deliverRefusal).pending = s.pending :=
  ⟨rfl, rfl, rfl, rfl, rfl, rfl, rfl, rfl, rfl, rfl, rfl, rfl, rfl, rfl, rfl, rfl, rfl, rfl⟩

/-- Releasing a pair changes only the held-pair set. -/
@[simp] theorem State.releasePair_fields (s : State) (pair : Pair) :
    (s.releasePair pair).line = s.line ∧ (s.releasePair pair).sched = s.sched ∧ (s.releasePair pair).parts = s.parts ∧
    (s.releasePair pair).pool = s.pool ∧ (s.releasePair pair).intake.map = s.intake.map ∧
    (s.releasePair pair).intake.regions = s.intake.regions ∧ (s.releasePair pair).intake.refusal = s.intake.refusal ∧
    (s.releasePair pair).writes = s.writes ∧ (s.releasePair pair).flight = s.flight ∧ (s.releasePair pair).restart = s.restart ∧
    (s.releasePair pair).counters = s.counters ∧ (s.releasePair pair).snapshot = s.snapshot ∧
    (s.releasePair pair).monitors = s.monitors ∧ (s.releasePair pair).triggers = s.triggers ∧
    (s.releasePair pair).attention = s.attention ∧ (s.releasePair pair).port = s.port ∧ (s.releasePair pair).free = s.free ∧
    (s.releasePair pair).pending = s.pending :=
  ⟨rfl, rfl, rfl, rfl, rfl, rfl, rfl, rfl, rfl, rfl, rfl, rfl, rfl, rfl, rfl, rfl, rfl, rfl⟩

/-- Opening a write changes only the write-data unit. -/
@[simp] theorem State.openWrite_fields (s : State) (r : Request) (p : PartitionId) :
    (s.openWrite r p).line = s.line ∧ (s.openWrite r p).sched = s.sched ∧ (s.openWrite r p).parts = s.parts ∧
    (s.openWrite r p).pool = s.pool ∧ (s.openWrite r p).intake = s.intake ∧ (s.openWrite r p).flight = s.flight ∧
    (s.openWrite r p).restart = s.restart ∧ (s.openWrite r p).counters = s.counters ∧ (s.openWrite r p).snapshot = s.snapshot ∧
    (s.openWrite r p).monitors = s.monitors ∧ (s.openWrite r p).triggers = s.triggers ∧ (s.openWrite r p).attention = s.attention ∧
    (s.openWrite r p).port = s.port ∧ (s.openWrite r p).free = s.free ∧ (s.openWrite r p).pending = s.pending :=
  ⟨rfl, rfl, rfl, rfl, rfl, rfl, rfl, rfl, rfl, rfl, rfl, rfl, rfl, rfl, rfl⟩

/-- Changing a record changes only the records. -/
@[simp] theorem State.updateRecord_fields (s : State) (pair : Pair) (f : OpenWrite → OpenWrite) :
    (s.updateRecord pair f).line = s.line ∧ (s.updateRecord pair f).sched = s.sched ∧ (s.updateRecord pair f).parts = s.parts ∧
    (s.updateRecord pair f).pool = s.pool ∧ (s.updateRecord pair f).intake = s.intake ∧
    (s.updateRecord pair f).writes.reserved = s.writes.reserved ∧ (s.updateRecord pair f).flight = s.flight ∧
    (s.updateRecord pair f).restart = s.restart ∧ (s.updateRecord pair f).counters = s.counters ∧
    (s.updateRecord pair f).snapshot = s.snapshot ∧ (s.updateRecord pair f).monitors = s.monitors ∧
    (s.updateRecord pair f).triggers = s.triggers ∧ (s.updateRecord pair f).attention = s.attention ∧
    (s.updateRecord pair f).port = s.port ∧ (s.updateRecord pair f).free = s.free ∧ (s.updateRecord pair f).pending = s.pending :=
  ⟨rfl, rfl, rfl, rfl, rfl, rfl, rfl, rfl, rfl, rfl, rfl, rfl, rfl, rfl, rfl, rfl⟩

/-- Completing a write changes only its record and its entry. -/
@[simp] theorem State.completeWrite_fields (s : State) (r : OpenWrite) (data : Beat) :
    (s.completeWrite r data).line = s.line ∧ (s.completeWrite r data).sched = s.sched ∧ (s.completeWrite r data).parts = s.parts ∧
    (s.completeWrite r data).intake = s.intake ∧ (s.completeWrite r data).writes.reserved = s.writes.reserved ∧
    (s.completeWrite r data).flight = s.flight ∧ (s.completeWrite r data).restart = s.restart ∧
    (s.completeWrite r data).counters = s.counters ∧ (s.completeWrite r data).snapshot = s.snapshot ∧
    (s.completeWrite r data).monitors = s.monitors ∧ (s.completeWrite r data).triggers = s.triggers ∧
    (s.completeWrite r data).attention = s.attention ∧ (s.completeWrite r data).port = s.port ∧ (s.completeWrite r data).free = s.free ∧
    (s.completeWrite r data).pending = s.pending :=
  ⟨rfl, rfl, rfl, rfl, rfl, rfl, rfl, rfl, rfl, rfl, rfl, rfl, rfl, rfl, rfl⟩

/-- The take empties the output register and changes nothing else. -/
@[simp] theorem State.takeDownstream_fields (s : State) :
    (s.takeDownstream).line = s.line ∧ (s.takeDownstream).sched = s.sched ∧ (s.takeDownstream).parts = s.parts ∧
    (s.takeDownstream).pool = s.pool ∧ (s.takeDownstream).intake = s.intake ∧ (s.takeDownstream).writes = s.writes ∧
    (s.takeDownstream).flight.table = s.flight.table ∧ (s.takeDownstream).flight.places = s.flight.places ∧
    (s.takeDownstream).flight.turn = s.flight.turn ∧ (s.takeDownstream).flight.offer = s.flight.offer ∧ (s.takeDownstream).flight.timeouts = s.flight.timeouts ∧
    (s.takeDownstream).restart = s.restart ∧ (s.takeDownstream).counters = s.counters ∧ (s.takeDownstream).snapshot = s.snapshot ∧
    (s.takeDownstream).monitors = s.monitors ∧ (s.takeDownstream).triggers = s.triggers ∧ (s.takeDownstream).attention = s.attention ∧
    (s.takeDownstream).port = s.port ∧ (s.takeDownstream).free = s.free ∧ (s.takeDownstream).pending = s.pending :=
  ⟨rfl, rfl, rfl, rfl, rfl, rfl, rfl, rfl, rfl, rfl, rfl, rfl, rfl, rfl, rfl, rfl, rfl, rfl, rfl, rfl⟩

/-- The close of a read frame changes only the port. -/
@[simp] theorem State.finishRead_fields (s : State) (f : Capture) (extra : Nat) :
    (s.finishRead f extra).line = s.line ∧ (s.finishRead f extra).sched = s.sched ∧ (s.finishRead f extra).parts = s.parts ∧
    (s.finishRead f extra).pool = s.pool ∧ (s.finishRead f extra).intake = s.intake ∧ (s.finishRead f extra).writes = s.writes ∧
    (s.finishRead f extra).flight = s.flight ∧ (s.finishRead f extra).restart = s.restart ∧
    (s.finishRead f extra).counters = s.counters ∧ (s.finishRead f extra).snapshot = s.snapshot ∧
    (s.finishRead f extra).monitors = s.monitors ∧ (s.finishRead f extra).triggers = s.triggers ∧
    (s.finishRead f extra).attention = s.attention ∧ (s.finishRead f extra).free = s.free ∧ (s.finishRead f extra).pending = s.pending :=
  ⟨rfl, rfl, rfl, rfl, rfl, rfl, rfl, rfl, rfl, rfl, rfl, rfl, rfl, rfl, rfl⟩

/-- Removing a fault record changes only the queue, the monitors and the causes raised. -/
@[simp] theorem State.popRecord_fields (s : State) :
    (s.popRecord).line = s.line ∧ (s.popRecord).sched = s.sched ∧ (s.popRecord).parts = s.parts ∧ (s.popRecord).pool = s.pool ∧
    (s.popRecord).intake = s.intake ∧ (s.popRecord).writes = s.writes ∧ (s.popRecord).flight = s.flight ∧
    (s.popRecord).restart = s.restart ∧ (s.popRecord).counters = s.counters ∧ (s.popRecord).snapshot = s.snapshot ∧
    (s.popRecord).triggers.entries = s.triggers.entries ∧ (s.popRecord).triggers.seen = s.triggers.seen ∧
    (s.popRecord).triggers.outputs = s.triggers.outputs ∧ (s.popRecord).triggers.held = s.triggers.held ∧
    (s.popRecord).attention.latched = s.attention.latched ∧ (s.popRecord).attention.mask = s.attention.mask ∧
    (s.popRecord).port = s.port ∧ (s.popRecord).free = s.free ∧ (s.popRecord).pending = s.pending :=
  ⟨rfl, rfl, rfl, rfl, rfl, rfl, rfl, rfl, rfl, rfl, rfl, rfl, rfl, rfl, rfl, rfl, rfl, rfl, rfl⟩

/-- The end of a restart changes only the phase, the latched causes and the causes raised. -/
@[simp] theorem State.finishRestart_fields (s : State) :
    (s.finishRestart).line = s.line ∧ (s.finishRestart).sched = s.sched ∧ (s.finishRestart).parts = s.parts ∧
    (s.finishRestart).pool = s.pool ∧ (s.finishRestart).intake = s.intake ∧ (s.finishRestart).writes = s.writes ∧
    (s.finishRestart).flight = s.flight ∧ (s.finishRestart).restart.pulse = s.restart.pulse ∧ (s.finishRestart).counters = s.counters ∧
    (s.finishRestart).snapshot = s.snapshot ∧ (s.finishRestart).monitors = s.monitors ∧
    (s.finishRestart).triggers.entries = s.triggers.entries ∧ (s.finishRestart).triggers.seen = s.triggers.seen ∧
    (s.finishRestart).triggers.outputs = s.triggers.outputs ∧ (s.finishRestart).triggers.held = s.triggers.held ∧
    (s.finishRestart).attention.queue = s.attention.queue ∧ (s.finishRestart).attention.mask = s.attention.mask ∧
    (s.finishRestart).port = s.port ∧ (s.finishRestart).free = s.free ∧ (s.finishRestart).pending = s.pending :=
  ⟨rfl, rfl, rfl, rfl, rfl, rfl, rfl, rfl, rfl, rfl, rfl, rfl, rfl, rfl, rfl, rfl, rfl, rfl, rfl, rfl⟩

/-! ### What an update writes -/

@[simp] theorem State.raise_raised (s : State) (c : Cause) : (s.raise c).triggers.raised = s.triggers.raised ++ [c] := rfl

@[simp] theorem State.latch_latched (s : State) (c : AttentionCause) : (s.latch c).attention.latched = s.attention.latched ||| c.bit := rfl

@[simp] theorem State.countGlobal_global (s : State) (f : GlobalCounters → GlobalCounters) :
    (s.countGlobal f).counters.global = f s.counters.global := rfl

@[simp] theorem State.countPart_parts (s : State) (p : PartitionId) (f : PartitionCounters → PartitionCounters) :
    (s.countPart p f).counters.parts = modifyAt s.counters.parts p f := rfl

@[simp] theorem State.setState_parts (s : State) (p : PartitionId) (x : PartitionState) :
    (s.setState p x).parts = modifyAt s.parts p fun r => { r with state := x } := rfl

@[simp] theorem State.withdraw_pool (s : State) (chosen : PoolEntry → Bool) (status : WithdrawalStatus) :
    (s.withdraw chosen status).pool = s.pool.map (s.withdrawnEntry chosen status) := rfl

@[simp] theorem State.withdraw_reserved (s : State) (chosen : PoolEntry → Bool) (status : WithdrawalStatus) :
    (s.withdraw chosen status).writes.reserved = s.writes.reserved - s.withdrawnBeats chosen := rfl

@[simp] theorem State.withdraw_records (s : State) (chosen : PoolEntry → Bool) (status : WithdrawalStatus) :
    (s.withdraw chosen status).writes.records = s.withdrawnRecords chosen := rfl

@[simp] theorem State.holdRaised_raised (s : State) : s.holdRaised.triggers.raised = [] := rfl

@[simp] theorem State.setTrigger_entries (s : State) (i : Fin 8) (f : Trigger → Trigger) :
    (s.setTrigger i f).triggers.entries = modifyAt s.triggers.entries i f := rfl

@[simp] theorem State.setFlight_table (s : State) (d : DTag) (e : FlightEntry) : (s.setFlight d e).flight.table = s.flight.table.set d e := rfl

@[simp] theorem State.lastPlace_places (s : State) (d : DTag) : (s.lastPlace d).flight.places = s.flight.places ++ [d] := rfl

@[simp] theorem State.sendTimeout_timeouts (s : State) (r : FaultRecord) : (s.sendTimeout r).flight.timeouts = s.flight.timeouts ++ [r] := rfl

@[simp] theorem State.leaveClass_table (s : State) (d : DTag) (e : FlightEntry) :
    (s.leaveClass d e).flight.table = s.flight.table.set d e := rfl

@[simp] theorem State.leaveClass_places (s : State) (d : DTag) (e : FlightEntry) :
    (s.leaveClass d e).flight.places = s.flight.places.erase d := rfl

@[simp] theorem State.releasePair_heldPairs (s : State) (pair : Pair) :
    (s.releasePair pair).intake.heldPairs = s.intake.heldPairs.erase pair := rfl

@[simp] theorem State.faultRecord_kind (s : State) (kind : FaultKind) (partition : Option PartitionId) (pair : Option Pair)
    (address : Option Addr) (dtag : Option DTag) : (s.faultRecord kind partition pair address dtag).kind = kind := rfl

/-! ### Tables -/

theorem modifyAt_get {α : Type} {n : Nat} (v : Vector α n) (i j : Fin n) (f : α → α) :
    (modifyAt v i f)[j] = if i = j then f v[j] else v[j] := by
  by_cases h : i = j
  · subst h
    simp [modifyAt]
  · have : i.val ≠ j.val := fun e => h (Fin.ext e)
    simp [modifyAt, h, this]

theorem mapAll_get {α : Type} {n : Nat} (v : Vector α n) (j : Fin n) (f : α → α) : (mapAll f v)[j] = f v[j] := by
  simp [mapAll]

/-! ### What decisions read -/

/-- When the intake is ready to take a request (R61). -/
theorem State.intakeReady_iff (s : State) : s.intakeReady = true ↔ s.line ≠ .heldLow ∧ s.intake.refusal = none := by
  simp [State.intakeReady]

end Machine
end Sys2Proof
end

