-- ==== Sys2Proof/Laws/Frames.lean ====
section
/-! SUPPORT. For each shared operation that branches or goes through a list, one lemma that says once what it leaves unchanged. -/

namespace Sys2Proof
namespace Machine

/-- Handing several values out changes only the monitors and the causes raised. -/
@[simp] theorem State.handAll_fields (s : State) (qs : List Quantity) :
    (s.handAll qs).line = s.line ∧ (s.handAll qs).sched = s.sched ∧ (s.handAll qs).parts = s.parts ∧ (s.handAll qs).pool = s.pool ∧
    (s.handAll qs).intake = s.intake ∧ (s.handAll qs).writes = s.writes ∧ (s.handAll qs).flight = s.flight ∧
    (s.handAll qs).restart = s.restart ∧ (s.handAll qs).counters = s.counters ∧ (s.handAll qs).snapshot = s.snapshot ∧
    (s.handAll qs).triggers.entries = s.triggers.entries ∧ (s.handAll qs).triggers.seen = s.triggers.seen ∧
    (s.handAll qs).triggers.outputs = s.triggers.outputs ∧ (s.handAll qs).triggers.held = s.triggers.held ∧
    (s.handAll qs).attention = s.attention ∧ (s.handAll qs).port = s.port ∧ (s.handAll qs).free = s.free ∧
    (s.handAll qs).pending = s.pending :=
  by
  induction qs generalizing s with
  | nil => exact ⟨rfl, rfl, rfl, rfl, rfl, rfl, rfl, rfl, rfl, rfl, rfl, rfl, rfl, rfl, rfl, rfl, rfl, rfl⟩
  | cons q qs ih => simpa [State.handAll] using ih (s.hand q)

/-- Handing the changed values out changes only the monitors and the causes raised. -/
@[simp] theorem State.handChanged_fields (s : State) (before : State) (qs : List Quantity) :
    (s.handChanged before qs).line = s.line ∧ (s.handChanged before qs).sched = s.sched ∧ (s.handChanged before qs).parts = s.parts ∧
    (s.handChanged before qs).pool = s.pool ∧ (s.handChanged before qs).intake = s.intake ∧ (s.handChanged before qs).writes = s.writes ∧
    (s.handChanged before qs).flight = s.flight ∧ (s.handChanged before qs).restart = s.restart ∧
    (s.handChanged before qs).counters = s.counters ∧ (s.handChanged before qs).snapshot = s.snapshot ∧
    (s.handChanged before qs).triggers.entries = s.triggers.entries ∧ (s.handChanged before qs).triggers.seen = s.triggers.seen ∧
    (s.handChanged before qs).triggers.outputs = s.triggers.outputs ∧ (s.handChanged before qs).triggers.held = s.triggers.held ∧
    (s.handChanged before qs).attention = s.attention ∧ (s.handChanged before qs).port = s.port ∧
    (s.handChanged before qs).free = s.free ∧ (s.handChanged before qs).pending = s.pending :=
  by
  induction qs generalizing s with
  | nil => exact ⟨rfl, rfl, rfl, rfl, rfl, rfl, rfl, rfl, rfl, rfl, rfl, rfl, rfl, rfl, rfl, rfl, rfl, rfl⟩
  | cons q qs ih =>
    simp only [State.handChanged, List.foldl_cons] at ih ⊢
    split
    · exact ih s
    · simpa using ih (s.hand q)

/-- Counting a RETRY changes only counters, monitors and the causes raised. -/
@[simp] theorem State.countRetry_fields (s : State) (p : PartitionId) :
    (s.countRetry p).line = s.line ∧ (s.countRetry p).sched = s.sched ∧ (s.countRetry p).parts = s.parts ∧
    (s.countRetry p).pool = s.pool ∧ (s.countRetry p).intake = s.intake ∧ (s.countRetry p).writes = s.writes ∧
    (s.countRetry p).flight = s.flight ∧ (s.countRetry p).restart = s.restart ∧ (s.countRetry p).counters.global = s.counters.global ∧
    (s.countRetry p).snapshot = s.snapshot ∧ (s.countRetry p).triggers.entries = s.triggers.entries ∧
    (s.countRetry p).triggers.seen = s.triggers.seen ∧ (s.countRetry p).triggers.outputs = s.triggers.outputs ∧
    (s.countRetry p).triggers.held = s.triggers.held ∧ (s.countRetry p).attention = s.attention ∧ (s.countRetry p).port = s.port ∧
    (s.countRetry p).free = s.free ∧ (s.countRetry p).pending = s.pending :=
  by simp [State.countRetry]

/-- Counting a lost slot changes only counters, monitors and the causes raised. -/
@[simp] theorem State.countLost_fields (s : State) (p : PartitionId) :
    (s.countLost p).line = s.line ∧ (s.countLost p).sched = s.sched ∧ (s.countLost p).parts = s.parts ∧ (s.countLost p).pool = s.pool ∧
    (s.countLost p).intake = s.intake ∧ (s.countLost p).writes = s.writes ∧ (s.countLost p).flight = s.flight ∧
    (s.countLost p).restart = s.restart ∧ (s.countLost p).counters.global = s.counters.global ∧ (s.countLost p).snapshot = s.snapshot ∧
    (s.countLost p).triggers.entries = s.triggers.entries ∧ (s.countLost p).triggers.seen = s.triggers.seen ∧
    (s.countLost p).triggers.outputs = s.triggers.outputs ∧ (s.countLost p).triggers.held = s.triggers.held ∧
    (s.countLost p).attention = s.attention ∧ (s.countLost p).port = s.port ∧ (s.countLost p).free = s.free ∧
    (s.countLost p).pending = s.pending :=
  by simp [State.countLost]

/-- The clear at a round start changes only counters, monitors and the causes raised. -/
@[simp] theorem State.clearRoundCounts_fields (s : State) :
    (s.clearRoundCounts).line = s.line ∧ (s.clearRoundCounts).sched = s.sched ∧ (s.clearRoundCounts).parts = s.parts ∧
    (s.clearRoundCounts).pool = s.pool ∧ (s.clearRoundCounts).intake = s.intake ∧ (s.clearRoundCounts).writes = s.writes ∧
    (s.clearRoundCounts).flight = s.flight ∧ (s.clearRoundCounts).restart = s.restart ∧
    (s.clearRoundCounts).counters.global = s.counters.global ∧ (s.clearRoundCounts).snapshot = s.snapshot ∧
    (s.clearRoundCounts).triggers.entries = s.triggers.entries ∧ (s.clearRoundCounts).triggers.seen = s.triggers.seen ∧
    (s.clearRoundCounts).triggers.outputs = s.triggers.outputs ∧ (s.clearRoundCounts).triggers.held = s.triggers.held ∧
    (s.clearRoundCounts).attention = s.attention ∧ (s.clearRoundCounts).port = s.port ∧ (s.clearRoundCounts).free = s.free ∧
    (s.clearRoundCounts).pending = s.pending :=
  by simp [State.clearRoundCounts]

/-- A fault that reaches the queue changes only the fault queue, the latched causes, the monitors and the causes raised. -/
@[simp] theorem State.storeFault_fields (s : State) (record : FaultRecord) :
    (s.storeFault record).line = s.line ∧ (s.storeFault record).sched = s.sched ∧
    (s.storeFault record).parts = s.parts ∧ (s.storeFault record).pool = s.pool ∧
    (s.storeFault record).intake = s.intake ∧
    (s.storeFault record).writes = s.writes ∧
    (s.storeFault record).flight = s.flight ∧
    (s.storeFault record).restart = s.restart ∧
    (s.storeFault record).counters = s.counters ∧
    (s.storeFault record).snapshot = s.snapshot ∧
    (s.storeFault record).triggers.entries = s.triggers.entries ∧
    (s.storeFault record).triggers.seen = s.triggers.seen ∧
    (s.storeFault record).triggers.outputs = s.triggers.outputs ∧
    (s.storeFault record).triggers.held = s.triggers.held ∧
    (s.storeFault record).attention.mask = s.attention.mask ∧
    (s.storeFault record).port = s.port ∧ (s.storeFault record).free = s.free ∧
    (s.storeFault record).pending = s.pending :=
  by
  unfold State.storeFault
  split <;> simp

/-- Recording a fault changes only the fault queue, the latched causes, the monitors and the causes raised. -/
@[simp] theorem State.recordFault_fields (s : State) (kind : FaultKind) (partition : Option PartitionId) (pair : Option Pair) (address : Option Addr) (dtag : Option DTag) :
    (s.recordFault kind partition pair address dtag).line = s.line ∧ (s.recordFault kind partition pair address dtag).sched = s.sched ∧
    (s.recordFault kind partition pair address dtag).parts = s.parts ∧ (s.recordFault kind partition pair address dtag).pool = s.pool ∧
    (s.recordFault kind partition pair address dtag).intake = s.intake ∧
    (s.recordFault kind partition pair address dtag).writes = s.writes ∧
    (s.recordFault kind partition pair address dtag).flight = s.flight ∧
    (s.recordFault kind partition pair address dtag).restart = s.restart ∧
    (s.recordFault kind partition pair address dtag).counters = s.counters ∧
    (s.recordFault kind partition pair address dtag).snapshot = s.snapshot ∧
    (s.recordFault kind partition pair address dtag).triggers.entries = s.triggers.entries ∧
    (s.recordFault kind partition pair address dtag).triggers.seen = s.triggers.seen ∧
    (s.recordFault kind partition pair address dtag).triggers.outputs = s.triggers.outputs ∧
    (s.recordFault kind partition pair address dtag).triggers.held = s.triggers.held ∧
    (s.recordFault kind partition pair address dtag).attention.mask = s.attention.mask ∧
    (s.recordFault kind partition pair address dtag).port = s.port ∧ (s.recordFault kind partition pair address dtag).free = s.free ∧
    (s.recordFault kind partition pair address dtag).pending = s.pending :=
  by simp [State.recordFault]

/-- A TIMEOUT fault that reaches the queue changes only those on their way, the fault queue, the latched causes, the monitors and the causes raised. -/
@[simp] theorem State.timeoutArrives_fields (s : State) :
    (s.timeoutArrives).line = s.line ∧ (s.timeoutArrives).sched = s.sched ∧ (s.timeoutArrives).parts = s.parts ∧
    (s.timeoutArrives).pool = s.pool ∧ (s.timeoutArrives).intake = s.intake ∧ (s.timeoutArrives).writes = s.writes ∧
    (s.timeoutArrives).flight.table = s.flight.table ∧ (s.timeoutArrives).flight.output = s.flight.output ∧
    (s.timeoutArrives).flight.places = s.flight.places ∧ (s.timeoutArrives).flight.turn = s.flight.turn ∧
    (s.timeoutArrives).flight.offer = s.flight.offer ∧ (s.timeoutArrives).flight.timeouts = s.flight.timeouts.tail ∧
    (s.timeoutArrives).restart = s.restart ∧ (s.timeoutArrives).counters = s.counters ∧ (s.timeoutArrives).snapshot = s.snapshot ∧
    (s.timeoutArrives).triggers.entries = s.triggers.entries ∧ (s.timeoutArrives).triggers.seen = s.triggers.seen ∧
    (s.timeoutArrives).triggers.outputs = s.triggers.outputs ∧ (s.timeoutArrives).triggers.held = s.triggers.held ∧
    (s.timeoutArrives).attention.mask = s.attention.mask ∧ (s.timeoutArrives).port = s.port ∧ (s.timeoutArrives).free = s.free ∧
    (s.timeoutArrives).pending = s.pending :=
  by
  unfold State.timeoutArrives
  split <;> rename_i h <;> simp [h]

/-- The closing check changes only the records, the latched causes and the causes raised. -/
@[simp] theorem State.closingCheck_fields (s : State) (p : PartitionId) :
    (s.closingCheck p).line = s.line ∧ (s.closingCheck p).sched = s.sched ∧ (s.closingCheck p).pool = s.pool ∧
    (s.closingCheck p).intake = s.intake ∧ (s.closingCheck p).writes = s.writes ∧ (s.closingCheck p).flight = s.flight ∧
    (s.closingCheck p).restart = s.restart ∧ (s.closingCheck p).counters = s.counters ∧ (s.closingCheck p).snapshot = s.snapshot ∧
    (s.closingCheck p).monitors = s.monitors ∧ (s.closingCheck p).triggers.entries = s.triggers.entries ∧
    (s.closingCheck p).triggers.seen = s.triggers.seen ∧ (s.closingCheck p).triggers.outputs = s.triggers.outputs ∧
    (s.closingCheck p).triggers.held = s.triggers.held ∧ (s.closingCheck p).attention.queue = s.attention.queue ∧
    (s.closingCheck p).attention.mask = s.attention.mask ∧ (s.closingCheck p).port = s.port ∧ (s.closingCheck p).free = s.free ∧
    (s.closingCheck p).pending = s.pending :=
  by
  unfold State.closingCheck
  split <;> simp

/-- Withdrawing one entry changes only the pool, the write-data unit, the monitors and the causes raised. -/
@[simp] theorem State.withdrawPair_fields (s : State) (p : PartitionId) (pair : Pair) (status : WithdrawalStatus) :
    (s.withdrawPair p pair status).line = s.line ∧ (s.withdrawPair p pair status).sched = s.sched ∧
    (s.withdrawPair p pair status).parts = s.parts ∧ (s.withdrawPair p pair status).intake = s.intake ∧
    (s.withdrawPair p pair status).flight = s.flight ∧ (s.withdrawPair p pair status).restart = s.restart ∧
    (s.withdrawPair p pair status).counters = s.counters ∧ (s.withdrawPair p pair status).snapshot = s.snapshot ∧
    (s.withdrawPair p pair status).triggers.entries = s.triggers.entries ∧
    (s.withdrawPair p pair status).triggers.seen = s.triggers.seen ∧
    (s.withdrawPair p pair status).triggers.outputs = s.triggers.outputs ∧
    (s.withdrawPair p pair status).triggers.held = s.triggers.held ∧ (s.withdrawPair p pair status).attention = s.attention ∧
    (s.withdrawPair p pair status).port = s.port ∧ (s.withdrawPair p pair status).free = s.free ∧
    (s.withdrawPair p pair status).pending = s.pending :=
  by simp [State.withdrawPair]

/-- A flush changes only the pool, the write-data unit, the monitors and the causes raised. -/
@[simp] theorem State.flush_fields (s : State) (p : PartitionId) :
    (s.flush p).line = s.line ∧ (s.flush p).sched = s.sched ∧ (s.flush p).parts = s.parts ∧ (s.flush p).intake = s.intake ∧
    (s.flush p).flight = s.flight ∧ (s.flush p).restart = s.restart ∧ (s.flush p).counters = s.counters ∧
    (s.flush p).snapshot = s.snapshot ∧ (s.flush p).triggers.entries = s.triggers.entries ∧ (s.flush p).triggers.seen = s.triggers.seen ∧
    (s.flush p).triggers.outputs = s.triggers.outputs ∧ (s.flush p).triggers.held = s.triggers.held ∧
    (s.flush p).attention = s.attention ∧ (s.flush p).port = s.port ∧ (s.flush p).free = s.free ∧ (s.flush p).pending = s.pending :=
  by simp [State.flush]

/-- Freeing a DISCARDING record changes only the pool, the records, the partition records, the latched causes and the causes raised. -/
@[simp] theorem State.freeDiscarding_fields (s : State) (r : OpenWrite) :
    (s.freeDiscarding r).line = s.line ∧ (s.freeDiscarding r).sched = s.sched ∧ (s.freeDiscarding r).intake = s.intake ∧
    (s.freeDiscarding r).writes.reserved = s.writes.reserved ∧ (s.freeDiscarding r).flight = s.flight ∧
    (s.freeDiscarding r).restart = s.restart ∧ (s.freeDiscarding r).counters = s.counters ∧ (s.freeDiscarding r).snapshot = s.snapshot ∧
    (s.freeDiscarding r).monitors = s.monitors ∧ (s.freeDiscarding r).triggers.entries = s.triggers.entries ∧
    (s.freeDiscarding r).triggers.seen = s.triggers.seen ∧ (s.freeDiscarding r).triggers.outputs = s.triggers.outputs ∧
    (s.freeDiscarding r).triggers.held = s.triggers.held ∧ (s.freeDiscarding r).attention.queue = s.attention.queue ∧
    (s.freeDiscarding r).attention.mask = s.attention.mask ∧ (s.freeDiscarding r).port = s.port ∧ (s.freeDiscarding r).free = s.free ∧
    (s.freeDiscarding r).pending = s.pending :=
  by simp [State.freeDiscarding]

/-- A REQUEST SWITCH changes only the pending target. -/
@[simp] theorem State.requestTarget_fields (s : State) (t : TableName) :
    ((s.requestTarget t).state).line = s.line ∧ ((s.requestTarget t).state).sched.tableA = s.sched.tableA ∧
    ((s.requestTarget t).state).sched.tableB = s.sched.tableB ∧ ((s.requestTarget t).state).sched.active = s.sched.active ∧
    ((s.requestTarget t).state).sched.round = s.sched.round ∧ ((s.requestTarget t).state).sched.slot = s.sched.slot ∧
    ((s.requestTarget t).state).sched.slotCount = s.sched.slotCount ∧ ((s.requestTarget t).state).sched.remaining = s.sched.remaining ∧
    ((s.requestTarget t).state).sched.slackPointer = s.sched.slackPointer ∧ ((s.requestTarget t).state).parts = s.parts ∧
    ((s.requestTarget t).state).pool = s.pool ∧ ((s.requestTarget t).state).intake = s.intake ∧
    ((s.requestTarget t).state).writes = s.writes ∧ ((s.requestTarget t).state).flight = s.flight ∧
    ((s.requestTarget t).state).restart = s.restart ∧ ((s.requestTarget t).state).counters = s.counters ∧
    ((s.requestTarget t).state).snapshot = s.snapshot ∧ ((s.requestTarget t).state).monitors = s.monitors ∧
    ((s.requestTarget t).state).triggers = s.triggers ∧ ((s.requestTarget t).state).attention = s.attention ∧
    ((s.requestTarget t).state).port = s.port ∧ ((s.requestTarget t).state).free = s.free ∧
    ((s.requestTarget t).state).pending = s.pending :=
  by
  unfold State.requestTarget
  split <;> simp

/-- A state change changes only the records, the latched causes and the causes raised. -/
@[simp] theorem State.changeState_fields (s : State) (p : PartitionId) (target : PartitionState) :
    ((s.changeState p target).state).line = s.line ∧ ((s.changeState p target).state).sched = s.sched ∧
    ((s.changeState p target).state).pool = s.pool ∧ ((s.changeState p target).state).intake = s.intake ∧
    ((s.changeState p target).state).writes = s.writes ∧ ((s.changeState p target).state).flight = s.flight ∧
    ((s.changeState p target).state).restart = s.restart ∧ ((s.changeState p target).state).counters = s.counters ∧
    ((s.changeState p target).state).snapshot = s.snapshot ∧ ((s.changeState p target).state).monitors = s.monitors ∧
    ((s.changeState p target).state).triggers.entries = s.triggers.entries ∧
    ((s.changeState p target).state).triggers.seen = s.triggers.seen ∧
    ((s.changeState p target).state).triggers.outputs = s.triggers.outputs ∧
    ((s.changeState p target).state).triggers.held = s.triggers.held ∧
    ((s.changeState p target).state).attention.queue = s.attention.queue ∧
    ((s.changeState p target).state).attention.mask = s.attention.mask ∧ ((s.changeState p target).state).port = s.port ∧
    ((s.changeState p target).state).free = s.free ∧ ((s.changeState p target).state).pending = s.pending :=
  by
  unfold State.changeState
  split
  · simp
  · split
    · simp
    · dsimp only
      split <;> simp

/-- Rearming a monitor changes only the monitors and the causes raised. -/
@[simp] theorem State.rearmMonitor_fields (s : State) (i : Fin 4) (m : Monitor) :
    (s.rearmMonitor i m).line = s.line ∧ (s.rearmMonitor i m).sched = s.sched ∧ (s.rearmMonitor i m).parts = s.parts ∧
    (s.rearmMonitor i m).pool = s.pool ∧ (s.rearmMonitor i m).intake = s.intake ∧ (s.rearmMonitor i m).writes = s.writes ∧
    (s.rearmMonitor i m).flight = s.flight ∧ (s.rearmMonitor i m).restart = s.restart ∧ (s.rearmMonitor i m).counters = s.counters ∧
    (s.rearmMonitor i m).snapshot = s.snapshot ∧ (s.rearmMonitor i m).triggers.entries = s.triggers.entries ∧
    (s.rearmMonitor i m).triggers.seen = s.triggers.seen ∧ (s.rearmMonitor i m).triggers.outputs = s.triggers.outputs ∧
    (s.rearmMonitor i m).triggers.held = s.triggers.held ∧ (s.rearmMonitor i m).attention = s.attention ∧
    (s.rearmMonitor i m).port = s.port ∧ (s.rearmMonitor i m).free = s.free ∧ (s.rearmMonitor i m).pending = s.pending :=
  by
  unfold State.rearmMonitor
  dsimp only
  split <;> simp

/-- The FLUSH action changes only what a flush changes. -/
@[simp] theorem State.flushAction_fields (s : State) (p : PartitionId) :
    (s.flushAction p).line = s.line ∧ (s.flushAction p).sched = s.sched ∧ (s.flushAction p).parts = s.parts ∧
    (s.flushAction p).intake = s.intake ∧ (s.flushAction p).flight = s.flight ∧ (s.flushAction p).restart = s.restart ∧
    (s.flushAction p).counters = s.counters ∧ (s.flushAction p).snapshot = s.snapshot ∧
    (s.flushAction p).triggers.entries = s.triggers.entries ∧ (s.flushAction p).triggers.seen = s.triggers.seen ∧
    (s.flushAction p).triggers.outputs = s.triggers.outputs ∧ (s.flushAction p).triggers.held = s.triggers.held ∧
    (s.flushAction p).attention = s.attention ∧ (s.flushAction p).port = s.port ∧ (s.flushAction p).free = s.free ∧
    (s.flushAction p).pending = s.pending :=
  by
  unfold State.flushAction
  split <;> simp

/-! ### The trigger unit -/

/-- What the trigger unit's taking of causes leaves unchanged: everything but the pending target, the partition records, the pool, the
write-data unit, the snapshot record, the monitors, the latched causes, its own entries, outputs, held and raised causes, and the free counter. -/
structure TriggerFrame (s t : State) : Prop where
  line : t.line = s.line
  sched : { t.sched with pendingTarget := s.sched.pendingTarget } = s.sched
  intake : t.intake = s.intake
  flight : t.flight = s.flight
  restart : t.restart = s.restart
  counters : t.counters = s.counters
  seen : t.triggers.seen = s.triggers.seen
  queue : t.attention.queue = s.attention.queue
  mask : t.attention.mask = s.attention.mask
  port : t.port = s.port
  pending : t.pending = s.pending

theorem TriggerFrame.refl (s : State) : TriggerFrame s s := ⟨rfl, rfl, rfl, rfl, rfl, rfl, rfl, rfl, rfl, rfl, rfl⟩

theorem TriggerFrame.trans {s t u : State} (h : TriggerFrame s t) (k : TriggerFrame t u) : TriggerFrame s u where
  line := k.line.trans h.line
  sched := by
    have hs := h.sched
    have ks := k.sched
    rw [← hs, ← ks]
  intake := k.intake.trans h.intake
  flight := k.flight.trans h.flight
  restart := k.restart.trans h.restart
  counters := k.counters.trans h.counters
  seen := k.seen.trans h.seen
  queue := k.queue.trans h.queue
  mask := k.mask.trans h.mask
  port := k.port.trans h.port
  pending := k.pending.trans h.pending

/-- An action changes only what the trigger unit may change (R150). -/
theorem State.applyAction_frame (s : State) (action : ActionCode) (argument : Byte) : TriggerFrame s (s.applyAction action argument) := by
  cases action <;> constructor <;>
    simp [State.applyAction, State.setAction, State.driveOutput, State.pulseOutput, State.requestTarget] <;> split <;> rfl

/-- The firing of an entry changes only what the trigger unit may change (R149). -/
theorem State.fireEntry_frame (s : State) (i : Fin 8) : TriggerFrame s (s.fireEntry i) := by
  have h := (s.setTrigger i Trigger.fire).applyAction_frame s.triggers.entries[i].action s.triggers.entries[i].actionArgument
  exact ⟨h.line, h.sched, h.intake, h.flight, h.restart, h.counters, h.seen, h.queue, h.mask, h.port, h.pending⟩

/-- The taking of a cause changes only what the trigger unit may change (R149). -/
theorem State.takeCause_frame (s : State) (c : Cause) : TriggerFrame s (s.takeCause c) := by
  unfold State.takeCause
  generalize s.firing c = is
  induction is generalizing s with
  | nil => exact .refl s
  | cons i is ih => exact (s.fireEntry_frame i).trans (ih (s.fireEntry i))

/-- The taking of every cause a command has raised changes only what the trigger unit may change (R148). -/
theorem State.settle_frame (s : State) : TriggerFrame s s.settle := by
  unfold State.settle
  split
  · exact .refl s
  · generalize takenOrder s.free (orderRaised s.triggers.raised) = cs
    have base : TriggerFrame s { s with triggers := { s.triggers with raised := [] }, free := s.free + 1 } :=
      ⟨rfl, rfl, rfl, rfl, rfl, rfl, rfl, rfl, rfl, rfl, rfl⟩
    refine base.trans ?_
    generalize ({ s with triggers := { s.triggers with raised := [] }, free := s.free + 1 } : State) = u
    induction cs generalizing u with
    | nil => exact .refl u
    | cons c cs ih => exact (u.takeCause_frame c).trans (ih (u.takeCause c))

/-! ### Values handed to no monitor -/

/-- With no monitor enabled, handing a value out changes nothing (R142). -/
theorem State.hand_of_disabled {s : State} (h : ∀ i : Fin 4, s.monitors[i].enabled = false) (q : Quantity) : s.hand q = s := by
  have hm : mapAll (Monitor.evaluate q (s.quantity q)) s.monitors = s.monitors := by
    apply Vector.ext
    intro i hi
    have := h ⟨i, hi⟩
    simp only [Fin.getElem_fin] at this
    simp [mapAll, Monitor.evaluate, Monitor.hears, this]
  have hf : (allMonitors.filter fun i => s.monitors[i].fires q (s.quantity q)) = [] := by
    rw [List.filter_eq_nil_iff]
    intro i _
    simp only [Monitor.fires, Monitor.hears, h i, Bool.false_and]
    simp
  unfold State.hand
  rw [hm, hf]
  simp

/-- With no monitor enabled, handing several values out changes nothing (R142). -/
theorem State.handAll_of_disabled {s : State} (h : ∀ i : Fin 4, s.monitors[i].enabled = false) (qs : List Quantity) : s.handAll qs = s := by
  induction qs with
  | nil => rfl
  | cons q qs ih =>
    show (s.hand q).handAll qs = s
    rw [State.hand_of_disabled h, ih]

end Machine
end Sys2Proof
end

