-- ==== Sys2Proof/Laws/DataPath.lean ====
section
/-! SUPPORT. The frame of data-path events, carried through the shared operations: raising, latching, handing values out, counting, recording
faults and the closing check. -/

namespace Sys2Proof
namespace Machine

/-- The monitors but for their last results. -/
def MonitorsSame (s u : State) : Prop := ∀ i : Fin 4, { u.monitors[i] with last := s.monitors[i].last } = s.monitors[i]

theorem MonitorsSame.refl (s : State) : MonitorsSame s s := fun _ => rfl

theorem MonitorsSame.trans {s t u : State} (h : MonitorsSame s t) (k : MonitorsSame t u) : MonitorsSame s u := by
  intro i
  rw [← h i, ← k i]

/-- Handing a value out changes only the last results of monitors (R142). -/
theorem MonitorsSame.hand (s : State) (q : Quantity) : MonitorsSame s (s.hand q) := by
  intro i
  have : (s.hand q).monitors[i] = Monitor.evaluate q (s.quantity q) s.monitors[i] := mapAll_get _ _ _
  rw [this]
  unfold Monitor.evaluate
  split <;> rfl

theorem MonitorsSame.handAll (s : State) (qs : List Quantity) : MonitorsSame s (s.handAll qs) := by
  induction qs generalizing s with
  | nil => exact .refl s
  | cons q qs ih => exact (MonitorsSame.hand s q).trans (ih (s.hand q))

theorem MonitorsSame.handChanged (s before : State) (qs : List Quantity) : MonitorsSame s (s.handChanged before qs) := by
  induction qs generalizing s with
  | nil => exact .refl s
  | cons q qs ih =>
    simp only [State.handChanged, List.foldl_cons] at ih ⊢
    split
    · exact ih s
    · exact (MonitorsSame.hand s q).trans (ih (s.hand q))

/-! ### The causes that monitors raise -/

/-- Where no monitor changes and no cause is lost. -/
theorem CausesEmitted.quiet {s u : State} (m : u.monitors = s.monitors) (r : ∀ c ∈ s.triggers.raised, c ∈ u.triggers.raised) : CausesEmitted s u :=
  ⟨r, fun i h k => by rw [m, h] at k; cases k⟩

theorem CausesEmitted.refl (s : State) : CausesEmitted s s := .quiet rfl fun _ h => h

theorem CausesEmitted.trans {s t u : State} (h : CausesEmitted s t) (k : CausesEmitted t u) : CausesEmitted s u := by
  refine ⟨fun c hc => k.1 c (h.1 c hc), fun i hi hu => ?_⟩
  cases ht : t.monitors[i].last
  · exact k.2 i ht hu
  · exact k.1 _ (h.2 i hi ht)

/-- A monitor that goes from false to true at a value handed out raises its cause (R142). -/
theorem CausesEmitted.hand (s : State) (q : Quantity) : CausesEmitted s (s.hand q) := by
  refine ⟨fun c hc => List.mem_append_left _ hc, fun i hi hu => List.mem_append_right _ (List.mem_map_of_mem ?_)⟩
  have eq : (s.hand q).monitors[i] = Monitor.evaluate q (s.quantity q) s.monitors[i] := mapAll_get _ _ _
  rw [eq] at hu
  rw [List.mem_filter]
  refine ⟨by clear hi hu eq; revert i; decide, ?_⟩
  unfold Monitor.evaluate at hu
  unfold Monitor.fires
  split at hu
  · rename_i hh
    simp only [hh, hi, Bool.not_false, Bool.and_self, Bool.true_and]
    exact hu
  · rw [hi] at hu
    cases hu

theorem CausesEmitted.handAll (s : State) (qs : List Quantity) : CausesEmitted s (s.handAll qs) := by
  induction qs generalizing s with
  | nil => exact .refl s
  | cons q qs ih => exact (CausesEmitted.hand s q).trans (ih (s.hand q))

/-! ### The frame -/

theorem DataPathFrame.refl (s : State) : DataPathFrame s s :=
  ⟨rfl, rfl, rfl, rfl, rfl, fun _ => rfl, .refl s, rfl, rfl, rfl, rfl, rfl, rfl, rfl, rfl⟩

theorem DataPathFrame.trans {s t u : State} (h : DataPathFrame s t) (k : DataPathFrame t u) : DataPathFrame s u where
  line := k.line.trans h.line
  sched := k.sched.trans h.sched
  map := k.map.trans h.map
  regions := k.regions.trans h.regions
  snapshot := k.snapshot.trans h.snapshot
  monitors := MonitorsSame.trans h.monitors k.monitors
  causes := h.causes.trans k.causes
  entries := k.entries.trans h.entries
  seen := k.seen.trans h.seen
  outputs := k.outputs.trans h.outputs
  held := k.held.trans h.held
  mask := k.mask.trans h.mask
  port := k.port.trans h.port
  free := k.free.trans h.free
  pending := k.pending.trans h.pending

theorem DataPathFrame.hand (s : State) (q : Quantity) : DataPathFrame s (s.hand q) where
  monitors := MonitorsSame.hand s q
  causes := CausesEmitted.hand s q
  line := rfl
  sched := rfl
  map := rfl
  regions := rfl
  snapshot := rfl
  entries := rfl
  seen := rfl
  outputs := rfl
  held := rfl
  mask := rfl
  port := rfl
  free := rfl
  pending := rfl

theorem DataPathFrame.handAll (s : State) (qs : List Quantity) : DataPathFrame s (s.handAll qs) := by
  induction qs generalizing s with
  | nil => exact .refl s
  | cons q qs ih => exact (DataPathFrame.hand s q).trans (ih (s.hand q))

theorem DataPathFrame.handChanged (s before : State) (qs : List Quantity) : DataPathFrame s (s.handChanged before qs) := by
  induction qs generalizing s with
  | nil => exact .refl s
  | cons q qs ih =>
    simp only [State.handChanged, List.foldl_cons] at ih ⊢
    split
    · exact ih s
    · exact (DataPathFrame.hand s q).trans (ih (s.hand q))

theorem DataPathFrame.raise (s : State) (c : Cause) : DataPathFrame s (s.raise c) :=
  ⟨rfl, rfl, rfl, rfl, rfl, fun _ => rfl, .quiet rfl fun _ h => List.mem_append_left _ h, rfl, rfl, rfl, rfl, rfl, rfl, rfl, rfl⟩

theorem DataPathFrame.latch (s : State) (c : AttentionCause) : DataPathFrame s (s.latch c) :=
  ⟨rfl, rfl, rfl, rfl, rfl, fun _ => rfl, .quiet rfl fun _ h => h, rfl, rfl, rfl, rfl, rfl, rfl, rfl, rfl⟩

theorem DataPathFrame.countPart (s : State) (p : PartitionId) (f : PartitionCounters → PartitionCounters) : DataPathFrame s (s.countPart p f) :=
  ⟨rfl, rfl, rfl, rfl, rfl, fun _ => rfl, .quiet rfl fun _ h => h, rfl, rfl, rfl, rfl, rfl, rfl, rfl, rfl⟩

theorem DataPathFrame.countRetry (s : State) (p : PartitionId) : DataPathFrame s (s.countRetry p) :=
  (DataPathFrame.countPart s p _).trans (DataPathFrame.hand _ _)

theorem DataPathFrame.withdraw (s : State) (chosen : PoolEntry → Bool) (status : WithdrawalStatus) : DataPathFrame s (s.withdraw chosen status) :=
  ⟨rfl, rfl, rfl, rfl, rfl, fun _ => rfl, .quiet rfl fun _ h => h, rfl, rfl, rfl, rfl, rfl, rfl, rfl, rfl⟩

theorem DataPathFrame.withdrawPair (s : State) (p : PartitionId) (pair : Pair) (status : WithdrawalStatus) :
    DataPathFrame s (s.withdrawPair p pair status) :=
  (DataPathFrame.withdraw s (fun e => e.pair == pair) status).trans (DataPathFrame.handChanged _ s [.age p, .wbuf])

theorem DataPathFrame.flush (s : State) (p : PartitionId) : DataPathFrame s (s.flush p) :=
  (DataPathFrame.withdraw s (fun e => e.partition == p) .aborted).trans (DataPathFrame.handChanged _ s [.age p, .wbuf])

theorem DataPathFrame.closingCheck (s : State) (p : PartitionId) : DataPathFrame s (s.closingCheck p) := by
  unfold State.closingCheck
  split
  · exact ⟨rfl, rfl, rfl, rfl, rfl, fun _ => rfl, .quiet rfl fun _ h => List.mem_append_left _ h, rfl, rfl, rfl, rfl, rfl, rfl, rfl, rfl⟩
  · exact .refl s

theorem DataPathFrame.storeFault (s : State) (record : FaultRecord) : DataPathFrame s (s.storeFault record) := by
  unfold State.storeFault
  dsimp only
  split
  · refine DataPathFrame.trans ?_ ((DataPathFrame.hand _ _).trans (DataPathFrame.raise _ _))
    exact ⟨rfl, rfl, rfl, rfl, rfl, fun _ => rfl, .quiet rfl fun _ h => h, rfl, rfl, rfl, rfl, rfl, rfl, rfl, rfl⟩
  · exact (DataPathFrame.latch s _).trans (DataPathFrame.raise _ _)

theorem DataPathFrame.recordFault (s : State) (kind : FaultKind) (partition : Option PartitionId) (pair : Option Pair)
    (address : Option Addr) (dtag : Option DTag) : DataPathFrame s (s.recordFault kind partition pair address dtag) := .storeFault s _

theorem DataPathFrame.setFlightUnit (s : State) (c : Completion) : DataPathFrame s { s with flight := c } :=
  ⟨rfl, rfl, rfl, rfl, rfl, fun _ => rfl, .quiet rfl fun _ h => h, rfl, rfl, rfl, rfl, rfl, rfl, rfl, rfl⟩

theorem DataPathFrame.timeoutArrives (s : State) : DataPathFrame s s.timeoutArrives := by
  unfold State.timeoutArrives
  split
  · exact .refl s
  · exact (DataPathFrame.setFlightUnit s _).trans (.storeFault _ _)

/-! ### What the shared operations raise and write -/

/-- A latched cause is pending (R163). -/
theorem State.latch_isPending (s : State) (c : AttentionCause) : (s.latch c).attention.isPending c = true := by
  have key : ∀ (l q : BitVec 7), ((l ||| c.bit) ||| q) &&& c.bit ≠ 0 := by
    intro l q h
    have whole : ((l ||| c.bit) ||| q) &&& c.bit = c.bit := by
      ext i
      simp only [BitVec.getElem_and, BitVec.getElem_or]
      cases l[i] <;> cases (c.bit)[i] <;> cases q[i] <;> rfl
    rw [whole] at h
    revert h
    cases c <;> decide
  simp only [Attention.isPending, Attention.pendingSet, State.latch_latched, State.latch_fields, bne_iff_ne, ne_eq]
  exact key _ _

/-- A cause that is pending stays so when another one is latched (R163). -/
theorem State.latch_keeps {s : State} {c : AttentionCause} (d : AttentionCause) (h : s.attention.isPending c = true) :
    (s.latch d).attention.isPending c = true := by
  have key : ∀ l q x b : BitVec 7, (l ||| q) &&& b ≠ 0 → ((l ||| x) ||| q) &&& b ≠ 0 := by
    intro l q x b h k
    apply h
    apply BitVec.eq_of_getLsbD_eq
    intro i hi
    have := congrArg (fun v : BitVec 7 => v.getLsbD i) k
    simp only [BitVec.getLsbD_and, BitVec.getLsbD_or] at this ⊢
    revert this
    cases l.getLsbD i <;> cases q.getLsbD i <;> cases x.getLsbD i <;> cases b.getLsbD i <;> simp
  simp only [Attention.isPending, Attention.pendingSet, State.latch_latched, State.latch_fields, bne_iff_ne, ne_eq] at h ⊢
  exact key _ _ _ _ h

/-- The closing check keeps what is pending and what is raised. -/
theorem State.closingCheck_keeps (s : State) (p : PartitionId) :
    (∀ c, s.attention.isPending c = true → (s.closingCheck p).attention.isPending c = true) ∧
      ∀ c ∈ s.triggers.raised, c ∈ (s.closingCheck p).triggers.raised := by
  unfold State.closingCheck
  split
  · exact ⟨fun c h => State.latch_keeps .closed h, fun c h => List.mem_append_left _ h⟩
  · exact ⟨fun _ h => h, fun _ h => h⟩

/-- The causes raised before stay raised when values are handed out. -/
theorem State.hand_raised (s : State) (q : Quantity) : ∃ ms : List (Fin 4), (s.hand q).triggers.raised = s.triggers.raised ++ ms.map Cause.monitor :=
  ⟨_, rfl⟩

/-- The fault queue and the latched causes after a fault, and its cause (R160). -/
theorem State.recordFault_recorded (s : State) (kind : FaultKind) (partition : Option PartitionId) (pair : Option Pair)
    (address : Option Addr) (dtag : Option DTag) :
    FaultRecorded s (s.recordFault kind partition pair address dtag) kind partition pair address dtag ∧
      (s.recordFault kind partition pair address dtag).attention.latched = latchedByFault s := by
  unfold State.recordFault State.storeFault latchedByFault Config.faultRecords
  dsimp only
  split
  · rename_i h
    exact ⟨⟨fun _ => rfl, fun k => absurd k (by omega), by simp⟩, rfl⟩
  · rename_i h
    exact ⟨⟨fun k => absurd k h, fun _ => ⟨rfl, State.latch_isPending s .overflow⟩, by simp⟩, rfl⟩

/-- What holds closing back: a pool entry, an ISSUED or RETURNING entry, or a DISCARDING record (R32). -/
theorem State.outstanding_iff (s : State) (p : PartitionId) :
    s.outstanding p = true ↔
      (∃ e ∈ s.pool, e.partition = p) ∨ (∃ d : DTag, s.flight.table[d].outstandingFor p = true) ∨
        ∃ r ∈ s.writes.records, r.state = .discarding ∧ r.partition = p := by
  unfold State.outstanding
  simp only [Bool.or_eq_true, List.any_eq_true, Bool.and_eq_true, beq_iff_eq, or_assoc]
  have : (∃ x ∈ s.flight.table.toList, FlightEntry.outstandingFor p x = true) ↔ ∃ d : DTag, s.flight.table[d].outstandingFor p = true := by
    constructor
    · rintro ⟨x, hx, h⟩
      rw [Vector.mem_toList_iff, Vector.mem_iff_getElem] at hx
      obtain ⟨i, hi, rfl⟩ := hx
      exact ⟨⟨i, hi⟩, h⟩
    · rintro ⟨d, h⟩
      exact ⟨s.flight.table[d], by simp, h⟩
  rw [this]

/-- The closing check made at a state (R32). -/
theorem State.closingCheck_checked (s : State) (p : PartitionId) : ClosingChecked s (s.closingCheck p) p := by
  have ho : (s.closingCheck p).outstanding p = s.outstanding p := by simp [State.outstanding]
  unfold ClosingChecked
  rw [ho]
  unfold State.closingCheck
  by_cases h : s.parts[p].state = .closing ∧ s.outstanding p = false
  · have hb : (s.parts[p].state == .closing && !s.outstanding p) = true := by rw [h.1, h.2]; rfl
    rw [if_pos h, if_pos hb]
    refine ⟨rfl, by simp, State.latch_isPending _ _⟩
  · have hb : ¬(s.parts[p].state == .closing && !s.outstanding p) = true := by
      intro k
      rw [Bool.and_eq_true, beq_iff_eq, Bool.not_eq_true'] at k
      exact h k
    rw [if_neg h, if_neg hb]

end Machine
end Sys2Proof
end

