-- ==== Sys2Proof/Laws/Emits.lean ====
section
/-! SUPPORT. What the shared operations emit, and that they emit no more: the causes of each block and the quantities handed to monitors, carried through the
operations. -/

namespace Sys2Proof
namespace Machine

/-- What an event emits, where the monitors keep their configuration. -/
structure Sends (s u : State) (causes : List Cause) (moved : List Quantity) : Prop where
  same : MonitorsSame s u
  emits : Emits s u causes moved

theorem MonitorsSame.enabled {s u : State} (h : MonitorsSame s u) (i : Fin 4) : u.monitors[i].enabled = s.monitors[i].enabled := by rw [← h i]

theorem MonitorsSame.quantity {s u : State} (h : MonitorsSame s u) (i : Fin 4) : u.monitors[i].quantity = s.monitors[i].quantity := by
  rw [← h i]
  rfl

/-- An update that leaves the monitors and the causes raised emits nothing. -/
theorem Sends.quiet {s u : State} (m : u.monitors = s.monitors) (r : u.triggers.raised = s.triggers.raised) : Sends s u [] [] where
  same i := by rw [m]
  emits :=
    { blocks := fun b _ => by simp [State.causesFrom, r]
      monitors :=
        { others := fun i _ => by rw [m, r]; exact ⟨rfl, rfl⟩
          once := fun i _ => by
            rw [m, r]
            cases s.monitors[i].last <;> simp } }

theorem Sends.refl (s : State) : Sends s s [] [] := .quiet rfl rfl

theorem Sends.trans {s t u : State} {c d : List Cause} {l m : List Quantity} (h : Sends s t c l) (k : Sends t u d m) :
    Sends s u (c ++ d) (l ++ m) where
  same := h.same.trans k.same
  emits :=
    { blocks := fun b hb => by rw [k.emits.blocks b hb, h.emits.blocks b hb, List.filter_append, List.append_assoc]
      monitors :=
        { others := fun i hi => by
            rw [List.mem_append, not_or] at hi
            obtain ⟨a1, a2⟩ := h.emits.monitors.others i (hi.imp id And.left)
            obtain ⟨b1, b2⟩ := k.emits.monitors.others i (by rw [h.same.enabled, h.same.quantity]; exact hi.imp id And.right)
            exact ⟨b1.trans a1, b2.trans a2⟩
          once := fun i hi => by
            rw [List.count_append] at hi
            by_cases h0 : l.count s.monitors[i].quantity = 0
            · obtain ⟨a1, a2⟩ := h.emits.monitors.others i (.inr (List.count_eq_zero.1 h0))
              rw [k.emits.monitors.once i (by rw [h.same.quantity]; omega), a1, a2]
            · have m0 : m.count s.monitors[i].quantity = 0 := by omega
              obtain ⟨b1, b2⟩ := k.emits.monitors.others i (by rw [h.same.quantity]; exact .inr (List.count_eq_zero.1 m0))
              rw [b1, b2, h.emits.monitors.once i (by omega)] } }

/-- An update after an event that leaves the monitors and the causes raised. -/
theorem Sends.same_after {s t u : State} {c : List Cause} {l : List Quantity} (h : Sends s t c l) (m : u.monitors = t.monitors)
    (r : u.triggers.raised = t.triggers.raised) : Sends s u c l := by
  have k := h.trans (.quiet m r)
  rwa [List.append_nil, List.append_nil] at k

/-- An update before an event that leaves the monitors and the causes raised. -/
theorem Sends.same_before {s t u : State} {c : List Cause} {l : List Quantity} (h : Sends t u c l) (m : t.monitors = s.monitors)
    (r : t.triggers.raised = s.triggers.raised) : Sends s u c l := (Sends.quiet m r).trans h

/-- What hands out fewer values hands out no more. -/
theorem Sends.weaken {s u : State} {c : List Cause} {l m : List Quantity} (h : Sends s u c l) (sub : l.Sublist m) : Sends s u c m where
  same := h.same
  emits :=
    { blocks := h.emits.blocks
      monitors :=
        { others := fun i hi => h.emits.monitors.others i (hi.imp id fun k k' => k (sub.subset k'))
          once := fun i hi => h.emits.monitors.once i ((sub.count_le _).trans hi) } }

/-- Only the monitors' numbers among the causes matter to each other. -/
theorem Cause.count_monitors (ms : List (Fin 4)) (i : Fin 4) : (ms.map Cause.monitor).count (.monitor i) = ms.count i := by
  induction ms with
  | nil => rfl
  | cons m ms ih => simp [List.count_cons, ih]

/-- A value handed out emits the causes of the monitors that cross into their condition, and nothing else (R142). -/
theorem Sends.hand (s : State) (q : Quantity) : Sends s (s.hand q) [] [q] where
  same := .hand s q
  emits := by
    have eq : ∀ i : Fin 4, (s.hand q).monitors[i] = Monitor.evaluate q (s.quantity q) s.monitors[i] := fun i => mapAll_get _ _ _
    have count : ∀ i : Fin 4, (s.hand q).triggers.raised.count (.monitor i) =
        s.triggers.raised.count (.monitor i) + if s.monitors[i].fires q (s.quantity q) = true then 1 else 0 := by
      intro i
      show (s.triggers.raised ++ _).count _ = _
      rw [List.count_append, Cause.count_monitors]
      congr 1
      by_cases hf : s.monitors[i].fires q (s.quantity q) = true
      · rw [if_pos hf, List.count_filter (by simpa using hf)]
        clear eq hf
        revert i
        decide
      · rw [if_neg hf, List.count_eq_zero]
        intro k
        exact hf (List.mem_filter.1 k).2
    refine ⟨fun b hb => ?_, fun i hi => ?_, fun i _ => ?_⟩
    · show (s.triggers.raised ++ _).filter _ = _
      rw [List.filter_append, List.filter_nil]
      congr 1
      rw [List.filter_eq_nil_iff]
      intro c hc
      obtain ⟨m, -, rfl⟩ := List.mem_map.1 hc
      simpa [Cause.block] using hb.symm
    · have quiet : s.monitors[i].hears q = false := by
        rw [List.mem_singleton] at hi
        unfold Monitor.hears
        revert hi
        generalize s.monitors[i] = m
        rintro (hi | hi) <;> simp [hi]
      rw [eq, count]
      revert quiet
      generalize s.monitors[i] = m
      intro quiet
      simp [Monitor.evaluate, Monitor.fires, quiet]
    · rw [eq, count]
      unfold Monitor.evaluate Monitor.fires
      generalize s.monitors[i] = m
      by_cases hh : m.hears q = true
      · simp [hh]
      · have : m.hears q = false := by simpa using hh
        cases hl : m.last <;> simp [this, hl]

theorem Sends.handAll (s : State) (qs : List Quantity) : Sends s (s.handAll qs) [] qs := by
  induction qs generalizing s with
  | nil => exact .refl s
  | cons q qs ih => exact (Sends.hand s q).trans (ih (s.hand q))

theorem Sends.handChanged (s before : State) (qs : List Quantity) : Sends s (s.handChanged before qs) [] qs := by
  induction qs generalizing s with
  | nil => exact .refl s
  | cons q qs ih =>
    simp only [State.handChanged, List.foldl_cons] at ih ⊢
    split
    · exact (ih s).weaken (List.sublist_cons_self _ _)
    · exact (Sends.hand s q).trans (ih (s.hand q))

/-- A block that is not the counters unit emits its cause. -/
theorem Sends.raise (s : State) (c : Cause) (hc : c.block ≠ .countersUnit) : Sends s (s.raise c) [c] [] where
  same _ := rfl
  emits :=
    { blocks := fun b _ => by simp [State.causesFrom, List.filter_append]
      monitors := by
        have count : ∀ i : Fin 4, (s.raise c).triggers.raised.count (.monitor i) = s.triggers.raised.count (.monitor i) := by
          intro i
          rw [State.raise_raised, List.count_append, Nat.add_eq_left, List.count_eq_zero, List.mem_singleton]
          rintro rfl
          exact hc rfl
        refine ⟨fun i _ => ⟨rfl, count i⟩, fun i _ => ?_⟩
        rw [count, State.raise_fields s c |>.2.2.2.2.2.2.2.2.2.2.1]
        cases s.monitors[i].last <;> simp }

theorem Sends.latch (s : State) (c : AttentionCause) : Sends s (s.latch c) [] [] := .quiet rfl rfl

theorem Sends.countRetry (s : State) (p : PartitionId) : Sends s (s.countRetry p) [] [.retryRound p] :=
  (Sends.quiet (s := s) (u := s.countPart p _) rfl rfl).trans (.hand _ _)

theorem Sends.countLost (s : State) (p : PartitionId) : Sends s (s.countLost p) [] [.lostRound p] :=
  (Sends.quiet (s := s) (u := s.countPart p _) rfl rfl).trans (.hand _ _)

theorem Sends.withdrawPair (s : State) (p : PartitionId) (pair : Pair) (status : WithdrawalStatus) :
    Sends s (s.withdrawPair p pair status) [] [.age p, .wbuf] :=
  (Sends.quiet (s := s) (u := s.withdraw (fun e => e.pair == pair) status) rfl rfl).trans (.handChanged _ s [.age p, .wbuf])

theorem Sends.flush (s : State) (p : PartitionId) : Sends s (s.flush p) [] [.age p, .wbuf] :=
  (Sends.quiet (s := s) (u := s.withdraw (fun e => e.partition == p) .aborted) rfl rfl).trans (.handChanged _ s [.age p, .wbuf])

theorem Sends.storeFault (s : State) (record : FaultRecord) : Sends s (s.storeFault record) [.fault record.kind] [.faults] := by
  unfold State.storeFault
  dsimp only
  split
  · have queued : Sends s { s with attention := { s.attention with queue := s.attention.queue ++ [record] } } [] [] := Sends.quiet rfl rfl
    exact (queued.trans (.hand _ .faults)).trans (.raise _ (.fault record.kind) (by simp [Cause.block]))
  · exact ((Sends.latch s .overflow).trans (.raise _ (.fault record.kind) (by simp [Cause.block]))).weaken (by simp)

theorem Sends.recordFault (s : State) (kind : FaultKind) (partition : Option PartitionId) (pair : Option Pair) (address : Option Addr)
    (dtag : Option DTag) : Sends s (s.recordFault kind partition pair address dtag) [.fault kind] [.faults] := .storeFault s _

/-- The closing check emits PARTITION OFF where it makes the partition OFF, and nothing else (R32). -/
theorem Sends.closingCheck (s : State) (p : PartitionId) : Sends s (s.closingCheck p) (closingCauses s (s.closingCheck p) p) [] := by
  have ho : (s.closingCheck p).outstanding p = s.outstanding p := by simp [State.outstanding]
  unfold closingCauses
  rw [ho]
  unfold State.closingCheck
  by_cases h : s.parts[p].state = .closing ∧ s.outstanding p = false
  · have hb : (s.parts[p].state == .closing && !s.outstanding p) = true := by rw [h.1, h.2]; rfl
    rw [if_pos h, if_pos hb]
    exact ((Sends.quiet (s := s) (u := s.setState p .off) rfl rfl).trans (.raise _ (.partitionOff p) (by simp [Cause.block]))).trans (.latch _ _)
  · have hb : ¬(s.parts[p].state == .closing && !s.outstanding p) = true := by
      intro k
      rw [Bool.and_eq_true, beq_iff_eq, Bool.not_eq_true'] at k
      exact h k
    rw [if_neg h, if_neg hb]
    exact .refl s

/-- The causes emitted at a closing check depend on the partition's state before and on what is outstanding after. -/
theorem closingCauses_congr {s t u v : State} {p : PartitionId} (parts : t.parts = s.parts) (out : v.outstanding p = u.outstanding p) :
    closingCauses t v p = closingCauses s u p := by
  unfold closingCauses
  rw [parts, out]

/-- An arrival at the fault queue of the next TIMEOUT fault, where one is on its way (R160, R161). -/
theorem Sends.timeoutArrives (s : State) :
    Sends s s.timeoutArrives ((s.flight.timeouts.take 1).map fun r => .fault r.kind) ((s.flight.timeouts.take 1).map fun _ => .faults) := by
  unfold State.timeoutArrives
  split
  · rename_i h
    rw [h]
    exact .refl s
  · rename_i record rest h
    rw [h]
    exact (Sends.quiet (s := s) (u := { s with flight := { s.flight with timeouts := rest } }) rfl rfl).trans (.storeFault _ record)

/-- A partition with a pool entry has outstanding work, and the closing check leaves it as it is (R32). -/
theorem State.closingCheck_of_entry {s : State} {p : PartitionId} (h : ∃ e ∈ s.pool, e.partition = p) : s.closingCheck p = s := by
  unfold State.closingCheck
  rw [if_neg]
  rw [(s.outstanding_iff p).2 (.inl h)]
  simp

/-- Records that are freed while each has its pool entry close no partition, and emit nothing (R32, R83, R90). -/
theorem State.freeDiscarding_each_quiet (l : List OpenWrite) (s : State) (h : ∀ r ∈ l, ∃ e ∈ s.pool, e.partition = r.partition) :
    (l.foldl State.freeDiscarding s).parts = s.parts ∧ Sends s (l.foldl State.freeDiscarding s) [] [] := by
  induction l generalizing s with
  | nil => exact ⟨rfl, .refl s⟩
  | cons r l ih =>
    have moved : ∀ p, (∃ e ∈ s.pool, e.partition = p) → ∃ e ∈ s.pool.map (PoolEntry.releaseFor r.pair), e.partition = p := by
      rintro p ⟨e, he, hp⟩
      refine ⟨_, List.mem_map_of_mem he, ?_⟩
      rw [← hp]
      unfold PoolEntry.releaseFor
      split
      · rfl
      · split <;> rfl
    have freed : s.freeDiscarding r =
        { s with
          pool := s.pool.map (PoolEntry.releaseFor r.pair)
          writes := { s.writes with records := s.writes.records.filter fun x => x.pair != r.pair } } :=
      State.closingCheck_of_entry (moved _ (h r List.mem_cons_self))
    rw [List.foldl_cons, freed]
    obtain ⟨parts, sent⟩ := ih
      { s with
        pool := s.pool.map (PoolEntry.releaseFor r.pair)
        writes := { s.writes with records := s.writes.records.filter fun x => x.pair != r.pair } }
      fun x hx => moved _ (h x (List.mem_cons_of_mem _ hx))
    exact ⟨parts, sent.same_before rfl rfl⟩

/-- Flushes emit no cause but those of the monitors of head ages and of the reserved count (R124). -/
theorem Sends.flushEach (l : List PartitionId) (s : State) : Sends s (l.foldl State.flush s) [] (l.flatMap fun p => [.age p, .wbuf]) := by
  induction l generalizing s with
  | nil => exact .refl s
  | cons p l ih => exact (Sends.flush s p).trans (ih (s.flush p))


end Machine
end Sys2Proof
end

