-- ==== Sys2Proof/Laws/Keeps.lean ====
section
/-! SUPPORT. How a property is carried through the trigger unit's taking of causes and through a step: no command stops, and a property kept by each
kind of update that an action makes is kept by the whole taking. -/

namespace Sys2Proof
namespace Machine

/-- A property that the trigger unit's own bookkeeping and every action keep (R149, R150). -/
structure SettleKeeps (P : State → Prop) : Prop where
  triggers : ∀ (s : State) (u : TriggerUnit), P s → P { s with triggers := u }
  free : ∀ (s : State) (n : Nat), P s → P { s with free := n }
  action : ∀ (s : State) (action : ActionCode) (argument : Byte), P s → P (s.applyAction action argument)

/-- A property that each kind of update an action can make keeps (R150). No action latches FAULT (R163). -/
structure ActionsKeep (P : State → Prop) : Prop where
  triggers : ∀ (s : State) (u : TriggerUnit), P s → P { s with triggers := u }
  free : ∀ (s : State) (n : Nat), P s → P { s with free := n }
  monitors : ∀ (s : State) (m : Vector Monitor 4), P s → P { s with monitors := m }
  latched : ∀ (s : State) (c : AttentionCause), c ≠ .fault → P s → P (s.latch c)
  snapshot : ∀ (s : State) (n : Snapshot), P s → P { s with snapshot := n }
  target : ∀ (s : State) (t : TableName), P s → P (s.requestTarget t).state
  change : ∀ (s : State) (p : PartitionId) (x : PartitionState), P s → P (s.changeState p x).state
  withdraw : ∀ (s : State) (chosen : PoolEntry → Bool) (status : WithdrawalStatus), P s → P (s.withdraw chosen status)

variable {P : State → Prop}

theorem ActionsKeep.raise (k : ActionsKeep P) {s : State} (c : Cause) (h : P s) : P (s.raise c) := k.triggers s _ h

theorem ActionsKeep.latch (k : ActionsKeep P) {s : State} (c : AttentionCause) (hc : c ≠ .fault) (h : P s) : P (s.latch c) := k.latched s c hc h

theorem ActionsKeep.hand (k : ActionsKeep P) {s : State} (q : Quantity) (h : P s) : P (s.hand q) :=
  k.triggers { s with monitors := (s.hand q).monitors } (s.hand q).triggers (k.monitors s (s.hand q).monitors h)

theorem ActionsKeep.handAll (k : ActionsKeep P) {s : State} (qs : List Quantity) (h : P s) : P (s.handAll qs) := by
  induction qs generalizing s with
  | nil => exact h
  | cons q qs ih => exact ih (k.hand q h)

theorem ActionsKeep.handChanged (k : ActionsKeep P) {s : State} (before : State) (qs : List Quantity) (h : P s) :
    P (s.handChanged before qs) := by
  induction qs generalizing s with
  | nil => exact h
  | cons q qs ih =>
    simp only [State.handChanged, List.foldl_cons] at ih ⊢
    split
    · exact ih h
    · exact ih (k.hand q h)

theorem ActionsKeep.withdrawPair (k : ActionsKeep P) {s : State} (p : PartitionId) (pair : Pair) (status : WithdrawalStatus) (h : P s) :
    P (s.withdrawPair p pair status) := k.handChanged s _ (k.withdraw s (fun e => e.pair == pair) status h)

theorem ActionsKeep.flush (k : ActionsKeep P) {s : State} (p : PartitionId) (h : P s) : P (s.flush p) :=
  k.handChanged s _ (k.withdraw s (fun e => e.partition == p) .aborted h)

theorem ActionsKeep.rearmMonitor (k : ActionsKeep P) {s : State} (i : Fin 4) (m : Monitor) (h : P s) : P (s.rearmMonitor i m) := by
  unfold State.rearmMonitor
  dsimp only
  split
  · exact k.raise _ (k.monitors s _ h)
  · exact k.monitors s _ h

theorem ActionsKeep.applyAction (k : ActionsKeep P) {s : State} (action : ActionCode) (argument : Byte) (h : P s) :
    P (s.applyAction action argument) := by
  cases action with
  | requestSwitch => exact k.target s _ h
  | setRun => exact k.change s _ _ h
  | setHold => exact k.change s _ _ h
  | setClosing => exact k.change s _ _ h
  | flush =>
    show P (s.flushAction _)
    unfold State.flushAction
    split
    · exact k.flush _ h
    · exact h
  | evoutSet => exact k.triggers s _ h
  | evoutClear => exact k.triggers s _ h
  | evoutPulse => exact k.triggers s _ h
  | snapshot => exact k.latch (s := { s with snapshot := s.takeSnapshot.snapshot }) _ (by decide) (k.snapshot s _ h)
  | attention => exact k.latch _ (by decide) h
  | arm => exact k.triggers s _ h
  | disarm => exact k.triggers s _ h
  | clearMonitor => exact k.rearmMonitor _ _ h

theorem ActionsKeep.settles (k : ActionsKeep P) : SettleKeeps P := ⟨k.triggers, k.free, fun _ a b h => k.applyAction a b h⟩

theorem SettleKeeps.fireEntry (k : SettleKeeps P) {s : State} (i : Fin 8) (h : P s) : P (s.fireEntry i) :=
  have fired : P (s.setTrigger i Trigger.fire) := k.triggers s _ h
  k.triggers _ _ (k.action _ s.triggers.entries[i].action s.triggers.entries[i].actionArgument fired)

theorem SettleKeeps.takeCause (k : SettleKeeps P) {s : State} (c : Cause) (h : P s) : P (s.takeCause c) := by
  unfold State.takeCause
  generalize s.firing c = is
  induction is generalizing s with
  | nil => exact h
  | cons i is ih => exact ih (k.fireEntry i h)

theorem ActionsKeep.takeCause (k : ActionsKeep P) {s : State} (c : Cause) (h : P s) : P (s.takeCause c) := k.settles.takeCause c h

/-- What every action keeps, the taking of a held cause keeps (R152). -/
theorem SettleKeeps.takeHeld (k : SettleKeeps P) {s : State} (h : P s) : P s.takeHeld := by
  unfold State.takeHeld
  split
  · exact h
  · exact k.takeCause _ (k.triggers s _ h)

/-- What every action keeps, the taking of every cause a command raised keeps (R148, R149). -/
theorem SettleKeeps.settle (k : SettleKeeps P) {s : State} (h : P s) : P s.settle := by
  unfold State.settle
  split
  · exact h
  · have base : P { s with triggers := { s.triggers with raised := [] }, free := s.free + 1 } :=
      k.free { s with triggers := { s.triggers with raised := [] } } _ (k.triggers s _ h)
    generalize takenOrder s.free (orderRaised s.triggers.raised) = cs
    revert base
    generalize ({ s with triggers := { s.triggers with raised := [] }, free := s.free + 1 } : State) = u
    intro base
    induction cs generalizing u with
    | nil => exact base
    | cons c cs ih => exact ih (u.takeCause c) (k.takeCause c base)

theorem ActionsKeep.settle (k : ActionsKeep P) {s : State} (h : P s) : P s.settle := k.settles.settle h

theorem ActionsKeep.storeFault (k : ActionsKeep P) (queue : ∀ (s : State) (l : List FaultRecord), P s → P { s with attention := { s.attention with queue := l } })
    {s : State} (record : FaultRecord) (h : P s) : P (s.storeFault record) := by
  unfold State.storeFault
  dsimp only
  split
  · exact k.raise _ (k.hand _ (queue s _ h))
  · exact k.raise _ (k.latch _ (by decide) h)

theorem ActionsKeep.recordFault (k : ActionsKeep P) (queue : ∀ (s : State) (l : List FaultRecord), P s → P { s with attention := { s.attention with queue := l } })
    {s : State} (kind : FaultKind) (partition : Option PartitionId) (pair : Option Pair) (address : Option Addr) (dtag : Option DTag)
    (h : P s) : P (s.recordFault kind partition pair address dtag) :=
  k.storeFault queue _ h

/-- What the queue, the faults on their way and the actions leave is kept by the arrival of a TIMEOUT fault (R160, R161). -/
theorem ActionsKeep.timeoutArrives (k : ActionsKeep P) (queue : ∀ (s : State) (l : List FaultRecord), P s → P { s with attention := { s.attention with queue := l } })
    (timeouts : ∀ (s : State) (l : List FaultRecord), P s → P { s with flight := { s.flight with timeouts := l } }) {s : State} (h : P s) :
    P s.timeoutArrives := by
  unfold State.timeoutArrives
  split
  · exact h
  · exact k.storeFault queue _ (timeouts s _ h)

/-! ### Steps -/

/-- A command's effect while the part runs. -/
theorem live_running {s : State} (h : s.line = .running) (effect : State → State) : live s effect = .next (effect s) := by
  simp [live, h]

/-- A command's effect while the part runs, with the causes it raised taken. -/
theorem event_running {s : State} (h : s.line = .running) (effect : State → State) : event s effect = .next (effect s).settle := by
  simp [event, live, h]

theorem live_next (s : State) (effect : State → State) : ∃ t, live s effect = .next t := by
  unfold live
  split <;> exact ⟨_, rfl⟩

theorem event_next (s : State) (effect : State → State) : ∃ t, event s effect = .next t := live_next s _

/-- No command stops: every command answers a next state. -/
theorem exec_next (i : Instr) (s : State) : ∃ t, exec i s = .next t := by
  cases i
  case pinReset => exact ⟨_, rfl⟩
  case rstnReturnsHigh b =>
    show ∃ t, execRstnReturnsHigh b s = .next t
    unfold execRstnReturnsHigh
    split <;> exact ⟨_, rfl⟩
  all_goals simp only [exec,
    execSlotStart, execDeadlineExpiry, execReadRequest, execWriteRequest, execUnnamedKindRequest, execCancel, execWriteDataBeat,
    execDownstreamTake, execAnswer, execArbiterChoice, execResponseDelivery, execDrstnPulseEnd, execEvinEdge, execEvinFirstLevel,
    execEvoutPulseEnd, execHeldCauseTaken, execIndexComplete, execFrameCutShort, execUnknown, execReadEntry,
    execWriteScheduleEntry, execWritePartitionRecord, execWriteInitiatorMap, execWriteRegion, execWriteMonitor, execWriteTrigger,
    execWriteAttentionMask, execRequestSwitch, execSetPartitionState, execFlushPartition, execPathRestart, execPopFault,
    execAcknowledge, execReadStatus, execReadCounters, execClearCounters, execReadSnapshot, execShortRstnPulse,
    execFrameOpenAcrossReset]
  all_goals exact live_next _ _

/-- A step takes the command at the front of the queue. -/
theorem step_cons (s : State) (c : Instr) (rest : List Instr) : step { s with pending := c :: rest } = exec c { s with pending := rest } := rfl

/-- While RSTN is held low a command but PIN_RESET and RSTN_RETURNS_HIGH changes nothing (R8). -/
theorem exec_heldLow {c : Instr} {s : State} (h : s.line = .heldLow) (hc : c ≠ .pinReset) (hb : ∀ b, c ≠ .rstnReturnsHigh b) :
    exec c s = .next s := by
  cases c
  case pinReset => exact absurd rfl hc
  case rstnReturnsHigh b => exact absurd rfl (hb b)
  all_goals simp only [exec,
    execSlotStart, execDeadlineExpiry, execReadRequest, execWriteRequest, execUnnamedKindRequest, execCancel, execWriteDataBeat,
    execDownstreamTake, execAnswer, execArbiterChoice, execResponseDelivery, execDrstnPulseEnd, execEvinEdge, execEvinFirstLevel,
    execEvoutPulseEnd, execHeldCauseTaken, execIndexComplete, execFrameCutShort, execUnknown, execReadEntry,
    execWriteScheduleEntry, execWritePartitionRecord, execWriteInitiatorMap, execWriteRegion, execWriteMonitor, execWriteTrigger,
    execWriteAttentionMask, execRequestSwitch, execSetPartitionState, execFlushPartition, execPathRestart, execPopFault,
    execAcknowledge, execReadStatus, execReadCounters, execClearCounters, execReadSnapshot, execShortRstnPulse,
    execFrameOpenAcrossReset, event, live, h]

/-- While the state is not defined every command but PIN_RESET leaves it so (R1). -/
theorem exec_undefined {c : Instr} {s t : State} (h : s.line = .undefined) (hc : c ≠ .pinReset) (ht : exec c s = .next t) :
    t.line = .undefined := by
  have key : exec c s = .next s.madeUndefined := by
    cases c
    case pinReset => exact absurd rfl hc
    case rstnReturnsHigh b => simp only [exec, execRstnReturnsHigh, h]
    all_goals simp only [exec,
      execSlotStart, execDeadlineExpiry, execReadRequest, execWriteRequest, execUnnamedKindRequest, execCancel, execWriteDataBeat,
    execDownstreamTake, execAnswer, execArbiterChoice, execResponseDelivery, execDrstnPulseEnd, execEvinEdge, execEvinFirstLevel,
    execEvoutPulseEnd, execHeldCauseTaken, execIndexComplete, execFrameCutShort, execUnknown, execReadEntry,
    execWriteScheduleEntry, execWritePartitionRecord, execWriteInitiatorMap, execWriteRegion, execWriteMonitor, execWriteTrigger,
    execWriteAttentionMask, execRequestSwitch, execSetPartitionState, execFlushPartition, execPathRestart, execPopFault,
    execAcknowledge, execReadStatus, execReadCounters, execClearCounters, execReadSnapshot, execShortRstnPulse,
    execFrameOpenAcrossReset, event, live, h]
  rw [key] at ht
  cases ht
  rfl

/-- How a guarantee `G` is carried through a step from states in which `B` holds, which has it: the queue does not matter to `B`, `G` holds at reset, and it is left
by the return of RSTN and by every command that the part takes while it runs. Nothing is said of a state that a short pulse has left undefined (R1). -/
theorem defined_step (B G : State → Prop) (has : ∀ s : State, B s → G s) (queue : ∀ (s : State) (q : List Instr), B s → B { s with pending := q })
    (reset : ∀ (f : Nat) (q : List Instr), G { State.reset with free := f, pending := q })
    (leave : ∀ (s : State) (b : Bool), s.line = .heldLow → B s → G (s.leaveReset b))
    (run : ∀ (c : Instr) (s t : State), s.line = .running → B s → c ≠ .pinReset → c ≠ .shortRstnPulse → exec c s = .next t → G t)
    (s t : State) (hs : s.Defined B) (ht : step s = .next t) : t.Defined G := by
  intro hu
  unfold step at ht
  cases hp : s.pending with
  | nil =>
    rw [hp] at ht
    cases ht
    exact has _ (hs hu)
  | cons c rest =>
    rw [hp] at ht
    dsimp only at ht
    have hs' : ({ s with pending := rest } : State).Defined B := fun h => queue s rest (hs h)
    generalize ({ s with pending := rest } : State) = u at hs' ht
    by_cases hc : c = .pinReset
    · subst hc
      cases ht
      exact reset _ _
    · cases hl : u.line with
      | running =>
        by_cases hc2 : c = .shortRstnPulse
        · subst hc2
          simp only [exec, execShortRstnPulse, live_running hl] at ht
          cases ht
          exact absurd rfl hu
        · exact run c u t hl (hs' (by rw [hl]; decide)) hc hc2 ht
      | heldLow =>
        have hg := hs' (by rw [hl]; decide)
        by_cases hb : ∃ b, c = .rstnReturnsHigh b
        · obtain ⟨b, rfl⟩ := hb
          simp only [exec, execRstnReturnsHigh, hl] at ht
          cases ht
          exact leave _ _ hl hg
        · rw [exec_heldLow hl hc (fun b hb' => hb ⟨b, hb'⟩)] at ht
          cases ht
          exact has _ hg
      | undefined => exact absurd (exec_undefined hl hc ht) hu

end Machine
end Sys2Proof
end

