-- ==== Sys2Proof/Laws/Slots.lean ====
section
/-! SUPPORT. What the parts of a slot start do: expiries, the round start, and the act of issue. -/

namespace Sys2Proof
namespace Machine

/-! ### Expiries (R102) -/

/-- An expiry changes only the table, the places in turn, the TIMEOUT faults on their way, the latched causes, the records, and what monitors and causes take. -/
@[simp] theorem State.expire_fields (s : State) (d : DTag) :
    (s.expire d).line = s.line ∧ (s.expire d).sched = s.sched ∧ (s.expire d).pool = s.pool ∧ (s.expire d).intake = s.intake ∧
    (s.expire d).writes = s.writes ∧ (s.expire d).flight.output = s.flight.output ∧ (s.expire d).flight.turn = s.flight.turn ∧
    (s.expire d).flight.offer = s.flight.offer ∧ (s.expire d).restart = s.restart ∧ (s.expire d).counters = s.counters ∧
    (s.expire d).snapshot = s.snapshot ∧ (s.expire d).triggers.entries = s.triggers.entries ∧
    (s.expire d).triggers.seen = s.triggers.seen ∧ (s.expire d).triggers.outputs = s.triggers.outputs ∧
    (s.expire d).triggers.held = s.triggers.held ∧ (s.expire d).attention.queue = s.attention.queue ∧ (s.expire d).attention.mask = s.attention.mask ∧
    (s.expire d).port = s.port ∧
    (s.expire d).free = s.free ∧ (s.expire d).pending = s.pending :=
  by
  unfold State.expire
  split <;> simp

/-- An expiry is an event of the data path. -/
theorem DataPathFrame.expire (s : State) (d : DTag) : DataPathFrame s (s.expire d) := by
  unfold State.expire
  split
  · exact (DataPathFrame.setFlightUnit s _).trans ((DataPathFrame.hand _ _).trans (DataPathFrame.closingCheck _ _))
  all_goals exact .refl s

/-- Several expiries are events of the data path. -/
theorem DataPathFrame.expireEach (l : List DTag) (s : State) : DataPathFrame s (l.foldl State.expire s) := by
  induction l generalizing s with
  | nil => exact .refl s
  | cons d l ih => exact (DataPathFrame.expire s d).trans (ih (s.expire d))

/-- Several expiries change only the table, the places in turn, the TIMEOUT faults on their way, the latched causes, the records, and what monitors
and causes take. -/
theorem State.expireEach_fields (l : List DTag) (s : State) :
    (l.foldl State.expire s).line = s.line ∧ (l.foldl State.expire s).sched = s.sched ∧ (l.foldl State.expire s).pool = s.pool ∧
    (l.foldl State.expire s).intake = s.intake ∧ (l.foldl State.expire s).writes = s.writes ∧
    (l.foldl State.expire s).flight.output = s.flight.output ∧ (l.foldl State.expire s).flight.turn = s.flight.turn ∧
    (l.foldl State.expire s).flight.offer = s.flight.offer ∧ (l.foldl State.expire s).restart = s.restart ∧
    (l.foldl State.expire s).counters = s.counters ∧ (l.foldl State.expire s).snapshot = s.snapshot ∧
    (l.foldl State.expire s).triggers.entries = s.triggers.entries ∧ (l.foldl State.expire s).triggers.seen = s.triggers.seen ∧
    (l.foldl State.expire s).triggers.outputs = s.triggers.outputs ∧ (l.foldl State.expire s).triggers.held = s.triggers.held ∧
    (l.foldl State.expire s).attention.queue = s.attention.queue ∧ (l.foldl State.expire s).attention.mask = s.attention.mask ∧
    (l.foldl State.expire s).port = s.port ∧
    (l.foldl State.expire s).free = s.free ∧ (l.foldl State.expire s).pending = s.pending := by
  induction l generalizing s with
  | nil => exact ⟨rfl, rfl, rfl, rfl, rfl, rfl, rfl, rfl, rfl, rfl, rfl, rfl, rfl, rfl, rfl, rfl, rfl, rfl, rfl, rfl⟩
  | cons d l ih => simpa using ih (s.expire d)

/-- The expiries of a round start change only the table, the places in turn, the TIMEOUT faults on their way, the latched causes, the records, and
what monitors and causes take. -/
@[simp] theorem State.expireDue_fields (s : State) :
    (s.expireDue).line = s.line ∧ (s.expireDue).sched = s.sched ∧ (s.expireDue).pool = s.pool ∧ (s.expireDue).intake = s.intake ∧
    (s.expireDue).writes = s.writes ∧ (s.expireDue).flight.output = s.flight.output ∧ (s.expireDue).flight.turn = s.flight.turn ∧
    (s.expireDue).flight.offer = s.flight.offer ∧ (s.expireDue).restart = s.restart ∧ (s.expireDue).counters = s.counters ∧
    (s.expireDue).snapshot = s.snapshot ∧ (s.expireDue).triggers.entries = s.triggers.entries ∧
    (s.expireDue).triggers.seen = s.triggers.seen ∧ (s.expireDue).triggers.outputs = s.triggers.outputs ∧
    (s.expireDue).triggers.held = s.triggers.held ∧ (s.expireDue).attention.queue = s.attention.queue ∧
    (s.expireDue).attention.mask = s.attention.mask ∧ (s.expireDue).port = s.port ∧
    (s.expireDue).free = s.free ∧ (s.expireDue).pending = s.pending :=
  State.expireEach_fields s.dueEntries s

theorem DataPathFrame.expireDue (s : State) : DataPathFrame s s.expireDue := DataPathFrame.expireEach s.dueEntries s

/-! ### TIMEOUT faults on their way (R161) -/

/-- TIMEOUT faults that reach the queue within a slot start change only those on their way, the fault queue, the latched causes, the monitors and the
causes raised. -/
theorem arriveAtOnce_fields (occasion : Nat) (l : List FaultRecord) (s : State) :
    (arriveAtOnce occasion l s).line = s.line ∧ (arriveAtOnce occasion l s).sched = s.sched ∧ (arriveAtOnce occasion l s).parts = s.parts ∧
    (arriveAtOnce occasion l s).pool = s.pool ∧ (arriveAtOnce occasion l s).intake = s.intake ∧ (arriveAtOnce occasion l s).writes = s.writes ∧
    (arriveAtOnce occasion l s).flight.table = s.flight.table ∧ (arriveAtOnce occasion l s).flight.output = s.flight.output ∧
    (arriveAtOnce occasion l s).flight.places = s.flight.places ∧ (arriveAtOnce occasion l s).flight.turn = s.flight.turn ∧
    (arriveAtOnce occasion l s).flight.offer = s.flight.offer ∧ (arriveAtOnce occasion l s).restart = s.restart ∧
    (arriveAtOnce occasion l s).counters = s.counters ∧ (arriveAtOnce occasion l s).snapshot = s.snapshot ∧
    (arriveAtOnce occasion l s).triggers.entries = s.triggers.entries ∧ (arriveAtOnce occasion l s).triggers.seen = s.triggers.seen ∧
    (arriveAtOnce occasion l s).triggers.outputs = s.triggers.outputs ∧ (arriveAtOnce occasion l s).triggers.held = s.triggers.held ∧
    (arriveAtOnce occasion l s).attention.mask = s.attention.mask ∧ (arriveAtOnce occasion l s).port = s.port ∧
    (arriveAtOnce occasion l s).free = s.free ∧ (arriveAtOnce occasion l s).pending = s.pending := by
  induction l generalizing s with
  | nil => exact ⟨rfl, rfl, rfl, rfl, rfl, rfl, rfl, rfl, rfl, rfl, rfl, rfl, rfl, rfl, rfl, rfl, rfl, rfl, rfl, rfl, rfl, rfl⟩
  | cons r l ih =>
    unfold arriveAtOnce
    split
    · simpa using ih s.timeoutArrives
    · exact ⟨rfl, rfl, rfl, rfl, rfl, rfl, rfl, rfl, rfl, rfl, rfl, rfl, rfl, rfl, rfl, rfl, rfl, rfl, rfl, rfl, rfl, rfl⟩

/-- What the arrival of one TIMEOUT fault keeps, the arrival of several keeps. -/
theorem arriveAtOnce_keeps {P : State → Prop} (h : ∀ s : State, P s → P s.timeoutArrives) (occasion : Nat) (l : List FaultRecord) (s : State) (hs : P s) :
    P (arriveAtOnce occasion l s) := by
  induction l generalizing s with
  | nil => exact hs
  | cons r l ih =>
    unfold arriveAtOnce
    split
    · exact ih _ (h s hs)
    · exact hs

/-- What the arrival of one TIMEOUT fault keeps, the arrivals within a slot start keep. -/
theorem State.someTimeoutsArrive_keeps {P : State → Prop} (h : ∀ s : State, P s → P s.timeoutArrives) {s : State} (hs : P s) :
    P s.someTimeoutsArrive := arriveAtOnce_keeps h _ _ s hs

/-- The TIMEOUT faults that reach the queue within a slot start change only those on their way, the fault queue, the latched causes, the monitors and the
causes raised. -/
@[simp] theorem State.someTimeoutsArrive_fields (s : State) :
    (s.someTimeoutsArrive).line = s.line ∧ (s.someTimeoutsArrive).sched = s.sched ∧ (s.someTimeoutsArrive).parts = s.parts ∧
    (s.someTimeoutsArrive).pool = s.pool ∧ (s.someTimeoutsArrive).intake = s.intake ∧ (s.someTimeoutsArrive).writes = s.writes ∧
    (s.someTimeoutsArrive).flight.table = s.flight.table ∧ (s.someTimeoutsArrive).flight.output = s.flight.output ∧
    (s.someTimeoutsArrive).flight.places = s.flight.places ∧ (s.someTimeoutsArrive).flight.turn = s.flight.turn ∧
    (s.someTimeoutsArrive).flight.offer = s.flight.offer ∧ (s.someTimeoutsArrive).restart = s.restart ∧
    (s.someTimeoutsArrive).counters = s.counters ∧ (s.someTimeoutsArrive).snapshot = s.snapshot ∧
    (s.someTimeoutsArrive).triggers.entries = s.triggers.entries ∧ (s.someTimeoutsArrive).triggers.seen = s.triggers.seen ∧
    (s.someTimeoutsArrive).triggers.outputs = s.triggers.outputs ∧ (s.someTimeoutsArrive).triggers.held = s.triggers.held ∧
    (s.someTimeoutsArrive).attention.mask = s.attention.mask ∧ (s.someTimeoutsArrive).port = s.port ∧
    (s.someTimeoutsArrive).free = s.free ∧ (s.someTimeoutsArrive).pending = s.pending :=
  arriveAtOnce_fields s.free s.flight.timeouts s

theorem DataPathFrame.someTimeoutsArrive (s : State) : DataPathFrame s s.someTimeoutsArrive :=
  State.someTimeoutsArrive_keeps (P := DataPathFrame s) (fun u h => h.trans (.timeoutArrives u)) (.refl s)

/-- With no TIMEOUT fault on its way there is none to settle. -/
theorem State.settleTimeouts_nil {s : State} (h : s.flight.timeouts = []) : s.settleTimeouts = s := by
  unfold State.settleTimeouts
  rw [h]
  rfl

/-- The first TIMEOUT fault on its way reaches the queue and its causes are taken, and then the others (R161). -/
theorem State.settleTimeouts_cons {s : State} {r : FaultRecord} {rest : List FaultRecord} (h : s.flight.timeouts = r :: rest) :
    s.settleTimeouts = s.timeoutArrives.settle.settleTimeouts := by
  have e : s.timeoutArrives.settle.flight.timeouts = rest := by
    rw [(State.settle_frame _).flight]
    simp [h]
  show s.flight.timeouts.foldl (fun t _ => t.timeoutArrives.settle) s = s.timeoutArrives.settle.flight.timeouts.foldl _ s.timeoutArrives.settle
  rw [e, h]
  rfl

/-- What the arrival of one TIMEOUT fault and the taking of its causes keep, the settling of all keeps. -/
theorem State.settleTimeouts_keeps {P : State → Prop} (h : ∀ s : State, P s → P s.timeoutArrives.settle) {s : State} (hs : P s) : P s.settleTimeouts := by
  unfold State.settleTimeouts
  generalize s.flight.timeouts = l
  induction l generalizing s with
  | nil => exact hs
  | cons r l ih => exact ih (h s hs)

/-- The settling leaves RSTN as it is. -/
theorem State.settleTimeouts_line (s : State) : s.settleTimeouts.line = s.line :=
  State.settleTimeouts_keeps (P := fun t => t.line = s.line) (fun t h => by rw [t.timeoutArrives.settle_frame.line]; simp [h]) rfl

/-- Of the completion unit the settling changes only the TIMEOUT faults on their way, of which none is left. -/
theorem State.settleTimeouts_flight (s : State) : s.settleTimeouts.flight = { s.flight with timeouts := [] } := by
  generalize hn : s.flight.timeouts = l
  induction l generalizing s with
  | nil => rw [State.settleTimeouts_nil hn, ← hn]
  | cons r l ih =>
    have arrived : s.timeoutArrives.settle.flight = { s.flight with timeouts := l } := by
      rw [(State.settle_frame _).flight]
      unfold State.timeoutArrives
      rw [hn]
      simp
    rw [State.settleTimeouts_cons hn, ih _ (by rw [arrived]), arrived]

/-! ### The round start (R15, R16, R135) -/

/-- The switch decision changes only the active table, the pending target, the latched causes and the causes raised. -/
@[simp] theorem State.examineTarget_fields (s : State) :
    (s.examineTarget).line = s.line ∧ (s.examineTarget).sched.tableA = s.sched.tableA ∧ (s.examineTarget).sched.tableB = s.sched.tableB ∧
    (s.examineTarget).sched.round = s.sched.round ∧ (s.examineTarget).sched.slot = s.sched.slot ∧
    (s.examineTarget).sched.slotCount = s.sched.slotCount ∧ (s.examineTarget).sched.remaining = s.sched.remaining ∧
    (s.examineTarget).sched.slackPointer = s.sched.slackPointer ∧ (s.examineTarget).parts = s.parts ∧ (s.examineTarget).pool = s.pool ∧
    (s.examineTarget).intake = s.intake ∧ (s.examineTarget).writes = s.writes ∧ (s.examineTarget).flight = s.flight ∧
    (s.examineTarget).restart = s.restart ∧ (s.examineTarget).counters = s.counters ∧ (s.examineTarget).snapshot = s.snapshot ∧
    (s.examineTarget).monitors = s.monitors ∧ (s.examineTarget).triggers.entries = s.triggers.entries ∧
    (s.examineTarget).triggers.seen = s.triggers.seen ∧ (s.examineTarget).triggers.outputs = s.triggers.outputs ∧
    (s.examineTarget).triggers.held = s.triggers.held ∧ (s.examineTarget).attention.queue = s.attention.queue ∧
    (s.examineTarget).attention.mask = s.attention.mask ∧ (s.examineTarget).port = s.port ∧ (s.examineTarget).free = s.free ∧
    (s.examineTarget).pending = s.pending :=
  by
  unfold State.examineTarget
  split
  · simp
  · split <;> simp

/-- The switch decision: the pending target becomes the active table, and there is no pending target (R15 step 2). -/
theorem State.examineTarget_sched (s : State) :
    s.examineTarget.sched = { s.sched with active := s.sched.pendingTarget.getD s.sched.active, pendingTarget := none } := by
  unfold State.examineTarget
  split
  · rename_i h
    have same : s.sched = { s.sched with pendingTarget := s.sched.pendingTarget } := rfl
    rw [h] at same
    rw [h]
    exact same
  · rename_i t h
    split
    · rename_i ht
      rw [h, ht]
      rfl
    · simp [h]

/-- A switch raises SWITCH TAKEN and sets SWITCH (R15, R16). -/
theorem State.examineTarget_switch (s : State) (h : s.examineTarget.sched.active ≠ s.sched.active) :
    s.examineTarget.triggers.raised = s.triggers.raised ++ [.switchTaken] ∧ s.examineTarget.attention.isPending .switch = true := by
  revert h
  unfold State.examineTarget
  split
  · intro h
    exact absurd rfl h
  · split
    · intro h
      exact absurd rfl h
    · intro _
      exact ⟨rfl, State.latch_isPending _ _⟩

/-- The causes raised before stay raised through the switch decision. -/
theorem State.examineTarget_raised (s : State) : ∃ l, s.examineTarget.triggers.raised = s.triggers.raised ++ l := by
  unfold State.examineTarget
  split
  · exact ⟨[], by simp⟩
  · split
    · exact ⟨[], by simp⟩
    · exact ⟨[.switchTaken], rfl⟩

/-- The causes raised before stay raised when values are handed out. -/
theorem State.handAll_raised (s : State) (qs : List Quantity) : ∃ l, (s.handAll qs).triggers.raised = s.triggers.raised ++ l := by
  induction qs generalizing s with
  | nil => exact ⟨[], by simp [State.handAll]⟩
  | cons q qs ih =>
    obtain ⟨l, h⟩ := ih (s.hand q)
    obtain ⟨ms, k⟩ := s.hand_raised q
    exact ⟨ms.map Cause.monitor ++ l, by rw [← List.append_assoc, ← k, ← h]; rfl⟩

/-- The schedule unit's and the counters unit's work at a round start changes only the schedule unit, the per-round counts, the monitors, the
latched causes and the causes raised. -/
@[simp] theorem State.switchRound_fields (s : State) :
    (s.switchRound).line = s.line ∧ (s.switchRound).parts = s.parts ∧ (s.switchRound).pool = s.pool ∧ (s.switchRound).intake = s.intake ∧
    (s.switchRound).writes = s.writes ∧ (s.switchRound).flight = s.flight ∧ (s.switchRound).restart = s.restart ∧
    (s.switchRound).counters.global = s.counters.global ∧ (s.switchRound).snapshot = s.snapshot ∧
    (s.switchRound).triggers.entries = s.triggers.entries ∧ (s.switchRound).triggers.seen = s.triggers.seen ∧
    (s.switchRound).triggers.outputs = s.triggers.outputs ∧ (s.switchRound).triggers.held = s.triggers.held ∧
    (s.switchRound).attention.queue = s.attention.queue ∧ (s.switchRound).attention.mask = s.attention.mask ∧
    (s.switchRound).port = s.port ∧ (s.switchRound).free = s.free ∧ (s.switchRound).pending = s.pending :=
  by simp [State.switchRound]

/-- A round start leaves the pool, the write data, the channel records, the phase, the fault queue, the configuration of triggers and the port. -/
@[simp] theorem State.roundStart_fields (s : State) :
    (s.roundStart).line = s.line ∧ (s.roundStart).pool = s.pool ∧ (s.roundStart).intake = s.intake ∧
    (s.roundStart).writes = s.writes ∧ (s.roundStart).flight.output = s.flight.output ∧ (s.roundStart).flight.turn = s.flight.turn ∧
    (s.roundStart).flight.offer = s.flight.offer ∧ (s.roundStart).restart = s.restart ∧
    (s.roundStart).counters.global = s.counters.global ∧ (s.roundStart).snapshot = s.snapshot ∧
    (s.roundStart).triggers.entries = s.triggers.entries ∧ (s.roundStart).triggers.seen = s.triggers.seen ∧
    (s.roundStart).triggers.outputs = s.triggers.outputs ∧ (s.roundStart).triggers.held = s.triggers.held ∧
    (s.roundStart).attention.queue = s.attention.queue ∧ (s.roundStart).attention.mask = s.attention.mask ∧
    (s.roundStart).port = s.port ∧ (s.roundStart).free = s.free ∧ (s.roundStart).pending = s.pending :=
  by simp [State.roundStart]

/-- The schedule unit after a round start: the switch decision, and the allowances of the table then active (R9, R15). -/
theorem State.roundStart_sched (s : State) :
    s.roundStart.sched =
      { s.sched with
        active := s.sched.pendingTarget.getD s.sched.active, pendingTarget := none
        remaining := (s.sched.table (s.sched.pendingTarget.getD s.sched.active)).allowance } := by
  simp only [State.roundStart, State.switchRound, State.expireDue_fields, State.clearRoundCounts_fields]
  unfold State.reloadAllowances
  dsimp only
  rw [State.examineTarget_sched]
  cases h : s.sched.pendingTarget.getD s.sched.active <;> simp [ScheduleUnit.activeTable, ScheduleUnit.table, h]

/-- The per-round counts after a round start (R135). -/
theorem State.roundStart_counts (s : State) (p : PartitionId) :
    s.roundStart.counters.parts[p] = { s.counters.parts[p] with lostRound := 0, retriedRound := 0 } := by
  simp only [State.roundStart, State.switchRound, State.expireDue_fields, State.clearRoundCounts, State.handAll_fields]
  rw [mapAll_get]
  simp

/-- A round start raises ROUND START, with the table active after the switch decision, and SWITCH TAKEN at a switch (R16). -/
theorem State.switchRound_raised (s : State) :
    Cause.roundStart (s.sched.pendingTarget.getD s.sched.active) ∈ s.switchRound.triggers.raised ∧
      (s.sched.pendingTarget.getD s.sched.active ≠ s.sched.active →
        Cause.switchTaken ∈ s.switchRound.triggers.raised ∧ s.switchRound.attention.isPending .switch = true) := by
  have last : ∃ l, s.switchRound.triggers.raised = (s.raiseRoundStart s.sched.activeNext).examineTarget.triggers.raised ++ l := by
    unfold State.switchRound State.clearRoundCounts
    exact State.handAll_raised _ _
  have att : s.switchRound.attention = (s.raiseRoundStart s.sched.activeNext).examineTarget.attention := by
    simp only [State.switchRound, State.clearRoundCounts_fields, State.reloadAllowances_fields]
  obtain ⟨l, hl⟩ := last
  obtain ⟨m, hm⟩ := State.examineTarget_raised (s.raiseRoundStart s.sched.activeNext)
  constructor
  · rw [hl, hm]
    simp only [State.raiseRoundStart, State.raise_raised, ScheduleUnit.activeNext]
    simp
  · intro h
    have hs : (s.raiseRoundStart s.sched.activeNext).examineTarget.sched.active ≠ (s.raiseRoundStart s.sched.activeNext).sched.active := by
      rw [State.examineTarget_sched]
      simpa using h
    obtain ⟨h1, h2⟩ := State.examineTarget_switch _ hs
    rw [hl, att, h1]
    exact ⟨by simp, h2⟩

/-! ### The state of the slot decision -/

/-- Handing the ages out changes only the monitors and the causes raised. -/
@[simp] theorem State.handAges_fields (s : State) :
    (s.handAges).line = s.line ∧ (s.handAges).sched = s.sched ∧ (s.handAges).parts = s.parts ∧ (s.handAges).pool = s.pool ∧
    (s.handAges).intake = s.intake ∧ (s.handAges).writes = s.writes ∧ (s.handAges).flight = s.flight ∧ (s.handAges).restart = s.restart ∧
    (s.handAges).counters = s.counters ∧ (s.handAges).snapshot = s.snapshot ∧ (s.handAges).triggers.entries = s.triggers.entries ∧
    (s.handAges).triggers.seen = s.triggers.seen ∧ (s.handAges).triggers.outputs = s.triggers.outputs ∧
    (s.handAges).triggers.held = s.triggers.held ∧ (s.handAges).attention = s.attention ∧ (s.handAges).port = s.port ∧
    (s.handAges).free = s.free ∧ (s.handAges).pending = s.pending :=
  by simp [State.handAges]

/-- A slot start that is no round start advances the slot index and the slot count, and hands the ages out (R5, R7, R16). -/
theorem State.startSlot_inside (s : State) (h : s.sched.lastSlot = false) :
    s.startSlot = { s with sched := { s.sched with slot := s.sched.slot + 1, slotCount := s.sched.slotCount + 1 } }.handAges := by
  simp [State.startSlot, ScheduleUnit.advance, h]

/-- A slot start that is a round start does the round start's work at slot 0 of the next round, and some of its TIMEOUT faults
reach the fault queue (R5, R6, R15, R161). -/
theorem State.startSlot_round (s : State) (h : s.sched.lastSlot = true) :
    s.startSlot =
      (State.roundStart
        { s with sched := { s.sched with slot := 0, round := s.sched.round + 1, slotCount := s.sched.slotCount + 1 } }).someTimeoutsArrive.handAges := by
  simp [State.startSlot, ScheduleUnit.advance, h]

/-! ### The act of issue (R55 to R58) -/

/-- Taking the head changes only the pool, the monitors and the causes raised. -/
@[simp] theorem State.takeHead_fields (s : State) (p : PartitionId) :
    (s.takeHead p).line = s.line ∧ (s.takeHead p).sched = s.sched ∧ (s.takeHead p).parts = s.parts ∧ (s.takeHead p).intake = s.intake ∧
    (s.takeHead p).writes = s.writes ∧ (s.takeHead p).flight = s.flight ∧ (s.takeHead p).restart = s.restart ∧
    (s.takeHead p).counters = s.counters ∧ (s.takeHead p).snapshot = s.snapshot ∧ (s.takeHead p).triggers.entries = s.triggers.entries ∧
    (s.takeHead p).triggers.seen = s.triggers.seen ∧ (s.takeHead p).triggers.outputs = s.triggers.outputs ∧
    (s.takeHead p).triggers.held = s.triggers.held ∧ (s.takeHead p).attention = s.attention ∧ (s.takeHead p).port = s.port ∧
    (s.takeHead p).free = s.free ∧ (s.takeHead p).pending = s.pending :=
  by simp [State.takeHead]

/-- Filling an in-flight entry changes only the table, the monitors and the causes raised. -/
@[simp] theorem State.fillFlight_fields (s : State) (d : DTag) (e : PoolEntry) :
    (s.fillFlight d e).line = s.line ∧ (s.fillFlight d e).sched = s.sched ∧ (s.fillFlight d e).parts = s.parts ∧
    (s.fillFlight d e).pool = s.pool ∧ (s.fillFlight d e).intake = s.intake ∧ (s.fillFlight d e).writes = s.writes ∧
    (s.fillFlight d e).flight.output = s.flight.output ∧ (s.fillFlight d e).flight.places = s.flight.places ∧
    (s.fillFlight d e).flight.turn = s.flight.turn ∧ (s.fillFlight d e).flight.offer = s.flight.offer ∧
    (s.fillFlight d e).flight.timeouts = s.flight.timeouts ∧
    (s.fillFlight d e).restart = s.restart ∧ (s.fillFlight d e).counters = s.counters ∧ (s.fillFlight d e).snapshot = s.snapshot ∧
    (s.fillFlight d e).triggers.entries = s.triggers.entries ∧ (s.fillFlight d e).triggers.seen = s.triggers.seen ∧
    (s.fillFlight d e).triggers.outputs = s.triggers.outputs ∧ (s.fillFlight d e).triggers.held = s.triggers.held ∧
    (s.fillFlight d e).attention = s.attention ∧ (s.fillFlight d e).port = s.port ∧ (s.fillFlight d e).free = s.free ∧
    (s.fillFlight d e).pending = s.pending :=
  by simp [State.fillFlight]

/-- Giving up a write’s data changes only the write-data unit, the monitors and the causes raised. -/
@[simp] theorem State.releaseData_fields (s : State) (e : PoolEntry) :
    (s.releaseData e).line = s.line ∧ (s.releaseData e).sched = s.sched ∧ (s.releaseData e).parts = s.parts ∧
    (s.releaseData e).pool = s.pool ∧ (s.releaseData e).intake = s.intake ∧ (s.releaseData e).flight = s.flight ∧
    (s.releaseData e).restart = s.restart ∧ (s.releaseData e).counters = s.counters ∧ (s.releaseData e).snapshot = s.snapshot ∧
    (s.releaseData e).triggers.entries = s.triggers.entries ∧ (s.releaseData e).triggers.seen = s.triggers.seen ∧
    (s.releaseData e).triggers.outputs = s.triggers.outputs ∧ (s.releaseData e).triggers.held = s.triggers.held ∧
    (s.releaseData e).attention = s.attention ∧ (s.releaseData e).port = s.port ∧ (s.releaseData e).free = s.free ∧
    (s.releaseData e).pending = s.pending :=
  by
  unfold State.releaseData
  split <;> simp

/-- An issue changes only the pool, the write-data unit, the table, the output register, the monitors and the causes raised. -/
@[simp] theorem State.issue_fields (s : State) (p : PartitionId) :
    (s.issue p).line = s.line ∧ (s.issue p).sched = s.sched ∧ (s.issue p).parts = s.parts ∧ (s.issue p).intake = s.intake ∧
    (s.issue p).flight.places = s.flight.places ∧ (s.issue p).flight.turn = s.flight.turn ∧ (s.issue p).flight.offer = s.flight.offer ∧
    (s.issue p).restart = s.restart ∧ (s.issue p).counters = s.counters ∧ (s.issue p).snapshot = s.snapshot ∧
    (s.issue p).triggers.entries = s.triggers.entries ∧ (s.issue p).triggers.seen = s.triggers.seen ∧
    (s.issue p).triggers.outputs = s.triggers.outputs ∧ (s.issue p).triggers.held = s.triggers.held ∧
    (s.issue p).attention = s.attention ∧ (s.issue p).port = s.port ∧ (s.issue p).free = s.free ∧ (s.issue p).pending = s.pending :=
  by
  unfold State.issue
  split <;> simp

/-! ### What the decision reads -/

theorem FlightEntry.isFree_iff (e : FlightEntry) : e.isFree = true ↔ e = .free := by cases e <;> simp [FlightEntry.isFree]

theorem State.lowestFree_none (s : State) : s.lowestFree = none ↔ ∀ d : DTag, s.flight.table[d] ≠ .free := by
  unfold State.lowestFree
  rw [List.find?_eq_none]
  constructor
  · intro h d k
    exact h d (by clear k; revert d; decide) ((FlightEntry.isFree_iff _).2 k)
  · intro h d _ k
    exact h d ((FlightEntry.isFree_iff _).1 k)

theorem State.lowestFree_some (s : State) (d : DTag) (h : s.flight.table[d] = .free)
    (lower : ∀ d' : DTag, d' < d → s.flight.table[d'] ≠ .free) : s.lowestFree = some d := by
  unfold State.lowestFree
  rw [List.find?_eq_some_iff_append]
  refine ⟨(FlightEntry.isFree_iff _).2 h, allDTags.take d.val, allDTags.drop (d.val + 1), by clear h lower; revert d; decide, ?_⟩
  intro x hx
  have hlt : x < d := by
    clear h lower
    revert d
    revert x
    decide
  rw [Bool.not_eq_true', ← Bool.not_eq_true, FlightEntry.isFree_iff]
  exact lower x hlt

/-- The path is full when no entry is FREE or the output register holds a record (R47). -/
theorem State.stalled_iff (s : State) : s.stalled = true ↔ (∀ d : DTag, s.flight.table[d] ≠ .free) ∨ s.flight.output ≠ none := by
  unfold State.stalled
  rw [Bool.or_eq_true, Option.isNone_iff_eq_none, State.lowestFree_none, Option.isSome_iff_ne_none]

theorem PoolEntry.inQueue_iff (p : PartitionId) (e : PoolEntry) : e.inQueue p = true ↔ e.state = .waiting ∧ e.partition = p := by
  unfold PoolEntry.inQueue PoolEntry.isWaiting
  cases h : e.state <;> simp

/-- The head is the first WAITING entry of the partition in the pool (R37). -/
theorem State.head_iff (s : State) (p : PartitionId) (e : PoolEntry) :
    s.head p = some e ↔ e.inQueue p = true ∧ ∃ before after, s.pool = before ++ e :: after ∧ ∀ x ∈ before, x.inQueue p = false := by
  unfold State.head
  rw [List.find?_eq_some_iff_append]
  simp

theorem State.slackWinner_none (s : State) (h : ∀ p : PartitionId, s.qualifies p = false) : s.slackWinner = none := by
  unfold State.slackWinner
  rw [List.find?_eq_none]
  intro p _
  simp [h p]

/-- The first partition from the pointer on that qualifies wins (R52). -/
theorem State.slackWinner_some (s : State) (k : Fin 8) (h : s.qualifies (s.sched.slackPointer + k) = true)
    (earlier : ∀ j : Fin 8, j < k → s.qualifies (s.sched.slackPointer + j) = false) : s.slackWinner = some (s.sched.slackPointer + k) := by
  unfold State.slackWinner searchOrder
  rw [List.find?_map]
  have found : allPartitions.find? (s.qualifies ∘ fun j => s.sched.slackPointer + j) = some k := by
    rw [List.find?_eq_some_iff_append]
    refine ⟨h, allPartitions.take k.val, allPartitions.drop (k.val + 1), by clear h earlier; revert k; decide, ?_⟩
    intro x hx
    have hlt : x < k := by
      clear h earlier
      revert k
      revert x
      decide
    simp [earlier x hlt]
  rw [found]
  rfl

/-- The act of issue, written out (R55 to R58). -/
theorem State.issue_eq (s : State) (p : PartitionId) (e : PoolEntry) (d : DTag) (he : s.head p = some e) (hd : s.lowestFree = some d) :
    s.issue p = (((s.takeHead p).fillFlight d e).releaseData e).placeRecord d e (s.dataFor e) := by
  simp [State.issue, he, hd]

end Machine
end Sys2Proof
end

