-- ==== Sys2Proof/Laws/Issue.lean ====
section
/-! SUPPORT. What the act of issue does. -/

namespace Sys2Proof
namespace Machine

/-! ### The act of issue -/

/-- The act of issue of a partition's head into the lowest-numbered FREE entry (R55 to R58). -/
theorem State.issue_issued (b : State) (p : PartitionId) (e : PoolEntry) (d : DTag) (he : b.head p = some e) (hd : b.lowestFree = some d) :
    Issued b (b.issue p) p e d := by
  rw [State.issue_eq b p e d he hd]
  obtain ⟨h1, before, after, h2, h3⟩ := (b.head_iff p e).1 he
  refine ⟨⟨before, after, h2, h3, ?_⟩, ?_, ?_, ?_, ?_, ?_, ?_⟩
  · simp only [State.placeRecord_fields, State.releaseData_fields, State.fillFlight_fields]
    show (State.handAll _ _).pool = _
    simp only [State.handAll_fields]
    rw [h2, List.eraseP_append_right _ (by intro x hx; simp [h3 x hx]), List.eraseP_cons_of_pos (by simpa using h1)]
  · simp only [State.placeRecord_fields, State.releaseData_fields]
    show (State.hand _ _).flight.table = _
    simp only [State.hand_fields, State.setFlight_table, State.deadlineFor, State.takeHead_fields]
  · simp only [State.placeRecord, State.dataFor]
    cases hk : e.kind
    · simp
    · simp only [if_true]
      cases b.findRecord e.pair <;> rfl
  · simp
  · intro hk
    simp only [State.placeRecord_fields]
    simp [State.releaseData, hk]
  · intro hk
    simp only [State.placeRecord_fields]
    simp [State.releaseData, hk]
  · simp

/-- What an event of the data path leaves, a slot start's decision leaves. -/
theorem SlotFrame.of {b u : State} (h : DataPathFrame b u) : SlotFrame b u :=
  ⟨h.line, h.snapshot, h.monitors, h.causes, h.entries, h.seen, h.outputs, h.held, h.port, h.free, h.pending⟩

theorem SlotFrame.trans {s t u : State} (h : SlotFrame s t) (k : SlotFrame t u) : SlotFrame s u where
  line := k.line.trans h.line
  snapshot := k.snapshot.trans h.snapshot
  monitors := MonitorsSame.trans h.monitors k.monitors
  causes := h.causes.trans k.causes
  entries := k.entries.trans h.entries
  seen := k.seen.trans h.seen
  outputs := k.outputs.trans h.outputs
  held := k.held.trans h.held
  port := k.port.trans h.port
  free := k.free.trans h.free
  pending := k.pending.trans h.pending

theorem DataPathFrame.takeHead (s : State) (p : PartitionId) : DataPathFrame s (s.takeHead p) := by
  refine DataPathFrame.trans ?_ (DataPathFrame.handAll { s with pool := s.pool.eraseP (PoolEntry.inQueue p) } [.queue p, .age p])
  exact ⟨rfl, rfl, rfl, rfl, rfl, fun _ => rfl, .quiet rfl fun _ h => h, rfl, rfl, rfl, rfl, rfl, rfl, rfl, rfl⟩

theorem DataPathFrame.fillFlight (s : State) (d : DTag) (e : PoolEntry) : DataPathFrame s (s.fillFlight d e) := by
  refine DataPathFrame.trans ?_ (DataPathFrame.hand _ .inFlight)
  exact ⟨rfl, rfl, rfl, rfl, rfl, fun _ => rfl, .quiet rfl fun _ h => h, rfl, rfl, rfl, rfl, rfl, rfl, rfl, rfl⟩

theorem DataPathFrame.releaseData (s : State) (e : PoolEntry) : DataPathFrame s (s.releaseData e) := by
  unfold State.releaseData
  split
  · exact .refl s
  · refine DataPathFrame.trans ?_ (DataPathFrame.hand _ .wbuf)
    exact ⟨rfl, rfl, rfl, rfl, rfl, fun _ => rfl, .quiet rfl fun _ h => h, rfl, rfl, rfl, rfl, rfl, rfl, rfl, rfl⟩

/-- An issue is an event of the data path. -/
theorem DataPathFrame.issue (s : State) (p : PartitionId) : DataPathFrame s (s.issue p) := by
  unfold State.issue
  split
  · rename_i e d _ _
    refine (DataPathFrame.takeHead s p).trans ((DataPathFrame.fillFlight _ d e).trans ((DataPathFrame.releaseData _ e).trans ?_))
    exact ⟨rfl, rfl, rfl, rfl, rfl, fun _ => rfl, .quiet rfl fun _ h => h, rfl, rfl, rfl, rfl, rfl, rfl, rfl, rfl⟩
  all_goals exact .refl s

/-- An issue emits no cause but those of the monitors of the quantities it changes (R55 to R57). -/
theorem Sends.issue (s : State) (p : PartitionId) (e : PoolEntry) (d : DTag) (he : s.head p = some e) (hd : s.lowestFree = some d) :
    Sends s (s.issue p) [] (issueMoved p e) := by
  rw [State.issue_eq s p e d he hd]
  have taken : Sends s (s.takeHead p) [] [.queue p, .age p] :=
    (Sends.handAll { s with pool := s.pool.eraseP (PoolEntry.inQueue p) } [.queue p, .age p]).same_before rfl rfl
  have filled : Sends (s.takeHead p) ((s.takeHead p).fillFlight d e) [] [.inFlight] := (Sends.hand _ .inFlight).same_before rfl rfl
  have released : ∀ b : State, Sends b (b.releaseData e) [] (if e.kind = .write then [.wbuf] else []) := by
    intro b
    unfold State.releaseData
    cases e.kind with
    | read => exact .refl b
    | write => exact (Sends.hand _ .wbuf).same_before rfl rfl
  exact ((taken.trans filled).trans (released _)).same_after rfl rfl

/-- An issue leaves the configuration and the trigger unit as they are. -/
theorem State.issue_slotFrame (b : State) (p : PartitionId) : SlotFrame b (b.issue p) := .of (.issue b p)

end Machine
end Sys2Proof
end

