-- ==== Sys2Proof/Laws/Expiry.lean ====
section
/-! SUPPORT. What the expiry of one entry does, and what the expiries of a round start do together (R102). -/

namespace Sys2Proof
namespace Machine

/-! ### What stays pending -/

/-- The latched causes and the fault queue only grow. -/
def AttentionGrows (s u : State) : Prop :=
  s.attention.latched ||| u.attention.latched = u.attention.latched ∧ s.attention.queue <+: u.attention.queue

theorem AttentionGrows.refl (s : State) : AttentionGrows s s := ⟨BitVec.or_self, List.prefix_refl _⟩

theorem AttentionGrows.trans {s t u : State} (h : AttentionGrows s t) (k : AttentionGrows t u) : AttentionGrows s u := by
  refine ⟨?_, h.2.trans k.2⟩
  rw [← k.1, ← h.1, ← BitVec.or_assoc, ← BitVec.or_assoc, BitVec.or_self, h.1]

theorem AttentionGrows.latch (s : State) (c : AttentionCause) : AttentionGrows s (s.latch c) :=
  ⟨by rw [State.latch_latched, ← BitVec.or_assoc, BitVec.or_self], List.prefix_refl _⟩

theorem AttentionGrows.closingCheck (s : State) (p : PartitionId) : AttentionGrows s (s.closingCheck p) := by
  unfold State.closingCheck
  split
  · exact AttentionGrows.latch ((s.setState p .off).raise (.partitionOff p)) .closed
  · exact .refl s

theorem AttentionGrows.storeFault (s : State) (record : FaultRecord) : AttentionGrows s (s.storeFault record) := by
  unfold State.storeFault
  dsimp only
  split
  · exact ⟨BitVec.or_self, List.prefix_append _ _⟩
  · exact AttentionGrows.latch s .overflow

theorem AttentionGrows.timeoutArrives (s : State) : AttentionGrows s s.timeoutArrives := by
  unfold State.timeoutArrives
  split
  · exact .refl s
  · rename_i record rest _
    exact AttentionGrows.storeFault { s with flight := { s.flight with timeouts := rest } } record

theorem AttentionGrows.someTimeoutsArrive (s : State) : AttentionGrows s s.someTimeoutsArrive :=
  State.someTimeoutsArrive_keeps (P := AttentionGrows s) (fun u h => h.trans (.timeoutArrives u)) (.refl s)

theorem AttentionGrows.expire (s : State) (d : DTag) : AttentionGrows s (s.expire d) := by
  unfold State.expire
  split
  · rename_i t _
    have orphaned : ∀ r, AttentionGrows s ((((s.setFlight d (.orphaned t true)).lastPlace d).sendTimeout r).hand .orphans) := fun _ => .refl s
    exact (orphaned _).trans (.closingCheck _ _)
  all_goals exact .refl s

theorem AttentionGrows.expireEach (l : List DTag) (s : State) : AttentionGrows s (l.foldl State.expire s) := by
  induction l generalizing s with
  | nil => exact .refl s
  | cons d l ih => exact (AttentionGrows.expire s d).trans (ih (s.expire d))

/-- A cause that is pending stays so while the latched causes and the queue grow (R163). -/
theorem AttentionGrows.isPending {s u : State} (h : AttentionGrows s u) (c : AttentionCause) (hc : s.attention.isPending c = true) :
    u.attention.isPending c = true := by
  have sub : s.attention.pendingSet ||| u.attention.pendingSet = u.attention.pendingSet := by
    unfold Attention.pendingSet
    rw [← h.1]
    cases hq : s.attention.queue with
    | nil =>
      ext i
      simp only [List.isEmpty_nil, if_true, BitVec.getElem_or]
      cases s.attention.latched[i] <;> simp
    | cons r l =>
      obtain ⟨m, hm⟩ := h.2
      rw [hq] at hm
      rw [← hm]
      simp only [List.cons_append, List.isEmpty_cons, Bool.false_eq_true, if_false]
      ext i
      simp only [BitVec.getElem_or]
      cases s.attention.latched[i] <;> cases u.attention.latched[i] <;> cases AttentionCause.fault.bit[i] <;> rfl
  simp only [Attention.isPending, bne_iff_ne, ne_eq] at hc ⊢
  intro k
  apply hc
  rw [← sub] at k
  apply BitVec.eq_of_getLsbD_eq
  intro i hi
  have := congrArg (fun v : BitVec 7 => v.getLsbD i) k
  simp only [BitVec.getLsbD_and, BitVec.getLsbD_or] at this ⊢
  revert this
  cases s.attention.pendingSet.getLsbD i <;> cases c.bit.getLsbD i <;> simp

/-! ### The causes of a block -/

/-- A block that emits none of the causes of an event has the same causes after it. -/
theorem Sends.silent {s u : State} {c : List Cause} {m : List Quantity} (h : Sends s u c m) (b : CauseBlock) (hb : b ≠ .countersUnit)
    (hc : (c.filter fun x => x.block == b) = []) : u.causesFrom b = s.causesFrom b := by
  rw [h.emits.blocks b hb, hc, List.append_nil]

theorem Sends.faultCauses {s u : State} {c : List Cause} {m : List Quantity} (h : Sends s u c m) :
    u.causesFrom .faultQueue = s.causesFrom .faultQueue ++ c.filter fun x => x.block == .faultQueue := h.emits.blocks _ (by decide)

/-- The causes of faults are all the fault queue's. -/
theorem Cause.filter_faults (l : List FaultRecord) :
    ((l.map fun r => Cause.fault r.kind).filter fun x => x.block == .faultQueue) = l.map fun r => .fault r.kind := by
  rw [List.filter_eq_self]
  rintro c hc
  obtain ⟨r, -, rfl⟩ := List.mem_map.1 hc
  rfl

theorem Cause.filter_faults_other (l : List FaultRecord) (b : CauseBlock) (hb : b ≠ .faultQueue) :
    ((l.map fun r => Cause.fault r.kind).filter fun x => x.block == b) = [] := by
  rw [List.filter_eq_nil_iff]
  rintro c hc
  obtain ⟨r, -, rfl⟩ := List.mem_map.1 hc
  simpa [Cause.block] using hb.symm

theorem Cause.filter_offs (l : List PartitionId) :
    ((l.map Cause.partitionOff).filter fun x => x.block == .partitionControl) = l.map .partitionOff := by
  rw [List.filter_eq_self]
  rintro c hc
  obtain ⟨r, -, rfl⟩ := List.mem_map.1 hc
  rfl

theorem Cause.filter_offs_other (l : List PartitionId) (b : CauseBlock) (hb : b ≠ .partitionControl) :
    ((l.map Cause.partitionOff).filter fun x => x.block == b) = [] := by
  rw [List.filter_eq_nil_iff]
  rintro c hc
  obtain ⟨r, -, rfl⟩ := List.mem_map.1 hc
  simpa [Cause.block] using hb.symm

/-! ### TIMEOUT faults that reach the queue (R161) -/

/-- What the arrival of the next TIMEOUT fault does, where one is on its way (R160, R161). -/
theorem State.timeoutArrives_arrived (s : State) : FaultsArrived s s.timeoutArrives (s.flight.timeouts.take 1) := by
  unfold State.timeoutArrives
  split
  · rename_i h
    rw [h]
    exact ⟨by simp, fun k => absurd rfl k, by simp⟩
  · rename_i record rest h
    rw [h]
    generalize hu : ({ s with flight := { s.flight with timeouts := rest } } : State) = u
    have ha : s.attention = u.attention := by rw [← hu]
    have ht : s.triggers = u.triggers := by rw [← hu]
    refine ⟨?_, fun _ hl => ?_, ?_⟩
    · rw [ha]
      by_cases hl : u.attention.queue.length < 16
      · have e : 16 - u.attention.queue.length = (15 - u.attention.queue.length) + 1 := by omega
        unfold State.storeFault Config.faultRecords
        dsimp only
        rw [if_pos hl, e]
        simp
      · have e : 16 - u.attention.queue.length = 0 := by omega
        unfold State.storeFault Config.faultRecords
        dsimp only
        rw [if_neg hl, e]
        simp
    · rw [ha] at hl
      have hl' : ¬u.attention.queue.length < 16 := by
        simp at hl
        omega
      unfold State.storeFault Config.faultRecords
      dsimp only
      rw [if_neg hl']
      exact State.latch_isPending u .overflow
    · rw [(Sends.storeFault u record).faultCauses]
      simp [State.causesFrom, ht, Cause.block]

/-- Several faults that reach the queue after others have reached it (R160). -/
theorem FaultsArrived.trans {s t u : State} {l m : List FaultRecord} (h : FaultsArrived s t l) (k : FaultsArrived t u m)
    (grows : AttentionGrows t u) : FaultsArrived s u (l ++ m) := by
  refine ⟨?_, fun hn hl => ?_, ?_⟩
  · rw [k.queue, h.queue, List.append_assoc, List.take_append, List.length_append, List.length_take]
    congr 2
    by_cases hl : l.length ≤ 16 - s.attention.queue.length
    · rw [Nat.min_eq_right hl]
      congr 1
      omega
    · have e1 : 16 - (s.attention.queue.length + min (16 - s.attention.queue.length) l.length) = 0 := by omega
      have e2 : 16 - s.attention.queue.length - l.length = 0 := by omega
      rw [e1, e2]
  · rw [List.length_append] at hl
    by_cases ho : l ≠ [] ∧ 16 < s.attention.queue.length + l.length
    · exact grows.isPending .overflow (h.overflow ho.1 ho.2)
    · have hm : m ≠ [] := by
        rintro rfl
        exact ho ⟨by simpa using hn, by simpa using hl⟩
      apply k.overflow hm
      rw [h.queue, List.length_append, List.length_take]
      have mpos : 0 < m.length := List.length_pos_iff.2 hm
      by_cases hl0 : l = []
      · subst hl0
        simpa using hl
      · have : ¬16 < s.attention.queue.length + l.length := fun k' => ho ⟨hl0, k'⟩
        omega
  · rw [k.causes, h.causes, List.map_append, List.append_assoc]

theorem FaultsArrived.none {s u : State} (queue : u.attention.queue = s.attention.queue)
    (causes : u.causesFrom .faultQueue = s.causesFrom .faultQueue) : FaultsArrived s u [] :=
  ⟨by rw [queue]; simp, fun h => absurd rfl h, by rw [causes]; simp⟩

/-- Within a slot start the first of the TIMEOUT faults on their way reach the queue, and the others stay on their way (R161). -/
theorem arriveAtOnce_arrived (occasion : Nat) (l : List FaultRecord) (s : State) :
    ∃ k, (arriveAtOnce occasion l s).flight.timeouts = s.flight.timeouts.drop k ∧ AttentionGrows s (arriveAtOnce occasion l s) ∧
      FaultsArrived s (arriveAtOnce occasion l s) (s.flight.timeouts.take k) ∧
      Sends s (arriveAtOnce occasion l s) ((s.flight.timeouts.take k).map fun r => .fault r.kind) (List.replicate k .faults) := by
  induction l generalizing s with
  | nil => exact ⟨0, rfl, .refl s, .none rfl rfl, .refl s⟩
  | cons r l ih =>
    unfold arriveAtOnce
    split
    · obtain ⟨k, h1, h2, h3, h4⟩ := ih s.timeoutArrives
      have e : s.flight.timeouts.take 1 ++ s.timeoutArrives.flight.timeouts.take k = s.flight.timeouts.take (k + 1) := by
        cases hl : s.flight.timeouts <;> simp [hl]
      refine ⟨k + 1, ?_, (AttentionGrows.timeoutArrives s).trans h2, ?_, ?_⟩
      · rw [h1]
        simp [List.drop_tail]
      · have k' := s.timeoutArrives_arrived.trans h3 h2
        rw [e] at k'
        exact k'
      · have k' := (Sends.timeoutArrives s).trans h4
        rw [← List.map_append, e] at k'
        refine k'.weaken ?_
        rw [List.replicate_succ]
        cases s.flight.timeouts <;> simp
    · exact ⟨0, rfl, .refl s, .none rfl rfl, .refl s⟩

theorem State.someTimeoutsArrive_arrived (s : State) :
    ∃ k, s.someTimeoutsArrive.flight.timeouts = s.flight.timeouts.drop k ∧ AttentionGrows s s.someTimeoutsArrive ∧
      FaultsArrived s s.someTimeoutsArrive (s.flight.timeouts.take k) ∧
      Sends s s.someTimeoutsArrive ((s.flight.timeouts.take k).map fun r => .fault r.kind) (List.replicate k .faults) := arriveAtOnce_arrived _ _ s

/-! ### Which entries are due -/

/-- An entry is due when it is ISSUED and its deadline round is the present round (R102). -/
theorem State.isDue_iff (s : State) (d : DTag) :
    s.flight.table[d].isDue s.sched.round = true ↔ ∃ t, s.flight.table[d] = .issued t ∧ t.deadline = some s.sched.round := by
  cases h : s.flight.table[d] <;> simp [FlightEntry.isDue]

theorem State.mem_dueEntries (s : State) (d : DTag) :
    d ∈ s.dueEntries ↔ ∃ t, s.flight.table[d] = .issued t ∧ t.deadline = some s.sched.round := by
  unfold State.dueEntries
  rw [List.mem_filter, s.isDue_iff]
  exact ⟨fun h => h.2, fun h => ⟨by clear h; revert d; decide, h⟩⟩

theorem State.dueEntries_nil (s : State)
    (h : ∀ (d : DTag) (t : Transaction), s.flight.table[d] = .issued t → t.deadline ≠ some s.sched.round) : s.dueEntries = [] := by
  rw [List.eq_nil_iff_forall_not_mem]
  intro d hd
  obtain ⟨t, h1, h2⟩ := (s.mem_dueEntries d).1 hd
  exact h d t h1 h2

/-- The due entries stand in increasing d-tag order (R102). -/
theorem State.dueEntries_sorted (s : State) : s.dueEntries.Pairwise (· < ·) :=
  List.Pairwise.sublist List.filter_sublist (by decide : allDTags.Pairwise (· < ·))

/-! ### Work that is outstanding -/

/-- Which work is outstanding depends on the pool, the records and the table alone. -/
theorem State.outstanding_congr {s u : State} (p : PartitionId) (hp : u.pool = s.pool) (hw : u.writes = s.writes)
    (ht : ∀ d : DTag, u.flight.table[d].outstandingFor p = s.flight.table[d].outstandingFor p) : u.outstanding p = s.outstanding p := by
  rw [Bool.eq_iff_iff, State.outstanding_iff, State.outstanding_iff, hp, hw]
  simp only [ht]

/-! ### One expiry -/

/-- An ISSUED entry becomes ORPHANED with its TIMEOUT owed by its expiry; any other stays (R102). -/
def FlightEntry.expired : FlightEntry → FlightEntry
  | .issued t => .orphaned t true
  | .free => .free
  | .returning t a beats => .returning t a beats
  | .orphaned t owed => .orphaned t owed

theorem State.expire_table (s : State) (d x : DTag) :
    (s.expire d).flight.table[x] = if x = d then s.flight.table[x].expired else s.flight.table[x] := by
  by_cases hx : x = d
  · subst hx
    unfold State.expire
    split <;> rename_i h <;> simp [h, FlightEntry.expired, State.setFlight]
  · unfold State.expire
    have : ¬d.val = x.val := fun h => hx (Fin.ext h.symm)
    split <;> simp [hx, this, State.setFlight]

/-- What the expiry of an ISSUED entry does (R102). -/
theorem State.expire_issued (s : State) (d : DTag) (t : Transaction) (h : s.flight.table[d] = .issued t) :
    (s.expire d).flight.places = s.flight.places ++ [d] ∧
      (s.expire d).flight.timeouts =
        s.flight.timeouts ++ [s.faultRecord .timeout (some t.partition) (some t.pair) (some t.address) (some d)] ∧
      ClosingChecked s (s.expire d) t.partition := by
  unfold State.expire
  rw [h]
  dsimp only
  generalize hb : (((s.setFlight d (.orphaned t true)).lastPlace d).sendTimeout
    (s.faultRecord .timeout (some t.partition) (some t.pair) (some t.address) (some d))).hand .orphans = b
  have b1 : b.flight.places = s.flight.places ++ [d] := by rw [← hb]; rfl
  have b2 : b.flight.timeouts = s.flight.timeouts ++ [s.faultRecord .timeout (some t.partition) (some t.pair) (some t.address) (some d)] := by
    rw [← hb]; rfl
  have b3 : b.parts = s.parts := by rw [← hb]; rfl
  refine ⟨by simp [b1], by simp [b2], ?_⟩
  have k := b.closingCheck_checked t.partition
  unfold ClosingChecked at k ⊢
  rw [b3] at k
  exact k

/-- The expiry of an ISSUED entry emits PARTITION OFF where the closing check makes its partition OFF, and nothing else: its fault is on its way (R102, R161). -/
theorem Sends.expire {s : State} {d : DTag} {t : Transaction} (h : s.flight.table[d] = .issued t) :
    Sends s (s.expire d) (closingCauses s (s.expire d) t.partition) [.orphans] := by
  unfold State.expire
  rw [h]
  dsimp only
  generalize hu : (((s.setFlight d (.orphaned t true)).lastPlace d).sendTimeout
    (s.faultRecord .timeout (some t.partition) (some t.pair) (some t.address) (some d))) = u
  have quiet : Sends s u [] [] := by
    rw [← hu]
    exact .quiet rfl rfl
  have parts : (u.hand .orphans).parts = s.parts := by
    rw [← hu]
    rfl
  have k := (quiet.trans (.hand u .orphans)).trans (.closingCheck (u.hand .orphans) t.partition)
  rwa [closingCauses_congr (u := (u.hand .orphans).closingCheck t.partition) parts rfl] at k

/-! ### Several expiries -/

theorem FlightEntry.expired_outstandingFor (p : PartitionId) (e : FlightEntry) (h : ∀ t, e = .issued t → t.partition ≠ p) :
    e.expired.outstandingFor p = e.outstandingFor p := by
  cases e with
  | issued t => simp [FlightEntry.expired, FlightEntry.outstandingFor, h t rfl]
  | _ => rfl

theorem State.expireEach_table (l : List DTag) (s : State) (x : DTag) :
    (l.foldl State.expire s).flight.table[x] = if x ∈ l then s.flight.table[x].expired else s.flight.table[x] := by
  induction l generalizing s with
  | nil => simp
  | cons d l ih =>
    rw [List.foldl_cons, ih, State.expire_table]
    by_cases hx : x = d
    · subst hx
      simp only [if_true, List.mem_cons, true_or]
      have twice : s.flight.table[x].expired.expired = s.flight.table[x].expired := by cases s.flight.table[x] <;> rfl
      split
      · exact twice
      · rfl
    · simp only [hx, if_false, List.mem_cons, false_or]

/-- The expiries of ISSUED entries, each once, in turn: places, and TIMEOUT faults on their way (R102, R161). -/
theorem State.expireEach_issued (l : List DTag) (s : State) (h : ∀ d ∈ l, ∃ t, s.flight.table[d] = .issued t) (hn : l.Nodup) :
    (l.foldl State.expire s).flight.places = s.flight.places ++ l ∧
      (l.foldl State.expire s).flight.timeouts =
        s.flight.timeouts ++ l.filterMap fun d => timeoutFault s.sched.round s.sched.slot d s.flight.table[d] := by
  induction l generalizing s with
  | nil => exact ⟨by simp, by simp⟩
  | cons d l ih =>
    obtain ⟨t, ht⟩ := h d (by simp)
    obtain ⟨a1, a2, -⟩ := s.expire_issued d t ht
    rw [List.nodup_cons] at hn
    have same : ∀ x ∈ l, (s.expire d).flight.table[x] = s.flight.table[x] := by
      intro x hx
      rw [State.expire_table, if_neg]
      rintro rfl
      exact hn.1 hx
    obtain ⟨b1, b2⟩ := ih (s.expire d) (fun x hx => by rw [same x hx]; exact h x (List.mem_cons_of_mem _ hx)) hn.2
    rw [List.foldl_cons]
    refine ⟨by rw [b1, a1]; simp, ?_⟩
    have rest : (l.filterMap fun x => timeoutFault (s.expire d).sched.round (s.expire d).sched.slot x (s.expire d).flight.table[x]) =
        l.filterMap fun x => timeoutFault s.sched.round s.sched.slot x s.flight.table[x] := by
      apply List.filterMap_congr
      intro x hx
      rw [same x hx]
      simp
    have first : timeoutFault s.sched.round s.sched.slot d s.flight.table[d] =
        some (s.faultRecord .timeout (some t.partition) (some t.pair) (some t.address) (some d)) := by rw [ht]; rfl
    rw [b2, rest, a2, List.filterMap_cons, first, List.append_assoc]
    rfl

/-- Whether the partitions of the entries that expire are OFF afterwards (R32, R102). -/
theorem State.expireEach_parts (l : List DTag) (s : State) (h : ∀ d ∈ l, ∃ t, s.flight.table[d] = .issued t) (hn : l.Nodup)
    (p : PartitionId) :
    ((∃ d ∈ l, ∃ t, s.flight.table[d] = .issued t ∧ t.partition = p) → s.parts[p].state = .closing →
      (l.foldl State.expire s).outstanding p = false →
      (l.foldl State.expire s).parts[p] = { s.parts[p] with state := .off } ∧
        (l.foldl State.expire s).attention.isPending .closed = true) ∧
      ((¬(∃ d ∈ l, ∃ t, s.flight.table[d] = .issued t ∧ t.partition = p) ∨ s.parts[p].state ≠ .closing ∨
        (l.foldl State.expire s).outstanding p = true) → (l.foldl State.expire s).parts[p] = s.parts[p]) := by
  induction l generalizing s with
  | nil => exact ⟨fun h => by simp at h, fun _ => rfl⟩
  | cons d l ih =>
    obtain ⟨t, ht⟩ := h d (by simp)
    have hc := (s.expire_issued d t ht).2.2
    rw [List.nodup_cons] at hn
    have same : ∀ x ∈ l, (s.expire d).flight.table[x] = s.flight.table[x] := by
      intro x hx
      rw [State.expire_table, if_neg]
      rintro rfl
      exact hn.1 hx
    have h' : ∀ x ∈ l, ∃ t, (s.expire d).flight.table[x] = .issued t :=
      fun x hx => by rw [same x hx]; exact h x (List.mem_cons_of_mem _ hx)
    obtain ⟨i1, i2⟩ := ih (s.expire d) h' hn.2
    have grows := AttentionGrows.expireEach l (s.expire d)
    have fields := State.expireEach_fields l (s.expire d)
    have table := State.expireEach_table l (s.expire d)
    rw [List.foldl_cons]
    generalize hu : l.foldl State.expire (s.expire d) = u at i1 i2 grows fields table
    have more : (∃ x ∈ l, ∃ t', (s.expire d).flight.table[x] = .issued t' ∧ t'.partition = p) ↔
        ∃ x ∈ l, ∃ t', s.flight.table[x] = .issued t' ∧ t'.partition = p := by
      constructor
      · rintro ⟨x, hx, k⟩
        exact ⟨x, hx, by rwa [same x hx] at k⟩
      · rintro ⟨x, hx, k⟩
        exact ⟨x, hx, by rwa [same x hx]⟩
    have split : (∃ x ∈ d :: l, ∃ t', s.flight.table[x] = .issued t' ∧ t'.partition = p) ↔
        t.partition = p ∨ ∃ x ∈ l, ∃ t', s.flight.table[x] = .issued t' ∧ t'.partition = p := by
      simp only [List.mem_cons, exists_eq_or_imp, ht]
      constructor
      · rintro (⟨t', e, k⟩ | k)
        · cases e
          exact .inl k
        · exact .inr k
      · rintro (k | k)
        · exact .inl ⟨t, rfl, k⟩
        · exact .inr k
    rw [split]
    by_cases hm : ∃ x ∈ l, ∃ t', s.flight.table[x] = .issued t' ∧ t'.partition = p
    · -- the partition still has an ISSUED entry after this expiry, so its state stays
      have out : (s.expire d).outstanding p = true := by
        obtain ⟨x, hx, t', k1, k2⟩ := hm
        rw [State.outstanding_iff]
        exact .inr (.inl ⟨x, by rw [same x hx, k1]; simp [FlightEntry.outstandingFor, k2]⟩)
      have keep : (s.expire d).parts[p] = s.parts[p] := by
        unfold ClosingChecked at hc
        by_cases hp : t.partition = p
        · subst hp
          rw [if_neg (by rw [out]; simp)] at hc
          rw [hc]
        · split at hc
          · rw [hc.1, modifyAt_get, if_neg hp]
          · rw [hc]
      rw [keep] at i1 i2
      refine ⟨fun _ => i1 (more.2 hm), fun k => i2 ?_⟩
      rcases k with k | k
      · exact absurd (.inr hm) k
      · exact .inr k
    · have e2 := i2 (.inl (fun k => hm (more.1 k)))
      have out : u.outstanding p = (s.expire d).outstanding p := by
        refine State.outstanding_congr p fields.2.2.1 fields.2.2.2.2.1 fun x => ?_
        rw [table]
        split
        · rename_i hx
          refine FlightEntry.expired_outstandingFor p _ fun t' e k => hm ⟨x, hx, t', ?_, k⟩
          rw [← same x hx]
          exact e
        · rfl
      rw [e2, out]
      unfold ClosingChecked at hc
      by_cases hp : t.partition = p
      · subst hp
        constructor
        · intro _ k1 k2
          rw [if_pos ⟨k1, k2⟩] at hc
          refine ⟨by rw [hc.1, modifyAt_get, if_pos rfl], grows.isPending .closed hc.2.2⟩
        · intro k
          rw [if_neg] at hc
          · rw [hc]
          · rintro ⟨k1, k2⟩
            rcases k with k | k | k
            · exact k (.inl rfl)
            · exact k k1
            · rw [k2] at k
              cases k
      · constructor
        · rintro (k | k)
          · exact absurd k hp
          · exact absurd k hm
        · intro _
          split at hc
          · rw [hc.1, modifyAt_get, if_neg hp]
          · rw [hc]

/-- What the expiries of ISSUED entries emit: PARTITION OFF of each partition that they make OFF, once, and nothing else (R32, R102). -/
theorem State.expireEach_sends (l : List DTag) (s : State) (h : ∀ d ∈ l, ∃ t, s.flight.table[d] = .issued t) (hn : l.Nodup) :
    ∃ offs : List PartitionId, offs.Nodup ∧
      (∀ p : PartitionId, p ∈ offs ↔ s.parts[p].state = .closing ∧ (l.foldl State.expire s).parts[p].state = .off) ∧
      Sends s (l.foldl State.expire s) (offs.map Cause.partitionOff) (List.replicate l.length .orphans) := by
  induction l generalizing s with
  | nil =>
    refine ⟨[], .nil, fun p => ⟨fun k => (by cases k), fun k => ?_⟩, .refl s⟩
    have e : s.parts[p].state = .closing ∧ s.parts[p].state = .off := k
    rw [e.1] at e
    cases e.2
  | cons d l ih =>
    obtain ⟨t, ht⟩ := h d (by simp)
    have checked := (s.expire_issued d t ht).2.2
    have sent := Sends.expire ht
    rw [List.nodup_cons] at hn
    have same : ∀ x ∈ l, (s.expire d).flight.table[x] = s.flight.table[x] := by
      intro x hx
      rw [State.expire_table, if_neg]
      rintro rfl
      exact hn.1 hx
    have h' : ∀ x ∈ l, ∃ t, (s.expire d).flight.table[x] = .issued t :=
      fun x hx => by rw [same x hx]; exact h x (List.mem_cons_of_mem _ hx)
    obtain ⟨offs, o1, o2, o3⟩ := ih (s.expire d) h' hn.2
    have stays := fun p => (State.expireEach_parts l (s.expire d) h' hn.2 p).2
    rw [List.foldl_cons]
    generalize l.foldl State.expire (s.expire d) = u at o2 o3 stays
    unfold ClosingChecked at checked
    unfold closingCauses at sent
    split at checked
    · rename_i hc
      rw [if_pos hc] at sent
      have off : (s.expire d).parts[t.partition].state = .off := by rw [checked.1, modifyAt_get, if_pos rfl]
      refine ⟨t.partition :: offs, ?_, fun p => ?_, ?_⟩
      · rw [List.nodup_cons, o2, off]
        exact ⟨fun k => (by cases k.1), o1⟩
      · rw [List.mem_cons, o2]
        by_cases hp : p = t.partition
        · subst hp
          rw [stays t.partition (.inr (.inl (by rw [off]; decide))), off]
          exact ⟨fun _ => ⟨hc.1, rfl⟩, fun _ => .inl rfl⟩
        · rw [checked.1, modifyAt_get, if_neg (fun k => hp k.symm)]
          simp [hp]
      · exact (sent.trans o3)
    · rename_i hc
      rw [if_neg hc] at sent
      refine ⟨offs, o1, fun p => by rw [o2, checked], sent.trans o3⟩

/-- The expiries of the present round's start, their TIMEOUT faults on their way (R102). -/
theorem State.expireDue_expired (s : State) :
    Expired s s.expireDue s.sched.round s.sched.slot 0 s.dueEntries ∧
      ∃ offs : List PartitionId, Sends s s.expireDue (offs.map Cause.partitionOff) (List.replicate s.dueEntries.length .orphans) := by
  have issued : ∀ d ∈ s.dueEntries, ∃ t, s.flight.table[d] = .issued t := fun d hd => by
    obtain ⟨t, h, -⟩ := (s.mem_dueEntries d).1 hd
    exact ⟨t, h⟩
  have nodup : s.dueEntries.Nodup := s.dueEntries_sorted.imp (fun h => ne_of_lt h)
  have dueFor : ∀ p : PartitionId, (∃ d : DTag, s.flight.table[d].DueFor s.sched.round p) ↔
      ∃ d ∈ s.dueEntries, ∃ t, s.flight.table[d] = .issued t ∧ t.partition = p := by
    intro p
    constructor
    · rintro ⟨d, t, h1, h2, h3⟩
      exact ⟨d, (s.mem_dueEntries d).2 ⟨t, h1, h2⟩, t, h1, h3⟩
    · rintro ⟨d, hd, t, h1, h2⟩
      obtain ⟨t', k1, k2⟩ := (s.mem_dueEntries d).1 hd
      rw [h1] at k1
      cases k1
      exact ⟨d, t, h1, k2, h2⟩
  obtain ⟨places, faults⟩ := State.expireEach_issued s.dueEntries s issued nodup
  obtain ⟨offs, o1, o2, o3⟩ := State.expireEach_sends s.dueEntries s issued nodup
  have parts := State.expireEach_parts s.dueEntries s issued nodup
  refine ⟨⟨⟨s.dueEntries_sorted, fun d => ?_⟩, fun d => ?_, places, ⟨_, rfl, faults, ?_⟩, fun p h => ?_, fun p h => ?_, offs, o1, fun p => ?_, ?_⟩,
    offs, o3⟩
  · rw [s.mem_dueEntries]
    constructor
    · rintro ⟨t, h1, h2⟩
      exact ⟨_, t, h1, h2, rfl⟩
    · rintro ⟨_, t, h1, h2, _⟩
      exact ⟨t, h1, h2⟩
  · show (s.dueEntries.foldl State.expire s).flight.table[d] = _
    rw [State.expireEach_table]
    have mem := s.mem_dueEntries d
    cases he : s.flight.table[d] with
    | issued t =>
      rw [he] at mem
      by_cases hd : t.deadline = some s.sched.round
      · rw [if_pos (mem.2 ⟨t, rfl, hd⟩)]
        simp [FlightEntry.expired, hd]
      · rw [if_neg]
        · simp [hd]
        · intro k
          obtain ⟨t', e, k'⟩ := mem.1 k
          cases e
          exact hd k'
    | _ => simp [FlightEntry.expired]
  · exact .none (by simp) (o3.silent _ (by decide) (Cause.filter_offs_other _ _ (by decide)))
  · exact (parts p).1 ((dueFor p).1 h)
  · rw [dueFor] at h
    exact (parts p).2 h
  · rw [o2 p, dueFor p]
    constructor
    · rintro ⟨c, k⟩
      by_cases hd : ∃ d ∈ s.dueEntries, ∃ t, s.flight.table[d] = .issued t ∧ t.partition = p
      · refine ⟨hd, c, ?_⟩
        cases ho : s.expireDue.outstanding p
        · rfl
        · rw [(parts p).2 (.inr (.inr ho)), c] at k
          cases k
      · rw [(parts p).2 (.inl hd), c] at k
        cases k
    · rintro ⟨hd, c, ho⟩
      exact ⟨c, by rw [((parts p).1 hd c ho).1]⟩
  · show (s.dueEntries.foldl State.expire s).causesFrom _ = _
    rw [o3.emits.blocks _ (by decide), Cause.filter_offs]

/-! ### The expiries of a slot start that is a round start -/

/-- Work on other blocks before the expiries leaves what the expiries are. -/
theorem Expired.before {s a u : State} {round : Word} {slot n : Nat} {due : List DTag} (h : Expired a u round slot n due)
    (flight : a.flight = s.flight) (queue : a.attention.queue = s.attention.queue) (faults : a.causesFrom .faultQueue = s.causesFrom .faultQueue)
    (offs : a.causesFrom .partitionControl = s.causesFrom .partitionControl) (parts : a.parts = s.parts) : Expired s u round slot n due := by
  obtain ⟨h1, h2, h3, ⟨fs, h4, h5, h6⟩, h7, h8, h9⟩ := h
  rw [flight] at h1 h2 h3 h4 h7 h8 h9
  rw [parts] at h7 h8 h9
  rw [offs] at h9
  exact ⟨h1, h2, h3, ⟨fs, h4, h5, by rw [← queue]; exact h6.queue, by rw [← queue]; exact h6.overflow, by rw [← faults]; exact h6.causes⟩, h7, h8, h9⟩

/-- After the expiries, `n` of the faults on their way reach the queue, and other work leaves what the expiries are (R161). -/
theorem Expired.after {s b u : State} {round : Word} {slot n : Nat} {due : List DTag} (h : Expired s b round slot 0 due)
    (table : u.flight.table = b.flight.table) (places : u.flight.places = b.flight.places) (timeouts : u.flight.timeouts = b.flight.timeouts.drop n)
    (arrived : FaultsArrived b u (b.flight.timeouts.take n)) (grows : AttentionGrows b u)
    (offs : u.causesFrom .partitionControl = b.causesFrom .partitionControl) (parts : u.parts = b.parts) (pool : u.pool = b.pool)
    (writes : u.writes = b.writes) : Expired s u round slot n due := by
  have outstanding : ∀ p, u.outstanding p = b.outstanding p := fun p => State.outstanding_congr p pool writes fun d => by rw [table]
  obtain ⟨h1, h2, h3, ⟨fs, h4, h5, h6⟩, h7, h8, h9⟩ := h
  rw [List.drop_zero] at h5
  have h6' := h6.trans arrived grows
  rw [List.take_zero, List.nil_append] at h6'
  rw [h5] at timeouts h6'
  simp only [← outstanding] at h7 h8 h9
  rw [← parts] at h7 h8
  rw [← offs] at h9
  exact ⟨h1, fun d => by rw [table]; exact h2 d, places.trans h3, ⟨fs, h4, timeouts, h6'⟩, fun p k c o => ⟨(h7 p k c o).1, grows.isPending .closed (h7 p k c o).2⟩,
    h8, h9⟩

/-- The expiries of the present round's start, and the next TIMEOUT fault at the queue (R102, R161). -/
theorem State.expireDue_arrives_expired (s : State) :
    Expired s s.expireDue.timeoutArrives s.sched.round s.sched.slot 1 s.dueEntries ∧
      MonitorsHanded s s.expireDue.timeoutArrives (List.replicate s.dueEntries.length .orphans ++ [.faults]) ∧
      ∀ b : CauseBlock, b ≠ .countersUnit → b ≠ .faultQueue → b ≠ .partitionControl → s.expireDue.timeoutArrives.causesFrom b = s.causesFrom b := by
  obtain ⟨ex, offs, sent⟩ := s.expireDue_expired
  have arrive := Sends.timeoutArrives s.expireDue
  have all := (sent.trans arrive).weaken (m := List.replicate s.dueEntries.length .orphans ++ [.faults])
    (List.Sublist.append (.refl _) (by cases s.expireDue.flight.timeouts <;> simp))
  refine ⟨ex.after (by simp) (by simp) (by simp) s.expireDue.timeoutArrives_arrived (.timeoutArrives _) ?_ (by simp) (by simp) (by simp), all.emits.monitors, ?_⟩
  · exact arrive.silent _ (by decide) (Cause.filter_faults_other _ _ (by decide))
  · intro b h1 h2 h3
    refine all.silent b h1 ?_
    rw [List.filter_append, Cause.filter_offs_other _ _ h3, Cause.filter_faults_other _ _ h2]
    rfl

/-- The switch decision emits SWITCH TAKEN where it makes a switch (R15, R16). -/
theorem Sends.examineTarget (s : State) :
    Sends s s.examineTarget (if s.sched.activeNext ≠ s.sched.active then [.switchTaken] else []) [] := by
  unfold State.examineTarget ScheduleUnit.activeNext
  split
  · rename_i h
    rw [h, if_neg (by simp)]
    exact .refl s
  · rename_i t h
    rw [h]
    by_cases ht : t = s.sched.active
    · rw [if_pos ht, if_neg (by simpa using ht)]
      exact .quiet rfl rfl
    · rw [if_neg ht, if_pos (by simpa using ht)]
      exact ((Sends.quiet (s := s) (u := { s with sched := { s.sched with active := t, pendingTarget := none } }) rfl rfl).trans
        (.raise _ .switchTaken (by decide))).trans (.latch _ .switch)

/-- What the schedule unit and the counters unit emit at a round start: ROUND START, then SWITCH TAKEN at a switch, and the per-round counts handed out (R16, R135, R148). -/
theorem Sends.switchRound (s : State) :
    Sends s s.switchRound (.roundStart s.sched.activeNext :: if s.sched.activeNext ≠ s.sched.active then [.switchTaken] else []) roundCounts := by
  have raised := Sends.raise s (.roundStart s.sched.activeNext) (by simp [Cause.block])
  have examined := Sends.examineTarget (s.raise (.roundStart s.sched.activeNext))
  have loaded := Sends.quiet (s := (s.raise (.roundStart s.sched.activeNext)).examineTarget)
    (u := (s.raise (.roundStart s.sched.activeNext)).examineTarget.reloadAllowances) rfl rfl
  have k := (raised.trans examined).trans loaded
  unfold State.switchRound State.clearRoundCounts State.raiseRoundStart
  generalize (s.raise (.roundStart s.sched.activeNext)).examineTarget.reloadAllowances = u at k
  have cleared := k.trans (.quiet (u := { u with
    counters := { u.counters with parts := mapAll (fun c => { c with lostRound := 0, retriedRound := 0 }) u.counters.parts } }) rfl rfl)
  have handed := cleared.trans (.handAll _ (allPartitions.flatMap fun p => [.lostRound p, .retryRound p]))
  rw [List.append_nil, List.append_nil, List.append_nil] at handed
  exact handed

/-- A round start makes the expiries of the round it begins, and some of the TIMEOUT faults reach the queue with it (R102, R161); what it emits (R16, R148). -/
theorem State.startSlot_expired (s : State) (h : s.sched.lastSlot = true) :
    ∃ (n : Nat) (due : List DTag), Expired s s.startSlot (s.sched.round + 1) 0 n due ∧
      MonitorsHanded s s.startSlot (roundCounts ++ List.replicate due.length .orphans ++ List.replicate n .faults ++ s.agesHanded) ∧
      s.startSlot.causesFrom .scheduleUnit =
        s.causesFrom .scheduleUnit ++ .roundStart s.sched.activeNext :: (if s.sched.activeNext ≠ s.sched.active then [.switchTaken] else []) ∧
      s.startSlot.causesFrom .triggerUnit = s.causesFrom .triggerUnit ∧ s.startSlot.causesFrom .restartControl = s.causesFrom .restartControl := by
  rw [State.startSlot_round s h]
  unfold State.roundStart
  generalize ha : ({ s with sched := { s.sched with slot := 0, round := s.sched.round + 1, slotCount := s.sched.slotCount + 1 } } : State) = a
  have clock : a.switchRound.sched.round = s.sched.round + 1 ∧ a.switchRound.sched.slot = 0 := by
    have hr := a.roundStart_sched
    simp only [State.roundStart, State.expireDue_fields] at hr
    rw [hr, ← ha]
    exact ⟨rfl, rfl⟩
  have next : a.sched.activeNext = s.sched.activeNext ∧ a.sched.active = s.sched.active := by
    rw [← ha]
    exact ⟨rfl, rfl⟩
  have same : Sends s a [] [] := by
    rw [← ha]
    exact .quiet rfl rfl
  have switched := Sends.switchRound a
  obtain ⟨ex, offs, expired⟩ := a.switchRound.expireDue_expired
  rw [clock.1, clock.2] at ex
  have sched : ∀ b, b = .faultQueue ∨ b = .partitionControl → a.switchRound.causesFrom b = s.causesFrom b := by
    intro b hb
    refine (same.trans switched).silent b (by rcases hb with rfl | rfl <;> decide) ?_
    rcases hb with rfl | rfl <;> split <;> rfl
  have started : Expired s a.switchRound.expireDue (s.sched.round + 1) 0 0 a.switchRound.dueEntries := by
    refine ex.before ?_ ?_ (sched _ (.inl rfl)) (sched _ (.inr rfl)) ?_
    · simp [← ha]
    · simp [← ha]
    · simp [← ha]
  obtain ⟨n, h1, h2, h3, h4⟩ := a.switchRound.expireDue.someTimeoutsArrive_arrived
  have ages : a.switchRound.expireDue.someTimeoutsArrive.agesHanded = s.agesHanded := by
    unfold State.agesHanded State.head
    simp [← ha]
  generalize a.switchRound.dueEntries = due at started expired
  have through := (same.trans switched).trans expired
  generalize a.switchRound.expireDue = b at started h1 h2 h3 h4 ages through
  have aging : Sends b.someTimeoutsArrive b.someTimeoutsArrive.handAges [] s.agesHanded := by
    rw [← ages]
    exact .handAll _ _
  have all := (through.trans h4).trans aging
  rw [next.1, next.2] at all
  have aged : FaultsArrived b.someTimeoutsArrive b.someTimeoutsArrive.handAges [] := .none (by simp) (aging.silent _ (by decide) rfl)
  have grown : AttentionGrows b.someTimeoutsArrive b.someTimeoutsArrive.handAges := by
    unfold AttentionGrows
    rw [(State.handAges_fields _).2.2.2.2.2.2.2.2.2.2.2.2.2.2.1]
    exact AttentionGrows.refl b.someTimeoutsArrive
  refine ⟨n, due, started.after (by simp) (by simp) (by simpa using h1) ?_ (h2.trans grown) ?_ (by simp) (by simp) (by simp), all.emits.monitors, ?_, ?_, ?_⟩
  · have k := h3.trans aged grown
    rw [List.append_nil] at k
    exact k
  · refine (h4.trans aging).silent _ (by decide) ?_
    rw [List.append_nil, Cause.filter_faults_other _ _ (by decide)]
  · rw [all.emits.blocks _ (by decide)]
    simp only [List.filter_append, Cause.filter_faults_other _ _ (by decide : CauseBlock.scheduleUnit ≠ .faultQueue),
      Cause.filter_offs_other _ _ (by decide : CauseBlock.scheduleUnit ≠ .partitionControl)]
    congr 1
    split <;> rfl
  · refine all.silent _ (by decide) ?_
    simp only [List.filter_append, Cause.filter_faults_other _ _ (by decide : CauseBlock.triggerUnit ≠ .faultQueue),
      Cause.filter_offs_other _ _ (by decide : CauseBlock.triggerUnit ≠ .partitionControl)]
    split <;> rfl
  · refine all.silent _ (by decide) ?_
    simp only [List.filter_append, Cause.filter_faults_other _ _ (by decide : CauseBlock.restartControl ≠ .faultQueue),
      Cause.filter_offs_other _ _ (by decide : CauseBlock.restartControl ≠ .partitionControl)]
    split <;> rfl

/-- A slot start that is no round start hands the ages out, and emits nothing else (R16, R41). -/
theorem State.startSlot_inside_emits (s : State) (h : s.sched.lastSlot = false) : Emits s s.startSlot [] s.agesHanded := by
  rw [State.startSlot_inside s h]
  exact ((Sends.quiet (s := s) (u := { s with sched := { s.sched with slot := s.sched.slot + 1, slotCount := s.sched.slotCount + 1 } }) rfl rfl).trans
    (.handAll _ s.agesHanded)).emits

/-- The causes of a round start and its pending SWITCH are there at the slot decision (R16). -/
theorem State.roundStart_raised (s : State) :
    Cause.roundStart (s.sched.pendingTarget.getD s.sched.active) ∈ s.roundStart.triggers.raised ∧
      (s.sched.pendingTarget.getD s.sched.active ≠ s.sched.active →
        Cause.switchTaken ∈ s.roundStart.triggers.raised ∧ s.roundStart.attention.isPending .switch = true) := by
  obtain ⟨h, k⟩ := s.switchRound_raised
  have emitted := (DataPathFrame.expireDue s.switchRound).causes.1
  refine ⟨emitted _ h, fun hs => ⟨emitted _ (k hs).1, ?_⟩⟩
  exact (AttentionGrows.expireEach _ _).isPending _ (k hs).2

/-! ### The frame of a slot start's own work -/

theorem SlotFrame.setSched (s : State) (u : ScheduleUnit) : SlotFrame s { s with sched := u } :=
  ⟨rfl, rfl, fun _ => rfl, .quiet rfl fun _ h => h, rfl, rfl, rfl, rfl, rfl, rfl, rfl⟩

theorem SlotFrame.setCounters (s : State) (c : Counters) : SlotFrame s { s with counters := c } :=
  ⟨rfl, rfl, fun _ => rfl, .quiet rfl fun _ h => h, rfl, rfl, rfl, rfl, rfl, rfl, rfl⟩

theorem SlotFrame.examineTarget (s : State) : SlotFrame s s.examineTarget := by
  unfold State.examineTarget
  split
  · exact .of (.refl s)
  · split
    · exact .setSched s _
    · exact ((SlotFrame.setSched s _).trans (.of (.raise _ _))).trans (.of (.latch _ _))

theorem SlotFrame.switchRound (s : State) : SlotFrame s s.switchRound := by
  unfold State.switchRound
  refine SlotFrame.trans ?_ ((SlotFrame.setCounters _ _).trans (.of (.handAll _ _)))
  refine SlotFrame.trans ?_ (SlotFrame.setSched _ _)
  exact (SlotFrame.of (DataPathFrame.raise s (.roundStart s.sched.activeNext))).trans (.examineTarget _)

/-- A slot start's own work leaves the configuration and the trigger unit as they are, and loses no cause. -/
theorem SlotFrame.startSlot (s : State) : SlotFrame s s.startSlot := by
  unfold State.startSlot
  dsimp only
  split
  · exact ((((SlotFrame.setSched s _).trans (.switchRound _)).trans (.of (.expireDue _))).trans (.of (.someTimeoutsArrive _))).trans (.of (.handAll _ _))
  · exact (SlotFrame.setSched s _).trans (.of (.handAll _ _))

end Machine
end Sys2Proof
end

