-- ==== Sys2Proof/Laws/Triggers.lean ====
section
/-! SUPPORT. What the taking of causes does to the trigger unit itself, and what monitors make of the values handed to them. -/

namespace Sys2Proof
namespace Machine

/-- A byte in range names the number it holds. -/
theorem byteIndex_of_toNat {n : Nat} [NeZero n] (b : Byte) (i : Fin n) (h : b.toNat = i.val) : byteIndex n b = i := by
  apply Fin.ext
  simp [byteIndex, h]

/-! ### Taking causes -/

/-- With no cause raised there is nothing to settle. -/
theorem State.settle_of_taken {s : State} (h : s.CausesTaken) : s.settle = s := if_pos h

theorem State.fireEntry_raised (s : State) (i : Fin 8) : (s.fireEntry i).triggers.raised = [] := rfl

/-- Taking a cause leaves none raised. -/
theorem State.takeCause_raised (s : State) (c : Cause) (h : s.triggers.raised = []) : (s.takeCause c).triggers.raised = [] := by
  unfold State.takeCause
  generalize s.firing c = is
  induction is generalizing s with
  | nil => exact h
  | cons i is ih => exact ih (s.fireEntry i) (s.fireEntry_raised i)

/-- After settling no cause is left (R148). -/
theorem State.settle_taken (s : State) : s.settle.CausesTaken := by
  unfold State.CausesTaken State.settle
  split
  · assumption
  · generalize takenOrder s.free (orderRaised s.triggers.raised) = cs
    have none : ({ s with triggers := { s.triggers with raised := [] }, free := s.free + 1 } : State).triggers.raised = [] := rfl
    generalize ({ s with triggers := { s.triggers with raised := [] }, free := s.free + 1 } : State) = u at none
    induction cs generalizing u with
    | nil => exact none
    | cons c cs ih => exact ih (u.takeCause c) (u.takeCause_raised c none)

theorem placeCause_mem {n p : Nat} {c x : Cause} {ds : List Cause} (h : x ∈ placeCause n p c ds) : x = c ∨ x ∈ ds := by
  induction ds with
  | nil => simpa [placeCause] using h
  | cons d ds ih =>
    unfold placeCause at h
    split at h
    · simpa using h
    · split at h
      · rcases List.mem_cons.1 h with h | h
        · simp [h]
        · rcases ih h with h | h <;> simp [h]
      · simpa using h

/-- The order in which causes are taken holds none that was not raised. -/
theorem takenOrder_mem {n : Nat} {l : List Cause} {x : Cause} (h : x ∈ takenOrder n l) : x ∈ l := by
  induction l with
  | nil => exact h
  | cons a l ih =>
    rcases placeCause_mem h with h | h
    · simp [h]
    · simp [ih h]

/-- Causes of one block keep their own order (R148). -/
theorem placeCause_filter (n p : Nat) (b : CauseBlock) (c : Cause) (ds : List Cause) :
    (placeCause n p c ds).filter (fun x => x.block == b) = (c :: ds).filter (fun x => x.block == b) := by
  induction ds with
  | nil => rfl
  | cons d ds ih =>
    unfold placeCause
    split
    · rfl
    · rename_i h
      split
      · rw [List.filter_cons, ih]
        simp only [List.filter_cons, beq_iff_eq]
        by_cases h1 : d.block = b
        · have : ¬c.block = b := fun k => h (h1.trans k.symm)
          simp [h1, this]
        · simp [h1]
      · rfl

theorem takenOrder_filter (n : Nat) (b : CauseBlock) (l : List Cause) :
    (takenOrder n l).filter (fun x => x.block == b) = l.filter (fun x => x.block == b) := by
  induction l with
  | nil => rfl
  | cons c cs ih => rw [takenOrder, placeCause_filter, List.filter_cons, List.filter_cons, ih]

/-- Putting the MONITOR causes last, in increasing number, keeps the causes of every other block in their own order (R148). -/
theorem orderRaised_filter (b : CauseBlock) (hb : b ≠ .countersUnit) (l : List Cause) :
    (orderRaised l).filter (fun x => x.block == b) = l.filter (fun x => x.block == b) := by
  unfold orderRaised
  have none : ((allMonitors.flatMap fun m => l.filter fun c => c == .monitor m).filter fun x => x.block == b) = [] := by
    rw [List.filter_eq_nil_iff]
    intro c hc
    obtain ⟨m, _, h⟩ := List.mem_flatMap.1 hc
    have : c = .monitor m := by simpa using (List.mem_filter.1 h).2
    subst this
    simpa [Cause.block] using hb.symm
  rw [List.filter_append, none, List.append_nil, List.filter_filter]
  refine List.filter_congr fun c _ => ?_
  cases c with
  | monitor m => simpa [Cause.block, Cause.causeCode] using hb.symm
  | _ => simp [Cause.causeCode]

/-- The MONITOR causes stand in increasing number (R142). -/
theorem orderRaised_monitors (l : List Cause) :
    ((orderRaised l).filter fun x => x.block == .countersUnit).Pairwise fun x y => ∀ i j : Fin 4, x = .monitor i → y = .monitor j → i ≤ j := by
  unfold orderRaised
  have none : ((l.filter fun c => c.causeCode != .monitor).filter fun x => x.block == .countersUnit) = [] := by
    rw [List.filter_filter, List.filter_eq_nil_iff]
    intro c _
    cases c <;> simp [Cause.block, Cause.causeCode]
  rw [List.filter_append, none, List.nil_append]
  refine List.Pairwise.sublist List.filter_sublist (List.pairwise_flatMap.2 ⟨?_, ?_⟩)
  · intro m _
    refine List.pairwise_of_forall_mem_list fun a ha b hb i j hx hy => ?_
    simp only [List.mem_filter, beq_iff_eq] at ha hb
    rw [ha.2] at hx
    rw [hb.2] at hy
    cases hx
    cases hy
    exact le_refl _
  · have sorted : allMonitors.Pairwise (· ≤ ·) := by decide
    refine sorted.imp fun {a b} hab x hx y hy i j hi hj => ?_
    simp only [List.mem_filter, beq_iff_eq] at hx hy
    rw [hx.2] at hi
    rw [hy.2] at hj
    cases hi
    cases hj
    exact hab

theorem orderRaised_mem {l : List Cause} {x : Cause} (h : x ∈ orderRaised l) : x ∈ l := by
  unfold orderRaised at h
  rcases List.mem_append.1 h with h | h
  · exact (List.mem_filter.1 h).1
  · obtain ⟨m, _, h⟩ := List.mem_flatMap.1 h
    exact (List.mem_filter.1 h).1

/-! ### Entries -/

/-- What ARM makes of an entry (R153). -/
theorem Trigger.arm_eq (t : Trigger) : t.arm = if t.enabled = true then { t with armed := true } else t := by
  cases t with
  | mk enabled _ _ _ _ _ _ _ => cases enabled <;> simp [Trigger.arm]

/-- An action changes nothing of an entry but whether it is armed; only ARM can arm it, and only if it is enabled (R150, R153). -/
theorem State.applyAction_entry (s : State) (a : ActionCode) (b : Byte) (i : Fin 8) :
    ∃ x, (s.applyAction a b).triggers.entries[i] = { s.triggers.entries[i] with armed := x } ∧
      (a ≠ .arm → s.triggers.entries[i].armed = false → x = false) ∧
      (x = true → s.triggers.entries[i].armed = true ∨ s.triggers.entries[i].enabled = true) := by
  cases a
  case arm =>
    simp only [State.applyAction, State.setTrigger_entries, modifyAt_get]
    split
    · exact ⟨_, rfl, by simp, fun k => by simpa using k⟩
    · exact ⟨_, rfl, by simp, .inl⟩
  case disarm =>
    simp only [State.applyAction, State.setTrigger_entries, modifyAt_get]
    split
    · exact ⟨_, rfl, by simp, by simp⟩
    · exact ⟨_, rfl, by simp, .inl⟩
  all_goals
    refine ⟨s.triggers.entries[i].armed, ?_, fun _ h => h, .inl⟩
    simp [State.applyAction, State.setAction, State.driveOutput, State.pulseOutput]

/-- What the firing of entry `j` makes of entry `i` (R149). -/
theorem State.fireEntry_entry (s : State) (j i : Fin 8) :
    ∃ x,
      (s.fireEntry j).triggers.entries[i] =
          { s.triggers.entries[i] with armed := x, fireCount := s.triggers.entries[i].fireCount + if i = j then 1 else 0 } ∧
        (s.triggers.entries[j].action ≠ .arm →
          s.triggers.entries[i].armed = false ∨ (i = j ∧ s.triggers.entries[i].mode = .single) → x = false) ∧
        (x = true → s.triggers.entries[i].armed = true ∨ s.triggers.entries[i].enabled = true) := by
  unfold State.fireEntry
  obtain ⟨x, same, keeps, arms⟩ :=
    (s.setTrigger j Trigger.fire).applyAction_entry s.triggers.entries[j].action s.triggers.entries[j].actionArgument i
  refine ⟨x, ?_, ?_, ?_⟩
  · simp only [State.holdRaised_fields]
    rw [same]
    simp only [State.setTrigger_entries, modifyAt_get]
    by_cases h : i = j
    · subst h
      simp [Trigger.fire]
    · have h' : ¬j = i := fun k => h k.symm
      simp [h, h']
  · intro ha hb
    apply keeps ha
    simp only [State.setTrigger_entries, modifyAt_get]
    by_cases h : i = j
    · subst h
      simp only [if_true, Trigger.fire]
      rcases hb with hb | ⟨_, hb⟩
      · rw [hb]
        split <;> rfl
      · rw [hb]
    · have h' : ¬j = i := fun k => h k.symm
      rcases hb with hb | ⟨hb, _⟩
      · simpa [h'] using hb
      · exact absurd hb h
  · intro hx
    have := arms hx
    simp only [State.setTrigger_entries, modifyAt_get] at this
    by_cases h : j = i
    · subst h
      simp only [if_true, Trigger.fire] at this
      rcases this with this | this
      · left
        revert this
        cases s.triggers.entries[j].mode <;> simp
      · exact .inr this
    · rwa [if_neg h] at this

/-! ### Monitors -/

/-- What handing a value out makes of a monitor (R142). -/
theorem State.hand_monitor (s : State) (q : Quantity) (i : Fin 4) :
    (s.hand q).monitors[i] = Monitor.evaluate q (s.quantity q) s.monitors[i] := mapAll_get _ _ _

/-- An enabled monitor whose quantity is among those handed out takes the result of its value (R142). -/
theorem State.handAll_last (qs : List Quantity) (s : State) (i : Fin 4) (v : Nat) (enabled : s.monitors[i].enabled = true)
    (watched : s.monitors[i].quantity ∈ qs) (value : ∀ t : State, t.counters = s.counters → t.quantity s.monitors[i].quantity = v) :
    (s.handAll qs).monitors[i].last = s.monitors[i].result v := by
  have key : ∀ (qs : List Quantity) (t : State), t.counters = s.counters →
      (∃ x, t.monitors[i] = { s.monitors[i] with last := x } ∧ (s.monitors[i].quantity ∈ qs ∨ x = s.monitors[i].result v)) →
      (t.handAll qs).monitors[i].last = s.monitors[i].result v := by
    intro qs
    induction qs with
    | nil =>
      rintro t _ ⟨x, h1, h2⟩
      show t.monitors[i].last = _
      rw [h1]
      simpa using h2
    | cons q qs ih =>
      rintro t hc ⟨x, h1, h2⟩
      show ((t.hand q).handAll qs).monitors[i].last = _
      apply ih
      · exact hc
      · rw [t.hand_monitor, h1]
        unfold Monitor.evaluate
        by_cases hh : Monitor.hears q { s.monitors[i] with last := x } = true
        · rw [if_pos hh]
          have hq : s.monitors[i].quantity = q := by
            unfold Monitor.hears at hh
            rw [Bool.and_eq_true, beq_iff_eq] at hh
            exact hh.2
          refine ⟨_, rfl, .inr ?_⟩
          rw [← hq, value t hc]
          rfl
        · rw [if_neg hh]
          refine ⟨x, rfl, ?_⟩
          rcases h2 with h2 | h2
          · rcases List.mem_cons.1 h2 with h2 | h2
            · refine absurd ?_ hh
              unfold Monitor.hears
              rw [Bool.and_eq_true, beq_iff_eq]
              exact ⟨enabled, h2⟩
            · exact .inl h2
          · exact .inr h2
  exact key qs s rfl ⟨_, rfl, .inl watched⟩

/-! ### No cause is lost -/

theorem placeCause_perm (occasion position : Nat) (c : Cause) (l : List Cause) : (placeCause occasion position c l).Perm (c :: l) := by
  induction l with
  | nil => exact .refl _
  | cons d ds ih =>
    unfold placeCause
    split
    · exact .refl _
    · split
      · exact (ih.cons d).trans (.swap c d ds)
      · exact .refl _

/-- The causes of one event are all taken, in some order (R148). -/
theorem takenOrder_perm (occasion : Nat) (l : List Cause) : (takenOrder occasion l).Perm l := by
  induction l with
  | nil => exact .refl _
  | cons c cs ih => exact (placeCause_perm _ _ _ _).trans (ih.cons c)

/-- Putting the MONITOR causes in increasing number loses none (R142). -/
theorem orderRaised_perm (l : List Cause) : (orderRaised l).Perm l := by
  unfold orderRaised
  have h : ∀ l : List Cause, (allMonitors.flatMap fun m => l.filter fun c => c == .monitor m).Perm (l.filter fun c => !(c.causeCode != .monitor)) := by
    intro l
    rw [List.perm_iff_count]
    intro a
    induction l with
    | nil => simp [allMonitors]
    | cons b l ih =>
      simp only [allMonitors, List.flatMap_cons, List.flatMap_nil, List.append_nil, List.count_append, List.filter_cons] at ih ⊢
      cases b with
      | monitor m =>
        have hm : m = 0 ∨ m = 1 ∨ m = 2 ∨ m = 3 := by revert m; decide
        rcases hm with rfl | rfl | rfl | rfl <;> simp [Cause.causeCode, List.count_cons] at ih ⊢ <;> omega
      | _ => simpa [Cause.causeCode] using ih
  exact ((List.Perm.append_left _ (h l)).trans (List.filter_append_perm _ _))

end Machine
end Sys2Proof
end

