-- ==== Sys2Proof/Laws/Monitors.lean ====
section
/-! SUPPORT. Which operations hand which quantity to the monitors: the last results stay current through each of them. -/

namespace Sys2Proof
namespace Machine

/-! ### Stale quantities -/

/-- Every enabled monitor whose object is not AGE has a current last result, but for those that watch a quantity among `qs`. -/
def State.CurrentBut (s : State) (qs : List Quantity) : Prop :=
  ∀ i : Fin 4, s.monitors[i].enabled = true → s.monitors[i].object ≠ .age → s.monitors[i].quantity ∉ qs →
    s.monitors[i].last = s.monitors[i].result (s.quantity s.monitors[i].quantity)

theorem State.currentBut_nil (s : State) : s.CurrentBut [] ↔ s.MonitorsCurrent := by
  simp [State.CurrentBut, State.MonitorsCurrent]

/-- The quantity is a partition's head age. -/
def Quantity.isAge : Quantity → Bool
  | .age _ => true
  | .queue _ => false
  | .lostRound _ => false
  | .retryRound _ => false
  | .inFlight => false
  | .orphans => false
  | .wbuf => false
  | .faults => false

theorem Monitor.quantity_notAge (m : Monitor) (h : m.object ≠ .age) : m.quantity.isAge = false := by
  unfold Monitor.quantity
  revert h
  cases m.object <;> simp [Quantity.isAge]

/-- An update that leaves the monitors and every quantity but those in `qs` (R141). -/
structure Leaves (s u : State) (qs : List Quantity) : Prop where
  monitors : u.monitors = s.monitors
  quantity : ∀ x : Quantity, x.isAge = false → x ∉ qs → u.quantity x = s.quantity x

/-- An update that leaves every field that a quantity is read from leaves every quantity. -/
theorem Leaves.of {s u : State} (m : u.monitors = s.monitors) (pool : u.pool = s.pool) (c : u.counters = s.counters)
    (t : u.flight.table = s.flight.table) (w : u.writes.reserved = s.writes.reserved) (q : u.attention.queue = s.attention.queue) :
    Leaves s u [] := by
  refine ⟨m, fun x hx _ => ?_⟩
  cases x <;>
    simp [State.quantity, State.heldCount, State.occupancy, State.orphanCount, Quantity.isAge, pool, c, t, w, q] at hx ⊢

theorem State.MonitorsCurrent.leaves {s u : State} {qs : List Quantity} (h : s.MonitorsCurrent) (k : Leaves s u qs) : u.CurrentBut qs := by
  intro i hi ho hq
  rw [k.monitors] at hi ho hq ⊢
  rw [k.quantity _ (Monitor.quantity_notAge _ ho) hq]
  exact h i hi ho

theorem State.MonitorsCurrent.same {s u : State} (h : s.MonitorsCurrent) (k : Leaves s u []) : u.MonitorsCurrent :=
  (u.currentBut_nil).1 (h.leaves k)

/-- Handing values out changes no quantity. -/
theorem State.hand_quantity (s : State) (q x : Quantity) : (s.hand q).quantity x = s.quantity x := by cases x <;> rfl

/-- A quantity that is handed out is no longer stale (R142). -/
theorem State.CurrentBut.hand {s : State} {q : Quantity} {qs : List Quantity} (h : s.CurrentBut (q :: qs)) : (s.hand q).CurrentBut qs := by
  intro i hi ho hq
  rw [State.hand_monitor] at hi ho hq ⊢
  rw [State.hand_quantity]
  unfold Monitor.evaluate at hi ho hq ⊢
  split
  · rename_i hh
    simp only [Monitor.hears, Bool.and_eq_true, beq_iff_eq] at hh
    show s.monitors[i].result (s.quantity q) = s.monitors[i].result (s.quantity s.monitors[i].quantity)
    rw [hh.2]
  · rename_i hh
    rw [if_neg hh] at hi ho hq
    apply h i hi ho
    simp only [Monitor.hears, hi, Bool.true_and, beq_iff_eq] at hh
    intro k
    rcases List.mem_cons.1 k with k | k
    · exact hh k
    · exact hq k

theorem State.CurrentBut.handAll {s : State} {qs : List Quantity} (h : s.CurrentBut qs) : (s.handAll qs).MonitorsCurrent := by
  induction qs generalizing s with
  | nil => exact (s.currentBut_nil).1 h
  | cons q qs ih => exact ih (s := s.hand q) h.hand

theorem State.CurrentBut.weaken {s : State} {qs rs : List Quantity} (h : s.CurrentBut qs) (sub : ∀ q ∈ qs, q ∈ rs) : s.CurrentBut rs :=
  fun i hi ho hq => h i hi ho fun k => hq (sub _ k)

theorem State.MonitorsCurrent.hand {s : State} (h : s.MonitorsCurrent) (q : Quantity) : (s.hand q).MonitorsCurrent :=
  ((s.hand q).currentBut_nil).1 (((s.currentBut_nil).2 h).weaken (by simp : ∀ x ∈ ([] : List Quantity), x ∈ [q])).hand

theorem State.MonitorsCurrent.handAll {s : State} (h : s.MonitorsCurrent) (qs : List Quantity) : (s.handAll qs).MonitorsCurrent :=
  (((s.currentBut_nil).2 h).weaken (by simp : ∀ x ∈ ([] : List Quantity), x ∈ qs)).handAll

/-- Handing out the quantities that changed makes every one current, when no other changed. -/
theorem State.MonitorsCurrent.handChanged {before s : State} (h : before.MonitorsCurrent) (qs : List Quantity) (k : Leaves before s qs) :
    (s.handChanged before qs).MonitorsCurrent := by
  have key : ∀ (qs : List Quantity) (u : State), u.quantity = s.quantity →
      (∀ i : Fin 4, u.monitors[i].enabled = true → u.monitors[i].object ≠ .age →
        u.monitors[i].last = u.monitors[i].result (u.quantity u.monitors[i].quantity) ∨
          (u.monitors[i].quantity ∈ qs ∧ u.quantity u.monitors[i].quantity ≠ before.quantity u.monitors[i].quantity)) →
      (u.handChanged before qs).MonitorsCurrent := by
    intro qs
    induction qs with
    | nil =>
      intro u _ hu i hi ho
      rcases hu i hi ho with k | ⟨k, -⟩
      · exact k
      · cases k
    | cons q qs ih =>
      intro u eq hu
      simp only [State.handChanged, List.foldl_cons] at ih ⊢
      split
      · rename_i same
        apply ih u eq
        intro i hi ho
        rcases hu i hi ho with k | ⟨k, ne⟩
        · exact .inl k
        · rcases List.mem_cons.1 k with k | k
          · rw [k] at ne
            exact absurd same ne
          · exact .inr ⟨k, ne⟩
      · apply ih (u.hand q) (by funext x; rw [State.hand_quantity, eq])
        intro i hi ho
        rw [State.hand_monitor] at hi ho ⊢
        rw [State.hand_quantity]
        unfold Monitor.evaluate at hi ho ⊢
        split
        · rename_i hh
          simp only [Monitor.hears, Bool.and_eq_true, beq_iff_eq] at hh
          left
          show u.monitors[i].result (u.quantity q) = u.monitors[i].result (u.quantity u.monitors[i].quantity)
          rw [hh.2]
        · rename_i hh
          rw [if_neg hh] at hi ho
          rcases hu i hi ho with k | ⟨k, ne⟩
          · exact .inl k
          · simp only [Monitor.hears, hi, Bool.true_and, beq_iff_eq] at hh
            rcases List.mem_cons.1 k with k | k
            · exact absurd k hh
            · exact .inr ⟨k, ne⟩
  apply key qs s rfl
  intro i hi ho
  by_cases hq : s.monitors[i].quantity ∈ qs
  · by_cases ne : s.quantity s.monitors[i].quantity = before.quantity s.monitors[i].quantity
    · left
      rw [ne]
      rw [k.monitors] at hi ho ⊢
      exact h i hi ho
    · exact .inr ⟨hq, ne⟩
  · left
    rw [k.monitors] at hi ho hq ⊢
    rw [k.quantity _ (Monitor.quantity_notAge _ ho) hq]
    exact h i hi ho

/-! ### The shared operations -/

theorem State.MonitorsCurrent.raise {s : State} (h : s.MonitorsCurrent) (c : Cause) : (s.raise c).MonitorsCurrent :=
  h.same (.of rfl rfl rfl rfl rfl rfl)

theorem State.MonitorsCurrent.latch {s : State} (h : s.MonitorsCurrent) (c : AttentionCause) : (s.latch c).MonitorsCurrent :=
  h.same (.of rfl rfl rfl rfl rfl rfl)

theorem State.MonitorsCurrent.setState {s : State} (h : s.MonitorsCurrent) (p : PartitionId) (x : PartitionState) :
    (s.setState p x).MonitorsCurrent := h.same (.of rfl rfl rfl rfl rfl rfl)

theorem State.MonitorsCurrent.closingCheck {s : State} (h : s.MonitorsCurrent) (p : PartitionId) : (s.closingCheck p).MonitorsCurrent :=
  h.same (.of (by simp) (by simp) (by simp) (by simp) (by simp) (by simp))

theorem State.MonitorsCurrent.changeState {s : State} (h : s.MonitorsCurrent) (p : PartitionId) (x : PartitionState) :
    (s.changeState p x).state.MonitorsCurrent :=
  h.same (.of (by simp) (by simp) (by simp) (by simp) (by simp) (by simp))

theorem State.MonitorsCurrent.requestTarget {s : State} (h : s.MonitorsCurrent) (t : TableName) : (s.requestTarget t).state.MonitorsCurrent :=
  h.same (.of (by simp) (by simp) (by simp) (by simp) (by simp) (by simp))

theorem State.MonitorsCurrent.countGlobal {s : State} (h : s.MonitorsCurrent) (f : GlobalCounters → GlobalCounters) :
    (s.countGlobal f).MonitorsCurrent := by
  refine h.same ⟨rfl, fun x _ _ => ?_⟩
  cases x <;> rfl

/-- A counter other than a per-round count is no quantity (R134, R135). -/
theorem State.MonitorsCurrent.countPart {s : State} (h : s.MonitorsCurrent) (p : PartitionId) (f : PartitionCounters → PartitionCounters)
    (lost : ∀ c, (f c).lostRound = c.lostRound) (retried : ∀ c, (f c).retriedRound = c.retriedRound) : (s.countPart p f).MonitorsCurrent := by
  refine h.same ⟨rfl, fun x hx _ => ?_⟩
  cases x with
  | lostRound q =>
    show (modifyAt s.counters.parts p f)[q].lostRound = s.counters.parts[q].lostRound
    rw [modifyAt_get]
    split
    · exact lost _
    · rfl
  | retryRound q =>
    show (modifyAt s.counters.parts p f)[q].retriedRound = s.counters.parts[q].retriedRound
    rw [modifyAt_get]
    split
    · exact retried _
    · rfl
  | age q => simp [Quantity.isAge] at hx
  | _ => rfl

theorem State.MonitorsCurrent.countRetry {s : State} (h : s.MonitorsCurrent) (p : PartitionId) : (s.countRetry p).MonitorsCurrent := by
  refine ((State.hand _ _).currentBut_nil).1 (State.CurrentBut.hand (h.leaves ⟨rfl, fun x hx hn => ?_⟩))
  cases x with
  | lostRound q =>
    show (modifyAt s.counters.parts p _)[q].lostRound = s.counters.parts[q].lostRound
    rw [modifyAt_get]
    split <;> rfl
  | retryRound q =>
    show (modifyAt s.counters.parts p _)[q].retriedRound = s.counters.parts[q].retriedRound
    rw [modifyAt_get, if_neg]
    rintro rfl
    simp at hn
  | age q => simp [Quantity.isAge] at hx
  | _ => rfl

theorem State.MonitorsCurrent.countLost {s : State} (h : s.MonitorsCurrent) (p : PartitionId) : (s.countLost p).MonitorsCurrent := by
  refine ((State.hand _ _).currentBut_nil).1 (State.CurrentBut.hand (h.leaves ⟨rfl, fun x hx hn => ?_⟩))
  cases x with
  | lostRound q =>
    show (modifyAt s.counters.parts p _)[q].lostRound = s.counters.parts[q].lostRound
    rw [modifyAt_get, if_neg]
    rintro rfl
    simp at hn
  | retryRound q =>
    show (modifyAt s.counters.parts p _)[q].retriedRound = s.counters.parts[q].retriedRound
    rw [modifyAt_get]
    split <;> rfl
  | age q => simp [Quantity.isAge] at hx
  | _ => rfl

/-- The per-round counts of every partition change, and all are handed out (R135, R138). -/
theorem State.MonitorsCurrent.countersCleared {s : State} (h : s.MonitorsCurrent) (c : Counters) :
    ({ s with counters := c }.handAll (allPartitions.flatMap fun p => [.lostRound p, .retryRound p])).MonitorsCurrent := by
  refine State.CurrentBut.handAll (h.leaves ⟨rfl, fun x hx hn => ?_⟩)
  cases x with
  | lostRound q => exact absurd (by clear hx hn; revert q; decide) hn
  | retryRound q => exact absurd (by clear hx hn; revert q; decide) hn
  | age q => simp [Quantity.isAge] at hx
  | _ => rfl

/-- The fault queue changes, and its occupancy is handed out (R160, R162). -/
theorem State.MonitorsCurrent.queue {s : State} (h : s.MonitorsCurrent) (l : List FaultRecord) :
    ({ s with attention := { s.attention with queue := l } }.hand .faults).MonitorsCurrent := by
  refine ((State.hand _ _).currentBut_nil).1 (State.CurrentBut.hand (h.leaves ⟨rfl, fun x hx hn => ?_⟩))
  cases x with
  | faults => simp at hn
  | age q => simp [Quantity.isAge] at hx
  | _ => rfl

theorem State.MonitorsCurrent.storeFault {s : State} (h : s.MonitorsCurrent) (record : FaultRecord) : (s.storeFault record).MonitorsCurrent := by
  unfold State.storeFault
  dsimp only
  split
  · exact (h.queue _).raise _
  · exact (h.latch _).raise _

theorem State.MonitorsCurrent.recordFault {s : State} (h : s.MonitorsCurrent) (kind : FaultKind) (partition : Option PartitionId)
    (pair : Option Pair) (address : Option Addr) (dtag : Option DTag) :
    (s.recordFault kind partition pair address dtag).MonitorsCurrent := h.storeFault _

theorem State.MonitorsCurrent.timeoutArrives {s : State} (h : s.MonitorsCurrent) : s.timeoutArrives.MonitorsCurrent := by
  unfold State.timeoutArrives
  split
  · exact h
  · rename_i rest _
    have left : ({ s with flight := { s.flight with timeouts := rest } } : State).MonitorsCurrent := h.same (.of rfl rfl rfl rfl rfl rfl)
    exact left.storeFault _

theorem State.MonitorsCurrent.popRecord {s : State} (h : s.MonitorsCurrent) : s.popRecord.MonitorsCurrent := h.queue _

/-- A withdrawal changes the reserved count and head ages alone (R38, R89). -/
theorem Leaves.withdraw (s : State) (chosen : PoolEntry → Bool) (status : WithdrawalStatus) (p : PartitionId) :
    Leaves s (s.withdraw chosen status) [.age p, .wbuf] := by
  refine ⟨rfl, fun x hx hn => ?_⟩
  cases x with
  | queue q =>
    show (s.pool.map (s.withdrawnEntry chosen status)).countP _ = s.pool.countP _
    rw [List.countP_map]
    congr 1
    funext e
    simp only [Function.comp, State.withdrawnEntry]
    split <;> rfl
  | wbuf => simp at hn
  | age q => simp [Quantity.isAge] at hx
  | _ => rfl

theorem State.MonitorsCurrent.withdrawPair {s : State} (h : s.MonitorsCurrent) (p : PartitionId) (pair : Pair) (status : WithdrawalStatus) :
    (s.withdrawPair p pair status).MonitorsCurrent := h.handChanged _ (.withdraw s _ status p)

theorem State.MonitorsCurrent.flush {s : State} (h : s.MonitorsCurrent) (p : PartitionId) : (s.flush p).MonitorsCurrent :=
  h.handChanged _ (.withdraw s _ .aborted p)

theorem PoolEntry.releaseFor_counted (pair : Pair) (p : PartitionId) (l : List PoolEntry) :
    (l.map (PoolEntry.releaseFor pair)).countP (fun e => e.partition == p) = l.countP (fun e => e.partition == p) := by
  rw [List.countP_map]
  congr 1
  funext e
  simp only [Function.comp, PoolEntry.releaseFor]
  split
  · rfl
  · split <;> rfl

theorem State.MonitorsCurrent.freeDiscarding {s : State} (h : s.MonitorsCurrent) (r : OpenWrite) : (s.freeDiscarding r).MonitorsCurrent := by
  unfold State.freeDiscarding
  apply State.MonitorsCurrent.closingCheck
  refine h.same ⟨rfl, fun x hx _ => ?_⟩
  cases x with
  | queue q => exact PoolEntry.releaseFor_counted _ _ _
  | age q => simp [Quantity.isAge] at hx
  | _ => rfl

theorem State.MonitorsCurrent.rearmMonitor {s : State} (h : s.MonitorsCurrent) (i : Fin 4) (m : Monitor) :
    (s.rearmMonitor i m).MonitorsCurrent := by
  have base : ({ s with monitors := s.monitors.set i { m with last := m.enabled && m.result (s.quantity m.quantity) } } : State).MonitorsCurrent := by
    intro j hj ho
    have get : (s.monitors.set i { m with last := m.enabled && m.result (s.quantity m.quantity) })[j] =
        if i = j then { m with last := m.enabled && m.result (s.quantity m.quantity) } else s.monitors[j] := by
      rw [Fin.getElem_fin, Vector.getElem_set]
      simp only [Fin.ext_iff]
      rfl
    have quantity : ∀ x, ({ s with monitors := s.monitors.set i { m with last := m.enabled && m.result (s.quantity m.quantity) } } : State).quantity x =
        s.quantity x := fun x => by cases x <;> rfl
    simp only [quantity]
    rw [get] at hj ho ⊢
    by_cases hi : i = j
    · simp only [hi, if_true] at hj ⊢
      show (m.enabled && m.result (s.quantity m.quantity)) = m.result (s.quantity m.quantity)
      rw [show m.enabled = true from hj, Bool.true_and]
    · simp only [hi, if_false] at hj ho ⊢
      exact h j hj ho
  unfold State.rearmMonitor
  dsimp only
  split
  · exact base.raise _
  · exact base

/-- The trigger unit's taking of causes keeps the last results current (R142, R144, R149). -/
theorem State.monitorsCurrent_settles : SettleKeeps State.MonitorsCurrent where
  triggers _ _ h := h.same (.of rfl rfl rfl rfl rfl rfl)
  free _ _ h := h.same (.of rfl rfl rfl rfl rfl rfl)
  action s a b h := by
    cases a with
    | requestSwitch => exact h.requestTarget _
    | setRun => exact h.changeState _ _
    | setHold => exact h.changeState _ _
    | setClosing => exact h.changeState _ _
    | flush =>
      show (s.flushAction _).MonitorsCurrent
      unfold State.flushAction
      split
      · exact h.flush _
      · exact h
    | evoutSet => exact h.same (.of rfl rfl rfl rfl rfl rfl)
    | evoutClear => exact h.same (.of rfl rfl rfl rfl rfl rfl)
    | evoutPulse => exact h.same (.of rfl rfl rfl rfl rfl rfl)
    | snapshot => exact h.same (.of rfl rfl rfl rfl rfl rfl)
    | attention => exact h.latch _
    | arm => exact h.same (.of rfl rfl rfl rfl rfl rfl)
    | disarm => exact h.same (.of rfl rfl rfl rfl rfl rfl)
    | clearMonitor => exact h.rearmMonitor _ _

/-! ### Issue, answers, requests, beats and rounds -/

/-- What an update leaves stale is what was stale before and what it changed. -/
theorem State.CurrentBut.leaves {s u : State} {qs rs : List Quantity} (h : s.CurrentBut qs) (k : Leaves s u rs) : u.CurrentBut (rs ++ qs) := by
  intro i hi ho hq
  rw [k.monitors] at hi ho hq ⊢
  rw [List.mem_append, not_or] at hq
  rw [k.quantity _ (Monitor.quantity_notAge _ ho) hq.1]
  exact h i hi ho hq.2

theorem State.CurrentBut.same {s u : State} {qs : List Quantity} (h : s.CurrentBut qs) (k : Leaves s u []) : u.CurrentBut qs := h.leaves k

theorem State.CurrentBut.current {s : State} (h : s.CurrentBut []) : s.MonitorsCurrent := s.currentBut_nil.1 h

/-- Replacing an entry by one that counts alike leaves a count over the table. -/
theorem FlightEntry.count_set (v : Vector FlightEntry 16) (d : DTag) (e : FlightEntry) (p : FlightEntry → Bool) (h : p e = p v[d]) :
    (v.set d e).toList.countP p = v.toList.countP p := by
  have hd : d.val < v.toList.length := by simp
  have get : v.toList[d.val] = v[d] := by simp
  rw [Vector.toList_set, List.countP_set hd, get, h]
  split
  · have : 0 < v.toList.countP p := List.countP_pos_iff.2 ⟨v[d], by rw [← get]; exact List.getElem_mem _, by assumption⟩
    omega
  · omega

/-- A change of one in-flight entry changes the occupancy where it becomes or stops being FREE, and the orphan count where it becomes or stops being
ORPHANED (R98). -/
theorem Leaves.setFlight (s : State) (d : DTag) (e : FlightEntry) (qs : List Quantity)
    (free : e.isFree = s.flight.table[d].isFree ∨ .inFlight ∈ qs) (orphan : e.isOrphan = s.flight.table[d].isOrphan ∨ .orphans ∈ qs) :
    Leaves s (s.setFlight d e) qs := by
  refine ⟨rfl, fun x hx hn => ?_⟩
  cases x with
  | inFlight =>
    rcases free with free | free
    · exact FlightEntry.count_set _ _ _ _ (by rw [free])
    · exact absurd free hn
  | orphans =>
    rcases orphan with orphan | orphan
    · exact FlightEntry.count_set _ _ _ _ orphan
    · exact absurd orphan hn
  | age q => simp [Quantity.isAge] at hx
  | _ => rfl

theorem State.MonitorsCurrent.expire {s : State} (h : s.MonitorsCurrent) (d : DTag) : (s.expire d).MonitorsCurrent := by
  unfold State.expire
  split
  · rename_i t ht
    apply State.MonitorsCurrent.closingCheck
    apply State.CurrentBut.current
    apply State.CurrentBut.hand
    exact (h.leaves (.setFlight s d (.orphaned t true) [.orphans] (.inl (by rw [ht]; rfl)) (.inr (by simp)))).same (.of rfl rfl rfl rfl rfl rfl)
  all_goals exact h

theorem State.MonitorsCurrent.expireDue {s : State} (h : s.MonitorsCurrent) : s.expireDue.MonitorsCurrent := by
  unfold State.expireDue
  generalize s.dueEntries = l
  induction l generalizing s with
  | nil => exact h
  | cons d l ih => exact ih (h.expire d)

theorem State.MonitorsCurrent.examineTarget {s : State} (h : s.MonitorsCurrent) : s.examineTarget.MonitorsCurrent := by
  unfold State.examineTarget
  split
  · exact h
  · split
    · exact h.same (.of rfl rfl rfl rfl rfl rfl)
    · exact h.same (.of rfl rfl rfl rfl rfl rfl)

theorem State.MonitorsCurrent.roundStart {s : State} (h : s.MonitorsCurrent) : s.roundStart.MonitorsCurrent := by
  have loaded : ∀ u : State, u.MonitorsCurrent → u.reloadAllowances.MonitorsCurrent := fun u hu => hu.same (.of rfl rfl rfl rfl rfl rfl)
  have cleared : ∀ u : State, u.MonitorsCurrent → u.clearRoundCounts.MonitorsCurrent := fun u hu => hu.countersCleared _
  unfold State.roundStart State.switchRound State.raiseRoundStart
  exact (cleared _ (loaded _ (h.raise _).examineTarget)).expireDue

theorem State.MonitorsCurrent.startSlot {s : State} (h : s.MonitorsCurrent) : s.startSlot.MonitorsCurrent := by
  have advanced : ({ s with sched := s.sched.advance } : State).MonitorsCurrent := h.same (.of rfl rfl rfl rfl rfl rfl)
  unfold State.startSlot
  dsimp only
  split
  · exact (State.someTimeoutsArrive_keeps (fun _ hu => hu.timeoutArrives) advanced.roundStart).handAll _
  · exact advanced.handAll _

/-- The act of issue hands out the held count, the occupancy, and for a WRITE the reserved count (R55 to R57). -/
theorem State.MonitorsCurrent.issue {s : State} (h : s.MonitorsCurrent) (p : PartitionId) : (s.issue p).MonitorsCurrent := by
  unfold State.issue
  split
  · rename_i e d he hd
    obtain ⟨hw, before, after, hp, hb⟩ := (s.head_iff p e).1 he
    have erased : s.pool.eraseP (PoolEntry.inQueue p) = before ++ after := by
      rw [hp, List.eraseP_append_right _ (by intro x hx; simp [hb x hx]), List.eraseP_cons_of_pos (by simpa using hw)]
    have ep : e.partition = p := ((PoolEntry.inQueue_iff p e).1 hw).2
    have taken : (s.takeHead p).MonitorsCurrent := by
      refine State.CurrentBut.handAll (h.leaves ⟨rfl, fun x hx hn => ?_⟩)
      cases x with
      | queue q =>
        have hq : p ≠ q := by rintro rfl; simp at hn
        show (s.pool.eraseP (PoolEntry.inQueue p)).countP _ = s.pool.countP _
        rw [erased, hp]
        simp [ep, hq]
      | age q => simp [Quantity.isAge] at hx
      | _ => rfl
    have filled : ((s.takeHead p).fillFlight d e).MonitorsCurrent :=
      State.CurrentBut.current (State.CurrentBut.hand (taken.leaves (.setFlight _ d _ [.inFlight] (.inr (by simp)) (.inl ?_))))
    · have released : (((s.takeHead p).fillFlight d e).releaseData e).MonitorsCurrent := by
        unfold State.releaseData
        split
        · exact filled
        · refine State.CurrentBut.current (State.CurrentBut.hand (filled.leaves ⟨rfl, fun x hx hn => ?_⟩))
          cases x with
          | wbuf => simp at hn
          | age q => simp [Quantity.isAge] at hx
          | _ => rfl
      exact released.same (.of rfl rfl rfl rfl rfl rfl)
    · have free : s.flight.table[d].isFree = true := by
        have := List.find?_some hd
        exact this
      rw [show (s.takeHead p).flight = s.flight by simp, (FlightEntry.isFree_iff _).1 free]
      rfl
  all_goals exact h

theorem State.MonitorsCurrent.runSlot {s : State} (h : s.MonitorsCurrent) : s.runSlot.MonitorsCurrent := by
  have outcome : ∀ (u : State) (o : SlotOutcome), u.MonitorsCurrent → (u.applyOutcome o).MonitorsCurrent := by
    intro u o hu
    cases o with
    | ownedIssue p => exact (hu.issue p).countPart _ _ (fun _ => rfl) fun _ => rfl
    | slackIssue p =>
      have charged : ((u.issue p).chargeSlack p).MonitorsCurrent := (hu.issue p).same (.of rfl rfl rfl rfl rfl rfl)
      exact charged.countPart _ _ (fun _ => rfl) fun _ => rfl
    | _ => exact hu.countGlobal _
  apply outcome
  unfold State.chargeLost
  split
  · exact h
  · exact h.countLost _

/-- A request that joins its queue hands out the held count (R74). -/
theorem State.MonitorsCurrent.enqueue {s : State} (h : s.MonitorsCurrent) (r : Request) (p : PartitionId) (k : AccessKind) :
    (s.enqueue r p k).MonitorsCurrent := by
  refine State.CurrentBut.handAll (h.leaves ⟨rfl, fun x hx hn => ?_⟩)
  cases x with
  | queue q =>
    have hq : p ≠ q := by rintro rfl; simp at hn
    show (s.pool ++ [_]).countP _ = s.pool.countP _
    simp [State.newEntry, hq]
  | age q => simp [Quantity.isAge] at hx
  | _ => rfl

/-- Acceptance hands out the held count, and for a WRITE the reserved count (R74). -/
theorem State.MonitorsCurrent.accept {s : State} (h : s.MonitorsCurrent) (r : Request) (p : PartitionId) : (s.accept r p).MonitorsCurrent := by
  have counted : (s.countPart p fun c => { c with accepted := c.accepted + 1 }).MonitorsCurrent := h.countPart p _ (fun _ => rfl) fun _ => rfl
  have joined : ∀ k : AccessKind, ((s.countPart p fun c => { c with accepted := c.accepted + 1 }).enqueue r p k).MonitorsCurrent := fun k =>
    counted.enqueue r p k
  unfold State.accept
  dsimp only
  split
  · refine State.CurrentBut.current (State.CurrentBut.hand ((joined .write).leaves ⟨rfl, fun x hx hn => ?_⟩))
    cases x with
    | wbuf => simp at hn
    | age q => simp [Quantity.isAge] at hx
    | _ => rfl
  · exact joined _
  · exact joined _

theorem State.MonitorsCurrent.refuse {s : State} (h : s.MonitorsCurrent) (pair : Pair) (status : RefusalStatus) :
    (s.refuse pair status).MonitorsCurrent := h.same (.of rfl rfl rfl rfl rfl rfl)

theorem State.MonitorsCurrent.countRefused {s : State} (h : s.MonitorsCurrent) (m : Option PartitionId) : (s.countRefused m).MonitorsCurrent := by
  unfold State.countRefused
  split
  · exact h
  · exact h.countPart _ _ (fun _ => rfl) fun _ => rfl

theorem State.MonitorsCurrent.countRetried {s : State} (h : s.MonitorsCurrent) (m : Option PartitionId) : (s.countRetried m).MonitorsCurrent := by
  unfold State.countRetried
  split
  · exact h.countGlobal _
  · exact h.countRetry _

theorem State.MonitorsCurrent.takeRequest {s : State} (h : s.MonitorsCurrent) (r : Request) : (s.takeRequest r).MonitorsCurrent := by
  unfold State.takeRequest
  split
  · cases s.verdict r with
    | retry => exact (h.countRetried _).refuse _ _
    | refused k => exact ((h.countRefused _).refuse _ _).recordFault _ _ _ _ _
    | tagErr => exact ((h.countRefused _).refuse _ _).recordFault _ _ _ _ _
    | accepted p => exact h.accept r p
  · exact h

theorem State.MonitorsCurrent.takeCancel {s : State} (h : s.MonitorsCurrent) (pair : Pair) : (s.takeCancel pair).MonitorsCurrent := by
  unfold State.takeCancel
  split
  · split
    · exact h.withdrawPair _ _ _
    · unfold State.countLate
      split
      · exact h.countGlobal _
      · exact h.countPart _ _ (fun _ => rfl) fun _ => rfl
  · exact h

theorem PoolEntry.completeFor_counted (owner : Option Pair) (p : PartitionId) (l : List PoolEntry) :
    (l.map (PoolEntry.completeFor owner)).countP (fun e => e.partition == p) = l.countP (fun e => e.partition == p) := by
  rw [List.countP_map]
  congr 1
  funext e
  simp only [Function.comp, PoolEntry.completeFor]
  split <;> rfl

theorem State.MonitorsCurrent.takeBeat {s : State} (h : s.MonitorsCurrent) (pair : Pair) (data : Beat) (last : Bool) :
    (s.takeBeat pair data last).MonitorsCurrent := by
  have update : ∀ f, (s.updateRecord pair f).MonitorsCurrent := fun f => h.same (.of rfl rfl rfl rfl rfl rfl)
  unfold State.takeBeat
  split
  · exact h.recordFault _ _ _ _ _
  · rename_i r _
    split
    · unfold State.gather
      split
      · have freed : ({ s with writes := { s.writes with records := s.writes.records.filter fun x => x.pair != r.pair } } : State).MonitorsCurrent :=
          h.same (.of rfl rfl rfl rfl rfl rfl)
        exact (freed.withdrawPair _ _ _).recordFault _ _ _ _ _
      · split
        · refine h.same ⟨rfl, fun x hx _ => ?_⟩
          cases x with
          | queue q => exact PoolEntry.completeFor_counted _ _ _
          | age q => simp [Quantity.isAge] at hx
          | _ => rfl
        · exact h.same (.of rfl rfl rfl rfl rfl rfl)
    · exact h.recordFault _ _ _ _ _
    · unfold State.discard
      split
      · exact h.freeDiscarding r
      · exact h.same (.of rfl rfl rfl rfl rfl rfl)

theorem State.recordFault_table (s : State) (kind : FaultKind) (partition : Option PartitionId) (pair : Option Pair) (address : Option Addr)
    (dtag : Option DTag) : (s.recordFault kind partition pair address dtag).flight.table = s.flight.table := by simp

theorem State.MonitorsCurrent.takeAnswer {s : State} (h : s.MonitorsCurrent) (d : DTag) (status : AnswerStatus) (data : List Beat) :
    (s.takeAnswer d status data).MonitorsCurrent := by
  unfold State.takeAnswer
  split
  · rename_i t ht
    have returned : ∀ a beats, ((s.setFlight d (.returning t a beats)).lastPlace d).MonitorsCurrent := fun a beats =>
      (h.same (.setFlight s d _ [] (.inl (by rw [ht]; rfl)) (.inl (by rw [ht]; rfl)))).same (.of rfl rfl rfl rfl rfl rfl)
    unfold State.answerIssued
    dsimp only
    split
    · exact returned _ _
    · exact (returned _ _).recordFault _ _ _ _ _
    · exact returned _ _
  · rename_i t owed ht
    unfold State.answerLate State.recordFlightFault
    dsimp only
    have faulted := h.recordFault .late (some t.partition) (some t.pair) (some t.address) (some d)
    split
    · refine State.CurrentBut.current (State.CurrentBut.hand (faulted.leaves (.setFlight _ d _ [.orphans] (.inl ?_) (.inr (by simp)))))
      rw [State.recordFault_table, ht]
      rfl
    · exact State.CurrentBut.handAll (faulted.leaves (.setFlight _ d _ [.inFlight, .orphans] (.inr (by simp)) (.inr (by simp))))
  · exact h.recordFault _ _ _ _ _
  · exact h.recordFault _ _ _ _ _

/-- Entry to RELEASING hands out the occupancy and the orphan count (R130). -/
theorem State.MonitorsCurrent.enterReleasing {s : State} (h : s.MonitorsCurrent) : s.enterReleasing.MonitorsCurrent := by
  have each : ∀ (l : List OpenWrite) (u : State), u.MonitorsCurrent → (l.foldl State.freeDiscarding u).MonitorsCurrent := by
    intro l
    induction l with
    | nil => exact fun _ hu => hu
    | cons r l ih => exact fun u hu => ih _ (hu.freeDiscarding r)
  unfold State.enterReleasing
  apply each
  refine State.CurrentBut.handAll (h.leaves ⟨rfl, fun x hx hn => ?_⟩)
  cases x with
  | inFlight => simp at hn
  | orphans => simp at hn
  | age q => simp [Quantity.isAge] at hx
  | _ => rfl

theorem State.MonitorsCurrent.drainCheck {s : State} (h : s.MonitorsCurrent) : s.drainCheck.MonitorsCurrent := by
  unfold State.drainCheck
  split
  · exact h.enterReleasing
  · exact h

theorem State.MonitorsCurrent.releaseCheck {s : State} (h : s.MonitorsCurrent) : s.releaseCheck.MonitorsCurrent := by
  unfold State.releaseCheck
  split
  · exact h.same (.of rfl rfl rfl rfl rfl rfl)
  · exact h

theorem State.MonitorsCurrent.restartCheck {s : State} (h : s.MonitorsCurrent) : s.restartCheck.MonitorsCurrent := by
  unfold State.restartCheck
  split
  · exact h
  · exact h.drainCheck
  · exact h.releaseCheck

theorem State.MonitorsCurrent.beginRestart {s : State} (h : s.MonitorsCurrent) : s.beginRestart.MonitorsCurrent := by
  have each : ∀ (l : List PartitionId) (u : State), u.MonitorsCurrent → (l.foldl State.flush u).MonitorsCurrent := by
    intro l
    induction l with
    | nil => exact fun _ hu => hu
    | cons p l ih => exact fun u hu => ih _ (hu.flush p)
  have draining : ({ s with restart := { s.restart with phase := .draining } } : State).MonitorsCurrent := h.same (.of rfl rfl rfl rfl rfl rfl)
  unfold State.beginRestart
  exact (each _ _ draining).drainCheck

/-- A delivery that frees its entry hands out the held count or the occupancy (R39, R112). -/
theorem State.MonitorsCurrent.deliver {s : State} (h : s.MonitorsCurrent) : s.deliver.MonitorsCurrent := by
  unfold State.deliver
  split
  · exact h
  · rename_i o _
    apply State.MonitorsCurrent.restartCheck
    have ended : ({ s with flight := { s.flight with offer := none, turn := o.source.responseClass.after } } : State).MonitorsCurrent :=
      h.same (.of rfl rfl rfl rfl rfl rfl)
    revert ended
    generalize ({ s with flight := { s.flight with offer := none, turn := o.source.responseClass.after } } : State) = u
    intro hu
    cases o.source with
    | refusal => exact hu.same (.of rfl rfl rfl rfl rfl rfl)
    | withdrawn pair =>
      simp only [State.finishSource, State.deliverWithdrawn]
      split
      · exact hu
      · rename_i e he
        apply State.MonitorsCurrent.closingCheck
        apply State.CurrentBut.current
        apply State.CurrentBut.hand
        refine hu.leaves ⟨rfl, fun x hx hn => ?_⟩
        cases x with
        | queue q =>
          have hq : e.partition ≠ q := by rintro rfl; simp at hn
          obtain ⟨ha, before, after, hp, hb⟩ := List.find?_eq_some_iff_append.1 he
          show (u.pool.eraseP (PoolEntry.answersFor pair)).countP _ = u.pool.countP _
          rw [hp, List.eraseP_append_right _ (by intro x hx; simpa using hb x hx), List.eraseP_cons_of_pos ha]
          simp [hq]
        | lostRound q =>
          show (modifyAt u.counters.parts e.partition _)[q].lostRound = u.counters.parts[q].lostRound
          rw [modifyAt_get]
          split <;> rfl
        | retryRound q =>
          show (modifyAt u.counters.parts e.partition _)[q].retriedRound = u.counters.parts[q].retriedRound
          rw [modifyAt_get]
          split <;> rfl
        | age q => simp [Quantity.isAge] at hx
        | _ => rfl
    | inFlight d =>
      have counted : ∀ (t : Transaction) (a : FlightAnswer) (w : State) (qs : List Quantity), w.CurrentBut qs →
          ((w.releasePair t.pair).countPart t.partition a.count).CurrentBut qs := by
        intro t a w qs hw
        refine hw.same ⟨rfl, fun x hx _ => ?_⟩
        cases x with
        | lostRound q =>
          show (modifyAt w.counters.parts t.partition a.count)[q].lostRound = w.counters.parts[q].lostRound
          rw [modifyAt_get]
          split
          · cases a <;> rfl
          · rfl
        | retryRound q =>
          show (modifyAt w.counters.parts t.partition a.count)[q].retriedRound = w.counters.parts[q].retriedRound
          rw [modifyAt_get]
          split
          · cases a <;> rfl
          · rfl
        | age q => simp [Quantity.isAge] at hx
        | _ => rfl
      simp only [State.finishSource, State.deliverInFlight]
      split
      · exact hu
      · exact hu
      · rename_i t a _ ht
        apply State.MonitorsCurrent.closingCheck
        apply State.CurrentBut.current
        apply State.CurrentBut.hand
        apply counted
        exact (hu.leaves (.setFlight u d .free [.inFlight] (.inr (by simp)) (.inl (by rw [ht]; rfl)))).same (.of rfl rfl rfl rfl rfl rfl)
      · rename_i t owed ht
        split
        · apply State.CurrentBut.current
          apply counted
          have kept := hu.leaves (.setFlight u d (.orphaned t false) [] (.inl (by rw [ht]; rfl)) (.inl (by rw [ht]; rfl)))
          exact kept.same (.of rfl rfl rfl rfl rfl rfl)
        · exact hu

end Machine
end Sys2Proof
end

