-- ==== Sys2Proof/Laws/Steps.lean ====
section
/-! SUPPORT. Carrying a guarantee through every step: one hypothesis for each command's effect, and the case split over the commands made once. -/

namespace Sys2Proof
namespace Machine

/-- What it takes for every step to keep a guarantee `G`: each command's effect leaves `P`, which the taking of the causes it raised turns into `G`
(or `G` itself, for an effect that raises none). `P` is `G` but for what only holds once the causes are taken. `H` is a premise about the state that
the step starts from. -/
structure StepKeeps (G P : State → Prop) (H : State → Prop := fun _ => True) : Prop where
  premise : ∀ (s : State) (q : List Instr), H s → H { s with pending := q }
  queue : ∀ (s : State) (q : List Instr), G s → G { s with pending := q }
  reset : ∀ (f : Nat) (q : List Instr), G { State.reset with free := f, pending := q }
  leave : ∀ (s : State) (b : Bool), s.line = .heldLow → G s → G (s.leaveReset b)
  mid : ∀ s : State, G s → s.line = .running → P s
  settle : ∀ s : State, P s → G s.settle
  port : ∀ (s : State) (p : Port) (n : Nat), G s → s.line = .running → G { s with port := p, free := n }
  midPort : ∀ (s : State) (p : Port) (n : Nat), P s → P { s with port := p, free := n }
  slot : ∀ s : State, G s → s.line = .running → P s.startSlot.runSlot
  expiry : ∀ s : State, G s → s.line = .running → P s.expireDue.timeoutArrives
  arrive : ∀ s : State, G s → s.line = .running → P s.timeoutArrives
  request : ∀ (s : State) (r : Request), G s → s.line = .running → P (s.takeRequest r)
  cancel : ∀ (s : State) (pair : Pair), H s → G s → s.line = .running → P (s.takeCancel pair)
  beat : ∀ (s : State) (pair : Pair) (data : Beat) (last : Bool), H s → G s → s.line = .running → P (s.takeBeat pair data last)
  take : ∀ s : State, G s → s.line = .running → G s.takeDownstream
  answer : ∀ (s : State) (d : DTag) (status : AnswerStatus) (data : List Beat), G s → s.line = .running → P (s.takeAnswer d status data)
  choose : ∀ s : State, G s → s.line = .running → G s.choose
  deliver : ∀ s : State, G s → s.line = .running → P s.deliver
  endPulse : ∀ s : State, G s → s.line = .running → P s.endPulse
  edge : ∀ (s : State) (k : EventLine) (high : Bool), G s → s.line = .running → P (s.seeEdge k high)
  first : ∀ (s : State) (k : EventLine) (high : Bool), G s → s.line = .running → G (s.seeFirst k high)
  outputPulse : ∀ (s : State) (k : EventLine), G s → s.line = .running → G (s.endOutputPulse k)
  held : ∀ s : State, G s → s.line = .running → G s.takeHeld
  pop : ∀ s : State, G s → s.line = .running → P s.popRecord
  writeSchedule : ∀ (s : State) (t : TableName) (i : Half) (d : ScheduleEntryData), G s → s.line = .running → G (s.writeSchedule t i d).state
  writePartition : ∀ (s : State) (i : Half) (q f l : Byte), G s → s.line = .running → G (s.writePartition i q f l).state
  writeMap : ∀ (s : State) (i : Half) (v : Byte), G s → s.line = .running → G (s.writeMap i v).state
  writeRegion : ∀ (s : State) (i : Half) (b l : Word) (m f : Byte), G s → s.line = .running → G (s.writeRegionEntry i b l m f).state
  writeMonitor : ∀ (s : State) (i : Half) (f o c a : Byte) (t : Half), G s → s.line = .running → P (s.writeMonitorEntry i f o c a t).state
  writeTrigger : ∀ (s : State) (i : Half) (f c ca a aa : Byte), G s → s.line = .running → G (s.writeTriggerEntry i f c ca a aa).state
  writeMask : ∀ (s : State) (i : Half) (m : Byte), G s → s.line = .running → G (s.writeMask i m).state
  switch : ∀ (s : State) (a : Byte), G s → s.line = .running → G (s.switchCommand a).state
  setState : ∀ (s : State) (a x : Byte), G s → s.line = .running → P (s.setStateCommand a x).state
  flush : ∀ (s : State) (a : Byte), G s → s.line = .running → P (s.flushCommand a).state
  restart : ∀ s : State, G s → s.line = .running → s.restart.phase = .idle → P s.beginRestart
  acknowledge : ∀ (s : State) (c : Byte), G s → s.line = .running → G (s.acknowledgeCommand c).state
  clear : ∀ s : State, G s → s.line = .running → P s.clearCommand.state

/-- A frame that is taken keeps what its command's effect keeps. -/
theorem takeFrame_keeps {Q : State → Prop} (port : ∀ (s : State) (p : Port) (n : Nat), Q s → Q { s with port := p, free := n }) {s : State}
    (written extra : Nat) (effect : State → Taken) (h : Q s) (he : Q (effect s).state) : Q (s.takeFrame written extra effect) := by
  unfold State.takeFrame
  split
  · exact port _ _ _ he
  · exact h

/-! Management writes leave the reset line. -/

theorem State.writeSchedule_line (s : State) (t : TableName) (i : Half) (d : ScheduleEntryData) : (s.writeSchedule t i d).state.line = s.line := by
  unfold State.writeSchedule
  repeat' split
  all_goals rfl

theorem State.writePartition_line (s : State) (i : Half) (q f l : Byte) : (s.writePartition i q f l).state.line = s.line := by
  unfold State.writePartition
  dsimp only
  repeat' split
  all_goals rfl

theorem State.writeMap_line (s : State) (i : Half) (v : Byte) : (s.writeMap i v).state.line = s.line := by
  unfold State.writeMap
  split <;> rfl

theorem State.writeRegionEntry_line (s : State) (i : Half) (b l : Word) (m f : Byte) : (s.writeRegionEntry i b l m f).state.line = s.line := by
  unfold State.writeRegionEntry
  dsimp only
  repeat' split
  all_goals rfl

theorem State.writeTriggerEntry_line (s : State) (i : Half) (f c ca a aa : Byte) : (s.writeTriggerEntry i f c ca a aa).state.line = s.line := by
  unfold State.writeTriggerEntry
  repeat' split
  all_goals rfl

theorem State.writeMask_line (s : State) (i : Half) (m : Byte) : (s.writeMask i m).state.line = s.line := by
  unfold State.writeMask
  split <;> rfl

theorem State.switchCommand_line (s : State) (a : Byte) : (s.switchCommand a).state.line = s.line := by
  unfold State.switchCommand
  split
  · rfl
  · simp

/-- PATH RESTART begins a restart in IDLE, and otherwise leaves the state (R126). -/
theorem restartCommand_keeps {Q : State → Prop} {s : State} (h : Q s) (begin : s.restart.phase = .idle → Q s.beginRestart) :
    Q s.restartCommand.state := by
  unfold State.restartCommand
  generalize s.beginRestart = u at begin ⊢
  by_cases hp : s.restart.phase = .idle
  · rw [if_neg (not_not.2 hp)]
    exact begin hp
  · rw [if_pos hp]
    exact h

variable {G P H : State → Prop}

theorem StepKeeps.takeRead (k : StepKeeps G P H) {s : State} (command : ReadCommand) (extra : Nat) (h : G s) (hl : s.line = .running) : G (s.takeRead command extra) := by
  unfold State.takeRead
  split
  · exact h
  · exact k.port s _ s.free h hl

theorem StepKeeps.liveFrame (k : StepKeeps G P H) {s : State} (hl : s.line = .running) (written extra : Nat) (effect : State → Taken) (h : G s)
    (he : G (effect s).state) (line : (effect s).state.line = s.line) : G (s.takeFrame written extra effect) :=
  (takeFrame_keeps (Q := fun s => G s ∧ s.line = .running) (fun s p n hs => ⟨k.port s p n hs.1 hs.2, hs.2⟩) written extra effect ⟨h, hl⟩
    ⟨he, line.trans hl⟩).1

theorem StepKeeps.event (k : StepKeeps G P H) {s t : State} (hl : s.line = .running) {effect : State → State} (he : P (effect s))
    (ht : event s effect = .next t) : G t := by
  rw [event_running hl] at ht
  cases ht
  exact k.settle _ he

theorem live_keeps {s t : State} (hl : s.line = .running) {effect : State → State} (he : G (effect s)) (ht : live s effect = .next t) : G t := by
  rw [live_running hl] at ht
  cases ht
  exact he

/-- The settling of the TIMEOUT faults still on their way keeps the guarantee (R161). -/
theorem StepKeeps.settleTimeouts (k : StepKeeps G P H) {s : State} (h : G s) (hl : s.line = .running) :
    G s.settleTimeouts ∧ s.settleTimeouts.line = .running :=
  State.settleTimeouts_keeps (P := fun t => G t ∧ t.line = .running)
    (fun t ht => ⟨k.settle _ (k.arrive t ht.1 ht.2), by rw [t.timeoutArrives.settle_frame.line]; simpa using ht.2⟩) ⟨h, hl⟩

/-- Every step from a state in which the premise holds keeps the guarantee, but of a state that a short pulse has left undefined (R1). -/
theorem StepKeeps.stepFrom (k : StepKeeps G P H) (s t : State) (hs : s.Defined fun s => H s ∧ G s) (ht : step s = .next t) : t.Defined G := by
  refine defined_step (fun s => H s ∧ G s) G (fun _ h => h.2) (fun s q h => ⟨k.premise s q h.1, k.queue s q h.2⟩) k.reset
    (fun s b hl h => k.leave s b hl h.2) ?_ s t hs ht
  clear hs ht s t
  rintro c s t hl ⟨start, h⟩ hc hc2 ht
  have hm := k.mid s h hl
  cases c with
  | pinReset => exact absurd rfl hc
  | shortRstnPulse => exact absurd rfl hc2
  | rstnReturnsHigh b => simp only [exec, execRstnReturnsHigh, hl] at ht; cases ht; exact h
  | slotStart =>
    simp only [exec, execSlotStart] at ht
    have settled := k.settleTimeouts h hl
    exact k.event hl (effect := fun s => s.settleTimeouts.startSlot.runSlot) (k.slot _ settled.1 settled.2) ht
  | deadlineExpiry =>
    simp only [exec, execDeadlineExpiry] at ht
    exact k.event hl (effect := fun s => s.expireDue.timeoutArrives) (k.expiry s h hl) ht
  | readRequest i x a b =>
    simp only [exec, execReadRequest] at ht
    exact k.event hl (effect := fun s => s.takeRequest _) (k.request s _ h hl) ht
  | writeRequest i x a b =>
    simp only [exec, execWriteRequest] at ht
    exact k.event hl (effect := fun s => s.takeRequest _) (k.request s _ h hl) ht
  | unnamedKindRequest i x a b =>
    simp only [exec, execUnnamedKindRequest] at ht
    exact k.event hl (effect := fun s => s.takeRequest _) (k.request s _ h hl) ht
  | cancel i x =>
    simp only [exec, execCancel] at ht
    exact k.event hl (effect := fun s => s.takeCancel _) (k.cancel s _ start h hl) ht
  | writeDataBeat i x d l =>
    simp only [exec, execWriteDataBeat] at ht
    exact k.event hl (effect := fun s => s.takeBeat _ d l) (k.beat s _ d l start h hl) ht
  | downstreamTake =>
    simp only [exec, execDownstreamTake] at ht
    exact live_keeps hl (effect := State.takeDownstream) (k.take s h hl) ht
  | answer d st b =>
    simp only [exec, execAnswer] at ht
    have settled := k.settleTimeouts h hl
    exact k.event hl (effect := fun s => s.settleTimeouts.takeAnswer d st b) (k.answer _ d st b settled.1 settled.2) ht
  | arbiterChoice =>
    simp only [exec, execArbiterChoice] at ht
    exact live_keeps hl (effect := State.choose) (k.choose s h hl) ht
  | responseDelivery =>
    simp only [exec, execResponseDelivery] at ht
    exact k.event hl (effect := State.deliver) (k.deliver s h hl) ht
  | drstnPulseEnd =>
    simp only [exec, execDrstnPulseEnd] at ht
    exact k.event hl (effect := State.endPulse) (k.endPulse s h hl) ht
  | evinEdge l b =>
    simp only [exec, execEvinEdge] at ht
    exact k.event hl (effect := fun s => s.seeEdge l b) (k.edge s l b h hl) ht
  | evinFirstLevel l b =>
    simp only [exec, execEvinFirstLevel] at ht
    exact live_keeps hl (effect := fun s => s.seeFirst l b) (k.first s l b h hl) ht
  | evoutPulseEnd l =>
    simp only [exec, execEvoutPulseEnd] at ht
    exact live_keeps hl (effect := fun s => s.endOutputPulse l) (k.outputPulse s l h hl) ht
  | heldCauseTaken =>
    simp only [exec, execHeldCauseTaken] at ht
    exact live_keeps hl (effect := State.takeHeld) (k.held s h hl) ht
  | indexComplete cm =>
    simp only [exec, execIndexComplete] at ht
    refine live_keeps hl (effect := fun s => s.openRead cm) ?_ ht
    show G (s.openRead cm)
    unfold State.openRead
    split
    · exact h
    · split
      · exact k.port s _ s.free h hl
      · exact h
  | frameCutShort b =>
    simp only [exec, execFrameCutShort] at ht
    refine live_keeps hl (effect := fun s => s.cutShort b) ?_ ht
    show G (s.cutShort b)
    unfold State.cutShort
    split
    · exact k.port s _ _ h hl
    · exact h
  | unknown bytes =>
    simp only [exec, execUnknown] at ht
    exact live_keeps hl (k.liveFrame hl 0 (bytes.length - 5) (fun s => { state := s, status := .unknown }) h h rfl) ht
  | readEntry table i x =>
    simp only [exec, execReadEntry] at ht
    exact live_keeps hl (effect := fun s => s.takeRead (.readEntry table i) x) (k.takeRead _ _ h hl) ht
  | readStatus x =>
    simp only [exec, execReadStatus] at ht
    exact live_keeps hl (effect := fun s => s.takeRead .readStatus x) (k.takeRead _ _ h hl) ht
  | readCounters a x =>
    simp only [exec, execReadCounters] at ht
    exact live_keeps hl (effect := fun s => s.takeRead (.readCounters a) x) (k.takeRead _ _ h hl) ht
  | readSnapshot a x =>
    simp only [exec, execReadSnapshot] at ht
    exact live_keeps hl (effect := fun s => s.takeRead (.readSnapshot a) x) (k.takeRead _ _ h hl) ht
  | popFault x =>
    simp only [exec, execPopFault] at ht
    refine k.event hl (effect := fun s => s.takePop x) ?_ ht
    show P (s.takePop x)
    unfold State.takePop
    split
    · exact hm
    · split
      · exact k.pop _ (k.port s _ s.free h hl) hl
      · exact k.midPort s _ s.free hm
  | writeScheduleEntry name i d x =>
    simp only [exec, execWriteScheduleEntry] at ht
    exact live_keeps hl (k.liveFrame hl _ x (fun s => s.writeSchedule name i d) h (k.writeSchedule s name i d h hl) (s.writeSchedule_line _ _ _)) ht
  | writePartitionRecord i z q f l x =>
    simp only [exec, execWritePartitionRecord] at ht
    exact live_keeps hl (k.liveFrame hl 4 x (fun s => s.writePartition i q f l) h (k.writePartition s i q f l h hl) (s.writePartition_line _ _ _ _)) ht
  | writeInitiatorMap i v x =>
    simp only [exec, execWriteInitiatorMap] at ht
    exact live_keeps hl (k.liveFrame hl 1 x (fun s => s.writeMap i v) h (k.writeMap s i v h hl) (s.writeMap_line _ _)) ht
  | writeRegion i b l m f x =>
    simp only [exec, execWriteRegion] at ht
    exact live_keeps hl (k.liveFrame hl 10 x (fun s => s.writeRegionEntry i b l m f) h (k.writeRegion s i b l m f h hl) (s.writeRegionEntry_line _ _ _ _ _)) ht
  | writeMonitor i f o c a th x =>
    simp only [exec, execWriteMonitor] at ht
    exact k.event hl (takeFrame_keeps k.midPort 6 x (fun s => s.writeMonitorEntry i f o c a th) hm (k.writeMonitor s i f o c a th h hl)) ht
  | writeTrigger i f c ca a aa n x =>
    simp only [exec, execWriteTrigger] at ht
    exact live_keeps hl (k.liveFrame hl 7 x (fun s => s.writeTriggerEntry i f c ca a aa) h (k.writeTrigger s i f c ca a aa h hl) (s.writeTriggerEntry_line _ _ _ _ _ _)) ht
  | writeAttentionMask i m x =>
    simp only [exec, execWriteAttentionMask] at ht
    exact live_keeps hl (k.liveFrame hl 1 x (fun s => s.writeMask i m) h (k.writeMask s i m h hl) (s.writeMask_line _ _)) ht
  | requestSwitch a x =>
    simp only [exec, execRequestSwitch] at ht
    exact live_keeps hl (k.liveFrame hl 0 x (fun s => s.switchCommand a) h (k.switch s a h hl) (s.switchCommand_line _)) ht
  | setPartitionState a i x =>
    simp only [exec, execSetPartitionState] at ht
    exact k.event hl (takeFrame_keeps k.midPort 0 x (fun s => s.setStateCommand a (i.extractLsb' 0 8)) hm (k.setState s a _ h hl)) ht
  | flushPartition a x =>
    simp only [exec, execFlushPartition] at ht
    exact k.event hl (takeFrame_keeps k.midPort 0 x (fun s => s.flushCommand a) hm (k.flush s a h hl)) ht
  | pathRestart x =>
    simp only [exec, execPathRestart] at ht
    have hr : P s.restartCommand.state := restartCommand_keeps hm (k.restart s h hl)
    have hk : P (s.takeFrame 0 x State.restartCommand) := takeFrame_keeps k.midPort 0 x State.restartCommand hm hr
    exact k.event hl (effect := fun s => s.takeFrame 0 x State.restartCommand) hk ht
  | acknowledge causes x =>
    simp only [exec, execAcknowledge] at ht
    exact live_keeps hl (k.liveFrame hl 1 x (fun s => s.acknowledgeCommand causes) h (k.acknowledge s causes h hl) rfl) ht
  | clearCounters x =>
    simp only [exec, execClearCounters] at ht
    exact k.event hl (takeFrame_keeps k.midPort 0 x State.clearCommand hm (k.clear s h hl)) ht
  | frameOpenAcrossReset =>
    simp only [exec, execFrameOpenAcrossReset] at ht
    refine live_keeps hl (effect := State.endAcrossReset) ?_ ht
    unfold State.endAcrossReset
    split
    · exact k.port s _ s.free h hl
    · exact h

/-- Every step keeps the guarantee, where no premise is asked. -/
theorem StepKeeps.step (k : StepKeeps G P) (s t : State) (hs : s.Defined G) (ht : step s = .next t) : t.Defined G :=
  k.stepFrom s t (fun h => ⟨trivial, hs h⟩) ht

end Machine
end Sys2Proof
end

