-- ==== Sys2Proof/Laws/Intake.lean ====
section
/-! SUPPORT. What the intake does with a request: the frame of each part, and the effect of each verdict. -/

namespace Sys2Proof
namespace Machine

theorem DataPathFrame.refuse (s : State) (pair : Pair) (status : RefusalStatus) : DataPathFrame s (s.refuse pair status) :=
  ⟨rfl, rfl, rfl, rfl, rfl, fun _ => rfl, .quiet rfl fun _ h => h, rfl, rfl, rfl, rfl, rfl, rfl, rfl, rfl⟩

theorem DataPathFrame.countGlobal (s : State) (f : GlobalCounters → GlobalCounters) : DataPathFrame s (s.countGlobal f) :=
  ⟨rfl, rfl, rfl, rfl, rfl, fun _ => rfl, .quiet rfl fun _ h => h, rfl, rfl, rfl, rfl, rfl, rfl, rfl, rfl⟩

theorem DataPathFrame.countRetried (s : State) (mapped : Option PartitionId) : DataPathFrame s (s.countRetried mapped) := by
  cases mapped with
  | none => exact DataPathFrame.countGlobal s fun c => { c with unmappedRetries := c.unmappedRetries + 1 }
  | some p => exact DataPathFrame.countRetry s p

theorem DataPathFrame.countRefused (s : State) (mapped : Option PartitionId) : DataPathFrame s (s.countRefused mapped) := by
  cases mapped with
  | none => exact DataPathFrame.refl s
  | some p => exact DataPathFrame.countPart s p fun c => { c with refused := c.refused + 1 }

theorem DataPathFrame.openWrite (s : State) (r : Request) (p : PartitionId) : DataPathFrame s (s.openWrite r p) :=
  ⟨rfl, rfl, rfl, rfl, rfl, fun _ => rfl, .quiet rfl fun _ h => h, rfl, rfl, rfl, rfl, rfl, rfl, rfl, rfl⟩

theorem DataPathFrame.enqueue (s : State) (r : Request) (p : PartitionId) (kind : AccessKind) : DataPathFrame s (s.enqueue r p kind) := by
  have h : DataPathFrame s
      { s with
        pool := s.pool ++ [s.newEntry r p kind]
        intake := { s.intake with heldPairs := s.intake.heldPairs ++ [r.pair] } } :=
    ⟨rfl, rfl, rfl, rfl, rfl, fun _ => rfl, .quiet rfl fun _ h => h, rfl, rfl, rfl, rfl, rfl, rfl, rfl, rfl⟩
  exact h.trans (DataPathFrame.handAll _ _)

/-- The three commands of the request channel are one operation on the request they carry (R61). -/
theorem exec_request {i : Instr} {r : Request} (h : requestOf i = some r) (s : State) : exec i s = event s fun s => s.takeRequest r := by
  cases i <;> simp [requestOf] at h <;> subst h <;> rfl

/-- There is room for a WRITE (R73). -/
theorem State.writeRoom_iff (s : State) (beats : Nat) :
    s.writeRoom beats = true ↔ beats ≤ 256 - s.writes.reserved ∧ s.writes.records.length < 48 := by
  unfold State.writeRoom
  rw [Bool.and_eq_true, decide_eq_true_iff, decide_eq_true_iff]
  rfl

theorem Sends.countRetried (s : State) (mapped : Option PartitionId) : Sends s (s.countRetried mapped) [] (retryMoved mapped) := by
  cases mapped with
  | none => exact .quiet rfl rfl
  | some p => exact .countRetry s p

theorem Sends.countRefused (s : State) (mapped : Option PartitionId) : Sends s (s.countRefused mapped) [] [] := by
  cases mapped with
  | none => exact .refl s
  | some p => exact .quiet rfl rfl

/-- An entry that joins a queue hands out the held count, and the head age where it is the new head (R74). -/
theorem Sends.enqueue (s : State) (r : Request) (p : PartitionId) (kind : AccessKind) :
    Sends s (s.enqueue r p kind) [] (.queue p :: if (s.head p).isNone then [.age p] else []) :=
  (Sends.handAll
    { s with
      pool := s.pool ++ [s.newEntry r p kind]
      intake := { s.intake with heldPairs := s.intake.heldPairs ++ [r.pair] } } _).same_before rfl rfl

/-- An acceptance emits no cause but those of the monitors of the quantities it changes (R74). -/
theorem Sends.accept (s : State) (r : Request) (p : PartitionId) (kind : AccessKind) (hk : r.kind = some kind) :
    Sends s (s.accept r p) []
      (.queue p :: ((if (s.head p).isNone then [.age p] else []) ++ if kind = .write then [.wbuf] else [])) := by
  have joined (k : AccessKind) : Sends s ((s.countPart p fun c => { c with accepted := c.accepted + 1 }).enqueue r p k) []
      (.queue p :: if (s.head p).isNone then [.age p] else []) := (Sends.enqueue _ r p k).same_before rfl rfl
  unfold State.accept
  rw [hk]
  cases kind with
  | read => exact (joined .read).weaken (by simp)
  | write =>
    exact ((joined .write).same_after
      (u := ((s.countPart p fun c => { c with accepted := c.accepted + 1 }).enqueue r p .write).openWrite r p) rfl rfl).trans (.hand _ .wbuf)

/-- A RETRY (R75, R76). -/
theorem State.applyVerdict_retry (s : State) (r : Request) :
    TurnedAway s (s.applyVerdict r .retry) r .retry [] (retryMoved (s.mapped r.pair.initiator)) ∧
      (s.applyVerdict r .retry).counters = retryCounters s (s.mapped r.pair.initiator) ∧ NoFault s (s.applyVerdict r .retry) := by
  have frame : DataPathFrame s (s.applyVerdict r .retry) := (DataPathFrame.countRetried s _).trans (DataPathFrame.refuse _ _ _)
  have sent : Sends s (s.applyVerdict r .retry) [] (retryMoved (s.mapped r.pair.initiator)) :=
    (Sends.countRetried s (s.mapped r.pair.initiator)).same_after rfl rfl
  unfold TurnedAway NoFault
  simp only [State.applyVerdict] at *
  cases hm : s.mapped r.pair.initiator <;> rw [hm] at frame sent
  · exact ⟨⟨rfl, rfl, rfl, rfl, rfl, rfl, frame, sent.emits⟩, rfl, rfl⟩
  · exact ⟨⟨rfl, rfl, rfl, rfl, rfl, rfl, frame, sent.emits⟩, rfl, rfl⟩

/-- A REFUSED or TAGERR with its fault (R75 to R77). -/
theorem State.refuse_with_fault (s : State) (r : Request) (status : RefusalStatus) (kind : FaultKind) (address : Option Addr) (u : State)
    (hu : u =
      ((s.countRefused (s.mapped r.pair.initiator)).refuse r.pair status).recordFault kind (s.mapped r.pair.initiator) (some r.pair) address
        none) :
    TurnedAway s u r status [.fault kind] [.faults] ∧ u.counters = refusedCounters s (s.mapped r.pair.initiator) ∧
      FaultRecorded s u kind (s.mapped r.pair.initiator) (some r.pair) address none ∧ u.attention.latched = latchedByFault s := by
  have frame : DataPathFrame s u := by
    subst hu
    exact ((DataPathFrame.countRefused s _).trans (DataPathFrame.refuse _ _ _)).trans (DataPathFrame.recordFault _ _ _ _ _ _)
  have sent : Sends s u [.fault kind] [.faults] := by
    subst hu
    exact ((Sends.countRefused s (s.mapped r.pair.initiator)).same_after
      (u := (s.countRefused (s.mapped r.pair.initiator)).refuse r.pair status) rfl rfl).trans (.recordFault _ _ _ _ _ _)
  have recorded :=
    ((s.countRefused (s.mapped r.pair.initiator)).refuse r.pair status).recordFault_recorded kind (s.mapped r.pair.initiator) (some r.pair)
      address none
  rw [← hu] at recorded
  generalize hv : (s.countRefused (s.mapped r.pair.initiator)).refuse r.pair status = v at hu recorded
  have same : v.attention = s.attention ∧ v.sched = s.sched := by
    subst hv
    cases s.mapped r.pair.initiator <;> exact ⟨rfl, rfl⟩
  have parts : v.counters = refusedCounters s (s.mapped r.pair.initiator) ∧
      v.intake = { s.intake with refusal := some { pair := r.pair, status := status } } ∧ v.pool = s.pool ∧ v.writes = s.writes ∧
      v.flight = s.flight ∧ v.restart = s.restart ∧ v.parts = s.parts := by
    subst hv
    cases s.mapped r.pair.initiator <;> exact ⟨rfl, rfl, rfl, rfl, rfl, rfl, rfl⟩
  obtain ⟨y1, y2, y3, y4, y5, y6, y7⟩ := parts
  refine ⟨⟨?_, ?_, ?_, ?_, ?_, ?_, frame, sent.emits⟩, ?_, ?_, ?_⟩
  · rw [hu]; simpa using y2
  · rw [hu]; simpa using y3
  · rw [hu]; simpa using y4
  · rw [hu]; simpa using y5
  · rw [hu]; simpa using y6
  · rw [hu]; simpa using y7
  · rw [hu]; simpa using y1
  · have := recorded.1
    unfold FaultRecorded at *
    rw [same.1, same.2] at this
    exact this
  · rw [recorded.2, latchedByFault, latchedByFault, same.1]

end Machine
end Sys2Proof
end

