-- ==== Sys2Proof/Laws/Withdrawal.lean ====
section
/-! SUPPORT. What a withdrawal, a flush of several partitions, and the freeing of DISCARDING records do. -/

namespace Sys2Proof
namespace Machine

/-! ### Records -/

/-- The record found for a pair holds it (R81). -/
theorem State.findRecord_pair {s : State} {pair : Pair} {r : OpenWrite} (h : s.findRecord pair = some r) : r.pair = pair := by
  have := List.find?_some h
  simpa using this

/-- Two records that hold one pair are the same (R70). -/
theorem State.record_unique {s : State} (h : (s.writes.records.map OpenWrite.pair).Nodup) {x y : OpenWrite} (hx : x ∈ s.writes.records)
    (hy : y ∈ s.writes.records) (hp : x.pair = y.pair) : x = y := List.inj_on_of_nodup_map h hx hy hp

/-! ### One withdrawal -/

theorem State.withdrawnEntry_pair (s : State) (chosen : PoolEntry → Bool) (status : WithdrawalStatus) (e : PoolEntry) :
    (s.withdrawnEntry chosen status e).pair = e.pair := by
  unfold State.withdrawnEntry
  split <;> rfl

/-- An entry still WAITING after a withdrawal was WAITING, was not chosen, and is unchanged. -/
theorem State.withdrawnEntry_waiting {s : State} {chosen : PoolEntry → Bool} {status : WithdrawalStatus} {e : PoolEntry}
    (h : (s.withdrawnEntry chosen status e).isWaiting = true) :
    s.withdrawnEntry chosen status e = e ∧ e.isWaiting = true ∧ chosen e = false := by
  unfold State.withdrawnEntry at *
  split at h
  · simp [PoolEntry.isWaiting] at h
  · rename_i k
    rw [if_neg k]
    refine ⟨rfl, h, ?_⟩
    simpa [h] using k

/-- The declared beats of a list of entries, split by a choice. -/
theorem sum_filter_split (l : List PoolEntry) (f g : PoolEntry → Bool) :
    ((l.filter f).map PoolEntry.beats).sum =
      ((l.filter fun e => f e && g e).map PoolEntry.beats).sum + ((l.filter fun e => f e && !g e).map PoolEntry.beats).sum := by
  induction l with
  | nil => rfl
  | cons a l ih =>
    simp only [List.filter_cons]
    cases hf : f a <;> cases hg : g a <;> simp <;> omega

/-- The reservations left after a withdrawal are those of the entries not chosen (R89). -/
theorem State.withdraw_reserves (s : State) (chosen : PoolEntry → Bool) (status : WithdrawalStatus) :
    ((s.withdraw chosen status).pool.filter PoolEntry.reserves).map PoolEntry.beats =
      (s.pool.filter fun e => e.reserves && !chosen e).map PoolEntry.beats := by
  rw [State.withdraw_pool]
  generalize s.pool = l
  induction l with
  | nil => rfl
  | cons a l ih =>
    rw [List.map_cons, List.filter_cons, List.filter_cons]
    have same : (s.withdrawnEntry chosen status a).reserves = (a.reserves && !chosen a) := by
      unfold State.withdrawnEntry PoolEntry.reserves
      split
      · rename_i hh
        rw [Bool.and_eq_true] at hh
        simp [hh.2, PoolEntry.isWaiting]
      · rename_i hh
        rw [Bool.and_eq_true] at hh
        cases hw : a.isWaiting
        · simp
        · have : chosen a = false := by simpa [hw] using hh
          simp [this]
    rw [same]
    split
    · rw [List.map_cons, List.map_cons, ih]
      congr 1
      unfold State.withdrawnEntry
      split <;> rfl
    · exact ih

/-- A withdrawal keeps the reserved count equal to the sum of what is reserved (R82, R89). -/
theorem State.ReservationKept.withdraw {s : State} (h : s.ReservationKept) (chosen : PoolEntry → Bool) (status : WithdrawalStatus) :
    (s.withdraw chosen status).ReservationKept := by
  obtain ⟨sum, bound⟩ := h
  have split := sum_filter_split s.pool PoolEntry.reserves chosen
  constructor
  · rw [State.withdraw_reserves, State.withdraw_reserved, State.withdrawnBeats]
    omega
  · rw [State.withdraw_reserved]
    omega

/-- A record that a withdrawal leaves of a withdrawn write is DISCARDING (R89). -/
theorem OpenWrite.afterWithdrawal_discarding {r x : OpenWrite} (h : r.afterWithdrawal = some x) : x.state = .discarding ∧ x.pair = r.pair := by
  unfold OpenWrite.afterWithdrawal at h
  split at h
  · cases h
  · split at h
    · cases h
    · cases h
      exact ⟨rfl, rfl⟩
  · rename_i hs
    cases h
    exact ⟨hs, rfl⟩

/-! ### Flushes -/

theorem State.flush_pool (s : State) (p : PartitionId) : (s.flush p).pool = (s.withdraw (fun e => e.partition == p) .aborted).pool := by
  simp [State.flush]

theorem State.flush_writes (s : State) (p : PartitionId) : (s.flush p).writes = (s.withdraw (fun e => e.partition == p) .aborted).writes := by
  simp [State.flush]

/-- What the flush of several partitions, one after the other, does (R124, R127). -/
theorem State.flush_each (l : List PartitionId) (s : State) :
    (∀ e ∈ (l.foldl State.flush s).pool, e.isWaiting = true → e.partition ∉ l ∧ e ∈ s.pool) ∧
      ((l.foldl State.flush s).pool.map PoolEntry.pair = s.pool.map PoolEntry.pair) ∧
      (∀ e ∈ s.pool, e.isWaiting = false → e ∈ (l.foldl State.flush s).pool) ∧
      (s.ReservationKept → (l.foldl State.flush s).ReservationKept) ∧ DataPathFrame s (l.foldl State.flush s) ∧
      (l.foldl State.flush s).restart = s.restart ∧ (l.foldl State.flush s).intake = s.intake ∧
      (l.foldl State.flush s).flight = s.flight ∧ (l.foldl State.flush s).parts = s.parts ∧
      (l.foldl State.flush s).counters = s.counters ∧ (l.foldl State.flush s).attention = s.attention := by
  induction l generalizing s with
  | nil => exact ⟨fun e he _ => ⟨by simp, he⟩, rfl, fun e he _ => he, id, .refl _, rfl, rfl, rfl, rfl, rfl, rfl⟩
  | cons p l ih =>
    obtain ⟨i1, i2, i3, i4, i5, i6, i7, i8, i9, i10, i11⟩ := ih (s.flush p)
    simp only [List.foldl_cons]
    refine ⟨?_, ?_, ?_, ?_, (DataPathFrame.flush s p).trans i5, by simp [i6], by simp [i7], by simp [i8], by simp [i9], by simp [i10],
      by simp [i11]⟩
    · intro e he hw
      obtain ⟨h1, h2⟩ := i1 e he hw
      rw [State.flush_pool, State.withdraw_pool, List.mem_map] at h2
      obtain ⟨x, hx, rfl⟩ := h2
      obtain ⟨k1, -, k3⟩ := State.withdrawnEntry_waiting hw
      rw [k1] at h1 ⊢
      simp only [beq_eq_false_iff_ne, ne_eq] at k3
      simp only [List.mem_cons, not_or]
      exact ⟨⟨k3, h1⟩, hx⟩
    · rw [i2, State.flush_pool, State.withdraw_pool, List.map_map]
      apply List.map_congr_left
      intro e _
      exact State.withdrawnEntry_pair _ _ _ _
    · intro e he hw
      apply i3 e _ hw
      rw [State.flush_pool, State.withdraw_pool, List.mem_map]
      exact ⟨e, he, by simp [State.withdrawnEntry, hw]⟩
    · intro h
      apply i4
      have := h.withdraw (fun e => e.partition == p) .aborted
      unfold State.ReservationKept at *
      rwa [State.flush_pool, State.flush_writes]

/-! ### The pool after several flushes -/

/-- Two pool entries that carry one pair are the same (R70). -/
theorem PoolEntry.unique {l : List PoolEntry} (h : (l.map PoolEntry.pair).Nodup) {x y : PoolEntry} (hx : x ∈ l) (hy : y ∈ l)
    (hp : x.pair = y.pair) : x = y :=
  List.inj_on_of_nodup_map h hx hy hp

/-- The withdrawal of other entries does not touch whether an entry's answer is held back (R89). -/
theorem State.withdraw_holdsBack {s : State} (chosen : PoolEntry → Bool) (status : WithdrawalStatus) {e : PoolEntry}
    (h : ∀ x ∈ s.pool, chosen x = true → x.pair ≠ e.pair) : (s.withdraw chosen status).holdsBack e = s.holdsBack e := by
  unfold State.holdsBack
  rw [State.withdraw_records, State.withdrawnRecords]
  congr 1
  rw [Bool.eq_iff_iff, List.any_eq_true, List.any_eq_true]
  have kept : ∀ r : OpenWrite, r.pair = e.pair → (s.pool.any fun x => x.reserves && chosen x && x.pair == r.pair) = false := by
    intro r hr
    rw [List.any_eq_false]
    rintro x hx k
    simp only [Bool.and_eq_true, beq_iff_eq] at k
    exact h x hx k.1.2 (k.2.trans hr)
  constructor
  · rintro ⟨x, hx, k⟩
    obtain ⟨r, hr, hrx⟩ := List.mem_filterMap.1 hx
    split at hrx
    · obtain ⟨hs, -⟩ := OpenWrite.afterWithdrawal_discarding hrx
      simp [hs] at k
    · cases hrx
      exact ⟨_, hr, k⟩
  · rintro ⟨r, hr, k⟩
    refine ⟨r, List.mem_filterMap.2 ⟨r, hr, ?_⟩, k⟩
    simp only [Bool.and_eq_true, beq_iff_eq] at k
    rw [if_neg (by rw [kept r k.1.1]; decide)]

/-- Two withdrawals with one status, one after the other, are one of the entries of either, where no two entries hold one pair (R70, R89). -/
theorem State.withdraw_twice {s : State} (h : (s.pool.map PoolEntry.pair).Nodup) (c d : PoolEntry → Bool) (status : WithdrawalStatus)
    {e : PoolEntry} (he : e ∈ s.pool) :
    (s.withdraw c status).withdrawnEntry d status (s.withdrawnEntry c status e) = s.withdrawnEntry (fun x => c x || d x) status e := by
  unfold State.withdrawnEntry
  by_cases hw : e.isWaiting = true
  · by_cases hc : c e = true
    · have : ∀ b : Bool, ({ e with state := .answering status b } : PoolEntry).isWaiting = false := fun _ => rfl
      simp [hw, hc, this]
    · have hb : (s.withdraw c status).holdsBack e = s.holdsBack e :=
        State.withdraw_holdsBack c status fun x hx hcx hp => hc (PoolEntry.unique h hx he hp ▸ hcx)
      simp [hw, hc, hb]
  · simp [hw]

/-- The pool after the flush of several partitions, where no two entries hold one pair: each WAITING entry of theirs is withdrawn (R124, R127). -/
theorem State.flush_each_pool (l : List PartitionId) {s : State} (h : (s.pool.map PoolEntry.pair).Nodup) :
    (l.foldl State.flush s).pool = s.pool.map (s.withdrawnEntry (fun e => l.contains e.partition) .aborted) := by
  induction l generalizing s with
  | nil =>
    refine (List.map_id _).symm.trans (List.map_congr_left fun e _ => ?_)
    simp [State.withdrawnEntry]
  | cons p l ih =>
    have hp : ((s.flush p).pool.map PoolEntry.pair) = s.pool.map PoolEntry.pair := by
      rw [State.flush_pool, State.withdraw_pool, List.map_map]
      exact List.map_congr_left fun e _ => s.withdrawnEntry_pair _ _ e
    rw [List.foldl_cons, ih (by rw [hp]; exact h), State.flush_pool, State.withdraw_pool, List.map_map]
    refine List.map_congr_left fun e he => ?_
    have same : ∀ x, (s.flush p).withdrawnEntry (fun e => l.contains e.partition) .aborted x =
        (s.withdraw (fun e => e.partition == p) .aborted).withdrawnEntry (fun e => l.contains e.partition) .aborted x := by
      intro x
      unfold State.withdrawnEntry State.holdsBack
      rw [State.flush_writes]
    rw [Function.comp_apply, same, State.withdraw_twice h _ _ _ he]
    simp only [List.contains_cons]

/-- What the flush of several partitions makes of each pool entry: one of theirs that is WAITING becomes ANSWERING with ABORTED, any other stays (R124). -/
theorem State.flush_each_entry (l : List PartitionId) (s : State) :
    List.Forall₂
      (fun e x =>
        if e.isWaiting = true ∧ e.partition ∈ l then ∃ released : Bool, x = { e with state := .answering .aborted released } else x = e)
      s.pool (l.foldl State.flush s).pool := by
  induction l generalizing s with
  | nil =>
    rw [List.foldl_nil, List.forall₂_same]
    intro e _
    simp
  | cons p l ih =>
    have rest := ih (s.flush p)
    rw [State.flush_pool, State.withdraw_pool] at rest
    rw [List.foldl_cons]
    refine (List.forall₂_map_left_iff.1 rest).imp fun e x h => ?_
    by_cases hw : e.isWaiting = true
    · by_cases hp : e.partition = p
      · have eq : s.withdrawnEntry (fun e => e.partition == p) .aborted e = { e with state := .answering .aborted (!s.holdsBack e) } := by
          simp [State.withdrawnEntry, hw, hp]
        rw [eq, if_neg (fun k => Bool.false_ne_true k.1)] at h
        rw [if_pos ⟨hw, by simp [hp]⟩]
        exact ⟨_, h⟩
      · simpa [State.withdrawnEntry, hw, hp] using h
    · simpa [State.withdrawnEntry, hw] using h

/-! ### Freeing DISCARDING records -/

/-- Releasing the answer for a pair: an entry is released by it, or is unchanged and WAITING or of another pair (R90). -/
theorem PoolEntry.releaseFor_cases (pair : Pair) (e : PoolEntry) :
    (e.releaseFor pair).isReleased = true ∨ (e.releaseFor pair = e ∧ (e.isWaiting = true ∨ e.pair ≠ pair)) := by
  unfold PoolEntry.releaseFor
  cases hs : e.state with
  | waiting => exact .inr ⟨rfl, .inl (by simp [PoolEntry.isWaiting, hs])⟩
  | answering status released =>
    dsimp only
    by_cases hp : e.pair = pair
    · left
      simp [hp, PoolEntry.isReleased]
    · right
      rw [if_neg hp]
      refine ⟨?_, .inr hp⟩
      cases e
      simp only at hs
      rw [hs]

/-- What freeing a list of DISCARDING records does (R90, R130). -/
theorem State.freeDiscarding_each (l : List OpenWrite) (s : State) :
    (l.foldl State.freeDiscarding s).restart = s.restart ∧ (l.foldl State.freeDiscarding s).flight = s.flight ∧
      (l.foldl State.freeDiscarding s).line = s.line ∧ (l.foldl State.freeDiscarding s).writes.reserved = s.writes.reserved ∧
      (l.foldl State.freeDiscarding s).intake = s.intake ∧ (l.foldl State.freeDiscarding s).counters = s.counters ∧
      (l.foldl State.freeDiscarding s).sched = s.sched ∧ (l.foldl State.freeDiscarding s).attention.queue = s.attention.queue ∧
      (l.foldl State.freeDiscarding s).port = s.port ∧ (l.foldl State.freeDiscarding s).free = s.free ∧
      (l.foldl State.freeDiscarding s).pool.map PoolEntry.pair = s.pool.map PoolEntry.pair ∧
      (∀ r, r ∈ (l.foldl State.freeDiscarding s).writes.records ↔ r ∈ s.writes.records ∧ ∀ x ∈ l, r.pair ≠ x.pair) ∧
      ∀ e ∈ (l.foldl State.freeDiscarding s).pool, e.isReleased = true ∨ (e ∈ s.pool ∧ (e.isWaiting = true ∨ ∀ x ∈ l, e.pair ≠ x.pair)) := by
  induction l generalizing s with
  | nil => exact ⟨rfl, rfl, rfl, rfl, rfl, rfl, rfl, rfl, rfl, rfl, rfl, fun r => by simp, fun e he => .inr ⟨he, .inr (by simp)⟩⟩
  | cons r l ih =>
    obtain ⟨i1, i2, i3, i4, i5, i6, i7, i8, i9, i10, i11, i12, i13⟩ := ih (s.freeDiscarding r)
    simp only [List.foldl_cons]
    have pool : (s.freeDiscarding r).pool = s.pool.map (PoolEntry.releaseFor r.pair) := by simp [State.freeDiscarding]
    have records : (s.freeDiscarding r).writes.records = s.writes.records.filter fun x => x.pair != r.pair := by
      simp [State.freeDiscarding]
    refine ⟨by simp [i1], by simp [i2], by simp [i3], by simp [i4], by simp [i5], by simp [i6], by simp [i7], by simp [i8], by simp [i9],
      by simp [i10], ?_, ?_, ?_⟩
    · rw [i11, pool, List.map_map]
      apply List.map_congr_left
      intro e _
      simp only [Function.comp, PoolEntry.releaseFor]
      split
      · rfl
      · split <;> rfl
    · intro x
      rw [i12, records, List.mem_filter]
      simp only [List.mem_cons, forall_eq_or_imp, bne_iff_ne, ne_eq, and_assoc]
    · intro e he
      rcases i13 e he with h | ⟨h, h2⟩
      · exact .inl h
      · rw [pool, List.mem_map] at h
        obtain ⟨y, hy, rfl⟩ := h
        rcases PoolEntry.releaseFor_cases r.pair y with hc | ⟨hc, hc2⟩
        · exact .inl hc
        · rw [hc] at h2 ⊢
          refine .inr ⟨hy, ?_⟩
          rcases hc2 with hc2 | hc2
          · exact .inl hc2
          · rcases h2 with h2 | h2
            · exact .inl h2
            · right
              simpa [hc2] using h2

end Machine
end Sys2Proof
end

