-- ==== Sys2Proof/Laws/Work.lean ====
section
/-! SUPPORT. The work in the part: acceptance, what holds closing back, and the records and pairs as entries come, change and leave. -/

namespace Sys2Proof
namespace Machine

/-- A request that is accepted met none of the checks 1 to 10 (R63). -/
theorem State.verdict_accepted {s : State} {r : Request} {p : PartitionId} (h : s.verdict r = .accepted p) :
    s.restart.phase = .idle ∧ r.wellShaped = true ∧ r.pair ∉ s.intake.heldPairs ∧ (s.parts[p].state = .run ∨ s.parts[p].state = .hold) ∧
      s.heldCount p ≠ s.parts[p].quota ∧ (r.kind = some .write → s.writeRoom r.beats = true) := by
  unfold State.verdict at h
  split at h; · cases h
  rename_i h1
  split at h; · cases h
  rename_i h2
  split at h; · cases h
  rename_i h3
  split at h; · cases h
  rename_i q _
  have key : s.admits r q = .accepted p →
      q = p ∧ s.heldCount q ≠ s.parts[q].quota ∧ (r.kind = some .write → s.writeRoom r.beats = true) := by
    unfold State.admits
    intro h
    split at h; · cases h
    split at h; · cases h
    rename_i h5
    split at h; · cases h
    rename_i h6
    cases h
    refine ⟨rfl, h5, ?_⟩
    intro hk
    simpa [hk] using h6
  have base : s.restart.phase = .idle ∧ r.wellShaped = true ∧ r.pair ∉ s.intake.heldPairs :=
    ⟨by simpa using h1, by simpa using h2, by simpa using h3⟩
  split at h
  · cases h
  · cases h
  · rename_i hs
    obtain ⟨rfl, k1, k2⟩ := key h
    exact ⟨base.1, base.2.1, base.2.2, .inl hs, k1, k2⟩
  · rename_i hs
    obtain ⟨rfl, k1, k2⟩ := key h
    exact ⟨base.1, base.2.1, base.2.2, .inr hs, k1, k2⟩

/-- The entry an accepted request becomes stands at the end of the pool (R74). -/
theorem State.accept_pool (s : State) (r : Request) (p : PartitionId) :
    ∃ e, (s.accept r p).pool = s.pool ++ [e] ∧ e.partition = p ∧ e.pair = r.pair ∧ e.state = .waiting ∧ e.beats = r.beats ∧
      (r.kind = some .write → e.kind = .write ∧ e.dataComplete = some false) ∧ (r.kind ≠ some .write → e.kind = .read) := by
  unfold State.accept
  dsimp only
  cases hk : r.kind with
  | none =>
    exact
      ⟨(s.countPart p fun c => { c with accepted := c.accepted + 1 }).newEntry r p .read,
        by simp [State.enqueue], rfl, rfl, rfl, rfl, by simp, by intro; rfl⟩
  | some k =>
    cases k with
    | read =>
      exact
        ⟨(s.countPart p fun c => { c with accepted := c.accepted + 1 }).newEntry r p .read,
          by simp [State.enqueue], rfl, rfl, rfl, rfl, by simp, by intro; rfl⟩
    | write =>
      exact
        ⟨(s.countPart p fun c => { c with accepted := c.accepted + 1 }).newEntry r p .write,
          by simp [State.enqueue], rfl, rfl, rfl, rfl, by intro; exact ⟨rfl, rfl⟩, by simp⟩

/-- A vector as a list around one place, and the same list with that place replaced. -/
theorem vector_split {α : Type} {n : Nat} (v : Vector α n) (d : Fin n) :
    ∃ before after, v.toList = before ++ v[d] :: after ∧ ∀ x, (v.set d x).toList = before ++ x :: after := by
  refine ⟨v.toList.take d, v.toList.drop (d+1), ?_, fun x => ?_⟩
  · have : v.toList = v.toList.set d v[d] := by
      rw [← Vector.toList_set]; congr 1; exact (Vector.set_getElem_self d.isLt).symm
    conv_lhs => rw [this, List.set_eq_take_append_cons_drop]
    simp
  · rw [Vector.toList_set, List.set_eq_take_append_cons_drop]
    simp

/-- A place of a vector after one place is replaced. -/
theorem vector_set_get {α : Type} {n : Nat} (v : Vector α n) (d e : Fin n) (x : α) : (v.set d x)[e] = if d = e then x else v[e] := by
  rw [Fin.getElem_fin, Vector.getElem_set]
  simp only [Fin.ext_iff]; rfl

/-- The entry an issue takes is FREE (R56). -/
theorem State.lowestFree_free {s : State} {d : DTag} (h : s.lowestFree = some d) : s.flight.table[d] = .free := by
  have := List.find?_some h
  revert this
  cases s.flight.table[d] <;> simp [FlightEntry.isFree]

/-- Where nothing is left to drain no in-flight entry holds a pair (R129). -/
theorem State.drained_flight {s : State} (h : s.drained = true) (d : DTag) : s.flight.table[d].heldPair = none := by
  unfold State.drained at h
  simp only [Bool.and_eq_true, List.all_eq_true] at h
  have := h.1.1 s.flight.table[d] (by simp)
  simpa using this

/-- Releasing an answer leaves the pair. -/
theorem PoolEntry.releaseFor_pair (pair : Pair) (e : PoolEntry) : (e.releaseFor pair).pair = e.pair := by
  unfold PoolEntry.releaseFor
  split
  · rfl
  · split <;> rfl

/-- Releasing an answer leaves the partition. -/
theorem PoolEntry.releaseFor_partition (pair : Pair) (e : PoolEntry) : (e.releaseFor pair).partition = e.partition := by
  unfold PoolEntry.releaseFor
  split
  · rfl
  · split <;> rfl

/-- What is WAITING after an answer is released was WAITING before. -/
theorem PoolEntry.releaseFor_waiting (pair : Pair) (e : PoolEntry) (h : (e.releaseFor pair).isWaiting = true) :
    e.isWaiting = true := by
  rcases PoolEntry.releaseFor_cases pair e with hc | hc
  · unfold PoolEntry.isReleased at hc; unfold PoolEntry.isWaiting at h
    revert hc h
    cases (e.releaseFor pair).state <;> simp
  · rw [hc.1] at h; exact h

/-- A withdrawal leaves the pairs of the pool. -/
theorem State.withdraw_pairs (s : State) (chosen : PoolEntry → Bool) (status : WithdrawalStatus) :
    (s.withdraw chosen status).pool.map PoolEntry.pair = s.pool.map PoolEntry.pair := by
  rw [State.withdraw_pool, List.map_map]
  congr 1; funext e; exact State.withdrawnEntry_pair _ _ _ _

/-- No two pool entries carry one pair (R70). -/
theorem State.PairsKept.poolNodup {s : State} (h : s.PairsKept) : (s.pool.map PoolEntry.pair).Nodup := by
  have := h.2.nodup_iff.1 h.1
  rw [State.carriedPairs, List.nodup_append] at this
  exact this.1

/-- A pair that is not held is the pair of no pool entry (R70). -/
theorem State.PairsKept.notHeld {s : State} (h : s.PairsKept) {pair : Pair} (hp : pair ∉ s.intake.heldPairs) :
    ∀ e ∈ s.pool, e.pair ≠ pair := by
  rintro e he rfl
  apply hp
  rw [h.2.mem_iff, State.carriedPairs, List.mem_append]
  exact .inl (List.mem_map_of_mem he)

/-- A pair that leaves both the held-pair set and what carries it (R70). -/
theorem State.PairsKept.leave {s u : State} (h : s.PairsKept) (x : Pair) (hp : s.carriedPairs.Perm (x :: u.carriedPairs))
    (hh : u.intake.heldPairs = s.intake.heldPairs.erase x) : u.PairsKept := by
  obtain ⟨a, b⟩ := h
  refine ⟨by rw [hh]; exact a.erase x, ?_⟩
  rw [hh]
  have := (b.trans hp).erase x
  simpa using this

/-- Two records that hold one pair are the same (R70). -/
theorem OpenWrite.unique {l : List OpenWrite} (h : (l.map OpenWrite.pair).Nodup) {x y : OpenWrite} (hx : x ∈ l) (hy : y ∈ l)
    (hp : x.pair = y.pair) : x = y :=
  List.inj_on_of_nodup_map h hx hy hp

/-- What the records satisfy depends on the pool and the records alone. -/
theorem State.RecordsKept.of {s u : State} (h : s.RecordsKept) (hp : u.pool = s.pool) (hr : u.writes.records = s.writes.records) : u.RecordsKept := by
  unfold State.RecordsKept at *
  rw [hp, hr]; exact h

/-- A withdrawal keeps the records in step with the pool (R38, R83, R89). -/
theorem State.RecordsKept.withdraw {s : State} (h : s.RecordsKept) (hn : (s.pool.map PoolEntry.pair).Nodup) (c : PoolEntry → Bool)
    (x : WithdrawalStatus) : (s.withdraw c x).RecordsKept := by
  obtain ⟨h1, h2, h3, h4⟩ := h
  have hrec : (s.withdraw c x).writes.records = s.withdrawnRecords c := rfl
  have sub : ((s.withdrawnRecords c).map OpenWrite.pair).Sublist (s.writes.records.map OpenWrite.pair) := by
    unfold State.withdrawnRecords
    generalize s.writes.records = l
    induction l with
    | nil => exact .refl _
    | cons a l ih =>
      rw [List.filterMap_cons]
      split
      · exact ih.cons _
      · rename_i y hy
        have : y.pair = a.pair := by
          split at hy
          · exact (OpenWrite.afterWithdrawal_discarding hy).2
          · cases hy; rfl
        rw [List.map_cons, List.map_cons, this]
        exact ih.cons_cons _
  -- when a record is hit, its owner is the chosen waiting write
  have hit : ∀ r ∈ s.writes.records, ∀ e ∈ s.pool, r.Owns e → r.state ≠ .discarding →
      (s.pool.any (fun e => e.reserves && c e && e.pair == r.pair)) = c e := by
    intro r hr e he ho hs
    have hw : e.isWaiting = true ∧ e.kind = .write ∧ e.pair = r.pair := by
      unfold OpenWrite.Owns at ho
      obtain ⟨a, b, _, _, g⟩ := ho
      refine ⟨?_, b, a⟩
      unfold PoolEntry.isWaiting
      split at g
      · rw [g.1]
      · rw [g.1]
      · rename_i hh; exact absurd hh hs
    rw [Bool.eq_iff_iff, List.any_eq_true]
    constructor
    · rintro ⟨y, hy, hh⟩
      simp only [Bool.and_eq_true, beq_iff_eq] at hh
      have := PoolEntry.unique hn hy he (hh.2.trans hw.2.2.symm)
      subst this; exact hh.1.2
    · intro hc
      exact ⟨e, he, by simp [PoolEntry.reserves, hw, hc]⟩
  refine ⟨?_, ?_, ?_, ?_⟩
  · rw [hrec]
    have := sub.length_le; simp only [List.length_map] at this
    exact this.trans h1
  · rw [hrec]; exact h2.sublist sub
  · intro r' hr'
    rw [hrec] at hr'
    unfold State.withdrawnRecords at hr'
    rw [List.mem_filterMap] at hr'
    obtain ⟨r, hr, hh⟩ := hr'
    obtain ⟨hf, e, he, ho⟩ := h3 r hr
    by_cases hs : r.state = .discarding
    · have : r' = r := by
        unfold OpenWrite.afterWithdrawal at hh
        rw [hs] at hh
        split at hh <;> cases hh <;> rfl
      subst this
      refine ⟨hf, e, ?_, ho⟩
      rw [State.withdraw_pool, List.mem_map]
      refine ⟨e, he, ?_⟩
      unfold OpenWrite.Owns at ho
      rw [hs] at ho
      obtain ⟨_, _, _, _, st, g⟩ := ho
      simp [State.withdrawnEntry, PoolEntry.isWaiting, g]
    · rw [hit r hr e he ho hs] at hh
      have ho' := ho
      unfold OpenWrite.Owns at ho
      obtain ⟨a, b, p, bt, g⟩ := ho
      have hw : e.isWaiting = true := by
        unfold PoolEntry.isWaiting
        split at g
        · rw [g.1]
        · rw [g.1]
        · rename_i hh; exact absurd hh hs
      cases hc : c e
      · rw [hc] at hh
        simp only [Bool.false_eq_true, if_false, Option.some.injEq] at hh
        subst hh
        refine ⟨hf, e, ?_, ho'⟩
        rw [State.withdraw_pool, List.mem_map]
        exact ⟨e, he, by simp [State.withdrawnEntry, hc]⟩
      · rw [hc] at hh
        simp only [if_true] at hh
        unfold OpenWrite.afterWithdrawal at hh
        split at hh
        · cases hh
        · rename_i hst
          split at hh
          · cases hh
          · rename_i h0
            cases hh
            unfold OpenWrite.Fields at hf
            rw [hst] at hf
            refine ⟨⟨rfl, by show 1 ≤ r.received; omega, hf.2.1, rfl⟩, s.withdrawnEntry c x e, ?_, ?_⟩
            · rw [State.withdraw_pool]; exact List.mem_map_of_mem he
            · have hb : s.holdsBack e = true := by
                unfold State.holdsBack
                rw [b]
                simp only [beq_self_eq_true, Bool.true_and, List.any_eq_true]
                exact ⟨r, hr, by simp [a, hst]; omega⟩
              refine ⟨?_, ?_, ?_, ?_, x, ?_⟩
              all_goals simp [State.withdrawnEntry, hw, hc, hb, a, b, p, bt]
        · rename_i hst; exact absurd hst hs
  · intro e' he' hN
    rw [State.withdraw_pool, List.mem_map] at he'
    obtain ⟨e, he, rfl⟩ := he'
    rw [State.withdrawnEntry_pair]
    have build : ∀ r ∈ s.writes.records, r.pair = e.pair → ∀ y,
        (if s.pool.any (fun e => e.reserves && c e && e.pair == r.pair) then r.afterWithdrawal else some r) = some y →
          ∃ r ∈ (s.withdraw c x).writes.records, r.pair = e.pair := by
      intro r hr hp y hy
      refine ⟨y, ?_, ?_⟩
      · rw [hrec]; unfold State.withdrawnRecords; rw [List.mem_filterMap]; exact ⟨r, hr, hy⟩
      · rw [← hp]
        split at hy
        · exact (OpenWrite.afterWithdrawal_discarding hy).2
        · cases hy; rfl
    by_cases hch : (e.isWaiting && c e) = true
    · rw [Bool.and_eq_true] at hch
      have e1 : (s.withdrawnEntry c x e).state = .answering x (!s.holdsBack e) := by simp [State.withdrawnEntry, hch]
      rcases hN with hN | ⟨st, hN⟩
      · rw [e1] at hN; cases hN.1
      · rw [e1] at hN
        have hb : s.holdsBack e = true := by
          cases hq : s.holdsBack e
          · rw [hq] at hN; cases hN
          · rfl
        unfold State.holdsBack at hb
        rw [Bool.and_eq_true, List.any_eq_true] at hb
        obtain ⟨_, r, hr, hh⟩ := hb
        simp only [Bool.and_eq_true, beq_iff_eq, decide_eq_true_eq] at hh
        apply build r hr hh.1.1 { r with state := .discarding, owner := none, stored := [] }
        obtain ⟨_, e2, he2, ho2⟩ := h3 r hr
        have : e2 = e := PoolEntry.unique hn he2 he (ho2.1.trans hh.1.1)
        subst this
        rw [hit r hr e2 he2 ho2 (by rw [hh.1.2]; decide), if_pos hch.2]
        unfold OpenWrite.afterWithdrawal
        rw [hh.1.2]; dsimp only; rw [if_neg (by omega)]
    · have e1 : s.withdrawnEntry c x e = e := by unfold State.withdrawnEntry; rw [if_neg hch]
      rw [e1] at hN
      obtain ⟨r, hr, hp⟩ := h4 e he hN
      apply build r hr hp r
      obtain ⟨_, e2, he2, ho2⟩ := h3 r hr
      have : e2 = e := PoolEntry.unique hn he2 he (ho2.1.trans hp)
      subst this
      by_cases hs : r.state = .discarding
      · unfold OpenWrite.afterWithdrawal; rw [hs]; split <;> rfl
      · rw [hit r hr e2 he2 ho2 hs]
        have hw : e2.isWaiting = true := by
          obtain ⟨_, _, _, _, g⟩ := ho2
          unfold PoolEntry.isWaiting
          split at g
          · rw [g.1]
          · rw [g.1]
          · rename_i hh; exact absurd hh hs
        rw [hw] at hch
        simp only [Bool.true_and] at hch
        rw [if_neg hch]

/-- An entry that leaves the pool together with the records of its pair keeps the rest in step (R55, R88). -/
theorem State.RecordsKept.drop {s u : State} (h : s.RecordsKept) (hn : (s.pool.map PoolEntry.pair).Nodup) {before after : List PoolEntry}
    {e : PoolEntry} (hp : s.pool = before ++ e :: after) (hu : u.pool = before ++ after)
    (hr : u.writes.records = s.writes.records.filter fun r => r.pair != e.pair) : u.RecordsKept := by
  obtain ⟨h1, h2, h3, h4⟩ := h
  have other : ∀ y ∈ u.pool, y.pair ≠ e.pair := by
    intro y hy hyp
    rw [hu] at hy
    rw [hp, List.map_append, List.map_cons] at hn
    have := (List.nodup_middle.1 hn)
    rw [List.nodup_cons] at this
    apply this.1
    rw [← List.map_append, ← hyp]
    exact List.mem_map_of_mem hy
  refine ⟨?_, ?_, ?_, ?_⟩
  · rw [hr]; exact (List.length_filter_le _ _).trans h1
  · rw [hr]; exact h2.sublist (List.filter_sublist.map _)
  · intro r hrm
    rw [hr, List.mem_filter] at hrm
    obtain ⟨hf, y, hy, ho⟩ := h3 r hrm.1
    refine ⟨hf, y, ?_, ho⟩
    rw [hu]; rw [hp] at hy
    simp only [List.mem_append, List.mem_cons] at hy ⊢
    rcases hy with hy | rfl | hy
    · exact .inl hy
    · have := hrm.2; simp [ho.1] at this
    · exact .inr hy
  · intro y hy hN
    obtain ⟨r, hrm, hpair⟩ := h4 y (by rw [hp]; rw [hu] at hy; simp only [List.mem_append, List.mem_cons] at hy ⊢; tauto) hN
    refine ⟨r, ?_, hpair⟩
    rw [hr, List.mem_filter]
    exact ⟨hrm, by simp [hpair, other y hy]⟩

/-- An entry that no record belongs to may leave the pool alone (R39, R55). -/
theorem State.RecordsKept.dropUnowned {s u : State} (h : s.RecordsKept) (hn : (s.pool.map PoolEntry.pair).Nodup) {before after : List PoolEntry}
    {e : PoolEntry} (hp : s.pool = before ++ e :: after) (hu : u.pool = before ++ after) (hr : u.writes.records = s.writes.records)
    (hno : ∀ r : OpenWrite, ¬ r.Owns e) : u.RecordsKept := by
  apply h.drop hn hp hu
  rw [hr]
  symm
  rw [List.filter_eq_self]
  intro r hrm
  obtain ⟨_, y, hy, ho⟩ := h.2.2.1 r hrm
  simp only [bne_iff_ne, ne_eq]
  intro hpe
  have : y = e := PoolEntry.unique hn hy (by rw [hp]; simp) (ho.1.trans hpe)
  subst this; exact hno r ho

/-- Freeing a DISCARDING record keeps the rest in step (R90). -/
theorem State.RecordsKept.free {s : State} (h : s.RecordsKept) (hn : (s.pool.map PoolEntry.pair).Nodup) (r : OpenWrite) (hr : r ∈ s.writes.records)
    (hs : r.state = .discarding) : (s.freeDiscarding r).RecordsKept := by
  obtain ⟨h1, h2, h3, h4⟩ := h
  unfold State.freeDiscarding
  refine State.RecordsKept.of (s := { s with
    pool := s.pool.map (PoolEntry.releaseFor r.pair)
    writes := { s.writes with records := s.writes.records.filter fun x => x.pair != r.pair } }) ?_ (by simp) (by simp)
  refine ⟨(List.length_filter_le _ _).trans h1, h2.sublist (List.filter_sublist.map _), ?_, ?_⟩
  · intro x hx
    have hx : x ∈ s.writes.records ∧ x.pair ≠ r.pair := by simpa [List.mem_filter] using hx
    obtain ⟨hf, e, he, ho⟩ := h3 x hx.1
    refine ⟨hf, e, ?_, ho⟩
    rw [List.mem_map]
    refine ⟨e, he, ?_⟩
    rcases PoolEntry.releaseFor_cases r.pair e with hc | hc
    · unfold PoolEntry.releaseFor
      split
      · rfl
      · rename_i st rel hst
        rw [if_neg (by rw [ho.1]; exact hx.2)]
        cases e; simp only at hst; rw [hst]
    · exact hc.1
  · intro y hy hN
    rw [List.mem_map] at hy
    obtain ⟨e, he, rfl⟩ := hy
    rcases PoolEntry.releaseFor_cases r.pair e with hc | ⟨hc, hc2⟩
    · exfalso
      unfold PoolEntry.isReleased at hc
      rcases hN with hN | ⟨st, hN⟩
      · rw [hN.1] at hc; cases hc
      · rw [hN] at hc; cases hc
    · rw [hc] at hN ⊢
      obtain ⟨x, hx, hp⟩ := h4 e he hN
      refine ⟨x, ?_, hp⟩
      simp only [List.mem_filter, bne_iff_ne, ne_eq]
      refine ⟨hx, ?_⟩
      rw [hp]
      rcases hc2 with hw | hne
      · intro hep
        obtain ⟨_, e2, he2, ho2⟩ := h3 x hx
        -- x and r have one pair, so are one record, which is discarding: its owner answers
        have : x = r := OpenWrite.unique h2 hx hr (hp.trans hep)
        subst this
        -- e waiting with pair of r
        rcases hN with hN | ⟨st, hN⟩
        · have : e2 = e := PoolEntry.unique hn he2 he (ho2.1.trans hp)
          subst this
          unfold OpenWrite.Owns at ho2
          rw [hs] at ho2
          obtain ⟨_, _, _, _, st, g⟩ := ho2
          rw [g] at hN; cases hN.1
        · unfold PoolEntry.isWaiting at hw; rw [hN] at hw; cases hw
      · exact hne

/-- A record that changes, with what the pool entry of its pair becomes, keeps the rest in step (R85, R90). -/
theorem State.RecordsKept.update {s u : State} {r : OpenWrite} (h : s.RecordsKept) (hr : r ∈ s.writes.records) (f : OpenWrite → OpenWrite)
    (hf : ∀ x, (f x).pair = x.pair) {g : PoolEntry → PoolEntry}
    (hu : u.writes.records = s.writes.records.map fun x => if x.pair = r.pair then f x else x) (hp : u.pool = s.pool.map g)
    (hg : ∀ e ∈ s.pool, e.pair ≠ r.pair → g e = e) (hgp : ∀ e, (g e).pair = e.pair)
    (hgN : ∀ e ∈ s.pool, (g e).NeedsRecord → e.NeedsRecord) (own : ∀ e ∈ s.pool, r.Owns e → (f r).Owns (g e)) (fld : (f r).Fields) :
    u.RecordsKept := by
  obtain ⟨h1, h2, h3, h4⟩ := h
  have hpair : ∀ x : OpenWrite, (if x.pair = r.pair then f x else x).pair = x.pair := by intro x; split; exact hf x; rfl
  refine ⟨?_, ?_, ?_, ?_⟩
  · rw [hu, List.length_map]; exact h1
  · rw [hu, List.map_map]
    have : (OpenWrite.pair ∘ fun x => if x.pair = r.pair then f x else x) = OpenWrite.pair := by funext x; exact hpair x
    rw [this]; exact h2
  · intro y hy
    rw [hu, List.mem_map] at hy
    obtain ⟨x, hx, rfl⟩ := hy
    obtain ⟨hfx, e, he, ho⟩ := h3 x hx
    by_cases hxr : x.pair = r.pair
    · have := OpenWrite.unique h2 hx hr hxr
      subst this
      rw [if_pos rfl]
      exact ⟨fld, g e, by rw [hp]; exact List.mem_map_of_mem he, own e he ho⟩
    · rw [if_neg hxr]
      refine ⟨hfx, e, ?_, ho⟩
      rw [hp, List.mem_map]
      exact ⟨e, he, hg e he (by rw [ho.1]; exact hxr)⟩
  · intro y hy hN
    rw [hp, List.mem_map] at hy
    obtain ⟨e, he, rfl⟩ := hy
    obtain ⟨x, hx, hxp⟩ := h4 e he (hgN e he hN)
    refine ⟨_, by rw [hu]; exact List.mem_map_of_mem hx, ?_⟩
    rw [hpair, hxp, hgp]

/-- More outstanding work keeps what closing asks for. -/
theorem State.ClosingKept.of {s u : State} (h : s.ClosingKept) (hp : u.parts = s.parts)
    (ho : ∀ p, s.outstanding p = true → u.outstanding p = true) : u.ClosingKept := by
  intro p hc; rw [hp] at hc; exact ho p (h p hc)

/-- The closing check of a partition settles that partition (R32). -/
theorem State.ClosingKept.check {s : State} (p : PartitionId) (h : ∀ q, q ≠ p → s.parts[q].state = .closing → s.outstanding q = true) :
    (s.closingCheck p).ClosingKept := by
  intro q hc
  have ho : (s.closingCheck p).outstanding q = s.outstanding q := by simp [State.outstanding]
  rw [ho]
  unfold State.closingCheck at hc
  split at hc
  · change (modifyAt s.parts p _)[q].state = _ at hc
    rw [modifyAt_get] at hc
    split at hc
    · cases hc
    · rename_i hne; exact h q (fun e => hne e.symm) hc
  · rename_i hb
    by_cases hq : q = p
    · subst hq
      simp only [Bool.and_eq_true, beq_iff_eq, Bool.not_eq_true', not_and, Bool.not_eq_false] at hb
      exact hb hc
    · exact h q hq hc

end Machine
end Sys2Proof
end

