-- ==== Sys2Proof/Laws/Ages.lean ====
section
/-! SUPPORT. The head ages are handed to their monitors at every change: slot starts, acceptance into an empty queue, issue, withdrawal and flush (R41). -/

namespace Sys2Proof
namespace Machine

/-! ### Stale head ages -/

/-- Every enabled AGE monitor has a current last result, but for those of a partition among `ps`. -/
def State.AgesBut (s : State) (ps : List PartitionId) : Prop :=
  ∀ i : Fin 4, s.monitors[i].enabled = true → s.monitors[i].object = .age → byteIndex 8 s.monitors[i].argument ∉ ps →
    s.monitors[i].last = s.monitors[i].result (s.quantity s.monitors[i].quantity)

theorem State.agesBut_nil (s : State) : s.AgesBut [] ↔ s.AgesCurrent := by simp [State.AgesBut, State.AgesCurrent]

theorem State.AgesBut.current {s : State} (h : s.AgesBut []) : s.AgesCurrent := s.agesBut_nil.1 h

theorem State.AgesCurrent.but {s : State} (h : s.AgesCurrent) : s.AgesBut [] := s.agesBut_nil.2 h

/-- A monitor watches a head age exactly when its object is AGE (R141). -/
theorem Monitor.quantity_age {m : Monitor} (h : m.object = .age) : m.quantity = .age (byteIndex 8 m.argument) := by simp [Monitor.quantity, h]

theorem Monitor.quantity_age_only {m : Monitor} {p : PartitionId} (h : m.quantity = .age p) : m.object = .age ∧ byteIndex 8 m.argument = p := by
  revert h
  unfold Monitor.quantity
  cases m.object <;> simp

theorem State.AgesBut.weaken {s : State} {ps qs : List PartitionId} (h : s.AgesBut ps) (sub : ∀ p ∈ ps, p ∈ qs) : s.AgesBut qs :=
  fun i hi ho hq => h i hi ho fun k => hq (sub _ k)

/-- An update that leaves the monitors makes stale the head ages that it changes. -/
theorem State.AgesBut.update {s u : State} {ps qs : List PartitionId} (h : s.AgesBut ps) (m : u.monitors = s.monitors)
    (age : ∀ p, p ∉ qs → u.headAge p = s.headAge p) : u.AgesBut (qs ++ ps) := by
  intro i hi ho hq
  rw [m] at hi ho hq ⊢
  rw [List.mem_append, not_or] at hq
  rw [h i hi ho hq.2, Monitor.quantity_age ho]
  show _ = s.monitors[i].result (u.headAge _).toNat
  rw [age _ hq.1]
  rfl

/-- Handing a value out leaves no more stale, and the head age that is handed out is current (R142). -/
theorem State.AgesBut.hand {s : State} {ps : List PartitionId} (h : s.AgesBut ps) (q : Quantity) :
    (s.hand q).AgesBut (ps.filter fun p => q != .age p) := by
  intro i hi ho hq
  rw [State.hand_monitor] at hi ho hq ⊢
  rw [State.hand_quantity]
  unfold Monitor.evaluate at hi ho hq ⊢
  split
  · rename_i hh
    simp only [Monitor.hears, Bool.and_eq_true, beq_iff_eq] at hh
    show s.monitors[i].result (s.quantity q) = s.monitors[i].result (s.quantity s.monitors[i].quantity)
    rw [hh.2]
  · rename_i hh
    rw [if_neg hh] at hi ho hq
    apply h i hi ho
    intro k
    apply hq
    rw [List.mem_filter]
    refine ⟨k, ?_⟩
    rw [bne_iff_ne, ne_eq, ← Monitor.quantity_age ho]
    simp only [Monitor.hears, hi, Bool.true_and, beq_iff_eq] at hh
    exact fun e => hh e.symm

theorem State.AgesBut.handAll {s : State} {ps : List PartitionId} (h : s.AgesBut ps) (qs : List Quantity) :
    (s.handAll qs).AgesBut (ps.filter fun p => decide (.age p ∉ qs)) := by
  induction qs generalizing s ps with
  | nil => exact h.weaken (by simp)
  | cons q qs ih =>
    refine (ih (s := s.hand q) (h.hand q)).weaken fun p hp => ?_
    simp only [List.mem_filter, bne_iff_ne, ne_eq, decide_eq_true_eq, List.mem_cons, not_or] at hp ⊢
    exact ⟨hp.1.1, fun e => hp.1.2 e.symm, hp.2⟩

/-- An event that hands out no head age and changes none leaves as many stale. -/
theorem State.AgesBut.sends {s u : State} {ps : List PartitionId} {c : List Cause} {l : List Quantity} (h : s.AgesBut ps) (k : Sends s u c l)
    (silent : ∀ p, Quantity.age p ∉ l) (age : ∀ p, u.headAge p = s.headAge p) : u.AgesBut ps := by
  intro i hi ho hq
  have hi' := (k.same.enabled i).symm.trans hi
  have object : u.monitors[i].object = s.monitors[i].object := by rw [← k.same i]
  have argument : u.monitors[i].argument = s.monitors[i].argument := by rw [← k.same i]
  rw [object] at ho
  rw [argument] at hq
  obtain ⟨e, -⟩ := k.emits.monitors.others i (.inr (by rw [Monitor.quantity_age ho]; exact silent _))
  rw [e, h i hi' ho hq, Monitor.quantity_age ho]
  show _ = s.monitors[i].result (u.headAge _).toNat
  rw [age]
  rfl

theorem State.AgesCurrent.sends {s u : State} {c : List Cause} {l : List Quantity} (h : s.AgesCurrent) (k : Sends s u c l)
    (silent : ∀ p, Quantity.age p ∉ l) (age : ∀ p, u.headAge p = s.headAge p) : u.AgesCurrent := (h.but.sends k silent age).current

/-- Handing out a changed head age makes it current again. -/
theorem State.AgesCurrent.handChanged {before s : State} (h : before.AgesCurrent) (m : s.monitors = before.monitors) (p : PartitionId)
    (age : ∀ q, q ≠ p → s.headAge q = before.headAge q) : (s.handChanged before [.age p, .wbuf]).AgesCurrent := by
  have stale : s.AgesBut [p] := h.but.update (qs := [p]) m fun q hq => age q (by simpa using hq)
  have first : (if s.quantity (.age p) = before.quantity (.age p) then s else s.hand (.age p)).AgesCurrent := by
    split
    · rename_i same
      refine State.AgesBut.current (h.but.update m (qs := []) fun q _ => ?_)
      by_cases hq : q = p
      · subst hq
        exact BitVec.eq_of_toNat_eq same
      · exact age q hq
    · refine State.AgesBut.current ((stale.hand (.age p)).weaken ?_)
      simp
  simp only [State.handChanged, List.foldl_cons, List.foldl_nil]
  generalize (if s.quantity (.age p) = before.quantity (.age p) then s else s.hand (.age p)) = u at first
  split
  · exact first
  · exact State.AgesBut.current ((first.but.hand .wbuf).weaken (by simp))

/-! ### What leaves the head ages -/

/-- The head age is read from the queue and the slot count alone (R41). -/
theorem State.headAge_of {s u : State} (pool : u.pool = s.pool) (count : u.sched.slotCount = s.sched.slotCount) (p : PartitionId) :
    u.headAge p = s.headAge p := by
  unfold State.headAge State.head
  rw [pool, count]

/-- Entries that stay where they are in their queues leave the head age. -/
theorem State.headAge_map {s u : State} {f : PoolEntry → PoolEntry} (p : PartitionId) (pool : u.pool = s.pool.map f)
    (count : u.sched.slotCount = s.sched.slotCount) (queue : ∀ e ∈ s.pool, (f e).inQueue p = e.inQueue p)
    (stamp : ∀ e, (f e).stamp = e.stamp) : u.headAge p = s.headAge p := by
  have found : ∀ l : List PoolEntry, (∀ e ∈ l, (f e).inQueue p = e.inQueue p) →
      (l.map f).find? (PoolEntry.inQueue p) = (l.find? (PoolEntry.inQueue p)).map f := by
    intro l
    induction l with
    | nil => exact fun _ => rfl
    | cons e l ih =>
      intro hl
      rw [List.map_cons, List.find?_cons, List.find?_cons, hl e (by simp)]
      split
      · rfl
      · exact ih fun x hx => hl x (by simp [hx])
  unfold State.headAge State.head
  rw [pool, count, found _ queue]
  cases s.pool.find? (PoolEntry.inQueue p) with
  | none => rfl
  | some e =>
    show _ - (f e).stamp = _
    rw [stamp]

theorem PoolEntry.releaseFor_inQueue (pair : Pair) (p : PartitionId) (e : PoolEntry) : (e.releaseFor pair).inQueue p = e.inQueue p := by
  unfold PoolEntry.releaseFor
  split
  · rfl
  · rename_i h
    split <;> simp [PoolEntry.inQueue, PoolEntry.isWaiting, h]

theorem PoolEntry.releaseFor_stamp (pair : Pair) (e : PoolEntry) : (e.releaseFor pair).stamp = e.stamp := by
  unfold PoolEntry.releaseFor
  split
  · rfl
  · split <;> rfl

theorem PoolEntry.completeFor_inQueue (owner : Option Pair) (p : PartitionId) (e : PoolEntry) : (e.completeFor owner).inQueue p = e.inQueue p := by
  unfold PoolEntry.completeFor
  split <;> rfl

theorem PoolEntry.completeFor_stamp (owner : Option Pair) (e : PoolEntry) : (e.completeFor owner).stamp = e.stamp := by
  unfold PoolEntry.completeFor
  split <;> rfl

/-- A withdrawal leaves the head age of a partition of which it withdraws nothing. -/
theorem State.headAge_withdraw (s : State) (chosen : PoolEntry → Bool) (status : WithdrawalStatus) (p : PartitionId)
    (none : ∀ e ∈ s.pool, e.inQueue p = true → chosen e = false) : (s.withdraw chosen status).headAge p = s.headAge p := by
  refine State.headAge_map p (s.withdraw_pool chosen status) rfl (fun e he => ?_) fun e => ?_
  · unfold State.withdrawnEntry
    split
    · rename_i hc
      rw [Bool.and_eq_true] at hc
      cases hq : e.inQueue p
      · rfl
      · rw [none e he hq] at hc
        cases hc.2
    · rfl
  · unfold State.withdrawnEntry
    split <;> rfl

/-- The entries that leave the pool without standing in a queue leave the head ages. -/
theorem State.headAge_eraseP {s u : State} (f : PoolEntry → Bool) (p : PartitionId) (pool : u.pool = s.pool.eraseP f)
    (count : u.sched.slotCount = s.sched.slotCount) (out : ∀ e, f e = true → e.inQueue p = false) : u.headAge p = s.headAge p := by
  have found : ∀ l : List PoolEntry, (l.eraseP f).find? (PoolEntry.inQueue p) = l.find? (PoolEntry.inQueue p) := by
    intro l
    induction l with
    | nil => rfl
    | cons e l ih =>
      rw [List.eraseP_cons]
      cases he : f e
      · rw [cond_false, List.find?_cons, List.find?_cons, ih]
      · rw [cond_true, List.find?_cons, out e he]
  unfold State.headAge State.head
  rw [pool, count, found]

/-! ### The shared operations -/

theorem State.AgesCurrent.quiet {s u : State} (h : s.AgesCurrent) (m : u.monitors = s.monitors) (pool : u.pool = s.pool)
    (count : u.sched.slotCount = s.sched.slotCount) : u.AgesCurrent :=
  State.AgesBut.current (h.but.update m (qs := []) fun p _ => State.headAge_of pool count p)

/-- An update of the pool that leaves every head age. -/
theorem State.AgesCurrent.requeue {s u : State} (h : s.AgesCurrent) (m : u.monitors = s.monitors) (age : ∀ p, u.headAge p = s.headAge p) :
    u.AgesCurrent := State.AgesBut.current (h.but.update m (qs := []) fun p _ => age p)

theorem State.AgesCurrent.hand {s : State} (h : s.AgesCurrent) (q : Quantity) : (s.hand q).AgesCurrent :=
  ((h.but.hand q).weaken (by simp)).current

theorem State.AgesCurrent.handAll {s : State} (h : s.AgesCurrent) (qs : List Quantity) : (s.handAll qs).AgesCurrent :=
  ((h.but.handAll qs).weaken (by simp)).current

theorem State.AgesCurrent.closingCheck {s : State} (h : s.AgesCurrent) (p : PartitionId) : (s.closingCheck p).AgesCurrent :=
  h.quiet (by simp) (by simp) (by simp)

theorem State.AgesCurrent.recordFault {s : State} (h : s.AgesCurrent) (kind : FaultKind) (partition : Option PartitionId) (pair : Option Pair)
    (address : Option Addr) (dtag : Option DTag) : (s.recordFault kind partition pair address dtag).AgesCurrent :=
  h.sends (.recordFault s kind partition pair address dtag) (by simp) fun p => State.headAge_of (by simp) (by simp) p

theorem State.AgesCurrent.timeoutArrives {s : State} (h : s.AgesCurrent) : s.timeoutArrives.AgesCurrent :=
  h.sends (.timeoutArrives s) (by simp) fun p => State.headAge_of (by simp) (by simp) p

theorem State.AgesCurrent.flush {s : State} (h : s.AgesCurrent) (p : PartitionId) : (s.flush p).AgesCurrent := by
  refine State.AgesCurrent.handChanged (s := s.withdraw (fun e => e.partition == p) .aborted) h rfl p fun q hq =>
    State.headAge_withdraw s _ _ q fun e _ he => ?_
  rw [beq_eq_false_iff_ne, ((PoolEntry.inQueue_iff q e).1 he).2]
  exact hq

/-- Where every WAITING entry of the pair is of partition p, a withdrawal by the pair hands out every head age it changes. -/
theorem State.AgesCurrent.withdrawPair {s : State} (h : s.AgesCurrent) (p : PartitionId) (pair : Pair) (status : WithdrawalStatus)
    (own : ∀ e ∈ s.pool, e.pair = pair → e.partition = p) : (s.withdrawPair p pair status).AgesCurrent := by
  refine State.AgesCurrent.handChanged (s := s.withdraw (fun e => e.pair == pair) status) h rfl p fun q hq =>
    State.headAge_withdraw s _ _ q fun e he k => ?_
  rw [beq_eq_false_iff_ne]
  intro hp
  exact hq (((PoolEntry.inQueue_iff q e).1 k).2.symm.trans (own e he hp))

theorem State.AgesCurrent.freeDiscarding {s : State} (h : s.AgesCurrent) (r : OpenWrite) : (s.freeDiscarding r).AgesCurrent := by
  unfold State.freeDiscarding
  apply State.AgesCurrent.closingCheck
  refine h.requeue rfl fun p => ?_
  exact State.headAge_map p rfl rfl (fun e _ => e.releaseFor_inQueue _ p) fun e => e.releaseFor_stamp _

theorem State.AgesCurrent.rearmMonitor {s : State} (h : s.AgesCurrent) (i : Fin 4) (m : Monitor) : (s.rearmMonitor i m).AgesCurrent := by
  have base : ({ s with monitors := s.monitors.set i { m with last := m.enabled && m.result (s.quantity m.quantity) } } : State).AgesCurrent := by
    intro j hj ho
    have quantity : ∀ x, ({ s with monitors := s.monitors.set i { m with last := m.enabled && m.result (s.quantity m.quantity) } } : State).quantity x =
        s.quantity x := fun x => by cases x <;> rfl
    simp only [quantity]
    rw [vector_set_get] at hj ho ⊢
    by_cases hi : i = j
    · simp only [hi, if_true] at hj ⊢
      show (m.enabled && m.result (s.quantity m.quantity)) = m.result (s.quantity m.quantity)
      rw [show m.enabled = true from hj, Bool.true_and]
    · simp only [hi, if_false] at hj ho ⊢
      exact h j hj ho
  unfold State.rearmMonitor
  dsimp only
  split
  · exact base.quiet rfl rfl rfl
  · exact base

/-- The trigger unit's taking of causes hands out the head ages it changes (R124, R149). -/
theorem State.agesCurrent_settles : SettleKeeps State.AgesCurrent where
  triggers _ _ h := h.quiet rfl rfl rfl
  free _ _ h := h.quiet rfl rfl rfl
  action s a b h := by
    cases a with
    | requestSwitch => exact h.quiet (by simp [State.applyAction]) (by simp [State.applyAction]) (by simp [State.applyAction])
    | flush =>
      show (s.flushAction _).AgesCurrent
      unfold State.flushAction
      split
      · exact h.flush _
      · exact h
    | clearMonitor => exact h.rearmMonitor _ _
    | setRun => exact h.quiet (by simp [State.applyAction, State.setAction]) (by simp [State.applyAction, State.setAction]) (by simp [State.applyAction, State.setAction])
    | setHold => exact h.quiet (by simp [State.applyAction, State.setAction]) (by simp [State.applyAction, State.setAction]) (by simp [State.applyAction, State.setAction])
    | setClosing => exact h.quiet (by simp [State.applyAction, State.setAction]) (by simp [State.applyAction, State.setAction]) (by simp [State.applyAction, State.setAction])
    | _ => exact h.quiet rfl rfl rfl

/-! ### The commands -/

/-- The head of a partition's queue leaves, and its age is handed out (R41, R55). -/
theorem State.AgesCurrent.issue {s : State} (h : s.AgesCurrent) (p : PartitionId) : (s.issue p).AgesCurrent := by
  unfold State.issue
  split
  · rename_i e d _ _
    have taken : (s.takeHead p).AgesCurrent := by
      have stale : ({ s with pool := s.pool.eraseP (PoolEntry.inQueue p) } : State).AgesBut [p] :=
        h.but.update (qs := [p]) (u := { s with pool := s.pool.eraseP (PoolEntry.inQueue p) }) rfl fun q hq =>
          State.headAge_eraseP (PoolEntry.inQueue p) q rfl rfl fun e he => by
          rw [List.mem_singleton] at hq
          rw [← Bool.not_eq_true, PoolEntry.inQueue_iff, ((PoolEntry.inQueue_iff p e).1 he).2]
          exact fun k => hq k.2.symm
      exact State.AgesBut.current ((stale.handAll [.queue p, .age p]).weaken (by simp))
    have filled : ((s.takeHead p).fillFlight d e).AgesCurrent :=
      State.AgesCurrent.hand (taken.quiet (u := (s.takeHead p).setFlight d _) rfl rfl rfl) .inFlight
    have released : (((s.takeHead p).fillFlight d e).releaseData e).AgesCurrent := by
      unfold State.releaseData
      split
      · exact filled
      · refine State.AgesCurrent.hand ?_ .wbuf
        exact filled.quiet rfl rfl rfl
    exact released.quiet rfl rfl rfl
  all_goals exact h

theorem State.AgesCurrent.runSlot {s : State} (h : s.AgesCurrent) : s.runSlot.AgesCurrent := by
  have lost : (s.chargeLost s.decideSlot.lost).AgesCurrent := by
    unfold State.chargeLost
    split
    · exact h
    · exact h.sends (.countLost s _) (by simp) fun p => State.headAge_of (by simp) (by simp) p
  unfold State.runSlot
  revert lost
  generalize s.chargeLost s.decideSlot.lost = u
  intro lost
  cases s.decideSlot.outcome with
  | ownedIssue p => exact (lost.issue p).quiet rfl rfl rfl
  | slackIssue p => exact (lost.issue p).quiet rfl rfl rfl
  | _ => exact lost.quiet rfl rfl rfl

/-- Where only the ages of queues that are not empty are stale, handing those out makes every head age current (R16, R41). -/
theorem State.AgesBut.handAges {s : State} {ps : List PartitionId} (h : s.AgesBut ps) (held : ∀ p ∈ ps, (s.head p).isSome = true) :
    s.handAges.AgesCurrent := by
  refine State.AgesBut.current ((h.handAll _).weaken fun p hp => ?_)
  rw [List.mem_filter, decide_eq_true_eq] at hp
  exfalso
  apply hp.2
  apply List.mem_map_of_mem
  rw [List.mem_filter]
  exact ⟨by clear hp; revert p; decide, held p hp.1⟩

/-- A round start's own work leaves the head ages. -/
theorem State.AgesBut.roundStart {s : State} {ps : List PartitionId} (h : s.AgesBut ps) : s.roundStart.AgesBut ps := by
  have switched : s.switchRound.AgesBut ps :=
    h.sends (.switchRound s) (by simp [roundCounts]) fun p => State.headAge_of (by simp) (by
      have hr := s.roundStart_sched
      simp only [State.roundStart, State.expireDue_fields] at hr
      rw [hr]) p
  obtain ⟨-, offs, sent⟩ := s.switchRound.expireDue_expired
  exact switched.sends sent (by simp) fun p => State.headAge_of (by simp) (by simp only [State.roundStart, State.expireDue_fields]) p

theorem State.AgesBut.someTimeoutsArrive {s : State} {ps : List PartitionId} (h : s.AgesBut ps) : s.someTimeoutsArrive.AgesBut ps := by
  obtain ⟨k, -, -, -, sent⟩ := s.someTimeoutsArrive_arrived
  exact h.sends sent (by simp) fun p => State.headAge_of (by simp) (by simp) p

/-- The slot count advances, and every head ages by one slot (R7, R41). -/
theorem State.AgesCurrent.startSlot {s : State} (h : s.AgesCurrent) : s.startSlot.AgesCurrent := by
  have advanced : ({ s with sched := s.sched.advance } : State).AgesBut (allPartitions.filter fun p => (s.head p).isSome) := by
    refine (h.but.update (u := { s with sched := s.sched.advance }) rfl
      (qs := allPartitions.filter fun p => (s.head p).isSome) fun p hp => ?_).weaken (by simp)
    have empty : s.head p = none := by
      cases he : s.head p with
      | none => rfl
      | some e =>
        exfalso
        apply hp
        rw [List.mem_filter, he]
        exact ⟨by clear hp he; revert p; decide, rfl⟩
    have empty' : ({ s with sched := s.sched.advance } : State).head p = none := empty
    unfold State.headAge
    rw [empty, empty']
  unfold State.startSlot
  dsimp only
  split
  · refine advanced.roundStart.someTimeoutsArrive.handAges fun p hp => ?_
    unfold State.head
    simp only [State.someTimeoutsArrive_fields, State.roundStart_fields]
    exact (List.mem_filter.1 hp).2
  · exact advanced.handAges fun p hp => (List.mem_filter.1 hp).2

theorem State.AgesCurrent.leaveReset {s : State} (h : s.AgesCurrent) (b : Bool) : (s.leaveReset b).AgesCurrent := by
  unfold State.leaveReset
  have running : ({ s with line := .running, port := { s.port with selnLow := b, acrossReset := b } } : State).AgesCurrent := h.quiet rfl rfl rfl
  exact State.agesCurrent_settles.settle (State.AgesCurrent.runSlot (running.but.roundStart.handAges (by simp)))

theorem State.AgesCurrent.expireDue {s : State} (h : s.AgesCurrent) : s.expireDue.AgesCurrent := by
  obtain ⟨-, offs, sent⟩ := s.expireDue_expired
  exact h.sends sent (by simp) fun p => State.headAge_of (by simp) (by simp) p

/-- An entry that joins an empty queue hands its age out; one behind others leaves the head (R41, R74). -/
theorem State.AgesCurrent.enqueue {s : State} (h : s.AgesCurrent) (r : Request) (p : PartitionId) (k : AccessKind) :
    (s.enqueue r p k).AgesCurrent := by
  have stale : ({ s with
      pool := s.pool ++ [s.newEntry r p k]
      intake := { s.intake with heldPairs := s.intake.heldPairs ++ [r.pair] } } : State).AgesBut (if (s.head p).isNone then [p] else []) := by
    refine (h.but.update (u := { s with
      pool := s.pool ++ [s.newEntry r p k]
      intake := { s.intake with heldPairs := s.intake.heldPairs ++ [r.pair] } }) (qs := if (s.head p).isNone then [p] else []) rfl
      fun q hq => ?_).weaken (by simp)
    have found : (s.pool ++ [s.newEntry r p k]).find? (PoolEntry.inQueue q) = s.head q := by
      rw [List.find?_append]
      show (s.head q).or _ = _
      cases hh : s.head q with
      | some e => rfl
      | none =>
        have hqp : p ≠ q := by
          rintro rfl
          rw [hh] at hq
          simp at hq
        simp [State.newEntry, PoolEntry.inQueue, hqp]
    exact congrArg (fun o : Option PoolEntry => match o with | none => 0 | some e => s.sched.slotCount - e.stamp) found
  refine State.AgesBut.current ((stale.handAll _).weaken fun q hq => ?_)
  rw [List.mem_filter, decide_eq_true_eq] at hq
  exfalso
  obtain ⟨h1, h2⟩ := hq
  split at h1
  · rename_i hn
    rw [List.mem_singleton] at h1
    subst h1
    rw [if_pos hn] at h2
    simp at h2
  · cases h1

theorem State.AgesCurrent.takeRequest {s : State} (h : s.AgesCurrent) (r : Request) : (s.takeRequest r).AgesCurrent := by
  have refused : ∀ status, ((s.countRefused (s.mapped r.pair.initiator)).refuse r.pair status).AgesCurrent := fun status =>
    State.AgesCurrent.quiet (u := (s.countRefused (s.mapped r.pair.initiator)).refuse r.pair status)
      (h.sends (.countRefused s (s.mapped r.pair.initiator)) (by simp) fun p => State.headAge_of (by cases s.mapped r.pair.initiator <;> rfl)
        (by cases s.mapped r.pair.initiator <;> rfl) p) rfl rfl rfl
  unfold State.takeRequest
  split
  · cases s.verdict r with
    | retry =>
      have counted : (s.countRetried (s.mapped r.pair.initiator)).AgesCurrent :=
        h.sends (.countRetried s _) (by simp [retryMoved]) fun p => State.headAge_of (by cases s.mapped r.pair.initiator <;> rfl)
          (by cases s.mapped r.pair.initiator <;> rfl) p
      exact counted.quiet rfl rfl rfl
    | refused k => exact (refused .refused).recordFault _ _ _ _ _
    | tagErr => exact (refused .tagErr).recordFault _ _ _ _ _
    | accepted p =>
      have counted : (s.countPart p fun c => { c with accepted := c.accepted + 1 }).AgesCurrent := h.quiet rfl rfl rfl
      simp only [State.applyVerdict, State.accept]
      split
      · refine State.AgesCurrent.hand ?_ .wbuf
        exact (counted.enqueue r p .write).quiet rfl rfl rfl
      · exact counted.enqueue r p .read
      · exact counted.enqueue r p .read
  · exact h

/-- A CANCEL withdraws the one entry that holds its pair (R70, R119). -/
theorem State.AgesCurrent.takeCancel {s : State} (h : s.AgesCurrent) (pairs : s.PairsKept) (pair : Pair) : (s.takeCancel pair).AgesCurrent := by
  unfold State.takeCancel
  split
  · split
    · rename_i e he
      have mem := List.mem_of_find?_eq_some he
      have holds := List.find?_some he
      simp only [Bool.and_eq_true, beq_iff_eq] at holds
      refine h.withdrawPair e.partition pair .cancelled fun x hx hp => ?_
      rw [PoolEntry.unique pairs.poolNodup hx mem (hp.trans holds.2.symm)]
    · unfold State.countLate
      split <;> exact h.quiet rfl rfl rfl
  · exact h

/-- A beat that breaks its write withdraws the one entry that holds its pair, of the record's own partition (R70, R83, R86). -/
theorem State.AgesCurrent.takeBeat {s : State} (h : s.AgesCurrent) (pairs : s.PairsKept) (records : s.RecordsKept) (pair : Pair) (data : Beat)
    (last : Bool) : (s.takeBeat pair data last).AgesCurrent := by
  unfold State.takeBeat
  split
  · exact h.recordFault _ _ _ _ _
  · rename_i r hr
    split
    · unfold State.gather
      split
      · have freed : ({ s with writes := { s.writes with records := s.writes.records.filter fun x => x.pair != r.pair } } : State).AgesCurrent :=
          h.quiet rfl rfl rfl
        refine State.AgesCurrent.recordFault (freed.withdrawPair r.partition r.pair .aborted fun e he hp => ?_) _ _ _ _ _
        obtain ⟨-, x, hx, owns⟩ := records.2.2.1 r (List.mem_of_find?_eq_some hr)
        rw [PoolEntry.unique pairs.poolNodup he hx (hp.trans owns.1.symm)]
        exact owns.2.2.1
      · split
        · refine h.requeue rfl fun p => ?_
          exact State.headAge_map p rfl rfl (fun e _ => e.completeFor_inQueue _ p) fun e => e.completeFor_stamp _
        · exact h.quiet rfl rfl rfl
    · exact h.recordFault _ _ _ _ _
    · unfold State.discard
      split
      · exact h.freeDiscarding r
      · exact h.quiet rfl rfl rfl

theorem State.AgesCurrent.takeAnswer {s : State} (h : s.AgesCurrent) (d : DTag) (status : AnswerStatus) (data : List Beat) :
    (s.takeAnswer d status data).AgesCurrent := by
  unfold State.takeAnswer
  split
  · rename_i t _
    have returned : ∀ a beats, ((s.setFlight d (.returning t a beats)).lastPlace d).AgesCurrent := fun _ _ => h.quiet rfl rfl rfl
    unfold State.answerIssued
    dsimp only
    split
    · exact returned _ _
    · exact (returned _ _).recordFault _ _ _ _ _
    · exact returned _ _
  · rename_i t _ _
    have faulted := h.recordFault .late (some t.partition) (some t.pair) (some t.address) (some d)
    unfold State.answerLate State.recordFlightFault
    dsimp only
    split
    · refine State.AgesCurrent.hand ?_ _
      exact faulted.quiet rfl rfl rfl
    · refine State.AgesCurrent.handAll ?_ _
      exact faulted.quiet rfl rfl rfl
  · exact h.recordFault _ _ _ _ _
  · exact h.recordFault _ _ _ _ _

theorem State.AgesCurrent.enterReleasing {s : State} (h : s.AgesCurrent) : s.enterReleasing.AgesCurrent := by
  have each : ∀ (l : List OpenWrite) (u : State), u.AgesCurrent → (l.foldl State.freeDiscarding u).AgesCurrent := by
    intro l
    induction l with
    | nil => exact fun _ hu => hu
    | cons r l ih => exact fun u hu => ih _ (hu.freeDiscarding r)
  unfold State.enterReleasing
  apply each
  refine State.AgesCurrent.handAll ?_ _
  exact h.quiet rfl rfl rfl

theorem State.AgesCurrent.drainCheck {s : State} (h : s.AgesCurrent) : s.drainCheck.AgesCurrent := by
  unfold State.drainCheck
  split
  · exact h.enterReleasing
  · exact h

theorem State.AgesCurrent.releaseCheck {s : State} (h : s.AgesCurrent) : s.releaseCheck.AgesCurrent := by
  unfold State.releaseCheck
  split
  · exact h.quiet rfl rfl rfl
  · exact h

theorem State.AgesCurrent.restartCheck {s : State} (h : s.AgesCurrent) : s.restartCheck.AgesCurrent := by
  unfold State.restartCheck
  split
  · exact h
  · exact h.drainCheck
  · exact h.releaseCheck

theorem State.AgesCurrent.beginRestart {s : State} (h : s.AgesCurrent) : s.beginRestart.AgesCurrent := by
  have each : ∀ (l : List PartitionId) (u : State), u.AgesCurrent → (l.foldl State.flush u).AgesCurrent := by
    intro l
    induction l with
    | nil => exact fun _ hu => hu
    | cons p l ih => exact fun u hu => ih _ (hu.flush p)
  unfold State.beginRestart
  exact (each _ { s with restart := { s.restart with phase := .draining } } (h.quiet rfl rfl rfl)).drainCheck

/-- A delivery takes no WAITING entry. -/
theorem State.AgesCurrent.deliver {s : State} (h : s.AgesCurrent) : s.deliver.AgesCurrent := by
  unfold State.deliver
  split
  · exact h
  · rename_i o _
    apply State.AgesCurrent.restartCheck
    have ended : ({ s with flight := { s.flight with offer := none, turn := o.source.responseClass.after } } : State).AgesCurrent :=
      h.quiet rfl rfl rfl
    revert ended
    generalize ({ s with flight := { s.flight with offer := none, turn := o.source.responseClass.after } } : State) = u
    intro hu
    cases o.source with
    | refusal => exact hu.quiet rfl rfl rfl
    | withdrawn pair =>
      simp only [State.finishSource, State.deliverWithdrawn]
      split
      · exact hu
      · apply State.AgesCurrent.closingCheck
        apply State.AgesCurrent.hand
        refine hu.requeue rfl fun p => ?_
        refine State.headAge_eraseP (PoolEntry.answersFor pair) p rfl rfl fun e he => ?_
        unfold PoolEntry.answersFor PoolEntry.isReleased at he
        unfold PoolEntry.inQueue PoolEntry.isWaiting
        cases hs : e.state
        · rw [hs] at he
          simp at he
        · rfl
    | inFlight d =>
      simp only [State.finishSource, State.deliverInFlight]
      split
      · exact hu
      · exact hu
      · apply State.AgesCurrent.closingCheck
        refine State.AgesCurrent.hand ?_ _
        exact hu.quiet rfl rfl rfl
      · split
        · exact hu.quiet rfl rfl rfl
        · exact hu

end Machine
end Sys2Proof
end

