-- ==== Sys2Proof/Laws/Attention.lean ====
section
/-! SUPPORT. No operation latches FAULT (R163): it is pending while the fault queue holds a record, and only then. -/

namespace Sys2Proof
namespace Machine

/-- The latched bit of FAULT alone decides (R163). -/
theorem State.faultNotLatched_iff (s : State) : s.FaultNotLatched ↔ s.attention.latched.getLsbD 0 = false := by
  constructor
  · intro h
    have := congrArg (fun v : BitVec 7 => v.getLsbD 0) h
    simpa [AttentionCause.bit] using this
  · intro h
    apply BitVec.eq_of_getLsbD_eq
    intro i hi
    rcases Nat.eq_zero_or_pos i with rfl | hp
    · rw [BitVec.getLsbD_and, h, Bool.false_and]
      rfl
    · rw [BitVec.getLsbD_and]
      have : AttentionCause.fault.bit.getLsbD i = false := by
        unfold AttentionCause.bit
        interval_cases i <;> rfl
      simp [this]

theorem State.FaultNotLatched.same {s u : State} (h : s.FaultNotLatched) (k : u.attention.latched = s.attention.latched) : u.FaultNotLatched := by
  unfold State.FaultNotLatched
  rw [k]
  exact h

theorem State.FaultNotLatched.latch {s : State} (h : s.FaultNotLatched) {c : AttentionCause} (hc : c ≠ .fault) : (s.latch c).FaultNotLatched := by
  rw [State.faultNotLatched_iff] at h ⊢
  rw [State.latch_latched, BitVec.getLsbD_or, h]
  revert hc
  cases c <;> simp [AttentionCause.bit]

theorem State.FaultNotLatched.closingCheck {s : State} (h : s.FaultNotLatched) (p : PartitionId) : (s.closingCheck p).FaultNotLatched := by
  unfold State.closingCheck
  split
  · have off : ((s.setState p .off).raise (.partitionOff p)).FaultNotLatched := h.same rfl
    exact off.latch (by decide)
  · exact h

/-- No action latches FAULT (R150, R163). -/
theorem State.faultNotLatched_actions : ActionsKeep State.FaultNotLatched where
  triggers _ _ h := h.same rfl
  free _ _ h := h.same rfl
  monitors _ _ h := h.same rfl
  latched _ _ hc h := h.latch hc
  snapshot _ _ h := h.same rfl
  target s t h := h.same (by simp)
  change s p x h := by
    unfold State.changeState
    split
    · exact h
    · split
      · exact h
      · rename_i y _
        have changed : (s.setState p y).FaultNotLatched := h.same rfl
        dsimp only
        split
        · exact changed.closingCheck p
        · exact changed
  withdraw _ _ _ h := h.same rfl

theorem State.FaultNotLatched.recordFault {s : State} (h : s.FaultNotLatched) (kind : FaultKind) (partition : Option PartitionId)
    (pair : Option Pair) (address : Option Addr) (dtag : Option DTag) : (s.recordFault kind partition pair address dtag).FaultNotLatched :=
  State.faultNotLatched_actions.recordFault (fun _ _ h => h.same rfl) _ _ _ _ _ h

theorem State.FaultNotLatched.freeDiscarding {s : State} (h : s.FaultNotLatched) (r : OpenWrite) : (s.freeDiscarding r).FaultNotLatched := by
  have freed : ({ s with
      pool := s.pool.map (PoolEntry.releaseFor r.pair)
      writes := { s.writes with records := s.writes.records.filter fun x => x.pair != r.pair } } : State).FaultNotLatched := h.same rfl
  exact freed.closingCheck r.partition

theorem State.FaultNotLatched.expire {s : State} (h : s.FaultNotLatched) (d : DTag) : (s.expire d).FaultNotLatched := by
  unfold State.expire
  split
  · rename_i t _
    have orphaned : (((s.setFlight d (.orphaned t true)).lastPlace d).sendTimeout
        (s.faultRecord .timeout (some t.partition) (some t.pair) (some t.address) (some d))).FaultNotLatched := h.same rfl
    exact (State.faultNotLatched_actions.hand .orphans orphaned).closingCheck t.partition
  all_goals exact h

theorem State.FaultNotLatched.timeoutArrives {s : State} (h : s.FaultNotLatched) : s.timeoutArrives.FaultNotLatched :=
  State.faultNotLatched_actions.timeoutArrives (fun _ _ h => h.same rfl) (fun _ _ h => h.same rfl) h

theorem State.FaultNotLatched.expireDue {s : State} (h : s.FaultNotLatched) : s.expireDue.FaultNotLatched := by
  unfold State.expireDue
  generalize s.dueEntries = l
  induction l generalizing s with
  | nil => exact h
  | cons d l ih => exact ih (h.expire d)

theorem State.FaultNotLatched.roundStart {s : State} (h : s.FaultNotLatched) : s.roundStart.FaultNotLatched := by
  have examined : ∀ u : State, u.FaultNotLatched → u.examineTarget.FaultNotLatched := by
    intro u hu
    unfold State.examineTarget
    split
    · exact hu
    · rename_i t _
      split
      · exact hu.same rfl
      · have switched : (({ u with sched := { u.sched with active := t, pendingTarget := none } } : State).raise .switchTaken).FaultNotLatched :=
          hu.same rfl
        exact switched.latch (by decide)
  have loaded : ∀ u : State, u.FaultNotLatched → u.reloadAllowances.FaultNotLatched := fun u hu => hu.same rfl
  have cleared : ∀ u : State, u.FaultNotLatched → u.clearRoundCounts.FaultNotLatched := fun u hu => hu.same (by simp [State.clearRoundCounts])
  have raised : (s.raise (.roundStart s.sched.activeNext)).FaultNotLatched := h.same rfl
  unfold State.roundStart State.switchRound State.raiseRoundStart
  exact (cleared _ (loaded _ (examined _ raised))).expireDue

theorem State.FaultNotLatched.startSlot {s : State} (h : s.FaultNotLatched) : s.startSlot.FaultNotLatched := by
  have advanced : ({ s with sched := s.sched.advance } : State).FaultNotLatched := h.same rfl
  unfold State.startSlot
  dsimp only
  split
  · have started := State.someTimeoutsArrive_keeps (fun _ hu => hu.timeoutArrives) advanced.roundStart
    exact started.same (by simp)
  · exact advanced.same (by simp)

theorem State.FaultNotLatched.runSlot {s : State} (h : s.FaultNotLatched) : s.runSlot.FaultNotLatched := by
  have outcome : ∀ (u : State) (o : SlotOutcome), u.FaultNotLatched → (u.applyOutcome o).FaultNotLatched := by
    intro u o hu
    cases o <;> exact hu.same (by simp [State.applyOutcome])
  unfold State.runSlot State.chargeLost
  apply outcome
  split
  · exact h
  · exact h.same (by simp)

theorem State.FaultNotLatched.takeRequest {s : State} (h : s.FaultNotLatched) (r : Request) : (s.takeRequest r).FaultNotLatched := by
  have counted : ∀ m, (s.countRetried m).FaultNotLatched ∧ (s.countRefused m).FaultNotLatched := by
    intro m
    cases m <;> exact ⟨h.same (by simp [State.countRetried]), h.same (by simp [State.countRefused])⟩
  have refused : ∀ status, ((s.countRefused (s.mapped r.pair.initiator)).refuse r.pair status).FaultNotLatched := fun status =>
    (counted (s.mapped r.pair.initiator)).2.same rfl
  unfold State.takeRequest
  split
  · cases s.verdict r with
    | retry => exact (counted (s.mapped r.pair.initiator)).1.same rfl
    | refused k => exact (refused .refused).recordFault _ _ _ _ _
    | tagErr => exact (refused .tagErr).recordFault _ _ _ _ _
    | accepted p =>
      simp only [State.applyVerdict, State.accept]
      split <;> exact h.same (by simp [State.enqueue])
  · exact h

theorem State.FaultNotLatched.takeCancel {s : State} (h : s.FaultNotLatched) (pair : Pair) : (s.takeCancel pair).FaultNotLatched := by
  unfold State.takeCancel
  split
  · split
    · exact State.faultNotLatched_actions.withdrawPair _ _ _ h
    · unfold State.countLate
      split <;> exact h.same (by simp)
  · exact h

theorem State.FaultNotLatched.takeBeat {s : State} (h : s.FaultNotLatched) (pair : Pair) (data : Beat) (last : Bool) :
    (s.takeBeat pair data last).FaultNotLatched := by
  unfold State.takeBeat
  split
  · exact h.recordFault _ _ _ _ _
  · rename_i r _
    split
    · unfold State.gather
      split
      · have freed : ({ s with writes := { s.writes with records := s.writes.records.filter fun x => x.pair != r.pair } } : State).FaultNotLatched :=
          h.same rfl
        exact State.FaultNotLatched.recordFault (State.faultNotLatched_actions.withdrawPair _ _ _ freed) _ _ _ _ _
      · split
        · exact h.same rfl
        · exact h.same rfl
    · exact h.recordFault _ _ _ _ _
    · unfold State.discard
      split
      · exact h.freeDiscarding r
      · exact h.same rfl

theorem State.FaultNotLatched.takeAnswer {s : State} (h : s.FaultNotLatched) (d : DTag) (status : AnswerStatus) (data : List Beat) :
    (s.takeAnswer d status data).FaultNotLatched := by
  unfold State.takeAnswer
  split
  · rename_i t _
    have returned : ∀ a beats, ((s.setFlight d (.returning t a beats)).lastPlace d).FaultNotLatched := fun _ _ => h.same rfl
    unfold State.answerIssued
    dsimp only
    split
    · exact returned _ _
    · exact (returned _ _).recordFault _ _ _ _ _
    · exact returned _ _
  · rename_i t _ _
    have faulted := h.recordFault .late (some t.partition) (some t.pair) (some t.address) (some d)
    unfold State.answerLate State.recordFlightFault
    dsimp only
    split <;> exact faulted.same (by simp)
  · exact h.recordFault _ _ _ _ _
  · exact h.recordFault _ _ _ _ _

theorem State.FaultNotLatched.enterReleasing {s : State} (h : s.FaultNotLatched) : s.enterReleasing.FaultNotLatched := by
  have each : ∀ (l : List OpenWrite) (u : State), u.FaultNotLatched → (l.foldl State.freeDiscarding u).FaultNotLatched := by
    intro l
    induction l with
    | nil => exact fun _ hu => hu
    | cons r l ih => exact fun u hu => ih _ (hu.freeDiscarding r)
  unfold State.enterReleasing
  apply each
  exact h.same (by simp)

theorem State.FaultNotLatched.drainCheck {s : State} (h : s.FaultNotLatched) : s.drainCheck.FaultNotLatched := by
  unfold State.drainCheck
  split
  · exact h.enterReleasing
  · exact h

theorem State.FaultNotLatched.releaseCheck {s : State} (h : s.FaultNotLatched) : s.releaseCheck.FaultNotLatched := by
  unfold State.releaseCheck
  split
  · have idle : (({ s with restart := { s.restart with phase := .idle } } : State).raise .restartDone).FaultNotLatched := h.same rfl
    exact idle.latch (by decide)
  · exact h

theorem State.FaultNotLatched.restartCheck {s : State} (h : s.FaultNotLatched) : s.restartCheck.FaultNotLatched := by
  unfold State.restartCheck
  split
  · exact h
  · exact h.drainCheck
  · exact h.releaseCheck

theorem State.FaultNotLatched.beginRestart {s : State} (h : s.FaultNotLatched) : s.beginRestart.FaultNotLatched := by
  have each : ∀ (l : List PartitionId) (u : State), u.FaultNotLatched → (l.foldl State.flush u).FaultNotLatched := by
    intro l
    induction l with
    | nil => exact fun _ hu => hu
    | cons p l ih => exact fun u hu => ih _ (State.faultNotLatched_actions.flush p hu)
  have draining : ({ s with restart := { s.restart with phase := .draining } } : State).FaultNotLatched := h.same rfl
  unfold State.beginRestart
  exact (each _ _ draining).drainCheck

theorem State.FaultNotLatched.deliver {s : State} (h : s.FaultNotLatched) : s.deliver.FaultNotLatched := by
  unfold State.deliver
  split
  · exact h
  · rename_i o _
    apply State.FaultNotLatched.restartCheck
    cases o.source with
    | refusal => exact h.same rfl
    | withdrawn pair =>
      simp only [State.finishSource, State.deliverWithdrawn]
      split
      · exact h.same rfl
      · exact State.FaultNotLatched.closingCheck (h.same (by simp)) _
    | inFlight d =>
      simp only [State.finishSource, State.deliverInFlight]
      split
      · exact h.same rfl
      · exact h.same rfl
      · exact State.FaultNotLatched.closingCheck (h.same (by simp)) _
      · split
        · exact h.same (by simp)
        · exact h.same rfl

theorem State.FaultNotLatched.acknowledge {s : State} (h : s.FaultNotLatched) (causes : Byte) :
    (s.acknowledgeCommand causes).state.FaultNotLatched := by
  rw [State.faultNotLatched_iff] at h ⊢
  simp only [State.acknowledgeCommand, Attention.acknowledge, BitVec.getLsbD_and, h, Bool.false_and]

end Machine
end Sys2Proof
end

