-- ==== Sys2Proof/Laws/DataSteps.lean ====
section
/-! SUPPORT. Carrying a guarantee about the work in the part (the partition records, the pool, held pairs, write data, in-flight entries and the restart phase)
through every step: what is left to show of it once everything that concerns none of these is set aside. -/

namespace Sys2Proof
namespace Machine

/-- The work in the part is the same in both states. -/
structure SameWork (s u : State) : Prop where
  parts : u.parts = s.parts
  pool : u.pool = s.pool
  heldPairs : u.intake.heldPairs = s.intake.heldPairs
  refusal : u.intake.refusal = s.intake.refusal
  writes : u.writes = s.writes
  flight : u.flight = s.flight
  restart : u.restart = s.restart

theorem SameWork.refl (s : State) : SameWork s s := ⟨rfl, rfl, rfl, rfl, rfl, rfl, rfl⟩

theorem SameWork.trans {s t u : State} (h : SameWork s t) (k : SameWork t u) : SameWork s u where
  parts := k.parts.trans h.parts
  pool := k.pool.trans h.pool
  heldPairs := k.heldPairs.trans h.heldPairs
  refusal := k.refusal.trans h.refusal
  writes := k.writes.trans h.writes
  flight := k.flight.trans h.flight
  restart := k.restart.trans h.restart

/-- A guarantee about the work in the part, and the effects that touch that work. -/
structure WorkKeeps (G : State → Prop) : Prop where
  same : ∀ {s u : State}, G s → SameWork s u → G u
  reset : G State.reset
  change : ∀ (s : State) (p : PartitionId) (x : PartitionState), G s → G (s.changeState p x).state
  withdraw : ∀ (s : State) (chosen : PoolEntry → Bool) (status : WithdrawalStatus), G s → G (s.withdraw chosen status)
  expire : ∀ (s : State) (d : DTag), G s → G (s.expire d)
  timeouts : ∀ (s : State) (l : List FaultRecord), G s → G { s with flight := { s.flight with timeouts := l } }
  issue : ∀ (s : State) (p : PartitionId), G s → s.restart.phase = .idle → G (s.issue p)
  refuse : ∀ (s : State) (pair : Pair) (status : RefusalStatus), G s → s.intake.refusal = none → G (s.refuse pair status)
  accept : ∀ (s : State) (r : Request) (p : PartitionId), G s → s.intake.refusal = none → s.verdict r = .accepted p → G (s.accept r p)
  beat : ∀ (s : State) (pair : Pair) (data : Beat) (last : Bool), G s → G (s.takeBeat pair data last)
  take : ∀ s : State, G s → G s.takeDownstream
  answer : ∀ (s : State) (d : DTag) (status : AnswerStatus) (data : List Beat), G s → G (s.takeAnswer d status data)
  choose : ∀ s : State, G s → G s.choose
  deliver : ∀ s : State, G s → G s.deliver
  endPulse : ∀ s : State, G s → G s.endPulse
  writePartition : ∀ (s : State) (i : Half) (q f l : Byte), G s → G (s.writePartition i q f l).state
  restart : ∀ s : State, G s → s.restart.phase = .idle → G s.beginRestart

variable {G : State → Prop}

theorem WorkKeeps.actions (k : WorkKeeps G) : ActionsKeep G where
  triggers _ _ h := k.same h ⟨rfl, rfl, rfl, rfl, rfl, rfl, rfl⟩
  free _ _ h := k.same h ⟨rfl, rfl, rfl, rfl, rfl, rfl, rfl⟩
  monitors _ _ h := k.same h ⟨rfl, rfl, rfl, rfl, rfl, rfl, rfl⟩
  latched _ _ _ h := k.same h ⟨rfl, rfl, rfl, rfl, rfl, rfl, rfl⟩
  snapshot _ _ h := k.same h ⟨rfl, rfl, rfl, rfl, rfl, rfl, rfl⟩
  target s t h := k.same h ⟨by simp, by simp, by simp, by simp, by simp, by simp, by simp⟩
  change s p x h := k.change s p x h
  withdraw s c x h := k.withdraw s c x h

theorem WorkKeeps.expireDue (k : WorkKeeps G) {s : State} (h : G s) : G s.expireDue := by
  unfold State.expireDue
  generalize s.dueEntries = l
  induction l generalizing s with
  | nil => exact h
  | cons d l ih => exact ih (k.expire s d h)

theorem WorkKeeps.timeoutArrives (k : WorkKeeps G) {s : State} (h : G s) : G s.timeoutArrives :=
  k.actions.timeoutArrives (fun _ _ h => k.same h ⟨rfl, rfl, rfl, rfl, rfl, rfl, rfl⟩) k.timeouts h

theorem State.handAges_sameWork (s : State) : SameWork s s.handAges :=
  ⟨by simp, by simp, by simp, by simp, by simp, by simp, by simp⟩

theorem State.switchRound_sameWork (s : State) : SameWork s s.switchRound :=
  ⟨by simp, by simp, by simp, by simp, by simp, by simp, by simp⟩

theorem WorkKeeps.roundStart (k : WorkKeeps G) {s : State} (h : G s) : G s.roundStart := k.expireDue (k.same h s.switchRound_sameWork)

theorem WorkKeeps.startSlot (k : WorkKeeps G) {s : State} (h : G s) : G s.startSlot := by
  cases hl : s.sched.lastSlot
  · rw [State.startSlot_inside s hl]
    exact k.same (k.same (u := { s with sched := { s.sched with slot := s.sched.slot + 1, slotCount := s.sched.slotCount + 1 } }) h
      ⟨rfl, rfl, rfl, rfl, rfl, rfl, rfl⟩) (State.handAges_sameWork _)
  · rw [State.startSlot_round s hl]
    refine k.same (State.someTimeoutsArrive_keeps (fun _ hu => k.timeoutArrives hu) (k.roundStart ?_)) (State.handAges_sameWork _)
    exact k.same h ⟨rfl, rfl, rfl, rfl, rfl, rfl, rfl⟩

/-- A slot that issues is decided with the phase IDLE (R45). -/
theorem State.decideSlot_phase (s : State) (h : s.restart.phase ≠ .idle) : s.decideSlot = { lost := none, outcome := .restart } := by
  unfold State.decideSlot
  rw [if_pos h]

theorem WorkKeeps.runSlot (k : WorkKeeps G) {s : State} (h : G s) : G s.runSlot := by
  unfold State.runSlot
  by_cases hp : s.restart.phase = .idle
  · have lost : SameWork s (s.chargeLost s.decideSlot.lost) := by
      unfold State.chargeLost
      split
      · exact .refl s
      · exact ⟨by simp, by simp, by simp, by simp, by simp, by simp, by simp⟩
    have h1 := k.same h lost
    have hp1 := (congrArg RestartControl.phase lost.restart).trans hp
    generalize s.chargeLost s.decideSlot.lost = u at h1 hp1
    cases s.decideSlot.outcome with
    | ownedIssue p => exact k.same (k.issue u p h1 hp1) ⟨rfl, rfl, rfl, rfl, rfl, rfl, rfl⟩
    | slackIssue p => exact k.same (k.issue u p h1 hp1) ⟨rfl, rfl, rfl, rfl, rfl, rfl, rfl⟩
    | restart => exact k.same h1 ⟨rfl, rfl, rfl, rfl, rfl, rfl, rfl⟩
    | quiet => exact k.same h1 ⟨rfl, rfl, rfl, rfl, rfl, rfl, rfl⟩
    | stalled => exact k.same h1 ⟨rfl, rfl, rfl, rfl, rfl, rfl, rfl⟩
    | idle => exact k.same h1 ⟨rfl, rfl, rfl, rfl, rfl, rfl, rfl⟩
  · rw [State.decideSlot_phase s hp]
    exact k.same h ⟨rfl, rfl, rfl, rfl, rfl, rfl, rfl⟩

theorem WorkKeeps.leaveReset (k : WorkKeeps G) (s : State) (b : Bool) (h : G s) : G (s.leaveReset b) := by
  unfold State.leaveReset
  apply k.actions.settle
  apply k.runSlot
  refine k.same (k.roundStart ?_) (State.handAges_sameWork _)
  exact k.same h ⟨rfl, rfl, rfl, rfl, rfl, rfl, rfl⟩

theorem State.countRefused_sameWork (s : State) (m : Option PartitionId) : SameWork s (s.countRefused m) := by
  unfold State.countRefused
  split <;> exact ⟨rfl, rfl, rfl, rfl, rfl, rfl, rfl⟩

theorem State.countRetried_sameWork (s : State) (m : Option PartitionId) : SameWork s (s.countRetried m) := by
  unfold State.countRetried
  split
  · exact ⟨rfl, rfl, rfl, rfl, rfl, rfl, rfl⟩
  · exact ⟨by simp, by simp, by simp, by simp, by simp, by simp, by simp⟩

theorem State.recordFault_sameWork (s : State) (kind : FaultKind) (partition : Option PartitionId) (pair : Option Pair) (address : Option Addr)
    (dtag : Option DTag) : SameWork s (s.recordFault kind partition pair address dtag) :=
  ⟨by simp, by simp, by simp, by simp, by simp, by simp, by simp⟩

theorem WorkKeeps.takeRequest (k : WorkKeeps G) (s : State) (r : Request) (h : G s) : G (s.takeRequest r) := by
  unfold State.takeRequest
  split
  · rename_i hr
    have hn : s.intake.refusal = none := (s.intakeReady_iff.1 hr).2
    cases hv : s.verdict r with
    | retry =>
      have w := s.countRetried_sameWork (s.mapped r.pair.initiator)
      exact k.refuse _ _ _ (k.same h w) (w.refusal.trans hn)
    | refused kind =>
      have w := s.countRefused_sameWork (s.mapped r.pair.initiator)
      exact k.same (k.refuse _ r.pair .refused (k.same h w) (w.refusal.trans hn)) (State.recordFault_sameWork _ _ _ _ _ _)
    | tagErr =>
      have w := s.countRefused_sameWork (s.mapped r.pair.initiator)
      exact k.same (k.refuse _ r.pair .tagErr (k.same h w) (w.refusal.trans hn)) (State.recordFault_sameWork _ _ _ _ _ _)
    | accepted p => exact k.accept s r p h hn hv
  · exact h

theorem WorkKeeps.takeCancel (k : WorkKeeps G) (s : State) (pair : Pair) (h : G s) : G (s.takeCancel pair) := by
  unfold State.takeCancel
  split
  · split
    · exact k.actions.withdrawPair _ _ _ h
    · refine k.same h ?_
      unfold State.countLate
      split <;> exact ⟨rfl, rfl, rfl, rfl, rfl, rfl, rfl⟩
  · exact h

/-- A guarantee about the work in the part is kept by every step, when the effects that touch the work keep it. -/
theorem WorkKeeps.stepKeeps (k : WorkKeeps G) : StepKeeps G G where
  premise _ _ h := h
  queue _ _ h := k.same h ⟨rfl, rfl, rfl, rfl, rfl, rfl, rfl⟩
  reset _ _ := k.same k.reset ⟨rfl, rfl, rfl, rfl, rfl, rfl, rfl⟩
  leave s b _ h := k.leaveReset s b h
  mid _ h _ := h
  settle _ h := k.actions.settle h
  port _ _ _ h _ := k.same h ⟨rfl, rfl, rfl, rfl, rfl, rfl, rfl⟩
  midPort _ _ _ h := k.same h ⟨rfl, rfl, rfl, rfl, rfl, rfl, rfl⟩
  slot s h _ := k.runSlot (k.startSlot h)
  expiry s h _ := k.timeoutArrives (k.expireDue h)
  arrive s h _ := k.timeoutArrives h
  request s r h _ := k.takeRequest s r h
  cancel s pair _ h _ := k.takeCancel s pair h
  beat s pair data last _ h _ := k.beat s pair data last h
  take s h _ := k.take s h
  answer s d status data h _ := k.answer s d status data h
  choose s h _ := k.choose s h
  deliver s h _ := k.deliver s h
  endPulse s h _ := k.endPulse s h
  edge s l b h _ := by
    refine k.same h ?_
    unfold State.seeEdge
    split <;> exact ⟨rfl, rfl, rfl, rfl, rfl, rfl, rfl⟩
  first s l b h _ := by
    refine k.same h ?_
    unfold State.seeFirst
    split <;> exact ⟨rfl, rfl, rfl, rfl, rfl, rfl, rfl⟩
  outputPulse s l h _ := k.same h ⟨rfl, rfl, rfl, rfl, rfl, rfl, rfl⟩
  held s h _ := by
    unfold State.takeHeld
    split
    · exact h
    · exact k.actions.takeCause _ (k.same h ⟨rfl, rfl, rfl, rfl, rfl, rfl, rfl⟩)
  pop s h _ := k.same h ⟨rfl, rfl, rfl, rfl, rfl, rfl, rfl⟩
  writeSchedule s t i d h _ := by
    refine k.same h ?_
    unfold State.writeSchedule
    repeat' split
    all_goals exact ⟨rfl, rfl, rfl, rfl, rfl, rfl, rfl⟩
  writePartition s i q f l h _ := k.writePartition s i q f l h
  writeMap s i v h _ := by
    refine k.same h ?_
    unfold State.writeMap
    split <;> exact ⟨rfl, rfl, rfl, rfl, rfl, rfl, rfl⟩
  writeRegion s i b l m f h _ := by
    refine k.same h ?_
    unfold State.writeRegionEntry
    dsimp only
    repeat' split
    all_goals exact ⟨rfl, rfl, rfl, rfl, rfl, rfl, rfl⟩
  writeMonitor s i f o c a t h _ := by
    unfold State.writeMonitorEntry
    repeat' split
    all_goals first | exact h | exact k.actions.rearmMonitor _ _ h
  writeTrigger s i f c ca a aa h _ := by
    refine k.same h ?_
    unfold State.writeTriggerEntry
    repeat' split
    all_goals exact ⟨rfl, rfl, rfl, rfl, rfl, rfl, rfl⟩
  writeMask s i m h _ := by
    refine k.same h ?_
    unfold State.writeMask
    split <;> exact ⟨rfl, rfl, rfl, rfl, rfl, rfl, rfl⟩
  switch s a h _ := by
    unfold State.switchCommand
    split
    · exact h
    · exact k.actions.target s _ h
  setState s a x h _ := by
    unfold State.setStateCommand
    split
    · exact h
    · split
      · exact k.change s _ _ h
      · exact h
  flush s a h _ := by
    unfold State.flushCommand
    split
    · split
      · exact h
      · exact k.actions.flush _ h
    · exact h
  restart s h _ hp := k.restart s h hp
  acknowledge _ _ h _ := k.same h ⟨rfl, rfl, rfl, rfl, rfl, rfl, rfl⟩
  clear s h _ := k.actions.handAll _ (k.same h ⟨rfl, rfl, rfl, rfl, rfl, rfl, rfl⟩)

end Machine
end Sys2Proof
end

