-- ==== Sys2Proof/Laws/Port.lean ====
section
/-! SUPPORT. What a frame of the management port does to the port, the lengths of what is read, and the sums and bits that commands check. -/

namespace Sys2Proof
namespace Machine

/-! ### Frames -/

/-- The close of a frame that the port takes: the effect's state with its status in the port (R168, R169). -/
theorem State.takeFrame_of (s : State) (written extra : Nat) (effect : State → Taken) (t : Taken) (idle : s.port.idle = true)
    (eq : effect s = t) (port : t.state.port = s.port) (free : t.state.free = s.free) :
    s.takeFrame written extra effect = s.framed t.state t.status written extra := by
  unfold State.takeFrame State.framed
  rw [if_pos idle]
  dsimp only
  rw [eq, port, free]

/-- The close of a read frame changes the port alone (R169, R170). -/
theorem State.finishRead_eq (s : State) (f : Capture) (extra : Nat) : s.finishRead f extra = { s with port := s.port.afterRead f extra } := by
  unfold State.finishRead Port.afterRead
  congr 2
  unfold State.sdoBytes
  simp only [List.range_zero, List.map_nil, List.append_nil]
  rw [List.take_append]
  have len : ([0, 0, 0, 0, s.port.lastStatus.code] ++ f.data : List Byte).length = 5 + f.data.length := by
    simp
    omega
  rw [len, List.take_of_length_le (by rw [len]; omega)]
  congr 1
  rw [List.take_replicate]
  congr 1
  congr 1
  omega

/-- The frame that a read command closes: the open one of that command, or one captured now (R170). -/
theorem State.closingFrame_of (s : State) (command : ReadCommand) (f : Capture) (ha : s.port.acrossReset = false)
    (h : (∃ o, s.port.frame = some o ∧ o.captured = f ∧ f.command = command) ∨ (s.port.frame = none ∧ f = s.capture command)) :
    s.closingFrame command = some f := by
  unfold State.closingFrame
  rw [if_pos (by simp [Port.listens, ha])]
  rcases h with ⟨o, h1, rfl, h2⟩ | ⟨h1, h2⟩ <;> simp [h1, h2]

/-! ### Indexes and lengths -/

theorem indexIn_none {n : Nat} (i : Half) : indexIn n i = none ↔ n ≤ i.toNat := by
  unfold indexIn
  split <;> simp <;> omega

theorem indexIn_some {n : Nat} (i : Half) (k : Fin n) : indexIn n i = some k ↔ i.toNat = k.val := by
  unfold indexIn
  split
  · simp [Fin.ext_iff]
  · have := k.isLt
    simp
    omega

theorem wordBytes_length (w : Word) : (wordBytes w).length = 4 := rfl

theorem halfBytes_length (w : Half) : (halfBytes w).length = 2 := rfl

theorem PartitionCounters.bytes_length (c : PartitionCounters) : c.bytes.length = 44 := by
  simp [PartitionCounters.bytes, wordBytes_length, halfBytes_length]

theorem globalBytes_length (r w : Word) (g : GlobalCounters) : (globalBytes r w g).length = 32 := by simp [globalBytes, wordBytes_length]

theorem FaultRecord.bytes_length (r : FaultRecord) : r.bytes.length = 16 := by
  unfold FaultRecord.bytes
  cases r.address <;> simp [wordBytes_length]

theorem State.statusBytes_length (s : State) : s.statusBytes.length = 16 := by
  simp [State.statusBytes, wordBytes_length, halfBytes_length]

theorem State.entryBytes_length (s : State) (table : EntryTable) (index : Half) (b : List Byte) (h : s.entryBytes table index = some b) :
    b.length = entryLength table := by
  cases table with
  | schedule t part =>
    cases part <;> simp only [State.entryBytes, ScheduleTable.bytes, Option.map_eq_some_iff] at h <;> obtain ⟨_, _, rfl⟩ := h <;>
      simp [entryLength]
  | _ =>
    simp only [State.entryBytes, Option.map_eq_some_iff] at h
    obtain ⟨_, _, rfl⟩ := h
    rfl

/-- What a read command returns is as long as the manual says (R168, R173, R177). -/
theorem State.readData_length (s : State) (c : ReadCommand) (b : List Byte) (h : s.readData c = some b) : b.length = readLength c := by
  cases c with
  | readEntry t i => exact s.entryBytes_length t i b h
  | popFault =>
    simp only [State.readData, Option.map_eq_some_iff] at h
    obtain ⟨r, _, rfl⟩ := h
    exact r.bytes_length
  | readStatus =>
    cases h
    exact s.statusBytes_length
  | readCounters a =>
    simp only [State.readData, State.countersBytes] at h
    simp only [readLength, countersLength]
    split at h
    · cases h
      rename_i hh
      rw [if_pos hh, PartitionCounters.bytes_length]
    · split at h
      · cases h
        rename_i hh _
        rw [if_neg hh, globalBytes_length]
      · cases h
  | readSnapshot i =>
    simp only [State.readData, Snapshot.bytes] at h
    simp only [readLength, snapshotLength]
    split at h
    · cases h
      rename_i hh
      subst hh
      simp [wordBytes_length, globalBytes_length]
    · split at h
      · cases h
        rename_i h1 h2
        have : i.toNat ≠ 0 := fun k => h1 (BitVec.eq_of_toNat_eq (by simpa using k))
        rw [if_pos (by omega), PartitionCounters.bytes_length]
      · cases h

/-! ### Sums and bits -/

theorem sum_set (l : List Nat) (i : Nat) (h : i < l.length) (x : Nat) : (l.set i x).sum = l.sum - l[i] + x := by
  induction l generalizing i with
  | nil => simp at h
  | cons a l ih =>
    cases i with
    | zero =>
      simp
      omega
    | succ i =>
      simp only [List.length_cons, Nat.add_lt_add_iff_right] at h
      have le : l[i] ≤ l.sum := List.single_le_sum (by simp) _ (List.getElem_mem _)
      simp [ih i h]
      omega

/-- The sum of the quotas after one record has changed (R24, R25). -/
theorem quotaSum_modifyAt (v : Vector PartitionRecord 8) (p : PartitionId) (f : PartitionRecord → PartitionRecord) :
    quotaSum (modifyAt v p f) = quotaSum v - v[p].quota + (f v[p]).quota := by
  unfold quotaSum modifyAt
  rw [Vector.toList_set, List.map_set, sum_set _ _ (by simp)]
  simp

/-- Two sets of attention causes meet in a bit. -/
theorem and_ne_zero_iff (a b : BitVec 7) : (a &&& b != 0) = true ↔ ∃ k : Fin 7, a.getLsbD k = true ∧ b.getLsbD k = true := by
  rw [bne_iff_ne]
  constructor
  · intro h
    by_contra hn
    apply h
    apply BitVec.eq_of_getLsbD_eq
    intro i hi
    rw [not_exists] at hn
    have := hn ⟨i, hi⟩
    show (a &&& b).getLsbD i = (0#7).getLsbD i
    rw [BitVec.getLsbD_and, BitVec.getLsbD_zero]
    cases hx : a.getLsbD i
    · rfl
    · cases hy : b.getLsbD i
      · rfl
      · exact absurd ⟨hx, hy⟩ this
  · rintro ⟨k, h1, h2⟩ h
    have := congrArg (fun v : BitVec 7 => v.getLsbD k) h
    simp only [BitVec.getLsbD_and, h1, h2] at this
    simp at this

end Machine
end Sys2Proof
end

