-- ==== Sys2Proof/Tests/Slice0.lean ====
section
/-! SUPPORT. Tests of single commands, whose expected values are worked by hand from the rules they cite; smoke tests of well-formedness; and a witness
for the hypotheses of every statement of Certificates/Slice0/Obligations.lean, clause by clause. -/

open Sys2Proof Sys2Proof.Machine

namespace Sys2Proof
namespace Tests

/-! ### Small states -/

/-- The part running with every reset value. -/
def up : State := { State.reset with line := .running }

def pairOf (i : Initiator) (t : Tag) : Pair := { initiator := i, tag := t }

def readOf (p : PartitionId) (i : Initiator) (t : Tag) : PoolEntry :=
  { partition := p, pair := pairOf i t, kind := .read, address := 0x2000, beats := 2, stamp := 0, dataComplete := none, state := .waiting }

def writeOf (p : PartitionId) (i : Initiator) (t : Tag) (beats : Nat) (complete : Bool) : PoolEntry :=
  { partition := p, pair := pairOf i t, kind := .write, address := 0x3000, beats := beats, stamp := 0, dataComplete := some complete
    state := .waiting }

def recordOf (p : PartitionId) (i : Initiator) (t : Tag) (declared received : Nat) (state : RecordState) (stored : List Beat) : OpenWrite :=
  { pair := pairOf i t, owner := if state = .discarding then none else some (pairOf i t), partition := p, declared := declared
    received := received, state := state, stored := stored }

def accessOf (kind : AccessKind) : Transaction :=
  { partition := 0, pair := pairOf 7 7, kind := kind, address := 0x2000, beats := 2, deadline := some 0 }

/-- Running, with these pool entries, their pairs held. -/
def queued (es : List PoolEntry) : State :=
  { up with pool := es, intake := { up.intake with heldPairs := es.map PoolEntry.pair } }

/-- Running, with one WRITE of three beats gathering its data. -/
def gathering (received : Nat) (state : RecordState) : State :=
  { queued [writeOf 0 1 2 3 (state == .complete)] with
    writes := { reserved := 3, records := [recordOf 0 1 2 3 received state (List.replicate received 0xAB)] } }

/-- Running, with one in-flight entry. -/
def inFlight (d : DTag) (e : FlightEntry) (places : List DTag) : State :=
  { up with
    flight := { up.flight with table := up.flight.table.set d e, places := places }
    intake := { up.intake with heldPairs := e.heldPair.toList } }

/-- Running, with one trigger entry that is armed. -/
def armedWith (cause : CauseCode) (argument : Byte) (action : ActionCode) (actionArgument : Byte) : State :=
  { up with
    triggers :=
      { up.triggers with
        entries :=
          up.triggers.entries.set 2
            { enabled := true, mode := .single, armed := true, cause := cause, causeArgument := argument, action := action
              actionArgument := actionArgument, fireCount := 0xFFFF } } }

def restarting (phase : RestartPhase) (pulse : Option Nat) : State := { up with restart := { phase := phase, pulse := pulse } }

def faultOf (kind : FaultKind) : FaultRecord :=
  { kind := kind, partition := some 3, pair := some (pairOf 31 15), address := none, dtag := none, round := 0x01020304, slot := 9 }

def faulted : State := { up with attention := { up.attention with queue := [faultOf .tag, faultOf .late] } }

/-- Slot `n` of a round; the next slot start is that of the slot after it. -/
def atSlot (n : Nat) (s : State) : State := { s with sched := { s.sched with slot := n } }

/-- Table A with its second slot entry changed: the slot start that leaves slot 0 decides by it. -/
def slotOne (e : SlotEntry) (s : State) : State :=
  { s with sched := { s.sched with tableA := { s.sched.tableA with entries := s.sched.tableA.entries.set 1 e } } }

/-- What a command answers, when it is a next state. -/
def after (i : Instr) (s : State) : Option State :=
  match exec i s with
  | .next t => some t
  | .fault _ => none
  | .refused _ => none

/-! ### Well-formed operands -/

/-- R61: beats is carried as 0 to 31. -/
theorem test_request_beats :
    ((Instr.readRequest 0 0 0 31).wellFormed = true ∧ (Instr.readRequest 0 0 0 32).wellFormed = false) ∧
      ((Instr.writeRequest 0 0 0 31).wellFormed = true ∧ (Instr.writeRequest 0 0 0 32).wellFormed = false) ∧
      (Instr.unnamedKindRequest 0 0 0 31).wellFormed = true ∧ (Instr.unnamedKindRequest 0 0 0 32).wellFormed = false := by decide

/-- R96: an answer carries at most 16 beats. -/
theorem test_answer_beats :
    (Instr.answer 0 .ok (List.replicate 16 0)).wellFormed = true ∧ (Instr.answer 0 .ok (List.replicate 17 0)).wellFormed = false := by
  decide

/-- R168: PATH RESTART needs five bytes, ACKNOWLEDGE six. -/
theorem test_cut_short_frames :
    (Instr.frameCutShort [0x13, 0, 0, 0]).wellFormed = true ∧ (Instr.frameCutShort [0x13, 0, 0, 0, 0]).wellFormed = false ∧
      (Instr.frameCutShort [0x21, 0, 0, 0, 0]).wellFormed = true := by decide

/-- R168, R177: codes 03h and 06h name no command and no table; POP FAULT's code is 20h. -/
theorem test_unknown_frames :
    (Instr.unknown [0x03, 0, 0, 0, 0]).wellFormed = true ∧ (Instr.unknown [0x01, 0x06, 0, 0, 0]).wellFormed = true ∧
      (Instr.unknown [0x20, 0, 0, 0, 0]).wellFormed = false ∧ (Instr.unknown [0x03, 0, 0, 0]).wellFormed = false := by decide

/-- R170: code 13h is PATH RESTART and 02h WRITE ENTRY, which read nothing; table code 06h names no table. -/
theorem test_index_bytes :
    (Instr.indexComplete { code := 0x30, argument := 0, high := 0, low := 0 }).wellFormed = true ∧
      (Instr.indexComplete { code := 0x01, argument := 0x08, high := 0, low := 9 }).wellFormed = true ∧
      (Instr.indexComplete { code := 0x13, argument := 0, high := 0, low := 0 }).wellFormed = false ∧
      (Instr.indexComplete { code := 0x02, argument := 0x08, high := 0, low := 0 }).wellFormed = false ∧
      (Instr.indexComplete { code := 0x01, argument := 0x06, high := 0, low := 0 }).wellFormed = false := by decide

/-! ### Single commands -/

theorem test_pinReset_clears : (after .pinReset (queued [readOf 0 1 2])).map (fun t => (t.line, t.pool)) = some (.heldLow, []) := by
  decide

/-- R8, R54: slot 0 of round 0 comes at once, and with nothing queued it is IDLE. -/
theorem test_leaving_reset :
    (after (.rstnReturnsHigh false) State.reset).map (fun t => (t.sched.round, t.sched.slot, t.counters.global.idle)) = some (0, 0, 1) := by
  decide

/-- R5, R6: the reset round is 8 slots long, and the round number wraps. -/
theorem test_slotStart_wraps_round :
    (after .slotStart { atSlot 7 up with sched := { (atSlot 7 up).sched with round := 0xFFFFFFFF } }).map
      (fun t => (t.sched.slot, t.sched.round, t.sched.slotCount)) = some (0, 0, 1) := by decide

/-- R51 to R56: an OPEN slot goes to P0's READ, whose allowance of 32 falls to 31, and the pointer moves to P1. -/
theorem test_slotStart_slack_issue :
    (after .slotStart (queued [readOf 0 1 2])).map (fun t => (t.pool, t.sched.remaining[(0 : Fin 8)], t.sched.slackPointer, t.occupancy)) =
      some ([], 31, 1, 1) := by decide

/-- Two ISSUED entries whose deadline round is round 1, and one whose is round 2; the next slot start begins round 1. -/
def dueNextRound : State :=
  { atSlot 7 up with
    flight :=
      { up.flight with
        table :=
          ((up.flight.table.set 9 (.issued { accessOf .read with deadline := some 1, partition := 3 })).set 2
            (.issued { accessOf .write with deadline := some 1 })).set 4 (.issued { accessOf .read with deadline := some 2 }) } }

/-- R102: each due entry expires at the round start, in increasing d-tag order, and its fault is of that round. Which of the two faults on their way reach the
queue with the slot start is a free value, so the state is the one after the round start's own work. -/
theorem test_slotStart_expires :
    exec .slotStart dueNextRound = .next dueNextRound.startSlot.runSlot.settle ∧
      (let started := State.roundStart { dueNextRound with sched := dueNextRound.sched.advance }
       started.flight.places = [2, 9] ∧ started.orphanCount = 2 ∧ started.attention.queue = [] ∧
         started.flight.timeouts.map (fun r => (r.dtag, r.round, r.slot)) = [(some 2, 1, 0), (some 9, 1, 0)]) := ⟨rfl, by decide⟩

/-- R102, R159: the fault names the d-tag. -/
theorem test_deadlineExpiry_orphans :
    (after .deadlineExpiry (inFlight 2 (.issued (accessOf .read)) [5])).map
      (fun t => (t.flight.table[(2 : Fin 16)], t.flight.places, t.attention.queue.map FaultRecord.dtag)) =
      some (.orphaned (accessOf .read) true, [5, 2], [some 2]) := by decide

/-- Running, with so many STRAY DATA records in the fault queue and TIMEOUT faults of these d-tags on their way. -/
def burst (held : Nat) (dtags : List DTag) : State :=
  { up with
    attention := { up.attention with queue := List.replicate held (faultOf .strayData) }
    flight := { up.flight with timeouts := dtags.map fun d => { faultOf .timeout with dtag := some d } } }

/-- What a command makes of the fault queue: its occupancy, the newest record's d-tag, the latched causes, and the d-tags of the faults still on their way. -/
def queueAfter (c : Instr) (s : State) : Option (Nat × Option DTag × BitVec 7 × List DTag) :=
  (after c s).map fun t =>
    (t.attention.queue.length, t.attention.queue.getLast?.bind FaultRecord.dtag, t.attention.latched, t.flight.timeouts.filterMap FaultRecord.dtag)

/-- R160, R161: of a burst, with 15 records held, the first TIMEOUT fault is stored and the second dropped with OVERFLOW (bit 1). After a POP FAULT between them
the third is stored. -/
theorem test_deadlineExpiry_burst :
    [queueAfter .deadlineExpiry (burst 15 [3, 8, 12]), queueAfter .deadlineExpiry (burst 16 [8, 12]), queueAfter (.popFault 0) (burst 16 [12]),
        queueAfter .deadlineExpiry (burst 15 [12])] =
      [some (16, some 3, 0, [8, 12]), some (16, none, 2, [12]), some (15, none, 0, [12]), some (16, some 12, 0, [])] := by decide

/-- R74: accepted into the mapped partition. -/
theorem test_readRequest_accepted :
    (after (.readRequest 3 5 0x1000 4) up).map (fun t => (t.pool.map PoolEntry.beats, t.intake.heldPairs, t.counters.parts[(0 : Fin 8)].accepted)) =
      some ([4], [pairOf 3 5], 1) := by decide

/-- R62: an address that is no multiple of 16. -/
theorem test_readRequest_shape :
    (after (.readRequest 3 5 0x1008 4) up).map (fun t => (t.intake.refusal, t.attention.queue.map FaultRecord.kind)) =
      some (some { pair := pairOf 3 5, status := .refused }, [.shape]) := by decide

/-- R84: the beats are reserved and a RECEIVING record opened. -/
theorem test_writeRequest_reserves :
    (after (.writeRequest 3 5 0x1FC0 4) up).map (fun t => (t.writes.reserved, t.writes.records.map OpenWrite.state)) = some (4, [.receiving]) := by
  decide

/-- R62: 1FD0h with four beats ends at 200Fh, in the next granule. -/
theorem test_writeRequest_crosses_granule :
    (after (.writeRequest 3 5 0x1FD0 4) up).map (fun t => (t.pool, t.attention.queue.map FaultRecord.kind)) = some ([], [.shape]) := by
  decide

/-- R62: a kind that is not named fails the shape check, whatever the rest. -/
theorem test_unnamedKind_refused :
    (after (.unnamedKindRequest 3 5 0x1000 4) up).map (fun t => (t.counters.parts[(0 : Fin 8)].refused, t.attention.queue.map FaultRecord.kind)) =
      some (1, [.shape]) := by decide

/-- R119: withdrawn with CANCELLED, the answer released. -/
theorem test_cancel_withdraws :
    (after (.cancel 1 2) (queued [readOf 0 1 2])).map (fun t => t.pool.map PoolEntry.state) = some [.answering .cancelled true] := by
  decide

/-- R120: another tag of the initiator is unknown, and counted for its partition. -/
theorem test_cancel_unknown :
    (after (.cancel 1 3) (queued [readOf 0 1 2])).map (fun t => (t.pool, t.counters.parts[(0 : Fin 8)].lateCancels)) =
      some ([readOf 0 1 2], 1) := by decide

/-- R85: the third of three beats, with last, completes the write. -/
theorem test_beat_completes :
    (after (.writeDataBeat 1 2 0xCD true) (gathering 2 .receiving)).map
      (fun t => (t.pool.map PoolEntry.dataComplete, t.writes.records.map OpenWrite.stored)) = some ([some true], [[0xAB, 0xAB, 0xCD]]) := by
  decide

/-- R86: the third of three beats without last breaks the write. -/
theorem test_beat_missing_last :
    (after (.writeDataBeat 1 2 0xCD false) (gathering 2 .receiving)).map
      (fun t => (t.pool.map PoolEntry.state, t.writes, t.attention.queue.map FaultRecord.kind)) =
      some ([.answering .aborted true], { reserved := 0, records := [] }, [.wdata]) := by decide

theorem test_downstreamTake_empties :
    (after .downstreamTake
      { up with flight := { up.flight with output := some { dtag := 0, kind := .read, address := 0, beats := 1, data := none } } }).map
      (fun t => t.flight.output) = some none := by decide

/-- R99: a READ answered OK with its two beats. -/
theorem test_answer_okay :
    (after (.answer 4 .ok [1, 2]) (inFlight 4 (.issued (accessOf .read)) [])).map (fun t => (t.flight.table[(4 : Fin 16)], t.flight.places)) =
      some (.returning (accessOf .read) .okay [1, 2], [4]) := by decide

/-- R99, R161: a READ of two beats answered with one is DERR, and its fault is behind a TIMEOUT fault that was still on its way. -/
theorem test_answer_beat_count :
    (after (.answer 4 .ok [1])
      { inFlight 4 (.issued (accessOf .read)) [] with
        flight := { (inFlight 4 (.issued (accessOf .read)) []).flight with timeouts := [faultOf .timeout] } }).map
      (fun t => (t.flight.table[(4 : Fin 16)], t.attention.queue.map FaultRecord.kind)) =
      some (.returning (accessOf .read) .derr [], [.timeout, .downErr]) := by decide

/-- R107: from IN-FLIGHT the order goes on to REFUSAL before WITHDRAWN. -/
theorem test_arbiterChoice_order :
    (after .arbiterChoice
      { queued [{ readOf 0 1 2 with state := .answering .aborted true }] with
        intake := { up.intake with refusal := some { pair := pairOf 9 9, status := .retry } }
        flight := { up.flight with turn := .inFlight } }).map (fun t => t.flight.offer.map Offer.source) = some (some .refusal) := by
  decide

/-- R112: the delivery frees the entry and the pair, and counts it. -/
theorem test_delivery_frees :
    (after .responseDelivery
      { inFlight 4 (.returning (accessOf .write) .okay []) [4] with
        flight :=
          { (inFlight 4 (.returning (accessOf .write) .okay []) [4]).flight with
            offer := some { source := .inFlight 4, record := { pair := pairOf 7 7, status := .okay, data := none } } } }).map
      (fun t => (t.flight.table[(4 : Fin 16)], t.flight.turn, t.intake.heldPairs, t.counters.parts[(0 : Fin 8)].completedOk)) =
      some (.free, .refusal, [], 1) := by decide

/-- R131: RESTART is attention cause bit 5. -/
theorem test_drstnPulseEnd_finishes :
    (after .drstnPulseEnd (restarting .releasing (some 64))).map (fun t => (t.restart, t.attention.pendingSet)) =
      some ({ phase := .idle, pulse := none }, 0x20) := by decide

/-- R149, R155: an edge fires an armed entry, whose count wraps, and the SINGLE entry is disarmed. -/
theorem test_evinEdge_fires :
    (after (.evinEdge 1 false)
      { armedWith .evinFall 1 .evoutSet 3 with
        triggers := { (armedWith .evinFall 1 .evoutSet 3).triggers with seen := up.triggers.seen.set 1 (some true) } }).map
      (fun t => (t.triggers.entries[(2 : Fin 8)].fireCount, t.triggers.entries[(2 : Fin 8)].armed, t.evoutHigh 3)) = some (0, false, true) := by
  decide

/-- R156: no cause comes of the first level. -/
theorem test_evinFirstLevel_seen :
    (after (.evinFirstLevel 1 true) (armedWith .evinRise 1 .attention 0)).map (fun t => (t.triggers.seen[(1 : Fin 4)], t.attention.pendingSet)) =
      some (some true, 0) := by decide

/-- R157, R158: a line at level high is low while pulsing, and high again after. -/
theorem test_evoutPulseEnd_returns :
    let s := { up with triggers := { up.triggers with outputs := up.triggers.outputs.set 0 { level := true, pulse := some 16 } } }
    s.evoutHigh 0 = false ∧ (after (.evoutPulseEnd 0) s).map (fun t => t.evoutHigh 0) = some true := by decide

/-- R152: TRIGGER is attention cause bit 2. -/
theorem test_heldCauseTaken_fires :
    (after .heldCauseTaken
      { armedWith .monitor 3 .attention 0 with
        triggers := { (armedWith .monitor 3 .attention 0).triggers with held := [.monitor 3, .restartDone] } }).map
      (fun t => (t.triggers.held, t.attention.pendingSet)) = some ([.restartDone], 0x04) := by decide

/-- R170, R177: slot entry 0 of table A is OPEN, kind code 1 in bits 7 and 6. -/
theorem test_indexComplete_captures :
    (after (.indexComplete { code := 0x01, argument := 0x01, high := 0, low := 0 }) up).map (fun t => (t.port.frame, t.sdoDriven)) =
      some
        (some
            { bytes := [0x01, 0x01, 0, 0], received := 4
              captured := { command := .readEntry (.schedule .a .slot) 0, data := [0x40], status := .done } },
          true) := by decide

/-- R168: a frame cut short leaves the last status. -/
theorem test_frameCutShort_ignored :
    (after (.frameCutShort [0x13, 0]) { up with port := { up.port with lastStatus := .invalid } }).map
      (fun t => (t.port.lastStatus, t.restart.phase)) = some (.invalid, .idle) := by decide

/-- R169, R177: byte 4 shows the last status before, here INVALID, code 5. -/
theorem test_unknown_status :
    (after (.unknown [0x7F, 0, 0, 0, 0]) { up with port := { up.port with lastStatus := .invalid } }).map
      (fun t => (t.port.lastStatus, t.port.sdo)) = some (.unknown, [0, 0, 0, 0, 5]) := by decide

/-- R23, R177: P0's record after reset is RUN, quota 64, slack yes, limit 0. -/
theorem test_readEntry_partition :
    (after (.readEntry .partitions 0 1) up).map (fun t => t.port.sdo) = some [0, 0, 0, 0, 0, 1, 64, 1, 0, 0] := by decide

/-- R170: partition index 8 is RANGE, with 00h in its four bytes. -/
theorem test_readEntry_range :
    (after (.readEntry .partitions 8 0) up).map (fun t => (t.port.lastStatus, t.port.sdo)) = some (.range, [0, 0, 0, 0, 0, 0, 0, 0, 0]) := by
  decide

/-- R18: the active table is LOCKED, the other is written. -/
theorem test_writeScheduleEntry_locked :
    ((after (.writeScheduleEntry .a 0 (.header 4 8) 0) up).map fun t => (t.port.lastStatus, t.sched.tableA.roundLength)) = some (.locked, 8) ∧
      ((after (.writeScheduleEntry .b 0 (.header 4 8) 0) up).map fun t => (t.port.lastStatus, t.sched.tableB.roundLength)) = some (.done, 4) := by
  decide

/-- R177: 97h is OWNED by P7 with the lend flag; 88h names partition 8. -/
theorem test_writeScheduleEntry_slot :
    ((after (.writeScheduleEntry .b 31 (.slot 0x97) 0) up).map fun t => t.sched.tableB.entries[(31 : Fin 32)]) = some (.owned 7 true) ∧
      ((after (.writeScheduleEntry .b 31 (.slot 0x88) 0) up).map fun t => t.port.lastStatus) = some .range := by decide

/-- R25: with P0 at 64, any quota for P1 is too much. -/
theorem test_writePartitionRecord_sum :
    ((after (.writePartitionRecord 1 0 1 0 0 0) up).map fun t => t.port.lastStatus) = some .range ∧
      ((after (.writePartitionRecord 1 0 0 1 15 0) up).map fun t => t.parts[(1 : Fin 8)]) =
        some { state := .off, quota := 0, slack := true, responseLimit := 15 } := by decide

/-- R69: FFh is NONE, 8 is no partition. -/
theorem test_writeInitiatorMap_values :
    ((after (.writeInitiatorMap 31 0xFF 0) up).map fun t => t.intake.map[(31 : Fin 32)]) = some none ∧
      ((after (.writeInitiatorMap 31 8 0) up).map fun t => t.port.lastStatus) = some .range := by decide

/-- R69, R177: the top four bits of a granule number are unused; bits 0 to 2 of the flags are read, write, enabled. -/
theorem test_writeRegion_fields :
    ((after (.writeRegion 15 0xF0000002 0x00000003 0x81 0x05 0) up).map fun t => t.intake.regions[(15 : Fin 16)]) =
      some { base := 2, limit := 3, mask := 0x81, readAllow := true, writeAllow := false, enabled := true } ∧
      ((after (.writeRegion 15 3 2 0 0 0) up).map fun t => t.port.lastStatus) = some .range := by decide

/-- R142, R143: an empty queue is BELOW 1, so the monitor is true at once. -/
theorem test_writeMonitor_evaluates :
    ((after (.writeMonitor 2 1 0 1 7 1 0) up).map fun t => (t.monitors[(2 : Fin 4)].last, t.port.lastStatus)) = some (true, .done) ∧
      ((after (.writeMonitor 2 1 0 1 8 1 0) up).map fun t => t.port.lastStatus) = some .range := by decide

/-- R147, R177: flags 03h is enabled and REPEAT; FAULT takes kinds 0 to 10, so 11 is RANGE. -/
theorem test_writeTrigger_fields :
    ((after (.writeTrigger 2 3 5 10 12 3 0xABCD 0) (armedWith .monitor 0 .attention 0)).map fun t => t.triggers.entries[(2 : Fin 8)]) =
      some { enabled := true, mode := .recurring, armed := true, cause := .fault, causeArgument := 10, action := .clearMonitor
             actionArgument := 3, fireCount := 0xFFFF } ∧
      ((after (.writeTrigger 2 3 5 11 12 3 0 0) up).map fun t => t.port.lastStatus) = some .range := by decide

/-- R164: bit 7 names no cause. -/
theorem test_writeAttentionMask : (after (.writeAttentionMask 0 0xFF 0) up).map (fun t => t.attention.mask) = some 0x7F := by decide

/-- R13: table B after reset has no used slot entry but QUIET, and fails condition 3. -/
theorem test_requestSwitch_invalid :
    (after (.requestSwitch 1 0) up).map (fun t => (t.port.lastStatus, t.sched.pendingTarget)) = some (.invalid, none) ∧
      (after (.requestSwitch 0 0) up).map (fun t => (t.port.lastStatus, t.sched.pendingTarget)) = some (.done, some .a) := by decide

/-- R28, R31: P0 with nothing outstanding closes at once; CLOSED is attention cause bit 6. -/
theorem test_setPartitionState_closes :
    (after (.setPartitionState 0 3 0) up).map (fun t => (t.parts[(0 : Fin 8)].state, t.attention.pendingSet)) = some (.off, 0x40) := by
  decide

/-- R28: OFF with quota 0 may not run, and OFF is no target. -/
theorem test_setPartitionState_refused :
    (after (.setPartitionState 1 1 0) up).map (fun t => t.port.lastStatus) = some .range ∧
      (after (.setPartitionState 0 0 0) up).map (fun t => t.port.lastStatus) = some .state := by decide

/-- R124: only the named partition's WAITING entries. -/
theorem test_flushPartition :
    (after (.flushPartition 3 0) (queued [readOf 0 1 2, readOf 3 4 5])).map (fun t => t.pool.map PoolEntry.state) =
      some [.waiting, .answering .aborted true] := by decide

/-- R127, R129, R130: with nothing left to drain, RELEASING begins at once. -/
theorem test_pathRestart_empty :
    (after (.pathRestart 0) up).map (fun t => (t.restart, t.drstnLow)) = some ({ phase := .releasing, pulse := some 64 }, true) := by
  decide

/-- R162, R171: the oldest record goes. -/
theorem test_popFault_oldest :
    (after (.popFault 0) faulted).map (fun t => (t.attention.queue.map FaultRecord.kind, t.port.sdo.take 10)) =
      some ([.late], [0, 0, 0, 0, 0, 1, 3, 3, 31, 15]) := by decide

theorem test_popFault_empty : (after (.popFault 0) up).map (fun t => t.port.lastStatus) = some .empty := by decide

/-- R163, R165: FAULT follows the queue, whatever is acknowledged. -/
theorem test_acknowledge :
    (after (.acknowledge 0xFF 0) { faulted with attention := { faulted.attention with latched := 0x7E } }).map
      (fun t => t.attention.pendingSet) = some 0x01 := by decide

/-- R172: table A, no target, round 0, slot 0, IDLE, P0 in RUN in the low two bits of byte 9. -/
theorem test_readStatus_at_reset :
    (after (.readStatus 0) up).map (fun t => t.port.sdo.drop 5) = some [0, 0, 0, 0, 0, 0, 0, 0, 0, 1, 0, 0, 0, 0, 0, 0] := by decide

/-- R137, R173: 8 is the global set and 9 is refused; each returns 32 bytes. -/
theorem test_readCounters_lengths :
    (after (.readCounters 8 0) up).map (fun t => (t.port.lastStatus, t.port.sdo.length)) = some (.done, 37) ∧
      (after (.readCounters 9 0) up).map (fun t => (t.port.lastStatus, t.port.sdo.length)) = some (.range, 37) := by decide

theorem test_clearCounters :
    (after (.clearCounters 0)
      { up with counters := { Counters.zero with global := { GlobalCounters.zero with idle := 9 } }, sched := { up.sched with round := 4 } }).map
      (fun t => (t.counters.global.idle, t.sched.round)) = some (0, 4) := by decide

/-- R173: part 0 is 37 bytes, a partition's part 44. -/
theorem test_readSnapshot_lengths :
    (after (.readSnapshot 0 0) up).map (fun t => t.port.sdo.length) = some 42 ∧
      (after (.readSnapshot 8 0) up).map (fun t => t.port.sdo.length) = some 49 ∧
      (after (.readSnapshot 9 0) up).map (fun t => t.port.lastStatus) = some .range := by decide

theorem test_shortRstnPulse : (after .shortRstnPulse up).map State.line = some .undefined := by decide

/-- Running, with SELN low since RSTN returned high. -/
def openAcrossReset : State := { up with port := { up.port with selnLow := true, acrossReset := true } }

/-- R167: nothing is taken until SELN has gone high. -/
theorem test_frameOpenAcrossReset :
    (after (.pathRestart 0) openAcrossReset).map (fun t => (t.restart.phase, t.sdoDriven)) = some (.idle, true) ∧
      (after .frameOpenAcrossReset openAcrossReset).map (fun t => (t.port.acrossReset, t.sdoDriven)) = some (false, false) := by decide

/-! ### Frames -/

/-- R177: SET PARTITION STATE has code 11h, its target in the index's low byte; one byte beyond the needed five. -/
theorem test_decodeFrame_setPartitionState : decodeFrame [0x11, 0x02, 0x00, 0x03, 0x00, 0x55] = .setPartitionState 2 3 1 := by decide

/-- R177: the regions are table 0Ah, with base and limit most significant byte first. -/
theorem test_decodeFrame_region :
    decodeFrame [0x02, 0x0A, 0x00, 0x0F, 0x00, 0x00, 0x00, 0x01, 0x02, 0x00, 0x00, 0x03, 0x04, 0x81, 0x07] =
      .writeRegion 15 0x102 0x304 0x81 0x07 0 := by decide

/-- R177: the command codes of frames that return no data, and codes and table codes that name nothing. -/
theorem test_decodeFrame_codes :
    [decodeFrame [0x10, 0x01, 0, 0, 0], decodeFrame [0x12, 0x07, 0, 0, 0], decodeFrame [0x13, 0, 0, 0, 0], decodeFrame [0x32, 0, 0, 0, 0],
        decodeFrame [0x21, 0, 0, 0, 0, 0x42], decodeFrame [0x14, 0, 0, 0, 0], decodeFrame [0x02, 0x06, 0, 0, 0]] =
      [.requestSwitch 1 0, .flushPartition 7 0, .pathRestart 0, .clearCounters 0, .acknowledge 0x42 0, .unknown [0x14, 0, 0, 0, 0],
        .unknown [0x02, 0x06, 0, 0, 0]] := by decide

/-- R61: the request channel is not ready while RSTN is low, nor while the refusal slot holds a response. -/
theorem test_intakeReady :
    State.reset.intakeReady = false ∧ up.intakeReady = true ∧
      ({ up with intake := { up.intake with refusal := some { pair := pairOf 3 5, status := .retry } } } : State).intakeReady = false := by decide

/-- R167: 30h crosses the port as 0011 0000; three bits after the fifth byte are discarded, and the frame is READ STATUS cut short. -/
theorem test_decodeBits :
    decodeBits
        ([false, false, true, true, false, false, false, false] ++ List.replicate 32 false ++ [true, true, true]) =
      .frameCutShort [0x30, 0, 0, 0, 0] ∧
      decodeBits (List.replicate 3 false ++ [true] ++ List.replicate 2 false ++ [true, true] ++ List.replicate 32 false) = .pathRestart 0 := by
  decide

/-! ### Witnesses: states and operands that meet the hypotheses of each statement, every clause of it -/

theorem witness_StepRunsFrontCommand : State.reset.pending = [] := by decide

theorem witness_NothingTakenWhileLow :
    State.reset.line = .heldLow ∧ Instr.slotStart ≠ .pinReset ∧ ∀ b, Instr.slotStart ≠ .rstnReturnsHigh b := by decide

theorem witness_PinResetAndShortPulse :
    up.line = .running ∧ ({ up with line := .undefined } : State).line = .undefined ∧ Instr.slotStart ≠ .pinReset := by decide

theorem witness_LeavingReset : up.line = .running := by decide

/-- Slots 6 and 7 of a round of eight, and a switch to B at the end of the round. -/
def switching : State :=
  { atSlot 7 up with
    sched :=
      { (atSlot 7 up).sched with
        tableB := { up.sched.tableB with entries := up.sched.tableB.entries.set 3 .openSlot }, pendingTarget := some .b } }

theorem witness_SlotStartTiming :
    ((atSlot 6 up).line = .running ∧ (atSlot 6 up).sched.slot + 1 < (atSlot 6 up).sched.activeTable.roundLength) ∧
      ((atSlot 7 up).line = .running ∧ (atSlot 7 up).sched.activeTable.roundLength ≤ (atSlot 7 up).sched.slot + 1) ∧
      switching.line = .running ∧ switching.sched.activeTable.roundLength ≤ switching.sched.slot + 1 ∧
      switching.atDecision.sched.active ≠ switching.sched.active := by decide

/-- A monitor that watches the age of P0's head, and P0's queue not empty. -/
def watchingAge (s : State) : State :=
  { s with monitors := s.monitors.set 3 { Monitor.reset with enabled := true, object := .age, threshold := 1 } }

theorem witness_SlotStartTiming_ages :
    let s := watchingAge (queued [readOf 0 1 2])
    s.monitors[(3 : Fin 4)].enabled = true ∧ s.monitors[(3 : Fin 4)].quantity = .age 0 ∧ s.head 0 ≠ none := by decide

/-- Every in-flight entry in use. -/
def full : State := { up with flight := { up.flight with table := Vector.replicate 16 (.issued { accessOf .read with deadline := none }) } }

def holdingRecord (s : State) : State :=
  { s with flight := { s.flight with output := some { dtag := 0, kind := .read, address := 0, beats := 1, data := none } } }

/-- The decision falls on slot `i`, whose entry is `e`. -/
abbrev EntryIs (s : State) (i : Fin 32) (e : SlotEntry) : Prop :=
  s.atDecision.sched.slot = i.val ∧ s.atDecision.sched.activeTable.entries[i] = e

/-- The last slot of a round of 32, an OPEN one. -/
def lastOfThirtyTwo : State :=
  atSlot 30
    { up with
      sched :=
        { up.sched with tableA := { up.sched.tableA with roundLength := 32, entries := up.sched.tableA.entries.set 31 .openSlot } } }

theorem witness_SlotWithoutIssue :
    (up.line = .running ∧ (restarting .draining none).line = .running ∧ (restarting .draining none).atDecision.restart.phase ≠ .idle) ∧
      ((slotOne .quiet up).atDecision.restart.phase = .idle ∧ EntryIs (slotOne .quiet up) 1 .quiet) ∧
      (full.atDecision.restart.phase = .idle ∧ EntryIs full 1 .openSlot ∧ ∀ d : DTag, full.atDecision.flight.table[d] ≠ .free) ∧
      (holdingRecord up).atDecision.flight.output ≠ none ∧
      (EntryIs up 1 .openSlot ∧ EntryIs lastOfThirtyTwo 31 .openSlot ∧ EntryIs (atSlot 7 up) 0 .openSlot ∧ (∃ d : DTag, up.atDecision.flight.table[d] = .free) ∧ up.atDecision.flight.output = none ∧
        ∀ p : PartitionId, up.atDecision.qualifies p = false) ∧
      (EntryIs (slotOne (.owned 1 false) (queued [readOf 0 1 2])) 1 (.owned 1 false) ∧
        (slotOne (.owned 1 false) (queued [readOf 0 1 2])).atDecision.eligible 1 = false) ∧
      EntryIs (slotOne (.owned 1 true) up) 1 (.owned 1 true) ∧ (slotOne (.owned 1 true) up).atDecision.eligible 1 = false ∧
      ∀ q : PartitionId, (slotOne (.owned 1 true) up).atDecision.qualifies q = false := by decide

theorem witness_OwnedIssue :
    let s := slotOne (.owned 0 true) (queued [readOf 0 1 2])
    s.line = .running ∧ s.atDecision.restart.phase = .idle ∧ EntryIs s 1 (.owned 0 true) ∧ s.atDecision.flight.output = none ∧
      s.atDecision.flight.table[(0 : DTag)] = .free ∧ (∀ d' : DTag, d' < 0 → s.atDecision.flight.table[d'] ≠ .free) ∧
      s.atDecision.eligible 0 = true ∧ s.atDecision.head 0 = some (readOf 0 1 2) := by decide

/-- The winner P0 at the first and at the last place of the search order. -/
def slackState (pointer : PartitionId) (e : SlotEntry) : State :=
  slotOne e { queued [readOf 0 1 2] with sched := { up.sched with slackPointer := pointer } }

def SlackHypotheses (s : State) (k : Fin 8) : Prop :=
  s.line = .running ∧ s.atDecision.restart.phase = .idle ∧ s.atDecision.flight.output = none ∧ s.atDecision.flight.table[(0 : DTag)] = .free ∧
    (0 : PartitionId) = s.atDecision.sched.slackPointer + k ∧
    (∀ j : Fin 8, j < k → s.atDecision.qualifies (s.atDecision.sched.slackPointer + j) = false) ∧ s.atDecision.qualifies 0 = true ∧
    s.atDecision.head 0 = some (readOf 0 1 2)

theorem witness_SlackIssue_first :
    SlackHypotheses (slackState 0 .openSlot) 0 ∧ EntryIs (slackState 0 .openSlot) 1 .openSlot := by
  unfold SlackHypotheses; decide

theorem witness_SlackIssue_last :
    SlackHypotheses (slackState 1 (.owned 5 true)) 7 ∧ EntryIs (slackState 1 (.owned 5 true)) 1 (.owned 5 true) ∧
      (slackState 1 (.owned 5 true)).atDecision.eligible 5 = false := by
  unfold SlackHypotheses; decide

theorem witness_TableValidation : (up.sched.table .b).valid = false := by decide

theorem witness_DeadlineExpiry :
    let s := inFlight 2 (.issued (accessOf .read)) []
    s.line = .running ∧ s.flight.table[(2 : DTag)] = .issued (accessOf .read) ∧ (accessOf .read).deadline = some s.sched.round ∧
      ∀ d' : DTag, d' < 2 → s.flight.table[d'] = .free := by decide

theorem witness_DeadlineExpiry_none :
    up.line = .running ∧ up.CausesTaken ∧ up.flight.timeouts = [] ∧
      ∀ (d : DTag) (t : Transaction), up.flight.table[d] = .issued t → t.deadline ≠ some up.sched.round := by
  refine ⟨rfl, rfl, rfl, fun d t h => ?_⟩
  simp [up, State.reset] at h

/-- TIMEOUT faults on their way: one that is stored as the 16th record, and one that is dropped. -/
theorem witness_DeadlineExpiry_settled :
    (∃ record rest, (burst 15 [3, 8]).flight.timeouts = record :: rest) ∧
      ((burst 16 [8]).flight.timeouts.take 1 ≠ [] ∧ 16 < (burst 16 [8]).attention.queue.length + ((burst 16 [8]).flight.timeouts.take 1).length) :=
  ⟨⟨_, _, rfl⟩, by decide⟩

/-- The clauses of an expiry: a partition that closes by it, and one whose other work holds closing back. -/
theorem witness_Expired :
    let s := inFlight 2 (.issued (accessOf .read)) []
    let closing := { s with parts := s.parts.set 0 { s.parts[(0 : PartitionId)] with state := .closing } }
    s.flight.table[(2 : DTag)].DueFor s.sched.round 0 ∧ closing.parts[(0 : PartitionId)].state = .closing ∧ closing.expireDue.timeoutArrives.outstanding 0 = false ∧
      s.parts[(0 : PartitionId)].state ≠ .closing := ⟨⟨accessOf .read, by decide⟩, by decide⟩

def requestAt (kind : Option AccessKind) (address : Addr) (beats : Nat) : Request :=
  { kind := kind, pair := pairOf 3 5, address := address, beats := beats }

theorem witness_RequestTurnedAway_before_the_map :
    requestOf (.readRequest 3 5 0x1000 4) = some (requestAt (some .read) 0x1000 4) ∧ up.line = .running ∧ up.intake.refusal = none ∧
      (up.CausesTaken ∧ ({ up with intake := { up.intake with refusal := some { pair := pairOf 3 5, status := .retry } } } : State).intake.refusal ≠ none) ∧
      ((restarting .draining none).intake.refusal = none ∧ (restarting .draining none).restart.phase ≠ .idle) ∧
      (up.restart.phase = .idle ∧ (requestAt (some .read) 0x1000 0).wellShaped = false ∧ (requestAt (some .read) 0x1000 17).wellShaped = false ∧
        (requestAt none 0x1000 4).wellShaped = false) ∧
      ((requestAt (some .read) 0x1000 4).wellShaped = true ∧ pairOf 3 5 ∈ (queued [readOf 0 3 5]).intake.heldPairs) ∧
      pairOf 3 5 ∉ up.intake.heldPairs ∧
      ({ up with intake := { up.intake with map := up.intake.map.set 3 none } } : State).mapped 3 = none := by
  unfold State.CausesTaken; decide

/-- P0 in this state, with this quota. -/
def withP0 (state : PartitionState) (quota : Nat) (s : State) : State :=
  { s with parts := s.parts.set 0 { s.parts[(0 : PartitionId)] with state := state, quota := quota } }

/-- This much of the buffer reserved, and this many records in use. -/
def withWrites (reserved records : Nat) : State :=
  { up with writes := { reserved := reserved, records := List.replicate records (recordOf 0 1 2 1 0 .receiving []) } }

theorem witness_RequestTurnedAway_by_the_partition :
    up.mapped 3 = some 0 ∧ (withP0 .off 0 up).parts[(0 : PartitionId)].state = .off ∧
      (withP0 .closing 64 up).parts[(0 : PartitionId)].state = .closing ∧ up.parts[(0 : PartitionId)].state = .run ∧
      (withP0 .hold 64 up).parts[(0 : PartitionId)].state = .hold ∧
      ({ up with intake := { up.intake with regions := Vector.replicate 16 Region.resetOff } } : State).regionPasses (requestAt (some .read) 0x1000 4) 0 =
        false ∧
      (up.regionPasses (requestAt (some .write) 0x1000 4) 0 = true ∧
        (withP0 .run 1 (queued [readOf 0 1 2])).heldCount 0 = (withP0 .run 1 (queued [readOf 0 1 2])).parts[(0 : PartitionId)].quota) ∧
      up.heldCount 0 ≠ up.parts[(0 : PartitionId)].quota ∧ 256 - (withWrites 253 0).writes.reserved < 4 ∧
      48 ≤ (withWrites 0 48).writes.records.length := by decide

/-- A WRITE that takes the last of the buffer and the last record. -/
theorem witness_RequestAccepted :
    let r := requestAt (some .write) 0x1000 4
    let s := withWrites 252 47
    requestOf (.writeRequest 3 5 0x1000 4) = some r ∧ r.kind = some .write ∧ s.line = .running ∧ s.intake.refusal = none ∧
      s.restart.phase = .idle ∧ r.wellShaped = true ∧ r.pair ∉ s.intake.heldPairs ∧ s.mapped r.pair.initiator = some 0 ∧
      s.parts[(0 : PartitionId)].state = .run ∧ s.regionPasses r 0 = true ∧ s.heldCount 0 ≠ s.parts[(0 : PartitionId)].quota ∧
      r.beats ≤ 256 - s.writes.reserved ∧ s.writes.records.length < 48 := by decide

theorem witness_CancelOutcome :
    (up.line = .running ∧ up.CausesTaken ∧ up.intake.refusal = none) ∧
      ({ up with intake := { up.intake with refusal := some { pair := pairOf 3 5, status := .retry } } } : State).intake.refusal ≠ none ∧
      (∃ e ∈ (queued [readOf 0 1 2]).pool, e.state = .waiting ∧ e.pair = { initiator := 1, tag := 2 }) ∧
      ∀ e ∈ (queued [readOf 0 1 2]).pool, e.state = .waiting → e.pair ≠ { initiator := 1, tag := 3 } := by
  unfold State.CausesTaken; decide

/-- A READ, and WRITEs that have received none, one and all of their two beats. -/
def fourQueued : State :=
  { queued [readOf 0 1 0, writeOf 0 1 1 2 false, writeOf 0 1 2 2 false, writeOf 0 1 3 2 true] with
    writes :=
      { reserved := 6
        records := [recordOf 0 1 1 2 0 .receiving [], recordOf 0 1 2 2 1 .receiving [0xA], recordOf 0 1 3 2 2 .complete [0xA, 0xB]] } }

theorem fourQueued_recordsKept : fourQueued.RecordsKept := by
  simp [State.RecordsKept, fourQueued, queued, up, readOf, writeOf, recordOf, pairOf, OpenWrite.Fields, OpenWrite.Owns,
    PoolEntry.NeedsRecord, Config.openWriteRecords]

/-- Chosen entries with every kind of record, and an entry and a record that are not chosen. -/
theorem witness_WithdrawalOfOneEntry :
    fourQueued.RecordsKept ∧ (readOf 0 1 0 ∈ fourQueued.pool ∧ (readOf 0 1 0).kind = .read ∧ (readOf 0 1 0).state = .waiting) ∧
      (writeOf 0 1 1 2 false ∈ fourQueued.pool ∧
        ∃ r ∈ fourQueued.writes.records, r.pair = (writeOf 0 1 1 2 false).pair ∧ r.state = .receiving ∧ r.received = 0) ∧
      (writeOf 0 1 2 2 false ∈ fourQueued.pool ∧
        ∃ r ∈ fourQueued.writes.records, r.pair = (writeOf 0 1 2 2 false).pair ∧ r.state = .receiving ∧ 1 ≤ r.received) ∧
      (writeOf 0 1 3 2 true ∈ fourQueued.pool ∧
        ∃ r ∈ fourQueued.writes.records, r.pair = (writeOf 0 1 3 2 true).pair ∧ r.state = .complete) ∧
      ∃ r ∈ fourQueued.writes.records, ∀ e ∈ fourQueued.pool, e.state = .waiting → e.kind = .write → (e.pair == pairOf 1 1) = true →
        e.pair ≠ r.pair := ⟨fourQueued_recordsKept, by decide⟩

theorem witness_BeatGathered :
    (gathering 1 .receiving).line = .running ∧
      (gathering 1 .receiving).findRecord { initiator := 1, tag := 2 } = some (recordOf 0 1 2 3 1 .receiving [0xAB]) ∧
      (recordOf 0 1 2 3 1 .receiving [0xAB]).received + 1 < (recordOf 0 1 2 3 1 .receiving [0xAB]).declared ∧
      (gathering 2 .receiving).findRecord { initiator := 1, tag := 2 } = some (recordOf 0 1 2 3 2 .receiving [0xAB, 0xAB]) ∧
      (recordOf 0 1 2 3 2 .receiving [0xAB, 0xAB]).received + 1 = (recordOf 0 1 2 3 2 .receiving [0xAB, 0xAB]).declared ∧
      (recordOf 0 1 2 3 2 .receiving [0xAB, 0xAB]).owner = some { initiator := 1, tag := 2 } := by decide

/-- An early last on the second of three beats, and a missing last on the third: the states of witness_BeatGathered. -/
theorem witness_BeatBreaksWrite :
    (∃ r, (gathering 1 .receiving).findRecord { initiator := 1, tag := 2 } = some r ∧ r.state = .receiving ∧ r.received + 1 < r.declared) ∧
      ∃ r, (gathering 2 .receiving).findRecord { initiator := 1, tag := 2 } = some r ∧ r.state = .receiving ∧ r.received + 1 = r.declared :=
  ⟨⟨recordOf 0 1 2 3 1 .receiving [0xAB], by decide⟩, ⟨recordOf 0 1 2 3 2 .receiving [0xAB, 0xAB], by decide⟩⟩

/-- A withdrawn WRITE of three beats that has discarded `received` of them. -/
def discarding (received : Nat) : State :=
  { queued [{ writeOf 0 1 2 3 false with state := .answering .aborted false }] with
    writes := { reserved := 0, records := [recordOf 0 1 2 3 received .discarding []] } }

theorem witness_BeatStrayOrDiscarded :
    (up.line = .running ∧ up.findRecord { initiator := 1, tag := 2 } = none) ∧
      ((gathering 3 .complete).findRecord { initiator := 1, tag := 2 }).map OpenWrite.state = some .complete ∧
      ((discarding 1).findRecord { initiator := 1, tag := 2 }).map (fun r => (r.state, decide (r.received + 1 ≠ r.declared))) = some (.discarding, true) ∧
      ((discarding 2).findRecord { initiator := 1, tag := 2 }).map (fun r => (r.state, decide (r.received + 1 = r.declared))) =
        some (.discarding, true) := by decide

/-- An ISSUED READ of two beats, for answers of OK with two beats, OK with none, and ERR; and an ISSUED WRITE. -/
theorem witness_TakeAndAnswer :
    let s := inFlight 15 (.issued (accessOf .read)) []
    let w := inFlight 15 (.issued (accessOf .write)) []
    s.line = .running ∧ s.flight.table[(15 : DTag)] = .issued (accessOf .read) ∧ ([1, 2] : List Beat).length = (accessOf .read).beats ∧
      ([] : List Beat).length ≠ (accessOf .read).beats ∧ w.line = .running ∧ w.flight.table[(15 : DTag)] = .issued (accessOf .write) ∧
      (accessOf .write).kind = .write := by decide

theorem witness_AnswerLateOrStray :
    (inFlight 3 (.orphaned (accessOf .read) true) [3]).flight.table[(3 : DTag)] = .orphaned (accessOf .read) true ∧
      (inFlight 3 (.orphaned (accessOf .read) false) []).flight.table[(3 : DTag)] = .orphaned (accessOf .read) false ∧
      up.flight.table[(3 : DTag)] = .free ∧
      (inFlight 3 (.returning (accessOf .read) .derr []) [3]).flight.table[(3 : DTag)] = .returning (accessOf .read) .derr [] := by decide

/-- An entry of P0 whose answer is held back, and one of P1 whose answer is released. -/
def answering : State :=
  queued [{ writeOf 0 1 2 3 false with state := .answering .aborted false }, { readOf 1 4 5 with state := .answering .cancelled true }]

theorem witness_FirstOfEachClass :
    (answering.pool = [{ writeOf 0 1 2 3 false with state := .answering .aborted false }] ++ { readOf 1 4 5 with state := .answering .cancelled true } :: [] ∧
        ∀ x ∈ [{ writeOf 0 1 2 3 false with state := .answering .aborted false }], ∀ y, x.state ≠ .answering y true) ∧
      (∀ x ∈ (queued [readOf 0 1 2]).pool, ∀ y, x.state ≠ .answering y true) ∧
      ((inFlight 3 (.returning (accessOf .read) .okay [1, 2]) [3]).flight.places = 3 :: [] ∧
        (inFlight 3 (.returning (accessOf .read) .okay [1, 2]) [3]).flight.table[(3 : DTag)] = .returning (accessOf .read) .okay [1, 2]) ∧
      ((inFlight 3 (.orphaned (accessOf .read) true) [3]).flight.places = 3 :: [] ∧
        (inFlight 3 (.orphaned (accessOf .read) true) [3]).flight.table[(3 : DTag)] = .orphaned (accessOf .read) true) ∧
      up.flight.places = [] := ⟨⟨rfl, by simp⟩, by simp [queued, readOf], by decide⟩

def turned (turn : ResponseClass) (s : State) : State := { s with flight := { s.flight with turn := turn } }

def offering (o : Offer) (s : State) : State := { s with flight := { s.flight with offer := some o } }

def refusalOffer : Offer := { source := .refusal, record := { pair := pairOf 3 5, status := .retry, data := none } }

theorem witness_ArbiterChoice :
    (up.line = .running ∧ (offering refusalOffer up).flight.offer ≠ none) ∧ answering.flight.offer = none ∧
      (∃ o, (turned .withdrawn answering).firstOf (turned .withdrawn answering).flight.turn = some o) ∧
      (answering.firstOf answering.flight.turn = none ∧ ∃ o, answering.firstOf answering.flight.turn.after = some o) ∧
      ((turned .inFlight answering).firstOf (turned .inFlight answering).flight.turn = none ∧
        (turned .inFlight answering).firstOf (turned .inFlight answering).flight.turn.after = none ∧
        ∃ o, (turned .inFlight answering).firstOf (turned .inFlight answering).flight.turn.after.after = some o) ∧
      up.firstOf .refusal = none ∧ up.firstOf .withdrawn = none ∧ up.firstOf .inFlight = none := by
  refine ⟨by decide, by decide, ⟨_, rfl⟩, ⟨by decide, ⟨_, rfl⟩⟩,
    ⟨by decide, by decide, ⟨_, rfl⟩⟩, by decide⟩

def withdrawnOffer : Offer :=
  { source := .withdrawn (pairOf 4 5), record := { pair := pairOf 4 5, status := .cancelled, data := none } }

def flightOffer : Offer := { source := .inFlight 3, record := { pair := pairOf 7 7, status := .timeout, data := none } }

theorem witness_ResponseDelivery :
    (up.line = .running ∧ up.flight.offer = none ∧ up.CausesTaken) ∧ (offering refusalOffer up).flight.offer = some { refusalOffer with source := .refusal } ∧
      ((offering withdrawnOffer answering).flight.offer = some { withdrawnOffer with source := .withdrawn (pairOf 4 5) } ∧
        (offering withdrawnOffer answering).pool =
          [{ writeOf 0 1 2 3 false with state := .answering .aborted false }] ++ { readOf 1 4 5 with state := .answering .cancelled true } :: [] ∧
        ∀ x ∈ [{ writeOf 0 1 2 3 false with state := .answering .aborted false }],
          x.pair = pairOf 4 5 → ∀ y, x.state ≠ .answering y true) ∧
      ((offering flightOffer (inFlight 3 (.returning (accessOf .read) .timeout []) [3])).flight.offer = some { flightOffer with source := .inFlight 3 } ∧
        (offering flightOffer (inFlight 3 (.returning (accessOf .read) .timeout []) [3])).flight.table[(3 : DTag)] =
          .returning (accessOf .read) .timeout []) ∧
      (offering flightOffer (inFlight 3 (.orphaned (accessOf .read) true) [3])).flight.table[(3 : DTag)] = .orphaned (accessOf .read) true := by
  unfold State.CausesTaken
  exact ⟨by decide, by decide, ⟨by decide, rfl, by simp⟩, by decide⟩

/-- The hypotheses of each clause, RecordsKept by `fourQueued_recordsKept`. -/
theorem witness_PathRestartCommand :
    (fourQueued.line = .running ∧ fourQueued.port.idle = true ∧ fourQueued.restart.phase = .idle ∧ fourQueued.ReservationKept ∧
        fourQueued.PairsKept) ∧
      (restarting .draining none).port.idle = true ∧ (restarting .draining none).restart.phase ≠ .idle ∧ (restarting .draining none).CausesTaken := by
  unfold State.CausesTaken State.ReservationKept State.PairsKept; decide

theorem witness_EndOfDraining :
    ((restarting .draining none).restart.phase = .draining ∧ (restarting .draining none).drained = true ∧
        ∀ e ∈ (restarting .draining none).pool, e.isWaiting = false) ∧
      ({ answering with restart := { phase := .draining, pulse := none } } : State).drained = false ∧ (restarting .draining none).RecordsKept := by
  refine ⟨by decide, by decide, ?_⟩
  simp [State.RecordsKept, restarting, up, State.reset]

def releasingAnswers : State := { answering with restart := { phase := .releasing, pulse := some 64 } }

theorem witness_EndOfReleasing :
    ((restarting .releasing (some 64)).line = .running ∧ (restarting .releasing (some 64)).restart = { phase := .releasing, pulse := some 64 } ∧
        (∀ e ∈ (restarting .releasing (some 64)).pool, e.isWaiting = true) ∧ (restarting .releasing (some 64)).intake.refusal = none) ∧
      (releasingAnswers.line = .running ∧
        ¬((∀ e ∈ releasingAnswers.pool, e.isWaiting = true) ∧ releasingAnswers.intake.refusal = none)) ∧
      ((restarting .releasing none).restart.phase = .releasing ∧ (restarting .releasing none).restart.pulse = none) ∧
      (restarting .releasing (some 64)).restart.pulse ≠ none ∧ up.restart.phase = .idle := by decide

/-- Line 3 has been seen low, and its output, at level high, is pulsing. -/
def lineThree : State :=
  { up with
    triggers :=
      { up.triggers with
        seen := up.triggers.seen.set 3 (some false), outputs := up.triggers.outputs.set 3 { level := true, pulse := some 16 } } }

theorem witness_EventInputs :
    (lineThree.line = .running ∧ lineThree.triggers.seen[(3 : EventLine)] = some (!true) ∧ lineThree.triggers.seen[(3 : EventLine)] ≠ none) ∧
      up.triggers.seen[(3 : EventLine)] ≠ some (!true) ∧ up.triggers.seen[(3 : EventLine)] = none ∧ up.CausesTaken := by
  unfold State.CausesTaken; decide

theorem witness_EventOutputs :
    (lineThree.line = .running ∧ lineThree.triggers.outputs[(3 : EventLine)].pulse = some 16) ∧
      up.triggers.outputs[(3 : EventLine)].pulse = none ∧ (0x03 : Byte).toNat = (3 : EventLine).val := by decide

theorem witness_HeldCauseTaken :
    (up.line = .running ∧ up.triggers.held = []) ∧
      ({ up with triggers := { up.triggers with held := [.restartDone, .switchTaken] } } : State).triggers.held = .restartDone :: [.switchTaken] := by
  decide

theorem witness_CausesTakenFrame :
    up.CausesTaken ∧ ((up.raise .restartDone).triggers.raised ≠ [] ∧
      ∀ c ∈ (up.raise .restartDone).triggers.raised, ∀ i : Fin 8, (up.raise .restartDone).triggers.entries[i].answers c = false) := by
  unfold State.CausesTaken; decide

theorem witness_FiringOfEntries :
    let s := armedWith .roundStart 2 .attention 0
    (s.raise .switchTaken).triggers.raised ≠ [] ∧ s.triggers.entries[(2 : Fin 8)].answers (.roundStart .b) = true ∧
      s.triggers.entries[(2 : Fin 8)].mode = .single ∧
      ∀ j : Fin 8, s.triggers.entries[j].answers (.roundStart .b) = true → s.triggers.entries[j].action ≠ .arm := by decide

theorem witness_ArmAndDisarm_of_itself :
    ((armedWith .switchTaken 0 .arm 2).triggers.entries[(2 : Fin 8)].enabled = true ∧
        (armedWith .switchTaken 0 .arm 2).triggers.entries[(2 : Fin 8)].actionArgument.toNat = (2 : Fin 8).val ∧
        (armedWith .switchTaken 0 .arm 2).triggers.entries[(2 : Fin 8)].action = .arm) ∧
      (armedWith .switchTaken 0 .disarm 2).triggers.entries[(2 : Fin 8)].action = .disarm := by decide

/-- Raised in the other order, the MONITOR causes are taken M0 first. -/
theorem witness_MonitorEvaluation :
    [Cause.monitor 0, Cause.monitor 3].Sublist (takenOrder 0 (orderRaised [.monitor 3, .monitor 0])) := by decide

theorem witness_ArmAndDisarm :
    ((0x00 : Byte).toNat = (0 : Fin 8).val ∧ (0x07 : Byte).toNat = (7 : Fin 8).val ∧ (0x03 : Byte).toNat = (3 : Fin 4).val) ∧
      ((0x01 : Byte).toNat = 1 ∧ (switching.sched.table .b).valid = true ∧ (up.sched.table .b).valid = false) ∧
      (restarting .draining none).restart.phase ≠ .idle ∧ up.restart.phase = .idle := by decide

theorem witness_IndexCompletion :
    up.line = .running ∧ up.port.idle = true ∧
      ({ code := 0x33, argument := 0, high := 0, low := 8 } : IndexBytes).command = some (.readSnapshot 8) ∧
      ({ code := 0x32, argument := 0, high := 0, low := 0 } : IndexBytes).command = none ∧ (up.readData (.readEntry .attentionMask 0) = some [0]) ∧
      up.readData (.readEntry .attentionMask 1) = none ∧ up.readData .popFault = none := by decide

/-- A read frame is open, its index bytes complete. -/
def openFrame (command : ReadCommand) (s : State) : OpenFrame := { bytes := readHeader command, received := 4, captured := s.capture command }

def reading (command : ReadCommand) (s : State) : State :=
  { s with port := { s.port with frame := some (openFrame command s), selnLow := true } }

theorem witness_ReadCommandsClose :
    ((reading (.readSnapshot 8) up).line = .running ∧ (reading (.readSnapshot 8) up).port.acrossReset = false ∧
        ReadCommand.readSnapshot 8 ≠ .popFault ∧ (reading (.readSnapshot 8) up).port.frame = some (openFrame (.readSnapshot 8) up) ∧
        (openFrame (.readSnapshot 8) up).captured = up.capture (.readSnapshot 8) ∧ (up.capture (.readSnapshot 8)).command = .readSnapshot 8) ∧
      up.port.acrossReset = false ∧ up.port.frame = none := by decide

theorem witness_BytesOfTheLayouts :
    ((0 : Half) = 0 ∧ (31 : Half).toNat = (31 : Fin 32).val ∧ (8 : Half).toNat = (7 : PartitionId).val + 1 ∧ (8 : Byte) = 8) ∧
      (faulted.attention.queue = faultOf .tag :: [faultOf .late] ∧ (faultOf .tag).slot < 256) ∧
      ((PartitionCounters.zero.lostRound ≤ 65535) ∧ up.snapshot.slot < 256 ∧ (up.sched.table .a).roundLength < 256) ∧
      ([true, true] : List Bool).length < 8 ∧ (atSlot 31 up).sched.slot < 32 ∧ (atSlot 31 up).occupancy ≤ 16 ∧ full.occupancy = 16 ∧ full.orphanCount ≤ 16 ∧ (withWrites 256 0).writes.reserved ≤ 256 := by
  decide

theorem witness_PopFault :
    ((reading .popFault faulted).line = .running ∧ (reading .popFault faulted).port.acrossReset = false ∧
        (reading .popFault faulted).port.frame = some (openFrame .popFault faulted) ∧
        (openFrame .popFault faulted).captured = faulted.capture .popFault ∧
        (faulted.capture .popFault).command = .popFault ∧ (faulted.capture .popFault).status = .done) ∧
      up.port.frame = none ∧ (up.capture .popFault).status ≠ .done ∧ up.CausesTaken ∧
      faulted.attention.queue = faultOf .tag :: [faultOf .late] := by
  unfold State.CausesTaken; decide

theorem witness_FramesThatChangeNothing :
    (up.line = .running ∧ up.port.acrossReset = false ∧ up.port.frame = none ∧ up.port.idle = true) ∧
      ((reading .readStatus up).port.frame = some (openFrame .readStatus up) ∧ (openFrame .readStatus up).bytes <+: [0x30, 0, 0, 0, 0, 0]) ∧
      5 ≤ ([0x7F, 0, 0, 0, 0] : List Byte).length ∧ openAcrossReset.port.acrossReset = true ∧ up.sdoDriven = false ∧
      up.CausesTaken ∧ isFrame (.pathRestart 0) = true := by
  unfold State.CausesTaken; decide

/-- Of the header the index 0 alone, of the slots 31 but not 32; table A is active, B is free to write, or pending; headers and allowances at the ends of
their ranges and past them. -/
theorem witness_ScheduleWrite :
    (up.line = .running ∧ up.port.idle = true ∧ (1 : Nat) ≤ (1 : Half).toNat ∧ (0 : Half).toNat < 1 ∧ (31 : Half).toNat < 32 ∧ 32 ≤ (32 : Half).toNat) ∧
      (up.sched.active = .a ∧ switching.sched.pendingTarget = some .b) ∧ (up.sched.active ≠ .b ∧ up.sched.pendingTarget ≠ some .b) ∧
      ((4 ≤ (32 : Byte).toNat ∧ (32 : Byte).toNat ≤ 32) ∧ 8 ≤ (64 : Byte).toNat ∧ (64 : Byte).toNat ≤ 64) ∧ ¬(4 ≤ (3 : Byte).toNat) ∧
      slotEntryOf 0x87 = some (.owned 7 false) ∧ slotEntryOf 0xC0 = none ∧
      (∀ a ∈ [(32 : Byte), 0, 0, 0, 0, 0, 0, 32], a.toNat ≤ 32) ∧ ∃ a ∈ [(32 : Byte), 0, 0, 0, 0, 0, 0, 33], 32 < a.toNat := by decide

theorem witness_PartitionRecordWrite :
    (up.line = .running ∧ up.port.idle = true ∧ 8 ≤ (8 : Half).toNat ∧ (7 : Half).toNat = (7 : PartitionId).val) ∧
      (64 < (65 : Byte).toNat ∧ 15 < (16 : Byte).toNat) ∧ ((64 : Byte).toNat ≤ 64 ∧ (15 : Byte).toNat ≤ 15) ∧
      ((63 : Byte).toNat ≠ up.parts[(0 : PartitionId)].quota ∧ up.parts[(0 : PartitionId)].state ≠ .off) ∧
      ((64 : Byte).toNat = up.parts[(0 : PartitionId)].quota ∧ up.parts[(7 : PartitionId)].state = .off) ∧
      64 < ((up.parts.toList.map PartitionRecord.quota).sum - up.parts[(7 : PartitionId)].quota) + (1 : Byte).toNat ∧
      ((up.parts.toList.map PartitionRecord.quota).sum - up.parts[(7 : PartitionId)].quota) + (0 : Byte).toNat ≤ 64 := by decide

theorem witness_MapAndRegionWrite :
    (up.line = .running ∧ up.port.idle = true) ∧ (32 ≤ (32 : Half).toNat ∧ (31 : Half).toNat = (31 : Initiator).val) ∧
      (8 ≤ (0xFE : Byte).toNat ∧ (0xFE : Byte) ≠ 0xFF ∧ (7 : Byte).toNat = (7 : PartitionId).val) ∧
      (16 ≤ (16 : Half).toNat ∧ (15 : Half).toNat = (15 : Fin 16).val) ∧ (0xF0000000 : Word).toNat % 2 ^ 28 < (0x00000001 : Word).toNat % 2 ^ 28 ∧
      (0xF0000001 : Word).toNat % 2 ^ 28 ≤ (0x00000001 : Word).toNat % 2 ^ 28 := by decide

theorem witness_MonitorWrite :
    (up.line = .running ∧ up.port.idle = true ∧ up.CausesTaken) ∧ (4 ≤ (4 : Half).toNat ∧ (3 : Half).toNat = (3 : Fin 4).val) ∧
      (Monitor.reset.object = .queue ∧ Monitor.reset.argument.toNat = (0 : PartitionId).val ∧ up.queue 0 = [] ∧
        (queued [readOf 0 1 2]).queue 0 = readOf 0 1 2 :: []) ∧
      (7 < (8 : Byte).toNat ∧ monitorObjectOf 7 = some .faults ∧ monitorObjectOf 3 = some .retryRound) ∧
      (1 < (2 : Byte).toNat ∧ monitorConditionOf 1 = some .below) ∧ (3 : Byte).toNat ≤ 3 ∧ 7 < (8 : Byte).toNat ∧ (7 : Byte).toNat ≤ 7 := by
  unfold State.CausesTaken; decide

theorem witness_TriggerWrite :
    (up.line = .running ∧ up.port.idle = true) ∧ (8 ≤ (8 : Half).toNat ∧ (7 : Half).toNat = (7 : Fin 8).val) ∧
      (causeCodeOf 8 = none ∧ causeCodeOf 7 = some .restartDone) ∧ (actionCodeOf 13 = none ∧ actionCodeOf 12 = some .clearMonitor) ∧
      (CauseCode.fault.allows 11 = false ∧ CauseCode.fault.allows 10 = true) ∧
      ActionCode.clearMonitor.allows 4 = false ∧ ActionCode.clearMonitor.allows 3 = true := by decide

theorem witness_AttentionCommands :
    up.line = .running ∧ up.port.idle = true ∧ (0 : Half) = 0 ∧ (1 : Half) ≠ 0 ∧ up.attention.latched &&& AttentionCause.fault.bit = 0 := by decide

theorem witness_SwitchCommand :
    (up.line = .running ∧ up.port.idle = true ∧ 1 < (2 : Byte).toNat ∧ (1 : Byte).toNat = 1 ∧ (0 : Byte).toNat = 0) ∧
      (up.sched.table .b).valid = false ∧ (up.sched.table .a).valid = true ∧ (switching.sched.table .b).valid = true := by decide

theorem witness_StateCommand :
    (up.line = .running ∧ up.port.idle = true ∧ up.CausesTaken) ∧ (7 < (8 : Byte).toNat ∧ 3 < (4 : Half).toNat % 256) ∧
      ((7 : Byte).toNat = (7 : PartitionId).val ∧ partitionStateOf ((3 : Half).extractLsb' 0 8) = some .closing) ∧
      (restarting .releasing none).restart.phase ≠ .idle ∧
      ((withP0 .closing 64 up).parts[(0 : PartitionId)].state = .closing ∧ up.restart.phase = .idle) ∧
      (up.parts[(1 : PartitionId)].state = .off ∧ up.parts[(1 : PartitionId)].quota = 0) ∧
      ((withP0 .off 1 up).parts[(0 : PartitionId)].state = .off ∧ 1 ≤ (withP0 .off 1 up).parts[(0 : PartitionId)].quota) ∧
      (up.parts[(0 : PartitionId)].state = .run ∧ up.outstanding 0 = false) ∧ (withP0 .hold 64 up).parts[(0 : PartitionId)].state = .hold ∧
      (queued [readOf 0 1 2]).outstanding 0 = true := by
  unfold State.CausesTaken; decide

theorem witness_FlushCommand :
    (up.line = .running ∧ up.port.idle = true ∧ up.CausesTaken) ∧ 7 < (8 : Byte).toNat ∧ (7 : Byte).toNat = (7 : PartitionId).val ∧
      (restarting .releasing none).restart.phase ≠ .idle ∧ fourQueued.restart.phase = .idle := by
  unfold State.CausesTaken; decide

/-- A monitor that watches the lost count of P7's round. -/
theorem witness_ClearCountersCommand :
    let s : State := { up with monitors := up.monitors.set 3 { Monitor.reset with enabled := true, object := .lostRound, argument := 7 } }
    s.line = .running ∧ s.port.idle = true ∧ s.monitors[(3 : Fin 4)].enabled = true ∧ s.monitors[(3 : Fin 4)].quantity = .lostRound 7 := by decide

/-- Work of every kind at once: WAITING entries, an entry whose answer is held back, a released answer on offer, an entry in flight that waits for the
response channel and one that is due. -/
def busy : State :=
  { up with
    pool :=
      [readOf 0 1 0, writeOf 0 1 1 2 false, { readOf 0 1 2 with state := .answering .cancelled true }, writeOf 0 1 3 2 true,
        { writeOf 0 1 4 3 false with state := .answering .aborted false }]
    intake :=
      { up.intake with
        heldPairs := [pairOf 1 0, pairOf 1 1, pairOf 1 2, pairOf 1 3, pairOf 1 4, pairOf 7 7, pairOf 8 8] }
    writes :=
      { reserved := 4
        records := [recordOf 0 1 1 2 1 .receiving [0xA], recordOf 0 1 3 2 2 .complete [0xA, 0xB], recordOf 0 1 4 3 1 .discarding []] }
    flight :=
      { up.flight with
        table := (up.flight.table.set 0 (.returning (accessOf .read) .okay [1, 2])).set 5 (.issued { accessOf .write with pair := pairOf 8 8 })
        places := [0]
        offer := some { source := .withdrawn (pairOf 1 2), record := { pair := pairOf 1 2, status := .cancelled, data := none } } }
    pending := [.slotStart, .responseDelivery] }

/-- The table that is active before this slot start is not the one after it. -/
theorem witness_ActiveTableProtected :
    switching.line = .running ∧ (∃ t, exec .slotStart switching = .next t) ∧ ((after .slotStart switching).map fun t => (t.line, t.sched.active)) =
      some (.running, .b) := ⟨rfl, ⟨_, rfl⟩, by decide⟩

theorem witness_ScheduleKept : busy.Defined (fun s => s.sched.Sound ∧ s.LowIsReset) ∧ ∃ t, step busy = .next t := by
  refine ⟨fun _ => ⟨?_, fun h => absurd h (by decide)⟩, ⟨_, rfl⟩⟩
  simp [ScheduleUnit.Sound, ScheduleTable.InRange]
  decide

theorem witness_QuotaBoundKept : busy.Defined State.QuotaKept ∧ ∃ t, step busy = .next t := by
  refine ⟨fun _ => ?_, ⟨_, rfl⟩⟩
  unfold State.QuotaKept; decide

theorem witness_ReservationBoundKept : busy.Defined State.ReservationKept ∧ ∃ t, step busy = .next t := by
  refine ⟨fun _ => ?_, ⟨_, rfl⟩⟩
  unfold State.ReservationKept; decide

theorem busy_pairsKept : busy.PairsKept := by
  unfold State.PairsKept; decide

theorem witness_HeldPairsKept : busy.Defined State.PairsKept ∧ ∃ t, step busy = .next t := ⟨fun _ => busy_pairsKept, ⟨_, rfl⟩⟩

theorem busy_recordsKept : busy.RecordsKept := by
  simp [State.RecordsKept, busy, up, readOf, writeOf, recordOf, pairOf, OpenWrite.Fields, OpenWrite.Owns, PoolEntry.NeedsRecord,
    Config.openWriteRecords]

theorem witness_WorkAccountKept :
    busy.Defined (fun s => s.PairsKept ∧ s.ReservationKept ∧ s.RecordsKept ∧ s.ClosingKept ∧ s.RestartKept) ∧ ∃ t, step busy = .next t := by
  refine ⟨fun _ => ⟨busy_pairsKept, ?_, busy_recordsKept, ?_, ?_⟩, ⟨_, rfl⟩⟩
  · unfold State.ReservationKept; decide
  · unfold State.ClosingKept; decide
  · unfold State.RestartKept; decide

theorem witness_ResponsesKept : busy.Defined (fun s => s.PlacesKept ∧ s.OfferKept ∧ s.PairsKept) ∧ ∃ t, step busy = .next t := by
  refine ⟨fun _ => ⟨?_, ?_, busy_pairsKept⟩, ⟨_, rfl⟩⟩
  · unfold State.PlacesKept; decide
  · intro o h
    cases Option.some.inj h
    decide

/-- Besides the work of `busy`, a monitor that watches an in-flight occupancy of 2, and one that waits for P0's head to be one slot old. -/
def watched : State :=
  { busy with
    monitors :=
      (busy.monitors.set 1 { Monitor.reset with enabled := true, object := .inFlight, threshold := 2, last := true }).set 2
        { Monitor.reset with enabled := true, object := .age, threshold := 1 } }

theorem witness_TriggersAndFaultsKept :
    watched.Defined (fun s => s.ArmedOnlyEnabled ∧ s.FaultsKept ∧ s.FaultNotLatched ∧ s.MonitorsCurrent ∧ s.CausesTaken) ∧
      ∃ t, step watched = .next t := by
  refine ⟨fun _ => ?_, ⟨_, rfl⟩⟩
  unfold State.ArmedOnlyEnabled State.FaultsKept State.FaultNotLatched State.MonitorsCurrent State.CausesTaken; decide

/-- The head age that is watched is current before the slot start, which makes it 1. -/
theorem witness_TriggersAndFaultsKept_ages :
    (watched.Defined fun s => (s.PairsKept ∧ s.RecordsKept) ∧ s.AgesCurrent) ∧
      (∃ i : Fin 4, watched.monitors[i].enabled = true ∧ watched.monitors[i].quantity = .age 0) ∧ watched.headAge 0 = 0 ∧
      ∃ t, step watched = .next t := by
  refine ⟨fun _ => ⟨⟨busy_pairsKept, busy_recordsKept⟩, ?_⟩, ⟨2, by decide⟩, by decide, ⟨_, rfl⟩⟩
  unfold State.AgesCurrent
  decide

/-- A table code that is none stands beside the last one that is; a read closes at its needed length, and one byte before it is cut short. -/
theorem witness_FramesReadBack :
    ((Instr.writeAttentionMask 0 0x7F 1).wellFormed = true ∧
        encodeFrame (.writeAttentionMask 0 0x7F 1) = some [0x02, 0x0D, 0, 0, 0, 0x7F, 0]) ∧
      (({ code := 0x30, argument := 0, high := 0, low := 0 } : IndexBytes).command = some .readStatus ∧
        readLength .readStatus ≤ (List.replicate 16 (0 : Byte)).length ∧ (List.replicate 15 (0 : Byte)).length < readLength .readStatus) ∧
      ([0x30, 0, 0, 0] : List Byte).length < 5 ∧ ([0, 0, 0, 0, 0, 0, 0, 0, 0] : List Byte).length < 10 ∧
      (0x34 : Byte) ∉ ([0x01, 0x02, 0x10, 0x11, 0x12, 0x13, 0x20, 0x21, 0x30, 0x31, 0x32, 0x33] : List Byte) ∧
      (0x0E : Byte) ∉ ([0x00, 0x01, 0x02, 0x03, 0x04, 0x05, 0x08, 0x09, 0x0A, 0x0B, 0x0C, 0x0D] : List Byte) := by decide

end Tests
end Sys2Proof
end

section
/-! The schedule tables and their switch: what validation asks of a table (R12), and what REQUEST SWITCH makes of its target (R11, R13). -/

namespace Sys2Proof
namespace Machine

/-! ### Validation (R12) -/

/-- Some element among the first `n` of a vector passes the test. -/
theorem vector_any_take_iff {α : Type} {m : Nat} (v : Vector α m) (n : Nat) (test : α → Bool) :
    (v.toList.take n).any test = true ↔ ∃ i : Fin m, i.val < n ∧ test v[i] = true := by
  simp only [List.any_eq_true, List.mem_take_iff_getElem, Vector.length_toList, Vector.getElem_toList]
  constructor
  · rintro ⟨_, ⟨i, hi, rfl⟩, passes⟩
    exact ⟨⟨i, by omega⟩, by simp only; omega, passes⟩
  · rintro ⟨i, hi, passes⟩
    exact ⟨v[i], ⟨i.val, by omega, rfl⟩, passes⟩

theorem vector_all_toList_iff {α : Type} {m : Nat} (v : Vector α m) (test : α → Bool) :
    v.toList.all test = true ↔ ∀ i : Fin m, test v[i] = true := by
  rw [Vector.all_toList, Vector.all_eq_true, Fin.forall_iff]
  rfl

/-- Validation is conditions 1 to 4 of R12. -/
theorem ScheduleTable.valid_iff (t : ScheduleTable) :
    t.valid = true ↔
      (4 ≤ t.roundLength ∧ t.roundLength ≤ 32) ∧ (8 ≤ t.slotLength ∧ t.slotLength ≤ 64) ∧
        (∃ i : Fin 32, i.val < t.roundLength ∧ t.entries[i] ≠ .quiet) ∧ ∀ p : PartitionId, t.allowance[p] ≤ 32 := by
  simp only [ScheduleTable.valid, Bool.and_eq_true, vector_any_take_iff, vector_all_toList_iff, decide_eq_true_eq, bne_iff_ne, and_assoc]

/-! ### The pending target (R11, R13) -/

theorem State.requestTarget_of_valid {s : State} {t : TableName} (h : (s.sched.table t).valid = true) :
    s.requestTarget t = { state := { s with sched := { s.sched with pendingTarget := some t } }, status := .done } := if_pos h

theorem State.requestTarget_of_invalid {s : State} {t : TableName} (h : (s.sched.table t).valid = false) :
    s.requestTarget t = { state := s, status := .invalid } := if_neg (by simp [h])

theorem tableOf_of_code {argument : Byte} {t : TableName} (h : argument.toNat = tableCode t) : tableOf argument = some t := by
  cases t with
  | a =>
    obtain rfl : argument = 0 := BitVec.eq_of_toNat_eq h
    rfl
  | b =>
    obtain rfl : argument = 1 := BitVec.eq_of_toNat_eq h
    rfl

theorem tableOf_of_one_lt {argument : Byte} (h : 1 < argument.toNat) : tableOf argument = none := by
  have notA : argument ≠ 0 := by rintro rfl; exact absurd h (by decide)
  have notB : argument ≠ 1 := by rintro rfl; exact absurd h (by decide)
  rw [tableOf, if_neg notA, if_neg notB]

theorem State.switchCommand_of_none {s : State} {argument : Byte} (h : tableOf argument = none) :
    s.switchCommand argument = { state := s, status := .range } := by
  simp only [State.switchCommand, h, State.refuseWith]

theorem State.switchCommand_of_some {s : State} {argument : Byte} {t : TableName} (h : tableOf argument = some t) :
    s.switchCommand argument = s.requestTarget t := by
  simp only [State.switchCommand, h]

/-! ### The command -/

/-- While the part runs, a command's answer is its effect. -/
theorem live_of_running {s : State} (run : s.line = .running) (effect : State → State) : live s effect = .next (effect s) := by
  simp only [live, run]

/-- REQUEST SWITCH closes its frame with the state and the status that its checks give. -/
theorem exec_requestSwitch_of {s : State} {argument : Byte} {taken : Taken} (run : s.line = .running) (idle : s.port.idle = true) (extra : Nat)
    (checks : s.switchCommand argument = taken) (port : taken.state.port = s.port) (free : taken.state.free = s.free) :
    exec (.requestSwitch argument extra) s = .next (s.framed taken.state taken.status 0 extra) := by
  simp only [exec, execRequestSwitch, live_of_running run]
  rw [s.takeFrame_of 0 extra _ taken idle checks port free]

/-! ### The statements -/

/-- Settles O12: `valid` computes conditions 1 to 4, the type of a slot entry gives condition 5, and a table that fails is answered with the same state. -/
theorem tableValidation : Obligations.TableValidation := by
  refine ⟨fun s x invalid => by rw [State.requestTarget_of_invalid invalid], fun t => ?_⟩
  rw [t.valid_iff]
  have namesPartition : ∀ i : Fin 32, i.val < t.roundLength → ∀ (p : PartitionId) (lend : Bool), t.entries[i] = .owned p lend → p.val ≤ 7 :=
    fun _ _ p _ _ => p.is_le
  constructor
  · rintro ⟨round, slot, used, allowances⟩
    exact ⟨round, slot, used, allowances, namesPartition⟩
  · rintro ⟨round, slot, used, allowances, _⟩
    exact ⟨round, slot, used, allowances⟩

/-- Settles O48, by the three outcomes of R13's checks: no table named, a table that fails validation, and one that passes. -/
theorem switchCommand : Obligations.SwitchCommand := by
  intro argument extra s run idle
  refine ⟨fun out => ?range, fun t code => ?named⟩
  case range => exact exec_requestSwitch_of run idle extra (State.switchCommand_of_none (tableOf_of_one_lt out)) rfl rfl
  case named =>
    have checks : s.switchCommand argument = s.requestTarget t := State.switchCommand_of_some (tableOf_of_code code)
    constructor
    · intro invalid
      exact exec_requestSwitch_of run idle extra (checks.trans (State.requestTarget_of_invalid invalid)) rfl rfl
    · intro valid
      exact exec_requestSwitch_of run idle extra (checks.trans (State.requestTarget_of_valid valid)) rfl rfl

end Machine
end Sys2Proof
end

section
/-! The quota bound (R24, R34): what a change of the pool or of one partition record has to satisfy to keep it, and that the effect of every command does. -/

namespace Sys2Proof
namespace Machine

/-! ### The entries a partition holds (R24) -/

/-- Which entries a partition holds is read off the partitions of the pool's entries alone. -/
theorem State.heldCount_eq_count (s : State) (p : PartitionId) : s.heldCount p = (s.pool.map PoolEntry.partition).count p := by
  rw [State.heldCount, List.count, List.countP_map]
  rfl

/-- A partition with no outstanding work holds no entry (R32). -/
theorem State.heldCount_eq_zero_of_not_outstanding {s : State} {p : PartitionId} (h : s.outstanding p = false) : s.heldCount p = 0 := by
  refine List.countP_eq_zero.2 fun e he mine => ?_
  have work : s.outstanding p = true := s.outstanding_iff p |>.2 (.inl ⟨e, he, by simpa using mine⟩)
  exact absurd (h.symm.trans work) (by decide)

/-- A new entry counts for its own partition (R74). -/
theorem State.heldCount_append {s u : State} {e : PoolEntry} (pool : u.pool = s.pool ++ [e]) (q : PartitionId) :
    u.heldCount q = s.heldCount q + if e.partition = q then 1 else 0 := by
  simp [State.heldCount, pool, List.countP_append, List.countP_singleton]

theorem State.withdrawnEntry_partition (s : State) (chosen : PoolEntry → Bool) (status : WithdrawalStatus) (e : PoolEntry) :
    (s.withdrawnEntry chosen status e).partition = e.partition := by
  unfold State.withdrawnEntry
  split <;> rfl

theorem PoolEntry.completeFor_partition (owner : Option Pair) (e : PoolEntry) : (e.completeFor owner).partition = e.partition := by
  unfold PoolEntry.completeFor
  split <;> rfl

/-- A pool whose entries are rewritten one by one, each in its partition, has the partitions it had. -/
theorem map_partition_of_kept {f : PoolEntry → PoolEntry} (kept : ∀ e, (f e).partition = e.partition) (pool : List PoolEntry) :
    (pool.map f).map PoolEntry.partition = pool.map PoolEntry.partition := by
  rw [List.map_map]
  exact List.map_congr_left fun e _ => kept e

/-! ### Changes that keep the bound -/

/-- Entries may leave the pool, and may change in all but their partition. -/
theorem State.QuotaKept.lessen {s u : State} (h : s.QuotaKept) (parts : u.parts = s.parts)
    (pool : (u.pool.map PoolEntry.partition).Sublist (s.pool.map PoolEntry.partition)) : u.QuotaKept := by
  obtain ⟨bound, off, sum⟩ := h
  have fewer : ∀ p, u.heldCount p ≤ s.heldCount p := fun p => by
    rw [u.heldCount_eq_count, s.heldCount_eq_count]
    exact pool.count_le p
  rw [State.QuotaKept, parts]
  exact ⟨fun p => (fewer p).trans (bound p), fun p isOff => Nat.le_zero.1 ((fewer p).trans (off p isOff).le), sum⟩

theorem State.QuotaKept.same {s u : State} (h : s.QuotaKept) (parts : u.parts = s.parts) (pool : u.pool = s.pool) : u.QuotaKept :=
  h.lessen parts (by rw [pool])

/-- Entries rewritten one by one stay in their partitions. -/
theorem State.QuotaKept.rewrite {s u : State} (h : s.QuotaKept) (parts : u.parts = s.parts) {f : PoolEntry → PoolEntry}
    (pool : u.pool = s.pool.map f) (kept : ∀ e, (f e).partition = e.partition) : u.QuotaKept :=
  h.lessen parts (by rw [pool, map_partition_of_kept kept])

/-- An entry leaves the pool. -/
theorem State.QuotaKept.erase {s u : State} (h : s.QuotaKept) (parts : u.parts = s.parts) {f : PoolEntry → Bool}
    (pool : u.pool = s.pool.eraseP f) : u.QuotaKept :=
  h.lessen parts (by rw [pool]; exact List.eraseP_sublist.map _)

/-- One record may change when its new quota covers what its partition holds, it is OFF only where that is nothing, and the sum stays in bounds. -/
theorem State.QuotaKept.setRecord {s u : State} {p : PartitionId} {f : PartitionRecord → PartitionRecord} (h : s.QuotaKept)
    (parts : u.parts = modifyAt s.parts p f) (pool : u.pool = s.pool) (covers : s.heldCount p ≤ (f s.parts[p]).quota)
    (empty : (f s.parts[p]).state = .off → s.heldCount p = 0) (total : quotaSum (modifyAt s.parts p f) ≤ Config.poolSize) : u.QuotaKept := by
  obtain ⟨bound, off, _⟩ := h
  have held : ∀ q, u.heldCount q = s.heldCount q := fun q => by rw [State.heldCount, pool, State.heldCount]
  rw [State.QuotaKept, parts]
  simp only [held, modifyAt_get]
  refine ⟨fun q => ?bound, fun q isOff => ?off, total⟩
  case bound =>
    by_cases hq : p = q
    · subst hq
      rwa [if_pos rfl]
    · rw [if_neg hq]
      exact bound q
  case off =>
    by_cases hq : p = q
    · subst hq
      exact empty (by rwa [if_pos rfl] at isOff)
    · exact off q (by rwa [if_neg hq] at isOff)

/-! ### Partition states (R28, R32) -/

/-- A partition that is made OFF must hold nothing (R34). -/
theorem State.QuotaKept.setState {s : State} (h : s.QuotaKept) {p : PartitionId} {x : PartitionState} (empty : x = .off → s.heldCount p = 0) :
    (s.setState p x).QuotaKept := by
  have total : quotaSum (modifyAt s.parts p fun r => { r with state := x }) ≤ quotaSum s.parts := by
    have one : s.parts[p].quota ≤ quotaSum s.parts := List.single_le_sum (by simp) _ (List.mem_map_of_mem (by simp))
    rw [quotaSum_modifyAt]
    exact (Nat.sub_add_cancel one).le
  have ⟨bound, _, sum⟩ := h
  exact h.setRecord (s.setState_parts p x) rfl (bound p) empty (total.trans sum)

/-- The closing check makes OFF only a partition with no outstanding work (R32). -/
theorem State.QuotaKept.closingCheck {s : State} (h : s.QuotaKept) (p : PartitionId) : (s.closingCheck p).QuotaKept := by
  unfold State.closingCheck
  split
  · next due =>
    have idle : s.outstanding p = false := by simpa using (Bool.and_eq_true_iff.1 due).2
    have closed := h.setState (p := p) (x := .off) fun _ => State.heldCount_eq_zero_of_not_outstanding idle
    exact closed.same rfl rfl
  · exact h

/-- No state change but that of an OFF partition ends in OFF: the way there from RUN and HOLD is CLOSING (R28, R178). -/
theorem stateChange_off {present target : PartitionState} {quota : Nat} (h : stateChange present quota target = .ok .off) : present = .off := by
  cases present with
  | off => rfl
  | run => cases target <;> simp [stateChange] at h
  | hold => cases target <;> simp [stateChange] at h
  | closing => cases target <;> simp [stateChange] at h

theorem State.QuotaKept.changeState {s : State} (h : s.QuotaKept) (p : PartitionId) (target : PartitionState) :
    (s.changeState p target).state.QuotaKept := by
  unfold State.changeState
  split
  · exact h
  · split
    · exact h
    · next x taken =>
      have ⟨_, off, _⟩ := h
      have changed : (s.setState p x).QuotaKept := h.setState fun hx => off p (stateChange_off (hx ▸ taken))
      dsimp only
      split
      · exact changed.closingCheck p
      · exact changed

/-! ### Operations that leave the records, but for a closing check -/

theorem State.QuotaKept.sameWork {s u : State} (h : s.QuotaKept) (w : SameWork s u) : u.QuotaKept := h.same w.parts w.pool

theorem State.QuotaKept.withdraw {s : State} (h : s.QuotaKept) (chosen : PoolEntry → Bool) (status : WithdrawalStatus) :
    (s.withdraw chosen status).QuotaKept :=
  h.rewrite rfl rfl (s.withdrawnEntry_partition chosen status)

theorem State.QuotaKept.withdrawPair {s : State} (h : s.QuotaKept) (p : PartitionId) (pair : Pair) (status : WithdrawalStatus) :
    (s.withdrawPair p pair status).QuotaKept :=
  (h.withdraw (fun e => e.pair == pair) status).same (by simp) (by simp [State.withdrawPair])

theorem State.QuotaKept.flush {s : State} (h : s.QuotaKept) (p : PartitionId) : (s.flush p).QuotaKept :=
  (h.withdraw (fun e => e.partition == p) .aborted).same (by simp) (s.flush_pool p)

theorem State.QuotaKept.freeDiscarding {s : State} (h : s.QuotaKept) (r : OpenWrite) : (s.freeDiscarding r).QuotaKept := by
  refine State.QuotaKept.closingCheck ?_ r.partition
  exact h.rewrite rfl rfl (PoolEntry.releaseFor_partition r.pair)

/-- An issue takes the head out of the pool (R55). -/
theorem State.QuotaKept.issue {s : State} (h : s.QuotaKept) (p : PartitionId) : (s.issue p).QuotaKept := by
  cases he : s.head p with
  | none => simpa [State.issue, he] using h
  | some e =>
    cases hd : s.lowestFree with
    | none => simpa [State.issue, he, hd] using h
    | some d =>
      refine h.erase (by simp) (f := PoolEntry.inQueue p) ?_
      simp [State.issue_eq s p e d he hd, State.takeHead]

theorem State.QuotaKept.expire {s : State} (h : s.QuotaKept) (d : DTag) : (s.expire d).QuotaKept := by
  unfold State.expire
  split
  · refine State.QuotaKept.closingCheck ?_ _
    exact h.same rfl rfl
  · exact h
  · exact h
  · exact h

/-! ### Requests and beats -/

/-- An accepted request finds its partition in RUN or HOLD and below its quota (R63 checks 5, 6 and 8, R74). -/
theorem State.QuotaKept.accept {s : State} (h : s.QuotaKept) {r : Request} {p : PartitionId} (accepted : s.verdict r = .accepted p) :
    (s.accept r p).QuotaKept := by
  obtain ⟨bound, off, sum⟩ := h
  obtain ⟨_, _, _, active, notFull, _⟩ := State.verdict_accepted accepted
  obtain ⟨e, pool, here, _⟩ := s.accept_pool r p
  have parts : (s.accept r p).parts = s.parts := by
    unfold State.accept
    split <;> simp [State.enqueue]
  rw [State.QuotaKept, parts]
  simp only [State.heldCount_append pool, here]
  refine ⟨fun q => ?bound, fun q isOff => ?off, sum⟩
  case bound =>
    have before := bound q
    by_cases hq : p = q
    · subst hq
      rw [if_pos rfl]
      omega
    · rwa [if_neg hq]
  case off =>
    have other : p ≠ q := by
      rintro rfl
      rcases active with run | hold
      · exact absurd (isOff.symm.trans run) (by decide)
      · exact absurd (isOff.symm.trans hold) (by decide)
    rw [if_neg other, off q isOff]

theorem State.QuotaKept.recordFault {s : State} (h : s.QuotaKept) (kind : FaultKind) (partition : Option PartitionId) (pair : Option Pair)
    (address : Option Addr) (dtag : Option DTag) : (s.recordFault kind partition pair address dtag).QuotaKept :=
  h.sameWork (s.recordFault_sameWork kind partition pair address dtag)

theorem State.QuotaKept.gather {s : State} (h : s.QuotaKept) (r : OpenWrite) (data : Beat) (last : Bool) : (s.gather r data last).QuotaKept := by
  unfold State.gather
  split
  · have freed : ({ s with writes := { s.writes with records := s.writes.records.filter fun x => x.pair != r.pair } } : State).QuotaKept :=
      h.same rfl rfl
    exact (freed.withdrawPair _ _ _).recordFault _ _ _ _ _
  · split
    · exact h.rewrite rfl rfl (PoolEntry.completeFor_partition r.owner)
    · exact h.same rfl rfl

theorem State.QuotaKept.discard {s : State} (h : s.QuotaKept) (r : OpenWrite) (last : Bool) : (s.discard r last).QuotaKept := by
  unfold State.discard
  split
  · exact h.freeDiscarding r
  · exact h.same rfl rfl

theorem State.QuotaKept.takeBeat {s : State} (h : s.QuotaKept) (pair : Pair) (data : Beat) (last : Bool) :
    (s.takeBeat pair data last).QuotaKept := by
  unfold State.takeBeat
  split
  · exact h.recordFault _ _ _ _ _
  · split
    · exact h.gather _ data last
    · exact h.recordFault _ _ _ _ _
    · exact h.discard _ last

/-! ### Answers, deliveries and the path restart -/

theorem State.QuotaKept.takeAnswer {s : State} (h : s.QuotaKept) (d : DTag) (status : AnswerStatus) (data : List Beat) :
    (s.takeAnswer d status data).QuotaKept := by
  unfold State.takeAnswer
  split
  · next t _ =>
    have returned : ((s.setFlight d (.returning t (t.outcome status data).1 (t.outcome status data).2)).lastPlace d).QuotaKept := h.same rfl rfl
    unfold State.answerIssued
    dsimp only
    split
    · exact returned
    · exact returned.recordFault _ _ _ _ _
    · exact returned
  · next t owed _ =>
    have faulted : (s.recordFlightFault .late t d).QuotaKept := h.recordFault _ _ _ _ _
    unfold State.answerLate
    dsimp only
    split
    · exact faulted.same rfl rfl
    · exact faulted.same (by simp) (by simp)
  · exact h.recordFault _ _ _ _ _
  · exact h.recordFault _ _ _ _ _

theorem State.QuotaKept.enterReleasing {s : State} (h : s.QuotaKept) : s.enterReleasing.QuotaKept := by
  unfold State.enterReleasing
  dsimp only
  exact List.foldlRecOn (motive := State.QuotaKept) _ _ (h.same (by simp) (by simp)) fun u hu r _ => hu.freeDiscarding r

theorem State.QuotaKept.drainCheck {s : State} (h : s.QuotaKept) : s.drainCheck.QuotaKept := by
  unfold State.drainCheck
  split
  · exact h.enterReleasing
  · exact h

theorem State.QuotaKept.releaseCheck {s : State} (h : s.QuotaKept) : s.releaseCheck.QuotaKept := by
  unfold State.releaseCheck
  split
  · exact h.same rfl rfl
  · exact h

theorem State.QuotaKept.restartCheck {s : State} (h : s.QuotaKept) : s.restartCheck.QuotaKept := by
  unfold State.restartCheck
  split
  · exact h
  · exact h.drainCheck
  · exact h.releaseCheck

theorem State.QuotaKept.beginRestart {s : State} (h : s.QuotaKept) : s.beginRestart.QuotaKept := by
  have draining : ({ s with restart := { s.restart with phase := .draining } } : State).QuotaKept := h.same rfl rfl
  exact (List.foldlRecOn (motive := State.QuotaKept) allPartitions State.flush draining fun _ hu p _ => hu.flush p).drainCheck

theorem State.QuotaKept.endPulse {s : State} (h : s.QuotaKept) : s.endPulse.QuotaKept := by
  unfold State.endPulse
  split
  · refine State.QuotaKept.releaseCheck ?_
    exact h.same rfl rfl
  · exact h

theorem State.QuotaKept.deliverWithdrawn {s : State} (h : s.QuotaKept) (pair : Pair) : (s.deliverWithdrawn pair).QuotaKept := by
  unfold State.deliverWithdrawn
  split
  · exact h
  · refine State.QuotaKept.closingCheck ?_ _
    exact h.erase rfl rfl

theorem State.QuotaKept.deliverInFlight {s : State} (h : s.QuotaKept) (d : DTag) : (s.deliverInFlight d).QuotaKept := by
  unfold State.deliverInFlight
  split
  · exact h
  · exact h
  · refine State.QuotaKept.closingCheck ?_ _
    exact h.same rfl rfl
  · split
    · exact h.same rfl rfl
    · exact h

theorem State.QuotaKept.finishSource {s : State} (h : s.QuotaKept) (source : ResponseSource) : (s.finishSource source).QuotaKept := by
  cases source with
  | refusal => exact h.same rfl rfl
  | withdrawn pair => exact h.deliverWithdrawn pair
  | inFlight d => exact h.deliverInFlight d

theorem State.QuotaKept.deliver {s : State} (h : s.QuotaKept) : s.deliver.QuotaKept := by
  unfold State.deliver
  split
  · exact h
  · refine (State.QuotaKept.finishSource ?_ _).restartCheck
    exact h.same rfl rfl

theorem State.QuotaKept.choose {s : State} (h : s.QuotaKept) : s.choose.QuotaKept := by
  unfold State.choose
  split
  · exact h
  · split
    · exact h
    · exact h.same rfl rfl

/-! ### Management writes of partition records (R25) -/

/-- A record is rewritten with another quota only while its partition is OFF, and then it holds nothing (R25, R34). -/
theorem State.QuotaKept.writePartition {s : State} (h : s.QuotaKept) (index : Half) (quota slack limit : Byte) :
    (s.writePartition index quota slack limit).state.QuotaKept := by
  have ⟨bound, off, _⟩ := h
  unfold State.writePartition
  split
  · exact h
  · next p _ =>
    dsimp only
    split
    · exact h
    · split
      · exact h
      · next stateKept =>
        split
        · exact h
        · next total =>
          have covers : s.heldCount p ≤ quota.toNat := by
            by_cases unchanged : quota.toNat = s.parts[p].quota
            · exact unchanged ▸ bound p
            · have isOff : s.parts[p].state = .off := not_not.1 fun on => stateKept ⟨unchanged, on⟩
              exact (off p isOff).le.trans (Nat.zero_le _)
          exact h.setRecord rfl rfl covers (off p) (not_lt.1 total)

/-! ### Every step -/

theorem State.quotaKept_reset : State.reset.QuotaKept := by
  unfold State.QuotaKept
  decide

/-- The quota bound is kept by every effect that touches the work in the part. -/
theorem State.quotaKept_workKeeps : WorkKeeps State.QuotaKept where
  same := State.QuotaKept.sameWork
  reset := State.quotaKept_reset
  change _ p x h := h.changeState p x
  withdraw _ chosen status h := h.withdraw chosen status
  expire _ d h := h.expire d
  timeouts _ _ h := h.same rfl rfl
  issue _ p h _ := h.issue p
  refuse _ _ _ h _ := h.same rfl rfl
  accept _ _ _ h _ accepted := h.accept accepted
  beat _ pair data last h := h.takeBeat pair data last
  take _ h := h.same rfl rfl
  answer _ d status data h := h.takeAnswer d status data
  choose _ h := h.choose
  deliver _ h := h.deliver
  endPulse _ h := h.endPulse
  writePartition _ index quota slack limit h := h.writePartition index quota slack limit
  restart _ h _ := h.beginRestart

/-- Settles O54: every effect keeps the bound. That an OFF partition holds nothing is what lets its quota be rewritten, so the two are carried together. -/
theorem quotaBoundKept : Obligations.QuotaBoundKept :=
  ⟨fun _ => rfl, State.quotaKept_workKeeps.stepKeeps.step⟩

end Machine
end Sys2Proof
end

section
/-! The intake's shape check (R62) and region check (R68): each Bool check of the model and the conditions it stands for. -/

namespace Sys2Proof
namespace Machine

/-! ### The shape of a request (R62) -/

theorem Request.wellShaped_iff (r : Request) :
    r.wellShaped = true ↔
      r.kind ≠ none ∧ (1 ≤ r.beats ∧ r.beats ≤ 16) ∧ r.address.toNat % 16 = 0 ∧
        granuleOf r.address.toNat = granuleOf (r.address.toNat + r.beats * 16 - 1) := by
  simp only [Request.wellShaped, Bool.and_eq_true, decide_eq_true_eq, Option.isSome_iff_ne_none, and_assoc]

/-! ### The region check (R68) -/

/-- An access of no named kind is allowed by no region. -/
theorem Region.any_allows_iff (g : Region) (kind : Option AccessKind) :
    kind.any g.allows = true ↔ (kind = some .read ∧ g.readAllow = true) ∨ (kind = some .write ∧ g.writeAllow = true) := by
  match kind with
  | none => simp
  | some .read => simp [Region.allows]
  | some .write => simp [Region.allows]

theorem Region.passes_iff (g : Region) (r : Request) (p : PartitionId) :
    g.passes r p = true ↔
      g.enabled = true ∧ (g.base.toNat ≤ granuleOf r.address.toNat ∧ granuleOf r.address.toNat ≤ g.limit.toNat) ∧ g.mask.getLsb p = true ∧
        ((r.kind = some .read ∧ g.readAllow = true) ∨ (r.kind = some .write ∧ g.writeAllow = true)) := by
  simp only [Region.passes, Bool.and_eq_true, decide_eq_true_eq, Region.any_allows_iff, and_assoc]

theorem State.regionPasses_iff (s : State) (r : Request) (p : PartitionId) :
    s.regionPasses r p = true ↔ ∃ k : Fin 16, s.intake.regions[k].passes r p = true := by
  rw [State.regionPasses, Vector.any_toList, Vector.any_eq_true, Fin.exists_iff]
  rfl

/-! ### The statement -/

/-- Settles O14: a request is well-shaped by the conditions of R62, and the region check asks for one region that meets every condition of R68. -/
theorem shapeAndRegionChecks : Obligations.ShapeAndRegionChecks :=
  ⟨Request.wellShaped_iff, fun s r p => (s.regionPasses_iff r p).trans (exists_congr fun k => s.intake.regions[k].passes_iff r p)⟩

end Machine
end Sys2Proof
end

section
/-! Beats with no write to gather for: stray ones, dropped with a fault (R87), and those of a DISCARDING record, dropped without (R90). -/

namespace Sys2Proof
namespace Machine

/-! ### A beat by the state of its pair's record (R81) -/

theorem exec_writeDataBeat_of_running {s : State} (run : s.line = .running) (ini : Initiator) (tag : Tag) (data : Beat) (last : Bool) :
    exec (.writeDataBeat ini tag data last) s = .next (s.takeBeat { initiator := ini, tag := tag } data last).settle := by
  simp only [exec, execWriteDataBeat, event_running run]

theorem State.takeBeat_of_none {s : State} {pair : Pair} (missing : s.findRecord pair = none) (data : Beat) (last : Bool) :
    s.takeBeat pair data last = s.recordFault .strayData none (some pair) none none := by
  simp only [State.takeBeat, missing]

theorem State.takeBeat_of_complete {s : State} {pair : Pair} {r : OpenWrite} (found : s.findRecord pair = some r) (state : r.state = .complete)
    (data : Beat) (last : Bool) : s.takeBeat pair data last = s.recordFault .strayData (some r.partition) (some pair) none none := by
  simp only [State.takeBeat, found, state]

theorem State.takeBeat_of_discarding {s : State} {pair : Pair} {r : OpenWrite} (found : s.findRecord pair = some r)
    (state : r.state = .discarding) (data : Beat) (last : Bool) : s.takeBeat pair data last = s.discard r last := by
  simp only [State.takeBeat, found, state]

/-! ### Discarding (R90) -/

theorem State.discard_of_more {s : State} {r : OpenWrite} (more : r.received + 1 ≠ r.declared) :
    s.discard r false = s.updateRecord r.pair fun x => { x with received := x.received + 1 } := by
  rw [State.discard, if_neg (by simpa using more)]

theorem State.discard_of_end {s : State} {r : OpenWrite} {last : Bool} (done : last = true ∨ r.received + 1 = r.declared) :
    s.discard r last = s.freeDiscarding r := by
  rw [State.discard, if_pos (by simpa using done)]

/-- The record of a pair is freed and the pair's held-back answer released; closing is not checked yet. -/
def State.releaseRecord (s : State) (pair : Pair) : State :=
  { s with
    pool := s.pool.map (PoolEntry.releaseFor pair)
    writes := { s.writes with records := s.writes.records.filter fun x => x.pair != pair } }

theorem State.freeDiscarding_eq (s : State) (r : OpenWrite) : s.freeDiscarding r = (s.releaseRecord r.pair).closingCheck r.partition := rfl

theorem DataPathFrame.releaseRecord (s : State) (pair : Pair) : DataPathFrame s (s.releaseRecord pair) :=
  ⟨rfl, rfl, rfl, rfl, rfl, fun _ => rfl, .quiet rfl fun _ h => h, rfl, rfl, rfl, rfl, rfl, rfl, rfl, rfl⟩

theorem DataPathFrame.freeDiscarding (s : State) (r : OpenWrite) : DataPathFrame s (s.freeDiscarding r) :=
  (DataPathFrame.releaseRecord s r.pair).trans (.closingCheck _ r.partition)

theorem State.freeDiscarding_pool (s : State) (r : OpenWrite) : (s.freeDiscarding r).pool = s.pool.map (PoolEntry.releaseFor r.pair) := by
  simp [s.freeDiscarding_eq, State.releaseRecord]

theorem State.freeDiscarding_writes (s : State) (r : OpenWrite) :
    (s.freeDiscarding r).writes = { s.writes with records := s.writes.records.filter fun x => x.pair != r.pair } := by
  simp [s.freeDiscarding_eq, State.releaseRecord]

/-- Freeing a record leaves the partition records, so the closing check speaks of the state before. -/
theorem State.freeDiscarding_checked (s : State) (r : OpenWrite) : ClosingChecked s (s.freeDiscarding r) r.partition :=
  (s.releaseRecord r.pair).closingCheck_checked r.partition

theorem Sends.freeDiscarding (s : State) (r : OpenWrite) :
    Sends s (s.freeDiscarding r) (closingCauses s (s.freeDiscarding r) r.partition) [] :=
  (Sends.closingCheck (s.releaseRecord r.pair) r.partition).same_before rfl rfl

/-! ### The effects -/

/-- The effect of a stray beat: its fault, and nothing else (R87, R94). -/
def StrayDropped (s u : State) (partition : Option PartitionId) (pair : Pair) : Prop :=
  FaultRecorded s u .strayData partition (some pair) none none ∧ u.attention.latched = latchedByFault s ∧ u.pool = s.pool ∧
    u.writes = s.writes ∧ u.intake = s.intake ∧ u.flight = s.flight ∧ u.restart = s.restart ∧ u.parts = s.parts ∧
    u.counters = s.counters ∧ DataPathFrame s u ∧ Emits s u [.fault .strayData] [.faults]

theorem State.recordFault_strayDropped (s : State) (partition : Option PartitionId) (pair : Pair) :
    StrayDropped s (s.recordFault .strayData partition (some pair) none none) partition pair := by
  obtain ⟨recorded, latched⟩ := s.recordFault_recorded .strayData partition (some pair) none none
  exact ⟨recorded, latched, by simp, by simp, by simp, by simp, by simp, by simp, by simp, .recordFault .., (Sends.recordFault ..).emits⟩

/-- The effect of the last beat of a DISCARDING record of partition p: the record is freed, its answer released and closing checked (R90). -/
def RecordDiscarded (s u : State) (p : PartitionId) (pair : Pair) : Prop :=
  u.pool = s.pool.map (PoolEntry.releaseFor pair) ∧
    u.writes = { s.writes with records := s.writes.records.filter fun x => x.pair != pair } ∧
    ClosingChecked s u p ∧ u.attention.queue = s.attention.queue ∧ u.intake = s.intake ∧ u.flight = s.flight ∧ u.restart = s.restart ∧
    u.counters = s.counters ∧ DataPathFrame s u ∧ Emits s u (closingCauses s u p) []

theorem State.freeDiscarding_recordDiscarded (s : State) (r : OpenWrite) : RecordDiscarded s (s.freeDiscarding r) r.partition r.pair :=
  ⟨s.freeDiscarding_pool r, s.freeDiscarding_writes r, s.freeDiscarding_checked r, by simp, by simp, by simp, by simp, by simp,
    .freeDiscarding s r, (Sends.freeDiscarding s r).emits⟩

/-- Only an ANSWERING entry of the pair has an answer to release; to release another's is to leave it as it is (R90). -/
theorem PoolEntry.releaseFor_eq (pair : Pair) (e : PoolEntry) :
    e.releaseFor pair =
      match e.state with
      | .waiting => e
      | .answering status _ => if e.pair = pair then { e with state := .answering status true } else e := by
  obtain ⟨_, _, _, _, _, _, _, state⟩ := e
  cases state <;> rfl

/-! ### The statement -/

/-- Settles O21, by the record of the beat's pair: none, a COMPLETE one, a DISCARDING one that expects more, and a DISCARDING one at its last beat. -/
theorem beatStrayOrDiscarded : Obligations.BeatStrayOrDiscarded := by
  refine ⟨PoolEntry.releaseFor_eq, fun ini tag data last s run => ?_⟩
  rw [exec_writeDataBeat_of_running run]
  refine ⟨fun missing => ?none, fun r found =>
    ⟨fun complete => ?complete, fun discarding notLast more => ?expectsMore, fun discarding done => ?lastBeat⟩⟩
  case none =>
    rw [State.takeBeat_of_none missing]
    exact ⟨_, rfl, s.recordFault_strayDropped none _⟩
  case complete =>
    rw [State.takeBeat_of_complete found complete]
    exact ⟨_, rfl, s.recordFault_strayDropped (some r.partition) _⟩
  case expectsMore =>
    subst notLast
    rw [State.takeBeat_of_discarding found discarding, State.discard_of_more more, State.findRecord_pair found]
    rfl
  case lastBeat =>
    rw [State.takeBeat_of_discarding found discarding, State.discard_of_end done, ← State.findRecord_pair found]
    exact ⟨_, rfl, s.freeDiscarding_recordDiscarded r⟩

end Machine
end Sys2Proof
end

section
/-! FLUSH PARTITION: which entries a withdrawal leaves in the queues (R37, R38), what a flush makes of the queues, the head age and the held counts (R41, R124), and
the close of the command's frame (R122). -/

namespace Sys2Proof
namespace Machine

/-! ### The queues after a withdrawal (R37, R38) -/

theorem State.withdrawnEntry_of_not_chosen {chosen : PoolEntry → Bool} {e : PoolEntry} (out : chosen e = false) (s : State) (status : WithdrawalStatus) :
    s.withdrawnEntry chosen status e = e := by simp [State.withdrawnEntry, out]

/-- An entry stands in a queue after a withdrawal when it stood there and was not chosen. -/
theorem State.withdrawnEntry_inQueue (s : State) (chosen : PoolEntry → Bool) (status : WithdrawalStatus) (q : PartitionId) (e : PoolEntry) :
    (s.withdrawnEntry chosen status e).inQueue q = (e.inQueue q && !chosen e) := by
  cases isChosen : chosen e with
  | false => simp [State.withdrawnEntry_of_not_chosen isChosen]
  | true =>
    have gone : (s.withdrawnEntry chosen status e).isWaiting = false := by
      refine Bool.eq_false_iff.2 fun waits => ?_
      obtain ⟨_, _, notChosen⟩ := State.withdrawnEntry_waiting waits
      exact absurd (isChosen.symm.trans notChosen) (by decide)
    simp [PoolEntry.inQueue, gone]

/-- A queue after a withdrawal is what it was without the entries chosen, in the same order. -/
theorem State.withdraw_queue (s : State) (chosen : PoolEntry → Bool) (status : WithdrawalStatus) (q : PartitionId) :
    (s.withdraw chosen status).queue q = (s.queue q).filter fun e => !chosen e := by
  have inQueue : PoolEntry.inQueue q ∘ s.withdrawnEntry chosen status = fun e => !chosen e && e.inQueue q :=
    funext fun e => (s.withdrawnEntry_inQueue chosen status q e).trans (Bool.and_comm _ _)
  rw [State.queue, State.queue, State.withdraw_pool, List.filter_map, inQueue, List.filter_filter]
  refine (List.map_congr_left fun e he => ?_).trans (List.map_id _)
  obtain ⟨notChosen, _⟩ := Bool.and_eq_true_iff.1 (List.mem_filter.1 he).2
  exact State.withdrawnEntry_of_not_chosen (by simpa using notChosen) s status

/-- An entry keeps its place in its partition's quota when it is withdrawn (R24, R38). -/
theorem State.withdraw_heldCount (s : State) (chosen : PoolEntry → Bool) (status : WithdrawalStatus) (q : PartitionId) :
    (s.withdraw chosen status).heldCount q = s.heldCount q := by
  rw [State.heldCount_eq_count, State.heldCount_eq_count, State.withdraw_pool, map_partition_of_kept (s.withdrawnEntry_partition chosen status)]

/-- An empty queue has head age 0 (R41). -/
theorem State.headAge_of_queue_nil {s : State} {p : PartitionId} (empty : s.queue p = []) : s.headAge p = 0 := by
  have noHead : s.head p = none := List.find?_eq_none.2 (List.filter_eq_nil_iff.1 empty)
  rw [State.headAge, noHead]

/-! ### A flush (R124) -/

/-- A flush takes the entries of its partition out of the queues (R37, R124). -/
theorem State.flush_queue (s : State) (p q : PartitionId) : (s.flush p).queue q = (s.queue q).filter fun e => !(e.partition == p) := by
  rw [State.queue, s.flush_pool p]
  exact s.withdraw_queue _ _ q

theorem PoolEntry.partition_of_mem_queue {s : State} {q : PartitionId} {e : PoolEntry} (he : e ∈ s.queue q) : e.partition = q := by
  obtain ⟨_, mine⟩ := Bool.and_eq_true_iff.1 (List.mem_filter.1 he).2
  exact beq_iff_eq.1 mine

theorem State.flush_queue_same (s : State) (p : PartitionId) : (s.flush p).queue p = [] := by
  rw [s.flush_queue p p, List.filter_eq_nil_iff]
  intro e he
  simp [PoolEntry.partition_of_mem_queue he]

theorem State.flush_queue_other (s : State) {p q : PartitionId} (other : q ≠ p) : (s.flush p).queue q = s.queue q := by
  rw [s.flush_queue p q, List.filter_eq_self]
  intro e he
  simpa [PoolEntry.partition_of_mem_queue he] using other

theorem State.flush_heldCount (s : State) (p q : PartitionId) : (s.flush p).heldCount q = s.heldCount q := by
  rw [State.heldCount, s.flush_pool p]
  exact s.withdraw_heldCount _ _ q

/-! ### The command's checks and its frame (R122) -/

theorem State.flushCommand_of_range {s : State} {argument : Byte} (out : 7 < argument.toNat) :
    s.flushCommand argument = { state := s, status := .range } := dif_neg (by omega)

theorem State.flushCommand_of_busy {s : State} {argument : Byte} {p : PartitionId} (code : argument.toNat = p.val) (busy : s.restart.phase ≠ .idle) :
    s.flushCommand argument = { state := s, status := .busy } := by
  rw [State.flushCommand, dif_pos (by omega), if_pos busy, State.refuseWith]

theorem State.flushCommand_of_idle {s : State} {argument : Byte} {p : PartitionId} (code : argument.toNat = p.val) (idle : s.restart.phase = .idle) :
    s.flushCommand argument = { state := s.flush p, status := .done } := by
  rw [State.flushCommand, dif_pos (by omega), if_neg (not_not.2 idle)]
  congr 2
  exact Fin.ext code

/-- FLUSH PARTITION closes its frame with the state and the status that its checks give, and the causes raised are taken. -/
theorem exec_flushPartition_of {s : State} {argument : Byte} {taken : Taken} (run : s.line = .running) (idle : s.port.idle = true) (extra : Nat)
    (checks : s.flushCommand argument = taken) (port : taken.state.port = s.port) (free : taken.state.free = s.free) :
    exec (.flushPartition argument extra) s = .next (s.framed taken.state taken.status 0 extra).settle := by
  simp only [exec, execFlushPartition, event_running run]
  rw [s.takeFrame_of 0 extra _ taken idle checks port free]

/-- A FLUSH PARTITION that its checks refuse leaves its status in the port, and nothing else. -/
theorem exec_flushPartition_refused {s : State} {argument : Byte} {status : Status} (run : s.line = .running) (idle : s.port.idle = true) (extra : Nat)
    (causes : s.CausesTaken) (checks : s.flushCommand argument = { state := s, status := status }) :
    exec (.flushPartition argument extra) s = .next (s.framed s status 0 extra) := by
  have quiet : (s.framed s status 0 extra).CausesTaken := causes
  rw [exec_flushPartition_of run idle extra checks rfl rfl, State.settle_of_taken quiet]

/-! ### The statement -/

/-- Settles O50, by the three outcomes of R122's checks; that the flush empties its own queue and leaves the others is `State.flush_queue`, since a
queue holds entries of its own partition alone. -/
theorem flushCommand : Obligations.FlushCommand := by
  intro argument extra s run idle
  refine ⟨fun out causes => ?range, fun p code => ⟨fun busy causes => ?busy, fun phase => ⟨s.flush p, ?done, ?effect⟩⟩⟩
  case range => exact exec_flushPartition_refused run idle extra causes (State.flushCommand_of_range out)
  case busy => exact exec_flushPartition_refused run idle extra causes (State.flushCommand_of_busy code busy)
  case done => exact exec_flushPartition_of run idle extra (State.flushCommand_of_idle code phase) (by simp) (by simp)
  case effect =>
    have empty : (s.flush p).queue p = [] := s.flush_queue_same p
    have quiet : NoFault s (s.flush p) := by simp [NoFault]
    exact ⟨s.flush_pool p, empty, State.headAge_of_queue_nil empty, s.flush_heldCount p, fun q other => s.flush_queue_other other, s.flush_writes p,
      by simp, by simp, by simp, by simp, by simp, quiet, .flush s p, (Sends.flush s p).emits⟩

end Machine
end Sys2Proof
end

section
/-! CLEAR COUNTERS (R138): the counters at 0, the per-round counts that are handed out with the clear, and the close of the command's frame. -/

namespace Sys2Proof
namespace Machine

/-! ### Counters at 0 (R134 to R136) -/

theorem Counters.zero_part (p : PartitionId) : Counters.zero.parts[p] = .zero := by
  simp [Counters.zero]

/-- What is handed out when the per-round counts are cleared: both counts of every partition (R135, R138). -/
theorem mem_roundCounts_iff {q : Quantity} : q ∈ roundCounts ↔ ∃ p : PartitionId, q = .lostRound p ∨ q = .retryRound p := by
  have every : ∀ p : PartitionId, p ∈ ([0, 1, 2, 3, 4, 5, 6, 7] : List PartitionId) := by decide
  rw [roundCounts, List.mem_flatMap]
  simp only [every, true_and, List.mem_pair]

/-- With the counters cleared, each per-round count has the value 0 (R135, R141). -/
theorem State.quantity_of_counters_zero {s : State} {q : Quantity} (cleared : s.counters = Counters.zero) (count : q ∈ roundCounts) :
    s.quantity q = 0 := by
  obtain ⟨p, rfl | rfl⟩ := mem_roundCounts_iff.1 count <;>
    rw [State.quantity, cleared, Counters.zero_part, PartitionCounters.zero]

/-! ### The counters cleared and the per-round counts handed out (R138) -/

/-- The state with every counter and per-round count at 0, before any value is handed out. -/
def State.zeroCounters (s : State) : State := { s with counters := Counters.zero }

/-- Clearing the counters changes only the counters. -/
@[simp] theorem State.zeroCounters_fields (s : State) :
    s.zeroCounters.counters = Counters.zero ∧ s.zeroCounters.pool = s.pool ∧ s.zeroCounters.writes = s.writes ∧
    s.zeroCounters.intake = s.intake ∧ s.zeroCounters.flight = s.flight ∧ s.zeroCounters.restart = s.restart ∧
    s.zeroCounters.parts = s.parts ∧ s.zeroCounters.attention = s.attention ∧ s.zeroCounters.port = s.port ∧ s.zeroCounters.free = s.free :=
  ⟨rfl, rfl, rfl, rfl, rfl, rfl, rfl, rfl, rfl, rfl⟩

theorem State.clearCommand_eq (s : State) : s.clearCommand = { state := s.zeroCounters.handAll roundCounts, status := .done } := rfl

/-- An enabled monitor of a per-round count evaluates 0 when the counters are cleared (R138, R142). -/
theorem State.zeroCounters_handed_last {s : State} {i : Fin 4} (enabled : s.monitors[i].enabled = true)
    (count : s.monitors[i].quantity ∈ roundCounts) : (s.zeroCounters.handAll roundCounts).monitors[i].last = s.monitors[i].result 0 :=
  s.zeroCounters.handAll_last roundCounts i 0 enabled count fun _ same => State.quantity_of_counters_zero same count

theorem DataPathFrame.zeroCounters (s : State) : DataPathFrame s s.zeroCounters :=
  ⟨rfl, rfl, rfl, rfl, rfl, fun _ => rfl, .quiet rfl fun _ h => h, rfl, rfl, rfl, rfl, rfl, rfl, rfl, rfl⟩

theorem Sends.zeroCounters_handed (s : State) : Sends s (s.zeroCounters.handAll roundCounts) [] roundCounts :=
  (Sends.handAll s.zeroCounters roundCounts).same_before rfl rfl

/-- CLEAR COUNTERS closes its frame with DONE, and the causes raised are taken. -/
theorem exec_clearCounters_of_running {s : State} (run : s.line = .running) (idle : s.port.idle = true) (extra : Nat) :
    exec (.clearCounters extra) s = .next (s.framed (s.zeroCounters.handAll roundCounts) .done 0 extra).settle := by
  simp only [exec, execClearCounters, event_running run]
  rw [s.takeFrame_of 0 extra _ _ idle s.clearCommand_eq (by simp) (by simp)]

/-! ### The statement -/

/-- Settles O51: the effect is `zeroCounters` followed by the handing out of the per-round counts, and handing values out leaves the counters at 0 and
changes nothing besides monitors' last results and the causes they raise. -/
theorem clearCountersCommand : Obligations.ClearCountersCommand := by
  intro extra s run idle
  refine ⟨s.zeroCounters.handAll roundCounts, exec_clearCounters_of_running run idle extra, ?effect⟩
  have counters : (s.zeroCounters.handAll roundCounts).counters = Counters.zero := by simp
  have quiet : NoFault s (s.zeroCounters.handAll roundCounts) := by simp [NoFault]
  have frame : DataPathFrame s (s.zeroCounters.handAll roundCounts) := (DataPathFrame.zeroCounters s).trans (.handAll _ _)
  refine ⟨fun p => ?parts, ?global, fun i enabled watched => ?monitors, by simp, by simp, by simp, by simp, by simp, by simp, quiet, frame,
    (Sends.zeroCounters_handed s).emits⟩
  case parts =>
    rw [counters]
    exact Counters.zero_part p
  case global =>
    rw [counters]
    rfl
  case monitors => exact State.zeroCounters_handed_last enabled (mem_roundCounts_iff.2 watched)

end Machine
end Sys2Proof
end

section
/-! What each command makes of a part that runs: its effect, and for one that raises causes the taking of them (R148). The requests, a beat and REQUEST SWITCH have
theirs in `exec_request`, `exec_writeDataBeat_of_running` and `exec_requestSwitch_of`. -/

namespace Sys2Proof
namespace Machine

theorem exec_slotStart_of_running {s : State} (run : s.line = .running) : exec .slotStart s = .next s.settleTimeouts.startSlot.runSlot.settle := by
  simp only [exec, execSlotStart, event_running run]

theorem exec_deadlineExpiry_of_running {s : State} (run : s.line = .running) :
    exec .deadlineExpiry s = .next s.expireDue.timeoutArrives.settle := by
  simp only [exec, execDeadlineExpiry, event_running run]

theorem exec_cancel_of_running {s : State} (run : s.line = .running) (ini : Initiator) (tag : Tag) :
    exec (.cancel ini tag) s = .next (s.takeCancel { initiator := ini, tag := tag }).settle := by
  simp only [exec, execCancel, event_running run]

theorem exec_downstreamTake_of_running {s : State} (run : s.line = .running) : exec .downstreamTake s = .next s.takeDownstream := by
  simp only [exec, execDownstreamTake, live_running run]

theorem exec_answer_of_running {s : State} (run : s.line = .running) (d : DTag) (status : AnswerStatus) (data : List Beat) :
    exec (.answer d status data) s = .next (s.settleTimeouts.takeAnswer d status data).settle := by
  simp only [exec, execAnswer, event_running run]

theorem exec_arbiterChoice_of_running {s : State} (run : s.line = .running) : exec .arbiterChoice s = .next s.choose := by
  simp only [exec, execArbiterChoice, live_running run]

theorem exec_responseDelivery_of_running {s : State} (run : s.line = .running) : exec .responseDelivery s = .next s.deliver.settle := by
  simp only [exec, execResponseDelivery, event_running run]

theorem exec_drstnPulseEnd_of_running {s : State} (run : s.line = .running) : exec .drstnPulseEnd s = .next s.endPulse.settle := by
  simp only [exec, execDrstnPulseEnd, event_running run]

theorem exec_evinEdge_of_running {s : State} (run : s.line = .running) (k : EventLine) (high : Bool) :
    exec (.evinEdge k high) s = .next (s.seeEdge k high).settle := by
  simp only [exec, execEvinEdge, event_running run]

theorem exec_evinFirstLevel_of_running {s : State} (run : s.line = .running) (k : EventLine) (high : Bool) :
    exec (.evinFirstLevel k high) s = .next (s.seeFirst k high) := by
  simp only [exec, execEvinFirstLevel, live_running run]

theorem exec_evoutPulseEnd_of_running {s : State} (run : s.line = .running) (k : EventLine) :
    exec (.evoutPulseEnd k) s = .next (s.endOutputPulse k) := by
  simp only [exec, execEvoutPulseEnd, live_running run]

theorem exec_heldCauseTaken_of_running {s : State} (run : s.line = .running) : exec .heldCauseTaken s = .next s.takeHeld := by
  simp only [exec, execHeldCauseTaken, live_running run]

theorem exec_indexComplete_of_running {s : State} (run : s.line = .running) (bytes : IndexBytes) :
    exec (.indexComplete bytes) s = .next (s.openRead bytes) := by
  simp only [exec, execIndexComplete, live_running run]

theorem exec_frameCutShort_of_running {s : State} (run : s.line = .running) (bytes : List Byte) :
    exec (.frameCutShort bytes) s = .next (s.cutShort bytes) := by
  simp only [exec, execFrameCutShort, live_running run]

theorem exec_unknown_of_running {s : State} (run : s.line = .running) (bytes : List Byte) :
    exec (.unknown bytes) s = .next (s.takeFrame 0 (bytes.length - 5) fun s => { state := s, status := .unknown }) := by
  simp only [exec, execUnknown, live_running run]

theorem exec_readEntry_of_running {s : State} (run : s.line = .running) (table : EntryTable) (index : Half) (extra : Nat) :
    exec (.readEntry table index extra) s = .next (s.takeRead (.readEntry table index) extra) := by
  simp only [exec, execReadEntry, live_running run]

theorem exec_popFault_of_running {s : State} (run : s.line = .running) (extra : Nat) :
    exec (.popFault extra) s = .next (s.takePop extra).settle := by
  simp only [exec, execPopFault, event_running run]

theorem exec_readStatus_of_running {s : State} (run : s.line = .running) (extra : Nat) :
    exec (.readStatus extra) s = .next (s.takeRead .readStatus extra) := by
  simp only [exec, execReadStatus, live_running run]

theorem exec_readCounters_of_running {s : State} (run : s.line = .running) (argument : Byte) (extra : Nat) :
    exec (.readCounters argument extra) s = .next (s.takeRead (.readCounters argument) extra) := by
  simp only [exec, execReadCounters, live_running run]

theorem exec_readSnapshot_of_running {s : State} (run : s.line = .running) (index : Half) (extra : Nat) :
    exec (.readSnapshot index extra) s = .next (s.takeRead (.readSnapshot index) extra) := by
  simp only [exec, execReadSnapshot, live_running run]

theorem exec_writeScheduleEntry_of_running {s : State} (run : s.line = .running) (t : TableName) (index : Half) (data : ScheduleEntryData) (extra : Nat) :
    exec (.writeScheduleEntry t index data extra) s = .next (s.takeFrame data.bytes.length extra fun s => s.writeSchedule t index data) := by
  simp only [exec, execWriteScheduleEntry, live_running run]

theorem exec_writePartitionRecord_of_running {s : State} (run : s.line = .running) (index : Half) (ignored quota flags limit : Byte) (extra : Nat) :
    exec (.writePartitionRecord index ignored quota flags limit extra) s = .next (s.takeFrame 4 extra fun s => s.writePartition index quota flags limit) := by
  simp only [exec, execWritePartitionRecord, live_running run]

theorem exec_writeInitiatorMap_of_running {s : State} (run : s.line = .running) (index : Half) (value : Byte) (extra : Nat) :
    exec (.writeInitiatorMap index value extra) s = .next (s.takeFrame 1 extra fun s => s.writeMap index value) := by
  simp only [exec, execWriteInitiatorMap, live_running run]

theorem exec_writeRegion_of_running {s : State} (run : s.line = .running) (index : Half) (base limit : Word) (mask flags : Byte) (extra : Nat) :
    exec (.writeRegion index base limit mask flags extra) s = .next (s.takeFrame 10 extra fun s => s.writeRegionEntry index base limit mask flags) := by
  simp only [exec, execWriteRegion, live_running run]

theorem exec_writeMonitor_of_running {s : State} (run : s.line = .running) (index : Half) (flags object condition argument : Byte) (threshold : Half) (extra : Nat) :
    exec (.writeMonitor index flags object condition argument threshold extra) s = .next (s.takeFrame 6 extra fun s => s.writeMonitorEntry index flags object condition argument threshold).settle := by
  simp only [exec, execWriteMonitor, event_running run]

theorem exec_writeTrigger_of_running {s : State} (run : s.line = .running) (index : Half) (flags cause causeArgument action actionArgument : Byte) (ignored : Half) (extra : Nat) :
    exec (.writeTrigger index flags cause causeArgument action actionArgument ignored extra) s = .next (s.takeFrame 7 extra fun s => s.writeTriggerEntry index flags cause causeArgument action actionArgument) := by
  simp only [exec, execWriteTrigger, live_running run]

theorem exec_writeAttentionMask_of_running {s : State} (run : s.line = .running) (index : Half) (mask : Byte) (extra : Nat) :
    exec (.writeAttentionMask index mask extra) s = .next (s.takeFrame 1 extra fun s => s.writeMask index mask) := by
  simp only [exec, execWriteAttentionMask, live_running run]

theorem exec_requestSwitch_of_running {s : State} (run : s.line = .running) (argument : Byte) (extra : Nat) :
    exec (.requestSwitch argument extra) s = .next (s.takeFrame 0 extra fun s => s.switchCommand argument) := by
  simp only [exec, execRequestSwitch, live_running run]

theorem exec_setPartitionState_of_running {s : State} (run : s.line = .running) (argument : Byte) (index : Half) (extra : Nat) :
    exec (.setPartitionState argument index extra) s = .next (s.takeFrame 0 extra fun s => s.setStateCommand argument (index.extractLsb' 0 8)).settle := by
  simp only [exec, execSetPartitionState, event_running run]

theorem exec_flushPartition_of_running {s : State} (run : s.line = .running) (argument : Byte) (extra : Nat) :
    exec (.flushPartition argument extra) s = .next (s.takeFrame 0 extra fun s => s.flushCommand argument).settle := by
  simp only [exec, execFlushPartition, event_running run]

theorem exec_pathRestart_of_running {s : State} (run : s.line = .running) (extra : Nat) :
    exec (.pathRestart extra) s = .next (s.takeFrame 0 extra State.restartCommand).settle := by
  simp only [exec, execPathRestart, event_running run]

theorem exec_acknowledge_of_running {s : State} (run : s.line = .running) (causes : Byte) (extra : Nat) :
    exec (.acknowledge causes extra) s = .next (s.takeFrame 1 extra fun s => s.acknowledgeCommand causes) := by
  simp only [exec, execAcknowledge, live_running run]

theorem exec_clearCounters_frame {s : State} (run : s.line = .running) (extra : Nat) :
    exec (.clearCounters extra) s = .next (s.takeFrame 0 extra State.clearCommand).settle := by
  simp only [exec, execClearCounters, event_running run]

theorem exec_frameOpenAcrossReset_of_running {s : State} (run : s.line = .running) : exec .frameOpenAcrossReset s = .next s.endAcrossReset := by
  simp only [exec, execFrameOpenAcrossReset, live_running run]
end Machine
end Sys2Proof
end

section
/-! The frame of every data-path effect as a whole: a request, a cancel, a beat, an answer, a choice, a delivery and the ends of the restart phases leave the
schedule, the configuration, the trigger unit but for the causes raised, and the port as they were. -/

namespace Sys2Proof
namespace Machine

/-- An update of the work in the part is one of the data path. -/
theorem DataPathFrame.work (s : State) (parts : Vector PartitionRecord 8) (pool : List PoolEntry) (heldPairs : List Pair)
    (refusal : Option RefusalRecord) (writes : WriteData) (flight : Completion) (restart : RestartControl) :
    DataPathFrame s
      { s with
        parts := parts, pool := pool, intake := { s.intake with heldPairs := heldPairs, refusal := refusal }, writes := writes
        flight := flight, restart := restart } :=
  ⟨rfl, rfl, rfl, rfl, rfl, fun _ => rfl, .quiet rfl fun _ h => h, rfl, rfl, rfl, rfl, rfl, rfl, rfl, rfl⟩

/-- What each element of a list does within the data path, all of them do. -/
theorem DataPathFrame.foldl {α : Type} {f : State → α → State} (h : ∀ (s : State) (a : α), DataPathFrame s (f s a)) (l : List α) (s : State) :
    DataPathFrame s (l.foldl f s) := by
  induction l generalizing s with
  | nil => exact .refl s
  | cons a l ih => exact (h s a).trans (ih (f s a))

/-! ### Requests and cancels -/

theorem DataPathFrame.accept (s : State) (r : Request) (p : PartitionId) : DataPathFrame s (s.accept r p) := by
  have joined (k : AccessKind) : DataPathFrame s ((s.countPart p fun c => { c with accepted := c.accepted + 1 }).enqueue r p k) :=
    (DataPathFrame.countPart s p _).trans (.enqueue _ r p k)
  unfold State.accept
  dsimp only
  split
  · exact (joined .write).trans ((DataPathFrame.openWrite _ r p).trans (.hand _ _))
  · exact joined .read
  · exact joined .read

theorem DataPathFrame.applyVerdict (s : State) (r : Request) (verdict : Verdict) : DataPathFrame s (s.applyVerdict r verdict) := by
  cases verdict with
  | retry => exact (DataPathFrame.countRetried s _).trans (.refuse _ _ _)
  | refused kind => exact ((DataPathFrame.countRefused s _).trans (.refuse _ _ _)).trans (.recordFault ..)
  | tagErr => exact ((DataPathFrame.countRefused s _).trans (.refuse _ _ _)).trans (.recordFault ..)
  | accepted p => exact .accept s r p

theorem DataPathFrame.takeRequest (s : State) (r : Request) : DataPathFrame s (s.takeRequest r) := by
  unfold State.takeRequest
  split
  · exact .applyVerdict s r _
  · exact .refl s

theorem DataPathFrame.countLate (s : State) (mapped : Option PartitionId) : DataPathFrame s (s.countLate mapped) := by
  cases mapped with
  | none => exact DataPathFrame.countGlobal s fun c => { c with unmappedLateCancels := c.unmappedLateCancels + 1 }
  | some p => exact DataPathFrame.countPart s p fun c => { c with lateCancels := c.lateCancels + 1 }

theorem DataPathFrame.takeCancel (s : State) (pair : Pair) : DataPathFrame s (s.takeCancel pair) := by
  unfold State.takeCancel
  split
  · split
    · exact .withdrawPair s _ pair _
    · exact .countLate s _
  · exact .refl s

/-! ### Beats -/

theorem DataPathFrame.updateRecord (s : State) (pair : Pair) (f : OpenWrite → OpenWrite) : DataPathFrame s (s.updateRecord pair f) :=
  .work s _ _ _ _ _ _ _

theorem DataPathFrame.completeWrite (s : State) (r : OpenWrite) (data : Beat) : DataPathFrame s (s.completeWrite r data) :=
  .work s _ _ _ _ _ _ _

theorem DataPathFrame.breakWrite (s : State) (r : OpenWrite) : DataPathFrame s (s.breakWrite r) :=
  ((DataPathFrame.work s _ _ _ _ _ _ _).trans (.withdrawPair _ _ _ _)).trans (.recordFault ..)

theorem DataPathFrame.takeBeat (s : State) (pair : Pair) (data : Beat) (last : Bool) : DataPathFrame s (s.takeBeat pair data last) := by
  unfold State.takeBeat
  split
  · exact .recordFault ..
  · next r _ =>
    split
    · unfold State.gather
      split
      · exact .breakWrite s r
      · split
        · exact .completeWrite s r data
        · exact .updateRecord s _ _
    · exact .recordFault ..
    · unfold State.discard
      split
      · exact .freeDiscarding s r
      · exact .updateRecord s _ _

/-! ### Answers, choices and deliveries -/

theorem DataPathFrame.answerIssued (s : State) (d : DTag) (t : Transaction) (status : AnswerStatus) (data : List Beat) :
    DataPathFrame s (s.answerIssued d t status data) := by
  unfold State.answerIssued
  dsimp only
  split
  · exact .setFlightUnit s _
  · exact (DataPathFrame.setFlightUnit s _).trans (.recordFault ..)
  · exact .setFlightUnit s _

theorem DataPathFrame.answerLate (s : State) (d : DTag) (t : Transaction) (owed : Bool) : DataPathFrame s (s.answerLate d t owed) := by
  unfold State.answerLate
  dsimp only
  split
  · exact ((DataPathFrame.recordFault ..).trans (.setFlightUnit _ _)).trans (.hand _ _)
  · exact ((DataPathFrame.recordFault ..).trans (.setFlightUnit _ _)).trans (.handAll _ _)

theorem DataPathFrame.takeAnswer (s : State) (d : DTag) (status : AnswerStatus) (data : List Beat) :
    DataPathFrame s (s.takeAnswer d status data) := by
  unfold State.takeAnswer
  split
  · exact .answerIssued s d _ status data
  · exact .answerLate s d _ _
  · exact .recordFault ..
  · exact .recordFault ..

theorem DataPathFrame.choose (s : State) : DataPathFrame s s.choose := by
  unfold State.choose
  split
  · exact .refl s
  · split
    · exact .refl s
    · exact .setFlightUnit s _

theorem DataPathFrame.deliverWithdrawn (s : State) (pair : Pair) : DataPathFrame s (s.deliverWithdrawn pair) := by
  unfold State.deliverWithdrawn
  split
  · exact .refl s
  · exact (((DataPathFrame.work s _ _ _ _ _ _ _).trans (.countPart _ _ _)).trans (.hand _ _)).trans (.closingCheck _ _)

theorem DataPathFrame.deliverInFlight (s : State) (d : DTag) : DataPathFrame s (s.deliverInFlight d) := by
  unfold State.deliverInFlight
  split
  · exact .refl s
  · exact .refl s
  · exact (((DataPathFrame.work s _ _ _ _ _ _ _).trans (.countPart _ _ _)).trans (.hand _ _)).trans (.closingCheck _ _)
  · split
    · exact (DataPathFrame.work s _ _ _ _ _ _ _).trans (.countPart _ _ _)
    · exact .refl s

theorem DataPathFrame.finishSource (s : State) (source : ResponseSource) : DataPathFrame s (s.finishSource source) := by
  cases source with
  | refusal => exact .work s _ _ _ _ _ _ _
  | withdrawn pair => exact .deliverWithdrawn s pair
  | inFlight d => exact .deliverInFlight s d

/-! ### The path restart -/

theorem DataPathFrame.enterReleasing (s : State) : DataPathFrame s s.enterReleasing :=
  ((DataPathFrame.work s _ _ _ _ _ _ _).trans (.handAll _ _)).trans (.foldl DataPathFrame.freeDiscarding _ _)

theorem DataPathFrame.drainCheck (s : State) : DataPathFrame s s.drainCheck := by
  unfold State.drainCheck
  split
  · exact .enterReleasing s
  · exact .refl s

theorem DataPathFrame.finishRestart (s : State) : DataPathFrame s s.finishRestart :=
  ((DataPathFrame.work s _ _ _ _ _ _ _).trans (.raise _ _)).trans (.latch _ _)

theorem DataPathFrame.releaseCheck (s : State) : DataPathFrame s s.releaseCheck := by
  unfold State.releaseCheck
  split
  · exact .finishRestart s
  · exact .refl s

theorem DataPathFrame.restartCheck (s : State) : DataPathFrame s s.restartCheck := by
  unfold State.restartCheck
  split
  · exact .refl s
  · exact .drainCheck s
  · exact .releaseCheck s

theorem DataPathFrame.deliver (s : State) : DataPathFrame s s.deliver := by
  unfold State.deliver
  split
  · exact .refl s
  · exact ((DataPathFrame.setFlightUnit s _).trans (.finishSource _ _)).trans (.restartCheck _)

theorem DataPathFrame.beginRestart (s : State) : DataPathFrame s s.beginRestart :=
  ((DataPathFrame.work s _ _ _ _ _ _ _).trans (.foldl DataPathFrame.flush _ _)).trans (.drainCheck _)

theorem DataPathFrame.endPulse (s : State) : DataPathFrame s s.endPulse := by
  unfold State.endPulse
  split
  · exact (DataPathFrame.work s _ _ _ _ _ _ _).trans (.releaseCheck _)
  · exact .refl s

/-! ### Commands of the management port -/

theorem DataPathFrame.changeState (s : State) (p : PartitionId) (x : PartitionState) : DataPathFrame s (s.changeState p x).state := by
  unfold State.changeState
  split
  · exact .refl s
  · split
    · exact .refl s
    · dsimp only
      split
      · exact (DataPathFrame.work s _ _ _ _ _ _ _).trans (.closingCheck _ _)
      · exact .work s _ _ _ _ _ _ _

theorem DataPathFrame.setStateCommand (s : State) (argument target : Byte) : DataPathFrame s (s.setStateCommand argument target).state := by
  unfold State.setStateCommand
  split
  · exact .refl s
  · split
    · exact .changeState s _ _
    · exact .refl s

theorem DataPathFrame.flushCommand (s : State) (argument : Byte) : DataPathFrame s (s.flushCommand argument).state := by
  unfold State.flushCommand
  split
  · split
    · exact .refl s
    · exact .flush s _
  · exact .refl s

theorem DataPathFrame.restartCommand (s : State) : DataPathFrame s s.restartCommand.state :=
  restartCommand_keeps (Q := DataPathFrame s) (.refl s) fun _ => .beginRestart s

theorem DataPathFrame.clearCommand (s : State) : DataPathFrame s s.clearCommand.state :=
  (DataPathFrame.zeroCounters s).trans (.handAll _ _)

theorem DataPathFrame.popRecord (s : State) : DataPathFrame s s.popRecord := by
  refine DataPathFrame.trans ?_ (.hand _ _)
  exact ⟨rfl, rfl, rfl, rfl, rfl, fun _ => rfl, .quiet rfl fun _ h => h, rfl, rfl, rfl, rfl, rfl, rfl, rfl, rfl⟩

theorem DataPathFrame.writePartition (s : State) (index : Half) (quota slack limit : Byte) :
    DataPathFrame s (s.writePartition index quota slack limit).state := by
  unfold State.writePartition
  split
  · exact .refl s
  · dsimp only
    split
    · exact .refl s
    · split
      · exact .refl s
      · split
        · exact .refl s
        · exact .work s _ _ _ _ _ _ _

end Machine
end Sys2Proof
end

section
/-! The schedule stays sound (R5, R9, R15): only a slot start, a pending target and a write of a table that is not locked change the schedule unit. -/

namespace Sys2Proof
namespace Machine

/-! ### The schedule unit alone -/

/-- A table that passes validation is in its ranges (R12). -/
theorem ScheduleTable.roundLength_pos_of_valid {t : ScheduleTable} (h : t.valid = true) : 0 < t.roundLength := by
  obtain ⟨⟨four, _⟩, _⟩ := t.valid_iff.1 h
  omega

/-- A pending target that passes validation keeps the unit sound (R13, R14). -/
theorem ScheduleUnit.Sound.setTarget {u : ScheduleUnit} (h : u.Sound) {t : TableName} (valid : (u.table t).valid = true) :
    ({ u with pendingTarget := some t } : ScheduleUnit).Sound := by
  obtain ⟨a, b, active, _, slot, remaining⟩ := h
  refine ⟨a, b, active, ?_, slot, remaining⟩
  rintro _ ⟨⟩
  exact valid

/-- A slot start inside a round: the slot just ended was not the last (R5). -/
theorem ScheduleUnit.Sound.nextSlot {u : ScheduleUnit} (h : u.Sound) (inside : u.lastSlot = false) (n : Word) :
    ({ u with slot := u.slot + 1, slotCount := n } : ScheduleUnit).Sound := by
  obtain ⟨a, b, active, target, _, remaining⟩ := h
  have more : u.slot + 1 < u.activeTable.roundLength := by simpa [ScheduleUnit.lastSlot] using inside
  exact ⟨a, b, active, target, more, remaining⟩

/-- The table that is active after the switch decision of a round start is the active one or the pending target, which passed validation (R15). -/
theorem ScheduleUnit.Sound.next_valid {u : ScheduleUnit} (h : u.Sound) : (u.table (u.pendingTarget.getD u.active)).valid = true := by
  obtain ⟨_, _, active, target, _, _⟩ := h
  cases pending : u.pendingTarget with
  | none => exact active
  | some t => exact target t pending

/-- A round start: slot 0, the switch decision, and the allowances of the table then active (R5, R9, R15). -/
theorem ScheduleUnit.Sound.nextRound {u : ScheduleUnit} (h : u.Sound) (round n : Word) :
    ({ u with
       slot := 0, round := round, slotCount := n, active := u.pendingTarget.getD u.active, pendingTarget := none
       remaining := (u.table (u.pendingTarget.getD u.active)).allowance } : ScheduleUnit).Sound := by
  have ⟨a, b, _⟩ := h
  have valid := h.next_valid
  exact ⟨a, b, valid, by rintro _ ⟨⟩, ScheduleTable.roundLength_pos_of_valid valid, fun _ => le_rfl⟩

/-- A slack issue lowers an allowance and moves the pointer (R53). -/
theorem ScheduleUnit.Sound.charge {u : ScheduleUnit} (h : u.Sound) (w q : PartitionId) :
    ({ u with remaining := modifyAt u.remaining w fun n => n - 1, slackPointer := q } : ScheduleUnit).Sound := by
  obtain ⟨a, b, active, target, slot, remaining⟩ := h
  refine ⟨a, b, active, target, slot, fun p => ?_⟩
  have bound := remaining p
  change (modifyAt u.remaining w fun n => n - 1)[p] ≤ u.activeTable.allowance[p]
  rw [modifyAt_get]
  split
  · exact (Nat.sub_le _ 1).trans bound
  · exact bound

/-! ### Writes of the schedule tables (R18, R19) -/

theorem ScheduleTable.InRange.replace {t x : ScheduleTable} (h : t.InRange) {index : Half} {data : ScheduleEntryData}
    (replaced : t.replace index data = some x) : x.InRange := by
  obtain ⟨round, slot, allowance⟩ := h
  cases data with
  | header r l =>
    simp only [ScheduleTable.replace, Option.ite_none_right_eq_some, Option.some.injEq] at replaced
    obtain ⟨⟨newRound, newSlot⟩, rfl⟩ := replaced
    exact ⟨newRound, newSlot, allowance⟩
  | slot e =>
    simp only [ScheduleTable.replace, Option.map_eq_some_iff] at replaced
    obtain ⟨y, _, rfl⟩ := replaced
    exact ⟨round, slot, allowance⟩
  | allowance a0 a1 a2 a3 a4 a5 a6 a7 =>
    simp only [ScheduleTable.replace, Option.ite_none_right_eq_some, Option.some.injEq] at replaced
    obtain ⟨bounds, rfl⟩ := replaced
    refine ⟨round, slot, ?_⟩
    simp only [List.all_cons, List.all_nil, Bool.and_true, Bool.and_eq_true, decide_eq_true_eq] at bounds
    obtain ⟨b0, b1, b2, b3, b4, b5, b6, b7⟩ := bounds
    exact Fin.forall_fin_succ.2 ⟨b0, by simp [Fin.forall_fin_succ, *]⟩

theorem ScheduleUnit.setTable_other (u : ScheduleUnit) {t x : TableName} (other : x ≠ t) (table : ScheduleTable) :
    (u.setTable t table).table x = u.table x := by
  cases t with
  | a =>
    cases x with
    | a => exact absurd rfl other
    | b => rfl
  | b =>
    cases x with
    | a => rfl
    | b => exact absurd rfl other

/-- A write changes neither the active table nor the pending target's, since both are locked (R18). -/
theorem ScheduleUnit.Sound.setTable {u : ScheduleUnit} (h : u.Sound) {t : TableName} (unlocked : u.isLocked t = false) {table : ScheduleTable}
    (range : table.InRange) : (u.setTable t table).Sound := by
  obtain ⟨a, b, active, target, slot, remaining⟩ := h
  simp only [ScheduleUnit.isLocked, Bool.or_eq_false_iff, beq_eq_false_iff_ne] at unlocked
  obtain ⟨notActive, notTarget⟩ := unlocked
  have same : (u.setTable t table).activeTable = u.activeTable := by
    have kept : (u.setTable t table).active = u.active := by cases t <;> rfl
    rw [ScheduleUnit.activeTable, kept, u.setTable_other notActive, ScheduleUnit.activeTable]
  have fields : (u.setTable t table).pendingTarget = u.pendingTarget ∧ (u.setTable t table).slot = u.slot ∧
      (u.setTable t table).remaining = u.remaining := by cases t <;> exact ⟨rfl, rfl, rfl⟩
  obtain ⟨pending, index, left⟩ := fields
  refine ⟨?_, ?_, ?_⟩
  · cases t
    · exact range
    · exact a
  · cases t
    · exact b
    · exact range
  · rw [same, pending, index, left]
    refine ⟨active, fun x hx => ?_, slot, remaining⟩
    rw [u.setTable_other fun e => notTarget (hx.trans (congrArg some e))]
    exact target x hx

/-! ### Commands that leave the schedule unit -/

theorem State.seeEdge_sched (s : State) (k : EventLine) (high : Bool) : (s.seeEdge k high).sched = s.sched ∧ (s.seeEdge k high).line = s.line := by
  unfold State.seeEdge
  split <;> exact ⟨rfl, rfl⟩

theorem State.seeFirst_sched (s : State) (k : EventLine) (high : Bool) :
    (s.seeFirst k high).sched = s.sched ∧ (s.seeFirst k high).line = s.line := by
  unfold State.seeFirst
  split <;> exact ⟨rfl, rfl⟩

theorem State.writeMap_sched (s : State) (index : Half) (value : Byte) : (s.writeMap index value).state.sched = s.sched := by
  unfold State.writeMap
  split <;> rfl

theorem State.writeRegionEntry_sched (s : State) (index : Half) (base limit : Word) (mask flags : Byte) :
    (s.writeRegionEntry index base limit mask flags).state.sched = s.sched := by
  unfold State.writeRegionEntry
  split
  · rfl
  · dsimp only
    split <;> rfl

theorem State.writeMonitorEntry_sched (s : State) (index : Half) (flags object condition argument : Byte) (threshold : Half) :
    (s.writeMonitorEntry index flags object condition argument threshold).state.sched = s.sched ∧
      (s.writeMonitorEntry index flags object condition argument threshold).state.line = s.line := by
  unfold State.writeMonitorEntry
  split
  · exact ⟨rfl, rfl⟩
  · split
    · split
      · exact ⟨rfl, rfl⟩
      · simp
    · exact ⟨rfl, rfl⟩
    · exact ⟨rfl, rfl⟩

theorem State.writeTriggerEntry_sched (s : State) (index : Half) (flags cause causeArgument action actionArgument : Byte) :
    (s.writeTriggerEntry index flags cause causeArgument action actionArgument).state.sched = s.sched := by
  unfold State.writeTriggerEntry
  split
  · rfl
  · split
    · split <;> rfl
    · rfl
    · rfl

theorem State.writeMask_sched (s : State) (index : Half) (mask : Byte) : (s.writeMask index mask).state.sched = s.sched := by
  unfold State.writeMask
  split <;> rfl

/-! ### The state -/

/-- The guarantee as it stands while a command's causes are still to be taken: of a running part (R1). -/
def State.SoundRunning (s : State) : Prop := s.sched.Sound ∧ s.line = .running

theorem State.SoundRunning.same {s u : State} (h : s.SoundRunning) (sched : u.sched = s.sched) (line : u.line = s.line) : u.SoundRunning :=
  ⟨sched ▸ h.1, line.trans h.2⟩

theorem State.SoundRunning.frame {s u : State} (h : s.SoundRunning) (f : DataPathFrame s u) : u.SoundRunning := h.same f.sched f.line

/-- With RSTN high nothing is asked of the reset state. -/
theorem State.SoundRunning.kept {s : State} (h : s.SoundRunning) : s.sched.Sound ∧ s.LowIsReset :=
  ⟨h.1, fun low => absurd (h.2.symm.trans low) (by decide)⟩

theorem State.SoundRunning.requestTarget {s : State} (h : s.SoundRunning) (t : TableName) : (s.requestTarget t).state.SoundRunning := by
  cases valid : (s.sched.table t).valid with
  | true =>
    rw [State.requestTarget_of_valid valid]
    exact ⟨h.1.setTarget valid, h.2⟩
  | false =>
    rw [State.requestTarget_of_invalid valid]
    exact h

theorem State.soundRunning_actions : ActionsKeep State.SoundRunning where
  triggers _ _ h := h
  free _ _ h := h
  monitors _ _ h := h
  latched _ _ _ h := h
  snapshot _ _ h := h
  target _ t h := h.requestTarget t
  change s p x h := h.frame (.changeState s p x)
  withdraw _ _ _ h := h

theorem State.SoundRunning.writeSchedule {s : State} (h : s.SoundRunning) (t : TableName) (index : Half) (data : ScheduleEntryData) :
    (s.writeSchedule t index data).state.SoundRunning := by
  unfold State.writeSchedule
  split
  · exact h
  · split
    · exact h
    · next unlocked =>
      split
      · exact h
      · next table replaced =>
        have ⟨⟨rangeA, rangeB, _⟩, _⟩ := h
        have range : (s.sched.table t).InRange := by
          cases t with
          | a => exact rangeA
          | b => exact rangeB
        exact ⟨h.1.setTable (Bool.eq_false_iff.2 unlocked) (range.replace replaced), h.2⟩

/-- A round start from a sound schedule, whatever the position it starts at. -/
theorem State.SoundRunning.roundStart {s : State} (h : s.SoundRunning) (round n : Word) :
    (State.roundStart { s with sched := { s.sched with slot := 0, round := round, slotCount := n } }).SoundRunning := by
  refine ⟨?_, by simpa using h.2⟩
  rw [State.roundStart_sched]
  exact h.1.nextRound round n

theorem State.SoundRunning.startSlot {s : State} (h : s.SoundRunning) : s.startSlot.SoundRunning := by
  cases last : s.sched.lastSlot with
  | false =>
    rw [s.startSlot_inside last]
    exact State.SoundRunning.same (s := { s with sched := { s.sched with slot := s.sched.slot + 1, slotCount := s.sched.slotCount + 1 } })
      ⟨h.1.nextSlot last _, h.2⟩ (by simp) (by simp)
  | true =>
    rw [s.startSlot_round last]
    exact (h.roundStart (s.sched.round + 1) (s.sched.slotCount + 1)).same (by simp) (by simp)

theorem State.SoundRunning.applyOutcome {s : State} (h : s.SoundRunning) (outcome : SlotOutcome) : (s.applyOutcome outcome).SoundRunning := by
  cases outcome with
  | ownedIssue p => exact h.frame ((DataPathFrame.issue s p).trans (.countPart _ _ _))
  | slackIssue p =>
    have issued : (s.issue p).SoundRunning := h.frame (.issue s p)
    exact ⟨issued.1.charge p _, issued.2⟩
  | _ => exact h.same rfl rfl

theorem DataPathFrame.chargeLost (s : State) (lost : Option PartitionId) : DataPathFrame s (s.chargeLost lost) := by
  cases lost with
  | none => exact .refl s
  | some p => exact (DataPathFrame.countPart s p _).trans (.hand _ _)

theorem State.SoundRunning.runSlot {s : State} (h : s.SoundRunning) : s.runSlot.SoundRunning :=
  (h.frame (.chargeLost s _)).applyOutcome _

theorem ScheduleUnit.sound_reset : ScheduleUnit.reset.Sound := by
  unfold ScheduleUnit.Sound ScheduleTable.InRange
  decide

/-- The part leaves reset with table A active, which passes validation (R4, R8). -/
theorem State.SoundRunning.leaveReset {s : State} (low : s.line = .heldLow) (reset : s.LowIsReset) (selnLow : Bool) :
    (s.leaveReset selnLow).SoundRunning := by
  obtain ⟨free, pending, rfl⟩ : ∃ free pending, s = { State.reset with free := free, pending := pending } := ⟨_, _, reset low⟩
  have running : State.SoundRunning
      { State.reset with
        line := .running, port := { State.reset.port with selnLow := selnLow, acrossReset := selnLow }, free := free, pending := pending } :=
    ⟨ScheduleUnit.sound_reset, rfl⟩
  refine State.soundRunning_actions.settle (State.SoundRunning.runSlot ?_)
  exact (running.roundStart 0 0).same (by simp; rfl) (by simp)

theorem State.scheduleKept_stepKeeps : StepKeeps (fun s => s.sched.Sound ∧ s.LowIsReset) State.SoundRunning where
  premise _ _ h := h
  queue _ _ h := ⟨h.1, fun low => by rw [h.2 low]⟩
  reset _ _ := ⟨ScheduleUnit.sound_reset, fun _ => rfl⟩
  leave _ selnLow low h := (State.SoundRunning.leaveReset low h.2 selnLow).kept
  mid _ h run := ⟨h.1, run⟩
  settle _ h := (State.soundRunning_actions.settle h).kept
  port _ _ _ h run := State.SoundRunning.kept ⟨h.1, run⟩
  midPort _ _ _ h := h
  slot _ h run := (State.SoundRunning.startSlot ⟨h.1, run⟩).runSlot
  expiry s h run := State.SoundRunning.frame ⟨h.1, run⟩ ((DataPathFrame.expireDue s).trans (.timeoutArrives _))
  arrive s h run := State.SoundRunning.frame ⟨h.1, run⟩ (.timeoutArrives s)
  request s r h run := State.SoundRunning.frame ⟨h.1, run⟩ (.takeRequest s r)
  cancel s pair _ h run := State.SoundRunning.frame ⟨h.1, run⟩ (.takeCancel s pair)
  beat s pair data last _ h run := State.SoundRunning.frame ⟨h.1, run⟩ (.takeBeat s pair data last)
  take s h run := State.SoundRunning.kept ⟨h.1, run⟩
  answer s d status data h run := State.SoundRunning.frame ⟨h.1, run⟩ (.takeAnswer s d status data)
  choose s h run := (State.SoundRunning.frame ⟨h.1, run⟩ (.choose s)).kept
  deliver s h run := State.SoundRunning.frame ⟨h.1, run⟩ (.deliver s)
  endPulse s h run := State.SoundRunning.frame ⟨h.1, run⟩ (.endPulse s)
  edge s k high h run := State.SoundRunning.same ⟨h.1, run⟩ (s.seeEdge_sched k high).1 (s.seeEdge_sched k high).2
  first s k high h run := (State.SoundRunning.same ⟨h.1, run⟩ (s.seeFirst_sched k high).1 (s.seeFirst_sched k high).2).kept
  outputPulse s k h run := State.SoundRunning.kept ⟨h.1, run⟩
  held s h run := (State.soundRunning_actions.settles.takeHeld ⟨h.1, run⟩).kept
  pop s h run := ⟨h.1, run⟩
  writeSchedule s t i d h run := (State.SoundRunning.writeSchedule ⟨h.1, run⟩ t i d).kept
  writePartition s i q f l h run := (State.SoundRunning.frame ⟨h.1, run⟩ (.writePartition s i q f l)).kept
  writeMap s i v h run := (State.SoundRunning.same ⟨h.1, run⟩ (s.writeMap_sched i v) (s.writeMap_line i v)).kept
  writeRegion s i b l m f h run :=
    (State.SoundRunning.same ⟨h.1, run⟩ (s.writeRegionEntry_sched i b l m f) (s.writeRegionEntry_line i b l m f)).kept
  writeMonitor s i f o c a t h run :=
    State.SoundRunning.same ⟨h.1, run⟩ (s.writeMonitorEntry_sched i f o c a t).1 (s.writeMonitorEntry_sched i f o c a t).2
  writeTrigger s i f c ca a aa h run :=
    (State.SoundRunning.same ⟨h.1, run⟩ (s.writeTriggerEntry_sched i f c ca a aa) (s.writeTriggerEntry_line i f c ca a aa)).kept
  writeMask s i m h run := (State.SoundRunning.same ⟨h.1, run⟩ (s.writeMask_sched i m) (s.writeMask_line i m)).kept
  switch s a h run := by
    unfold State.switchCommand
    split
    · exact h
    · exact (State.SoundRunning.requestTarget ⟨h.1, run⟩ _).kept
  setState s a x h run := State.SoundRunning.frame ⟨h.1, run⟩ (.setStateCommand s a x)
  flush s a h run := State.SoundRunning.frame ⟨h.1, run⟩ (.flushCommand s a)
  restart s h run _ := State.SoundRunning.frame ⟨h.1, run⟩ (.beginRestart s)
  acknowledge s c h run := State.SoundRunning.kept ⟨h.1, run⟩
  clear s h run := State.SoundRunning.frame ⟨h.1, run⟩ (.clearCommand s)

/-- Settles O52: each command's effect keeps the schedule sound in a running part, and RSTN low is left only from reset. -/
theorem scheduleKept : Obligations.ScheduleKept := State.scheduleKept_stepKeeps.step

end Machine
end Sys2Proof
end

section
/-! The active table and the pending target's table are protected (R18): but for a slot start and a table write, a command changes no more of the schedule unit than
the pending target; a slot start changes no table, and the active one only at a round start; a write finds both tables locked. -/

namespace Sys2Proof
namespace Machine

/-- The schedule unit is the same but for its pending target. -/
def SchedKept (s t : State) : Prop := { t.sched with pendingTarget := s.sched.pendingTarget } = s.sched

theorem SchedKept.of {s t : State} (h : t.sched = s.sched) : SchedKept s t := by
  rw [SchedKept, h]

theorem SchedKept.trans {s t u : State} (h : SchedKept s t) (k : SchedKept t u) : SchedKept s u := by
  unfold SchedKept at *
  rw [← h, ← k]

theorem SchedKept.frame {s u : State} (h : DataPathFrame s u) : SchedKept s u := .of h.sched

theorem SchedKept.settle {s u : State} (h : SchedKept s u) : SchedKept s u.settle := h.trans u.settle_frame.sched

theorem SchedKept.takeHeld (s : State) : SchedKept s s.takeHeld := by
  unfold State.takeHeld
  split
  · exact .of rfl
  · exact (State.takeCause_frame _ _).sched

theorem SchedKept.requestTarget (s : State) (t : TableName) : SchedKept s (s.requestTarget t).state := by
  unfold State.requestTarget
  split
  · rfl
  · exact .of rfl

theorem SchedKept.switchCommand (s : State) (argument : Byte) : SchedKept s (s.switchCommand argument).state := by
  unfold State.switchCommand
  split
  · exact .of rfl
  · exact .requestTarget s _

theorem SchedKept.takeFrame {s : State} (written extra : Nat) {effect : State → Taken} (h : SchedKept s (effect s).state) :
    SchedKept s (s.takeFrame written extra effect) :=
  takeFrame_keeps (Q := SchedKept s) (fun _ _ _ h => h) written extra effect (.of rfl) h

theorem SchedKept.takeRead (s : State) (command : ReadCommand) (extra : Nat) : SchedKept s (s.takeRead command extra) := by
  unfold State.takeRead
  split <;> exact .of rfl

theorem SchedKept.takePop (s : State) (extra : Nat) : SchedKept s (s.takePop extra) := by
  unfold State.takePop
  split
  · exact .of rfl
  · split
    · exact (SchedKept.of (t := s.finishRead _ extra) rfl).trans (.frame (.popRecord _))
    · exact .of rfl

theorem SchedKept.openRead (s : State) (bytes : IndexBytes) : SchedKept s (s.openRead bytes) := by
  unfold State.openRead
  split
  · exact .of rfl
  · split <;> exact .of rfl

theorem SchedKept.cutShort (s : State) (bytes : List Byte) : SchedKept s (s.cutShort bytes) := by
  unfold State.cutShort
  split <;> exact .of rfl

theorem SchedKept.endAcrossReset (s : State) : SchedKept s s.endAcrossReset := by
  unfold State.endAcrossReset
  split <;> exact .of rfl

theorem SchedKept.settleTimeouts (s : State) : SchedKept s s.settleTimeouts :=
  State.settleTimeouts_keeps (P := SchedKept s) (fun t h => (h.trans (.frame (.timeoutArrives t))).settle) (.of rfl)

/-! ### Every command but a slot start and a table write -/

/-- The commands that may change more of the schedule unit than the pending target. -/
def Instr.movesSchedule : Instr → Bool
  | .pinReset => true
  | .shortRstnPulse => true
  | .slotStart => true
  | .writeScheduleEntry _ _ _ _ => true
  | _ => false

theorem exec_schedKept {c : Instr} {s t : State} (run : s.line = .running) (other : Instr.movesSchedule c = false) (ht : exec c s = .next t) :
    SchedKept s t := by
  have answered {u : State} (made : exec c s = .next u) (h : SchedKept s u) : SchedKept s t := by
    rw [made] at ht
    cases ht
    exact h
  cases c with
  | pinReset => exact absurd other (by simp [Instr.movesSchedule])
  | shortRstnPulse => exact absurd other (by simp [Instr.movesSchedule])
  | slotStart => exact absurd other (by simp [Instr.movesSchedule])
  | writeScheduleEntry _ _ _ _ => exact absurd other (by simp [Instr.movesSchedule])
  | rstnReturnsHigh selnLow => exact answered (u := s) (by simp only [exec, execRstnReturnsHigh, run]) (.of rfl)
  | deadlineExpiry =>
    exact answered (exec_deadlineExpiry_of_running run) (SchedKept.frame ((DataPathFrame.expireDue s).trans (.timeoutArrives _))).settle
  | readRequest i x a b => exact answered ((exec_request rfl s).trans (event_running run _)) (SchedKept.frame (.takeRequest s _)).settle
  | writeRequest i x a b => exact answered ((exec_request rfl s).trans (event_running run _)) (SchedKept.frame (.takeRequest s _)).settle
  | unnamedKindRequest i x a b => exact answered ((exec_request rfl s).trans (event_running run _)) (SchedKept.frame (.takeRequest s _)).settle
  | cancel ini tag => exact answered (exec_cancel_of_running run ini tag) (SchedKept.frame (.takeCancel s _)).settle
  | writeDataBeat ini tag data last =>
    exact answered (exec_writeDataBeat_of_running run ini tag data last) (SchedKept.frame (.takeBeat s _ data last)).settle
  | downstreamTake => exact answered (exec_downstreamTake_of_running run) (.of rfl)
  | answer d status data =>
    exact answered (exec_answer_of_running run d status data) ((SchedKept.settleTimeouts s).trans (.frame (.takeAnswer _ d status data))).settle
  | arbiterChoice => exact answered (exec_arbiterChoice_of_running run) (.frame (.choose s))
  | responseDelivery => exact answered (exec_responseDelivery_of_running run) (SchedKept.frame (.deliver s)).settle
  | drstnPulseEnd => exact answered (exec_drstnPulseEnd_of_running run) (SchedKept.frame (.endPulse s)).settle
  | evinEdge k high => exact answered (exec_evinEdge_of_running run k high) (SchedKept.of (s.seeEdge_sched k high).1).settle
  | evinFirstLevel k high => exact answered (exec_evinFirstLevel_of_running run k high) (.of (s.seeFirst_sched k high).1)
  | evoutPulseEnd k => exact answered (exec_evoutPulseEnd_of_running run k) (.of rfl)
  | heldCauseTaken => exact answered (exec_heldCauseTaken_of_running run) (.takeHeld s)
  | indexComplete bytes => exact answered (exec_indexComplete_of_running run bytes) (.openRead s bytes)
  | frameCutShort bytes => exact answered (exec_frameCutShort_of_running run bytes) (.cutShort s bytes)
  | unknown bytes => exact answered (exec_unknown_of_running run bytes) (.takeFrame _ _ (.of rfl))
  | readEntry table i extra => exact answered (exec_readEntry_of_running run table i extra) (.takeRead s _ extra)
  | readStatus extra => exact answered (exec_readStatus_of_running run extra) (.takeRead s _ extra)
  | readCounters a extra => exact answered (exec_readCounters_of_running run a extra) (.takeRead s _ extra)
  | readSnapshot i extra => exact answered (exec_readSnapshot_of_running run i extra) (.takeRead s _ extra)
  | popFault extra => exact answered (exec_popFault_of_running run extra) (SchedKept.takePop s extra).settle
  | writePartitionRecord i x q f l extra =>
    exact answered (exec_writePartitionRecord_of_running run i x q f l extra) (.takeFrame _ _ (.frame (.writePartition s i q f l)))
  | writeInitiatorMap i v extra => exact answered (exec_writeInitiatorMap_of_running run i v extra) (.takeFrame _ _ (.of (s.writeMap_sched i v)))
  | writeRegion i b l m f extra =>
    exact answered (exec_writeRegion_of_running run i b l m f extra) (.takeFrame _ _ (.of (s.writeRegionEntry_sched i b l m f)))
  | writeMonitor i f o c a th extra =>
    exact answered (exec_writeMonitor_of_running run i f o c a th extra)
      (SchedKept.takeFrame _ _ (.of (s.writeMonitorEntry_sched i f o c a th).1)).settle
  | writeTrigger i f c ca a aa n extra =>
    exact answered (exec_writeTrigger_of_running run i f c ca a aa n extra) (.takeFrame _ _ (.of (s.writeTriggerEntry_sched i f c ca a aa)))
  | writeAttentionMask i m extra => exact answered (exec_writeAttentionMask_of_running run i m extra) (.takeFrame _ _ (.of (s.writeMask_sched i m)))
  | requestSwitch a extra => exact answered (exec_requestSwitch_of_running run a extra) (.takeFrame _ _ (.switchCommand s a))
  | setPartitionState a i extra =>
    exact answered (exec_setPartitionState_of_running run a i extra) (SchedKept.takeFrame _ _ (.frame (.setStateCommand s a _))).settle
  | flushPartition a extra => exact answered (exec_flushPartition_of_running run a extra) (SchedKept.takeFrame _ _ (.frame (.flushCommand s a))).settle
  | pathRestart extra => exact answered (exec_pathRestart_of_running run extra) (SchedKept.takeFrame _ _ (.frame (.restartCommand s))).settle
  | acknowledge c extra => exact answered (exec_acknowledge_of_running run c extra) (.takeFrame _ _ (.of rfl))
  | clearCounters extra => exact answered (exec_clearCounters_frame run extra) (SchedKept.takeFrame _ _ (.frame (.clearCommand s))).settle
  | frameOpenAcrossReset => exact answered (exec_frameOpenAcrossReset_of_running run) (.endAcrossReset s)

/-! ### The tables of a state (R5) -/

/-- Both tables are as they were. -/
def TablesSame (s t : State) : Prop := t.sched.tableA = s.sched.tableA ∧ t.sched.tableB = s.sched.tableB

theorem TablesSame.table {s t : State} (h : TablesSame s t) (x : TableName) : t.sched.table x = s.sched.table x := by
  cases x with
  | a => exact h.1
  | b => exact h.2

theorem TablesSame.trans {s t u : State} (h : TablesSame s t) (k : TablesSame t u) : TablesSame s u :=
  ⟨k.1.trans h.1, k.2.trans h.2⟩

theorem SchedKept.tables {s t : State} (h : SchedKept s t) : TablesSame s t :=
  ⟨by rw [← h], by rw [← h]⟩

theorem SchedKept.active {s t : State} (h : SchedKept s t) : t.sched.active = s.sched.active := by
  rw [← h]

/-- The last slot of a round is known from the position and the tables, whatever the pending target. -/
theorem SchedKept.lastSlot {s t : State} (h : SchedKept s t) : t.sched.lastSlot = s.sched.lastSlot := by
  rw [← h]
  rfl

theorem State.startSlot_tables (s : State) : TablesSame s s.startSlot := by
  cases last : s.sched.lastSlot with
  | false => simp [s.startSlot_inside last, TablesSame]
  | true => simp [s.startSlot_round last, TablesSame, State.roundStart_sched]

theorem State.runSlot_tables (s : State) : TablesSame s s.runSlot ∧ s.runSlot.sched.active = s.sched.active := by
  have lost : SchedKept s (s.chargeLost s.decideSlot.lost) := .frame (.chargeLost s _)
  have outcome : ∀ (u : State) (o : SlotOutcome), TablesSame u (u.applyOutcome o) ∧ (u.applyOutcome o).sched.active = u.sched.active := by
    intro u o
    cases o with
    | ownedIssue p => simp [State.applyOutcome, TablesSame]
    | slackIssue p => simp [State.applyOutcome, TablesSame]
    | _ => exact ⟨⟨rfl, rfl⟩, rfl⟩
  obtain ⟨tables, active⟩ := outcome (s.chargeLost s.decideSlot.lost) s.decideSlot.outcome
  exact ⟨lost.tables.trans tables, active.trans lost.active⟩

/-- A slot start changes no table, and the active one only after the last slot of a round (R15, R18). -/
theorem exec_slotStart_tables {s t : State} (run : s.line = .running) (ht : exec .slotStart s = .next t) :
    TablesSame s t ∧ (t.sched.active ≠ s.sched.active → s.sched.activeTable.roundLength ≤ s.sched.slot + 1) := by
  simp only [exec, execSlotStart, event_running run] at ht
  cases ht
  have before : SchedKept s s.settleTimeouts := .settleTimeouts s
  have after : SchedKept s.settleTimeouts.startSlot.runSlot s.settleTimeouts.startSlot.runSlot.settle := SchedKept.settle (.of rfl)
  obtain ⟨ranTables, ranActive⟩ := s.settleTimeouts.startSlot.runSlot_tables
  refine ⟨((before.tables.trans s.settleTimeouts.startSlot_tables).trans ranTables).trans after.tables, fun changed => ?_⟩
  by_contra more
  have inside : s.settleTimeouts.sched.lastSlot = false := by
    rw [before.lastSlot, ScheduleUnit.lastSlot, decide_eq_false more]
  refine changed ((after.active.trans ranActive).trans ?_)
  rw [s.settleTimeouts.startSlot_inside inside]
  simpa using before.active

/-- A write of a schedule table finds the active one and the pending target's locked (R18, R19). -/
theorem State.writeSchedule_locked (s : State) (t : TableName) (index : Half) (data : ScheduleEntryData) {x : TableName}
    (locked : s.sched.isLocked x = true) : (s.writeSchedule t index data).state.sched.table x = s.sched.table x := by
  unfold State.writeSchedule
  split
  · rfl
  · split
    · rfl
    · next unlocked =>
      split
      · rfl
      · exact s.sched.setTable_other (by rintro rfl; exact unlocked locked) _

theorem State.writeSchedule_active (s : State) (t : TableName) (index : Half) (data : ScheduleEntryData) :
    (s.writeSchedule t index data).state.sched.active = s.sched.active := by
  unfold State.writeSchedule
  split
  · rfl
  · split
    · rfl
    · split
      · rfl
      · cases t <;> rfl

theorem exec_writeScheduleEntry_locked {s u : State} {t : TableName} {index : Half} {data : ScheduleEntryData} {extra : Nat}
    (run : s.line = .running) (ht : exec (.writeScheduleEntry t index data extra) s = .next u) :
    u.sched.active = s.sched.active ∧ ∀ x, s.sched.isLocked x = true → u.sched.table x = s.sched.table x := by
  simp only [exec, execWriteScheduleEntry, live_running run] at ht
  cases ht
  exact takeFrame_keeps (Q := fun u => u.sched.active = s.sched.active ∧ ∀ x, s.sched.isLocked x = true → u.sched.table x = s.sched.table x)
    (fun _ _ _ h => h) _ extra _ ⟨rfl, fun _ _ => rfl⟩ ⟨s.writeSchedule_active t index data, fun _ locked => s.writeSchedule_locked t index data locked⟩

/-- Settles O53, by the four commands that may change more of the schedule than the pending target, and the others. -/
theorem activeTableProtected : Obligations.ActiveTableProtected := by
  intro c s t run ht still
  cases moves : Instr.movesSchedule c with
  | false =>
    have kept := exec_schedKept run moves ht
    exact ⟨fun changed => absurd kept.active changed, kept.tables.table _, fun x _ => kept.tables.table x⟩
  | true =>
    cases c with
    | pinReset =>
      cases ht
      exact absurd still (by simp [State.pinReset, State.reset])
    | shortRstnPulse =>
      simp only [exec, execShortRstnPulse, live_running run] at ht
      cases ht
      exact absurd still (by simp [State.madeUndefined])
    | slotStart =>
      obtain ⟨tables, switched⟩ := exec_slotStart_tables run ht
      exact ⟨fun changed => ⟨rfl, switched changed⟩, tables.table _, fun x _ => tables.table x⟩
    | writeScheduleEntry x index data extra =>
      obtain ⟨active, locked⟩ := exec_writeScheduleEntry_locked run ht
      refine ⟨fun changed => absurd active changed, locked _ (by simp [ScheduleUnit.isLocked]), fun y pending => locked y ?_⟩
      simp [ScheduleUnit.isLocked, pending]
    | _ => exact absurd moves (by simp [Instr.movesSchedule])

end Machine
end Sys2Proof
end

section
/-! What the effects on the work in the part do to it, said once for the guarantees that follow (R82, R70, R83, R106). -/

namespace Sys2Proof
namespace Machine

/-! ### Issue and acceptance (R55, R74) -/

/-- The act of issue finds a head and a FREE entry, or does nothing. -/
theorem State.issue_cases (s : State) (p : PartitionId) :
    s.issue p = s ∨ ∃ e d, s.head p = some e ∧ s.lowestFree = some d ∧ Issued s (s.issue p) p e d := by
  cases head : s.head p with
  | none => exact .inl (by simp [State.issue, head])
  | some e =>
    cases free : s.lowestFree with
    | none => exact .inl (by simp [State.issue, head, free])
    | some d => exact .inr ⟨e, d, rfl, rfl, s.issue_issued p e d head free⟩

/-- The record that an accepted WRITE opens (R84). -/
def Request.openedRecord (r : Request) (p : PartitionId) : OpenWrite :=
  { pair := r.pair, owner := some r.pair, partition := p, declared := r.beats, received := 0, state := .receiving, stored := [] }

/-- An accepted WRITE reserves its beats and opens a record; any other request leaves the write-data unit (R84). -/
theorem State.accept_writes (s : State) (r : Request) (p : PartitionId) :
    (r.kind = some .write →
      (s.accept r p).writes = { reserved := s.writes.reserved + r.beats, records := s.writes.records ++ [r.openedRecord p] }) ∧
    (r.kind ≠ some .write → (s.accept r p).writes = s.writes) := by
  unfold State.accept
  dsimp only
  split
  · next kind => exact ⟨fun _ => by simp [State.enqueue, State.openWrite, Request.openedRecord], fun other => absurd kind other⟩
  · next kind => exact ⟨fun write => absurd (kind.symm.trans write) (by simp), fun _ => by simp [State.enqueue]⟩
  · next kind => exact ⟨fun write => absurd (kind.symm.trans write) (by simp), fun _ => by simp [State.enqueue]⟩

/-- An acceptance holds the pair, counts for the partition, and leaves the rest of the work in the part (R74). -/
theorem State.accept_rest (s : State) (r : Request) (p : PartitionId) :
    (s.accept r p).intake = { s.intake with heldPairs := s.intake.heldPairs ++ [r.pair] } ∧
      (s.accept r p).counters = countersWith s p (fun c => { c with accepted := c.accepted + 1 }) ∧ (s.accept r p).flight = s.flight ∧
      (s.accept r p).restart = s.restart ∧ (s.accept r p).parts = s.parts ∧ (s.accept r p).attention = s.attention := by
  unfold State.accept
  dsimp only
  split <;> simp [State.enqueue, countersWith, State.countPart]

/-! ### Answers (R99 to R101) -/

/-- What the handling of an answer leaves unchanged. -/
theorem State.takeAnswer_rest (s : State) (d : DTag) (status : AnswerStatus) (data : List Beat) :
    (s.takeAnswer d status data).parts = s.parts ∧ (s.takeAnswer d status data).pool = s.pool ∧
      (s.takeAnswer d status data).intake = s.intake ∧ (s.takeAnswer d status data).writes = s.writes ∧
      (s.takeAnswer d status data).restart = s.restart ∧ (s.takeAnswer d status data).counters = s.counters := by
  unfold State.takeAnswer
  split
  · unfold State.answerIssued
    dsimp only
    split <;> simp [State.recordFlightFault]
  · unfold State.answerLate
    dsimp only
    split <;> simp [State.recordFlightFault]
  · simp
  · simp

theorem State.takeAnswer_of_issued {s : State} {d : DTag} {t : Transaction} (entry : s.flight.table[d] = .issued t) (status : AnswerStatus)
    (data : List Beat) : s.takeAnswer d status data = s.answerIssued d t status data := by
  simp only [State.takeAnswer, entry]

theorem State.takeAnswer_of_orphaned {s : State} {d : DTag} {t : Transaction} {owed : Bool} (entry : s.flight.table[d] = .orphaned t owed)
    (status : AnswerStatus) (data : List Beat) : s.takeAnswer d status data = s.answerLate d t owed := by
  simp only [State.takeAnswer, entry]

/-- An answer for a FREE or RETURNING entry is stray (R101). -/
theorem State.takeAnswer_of_stray {s : State} {d : DTag} (entry : s.flight.table[d] = .free ∨ ∃ t a beats, s.flight.table[d] = .returning t a beats)
    (status : AnswerStatus) (data : List Beat) : s.takeAnswer d status data = s.recordFault .strayAnswer none none none (some d) := by
  rcases entry with free | ⟨t, a, beats, returning⟩
  · simp only [State.takeAnswer, free]
  · simp only [State.takeAnswer, returning]

/-- An ISSUED entry that is answered is RETURNING with the last place in turn (R99). -/
theorem State.answerIssued_flight (s : State) (d : DTag) (t : Transaction) (status : AnswerStatus) (data : List Beat) :
    (s.answerIssued d t status data).flight =
      { s.flight with
        table := s.flight.table.set d (.returning t (t.outcome status data).1 (t.outcome status data).2), places := s.flight.places ++ [d] } := by
  unfold State.answerIssued
  dsimp only
  split <;> simp [State.recordFlightFault, State.lastPlace, State.setFlight]

/-- An ORPHANED entry that is answered late is RETURNING with TIMEOUT while it is owed, and FREE otherwise (R100). -/
theorem State.answerLate_flight (s : State) (d : DTag) (t : Transaction) (owed : Bool) :
    (s.answerLate d t owed).flight =
      { s.flight with table := s.flight.table.set d (if owed = true then .returning t .timeout [] else .free) } := by
  unfold State.answerLate
  cases owed <;> simp [State.recordFlightFault, State.setFlight]

/-! ### Choices -/

/-- A choice puts a record on offer, or does nothing (R107). -/
theorem State.choose_cases (s : State) : s.choose = s ∨ ∃ o c, s.firstOf c = some o ∧ s.choose = { s with flight := { s.flight with offer := some o } } := by
  unfold State.choose
  split
  · exact .inl rfl
  · split
    · exact .inl rfl
    · next o found =>
      obtain ⟨c, _, first⟩ := List.exists_of_findSome?_eq_some found
      exact .inr ⟨o, c, first, rfl⟩

/-! ### Management writes of partition records (R25) -/

/-- A write of a partition record keeps its state, and the rest of the work in the part. -/
theorem State.writePartition_rest (s : State) (index : Half) (quota slack limit : Byte) :
    (s.writePartition index quota slack limit).state.pool = s.pool ∧ (s.writePartition index quota slack limit).state.intake = s.intake ∧
      (s.writePartition index quota slack limit).state.writes = s.writes ∧ (s.writePartition index quota slack limit).state.flight = s.flight ∧
      (s.writePartition index quota slack limit).state.restart = s.restart ∧
      ∀ p : PartitionId, (s.writePartition index quota slack limit).state.parts[p].state = s.parts[p].state := by
  unfold State.writePartition
  split
  · exact ⟨rfl, rfl, rfl, rfl, rfl, fun _ => rfl⟩
  · dsimp only
    split
    · exact ⟨rfl, rfl, rfl, rfl, rfl, fun _ => rfl⟩
    · split
      · exact ⟨rfl, rfl, rfl, rfl, rfl, fun _ => rfl⟩
      · split
        · exact ⟨rfl, rfl, rfl, rfl, rfl, fun _ => rfl⟩
        · refine ⟨rfl, rfl, rfl, rfl, rfl, fun p => ?_⟩
          dsimp only
          rw [modifyAt_get]
          split <;> rfl

/-! ### Entries released and completed -/

/-- A released answer is all that a freed record changes of its entry (R90). -/
theorem PoolEntry.releaseFor_rest (pair : Pair) (e : PoolEntry) :
    (e.releaseFor pair).isWaiting = e.isWaiting ∧ (e.releaseFor pair).kind = e.kind ∧ (e.releaseFor pair).beats = e.beats := by
  rw [PoolEntry.releaseFor_eq]
  split
  · exact ⟨rfl, rfl, rfl⟩
  · next state =>
    split
    · exact ⟨by simp [PoolEntry.isWaiting, state], rfl, rfl⟩
    · exact ⟨rfl, rfl, rfl⟩

/-- Data complete is all that a completed write changes of its entry (R85). -/
theorem PoolEntry.completeFor_rest (owner : Option Pair) (e : PoolEntry) :
    (e.completeFor owner).pair = e.pair ∧ (e.completeFor owner).state = e.state ∧ (e.completeFor owner).kind = e.kind ∧
      (e.completeFor owner).beats = e.beats := by
  unfold PoolEntry.completeFor
  split <;> exact ⟨rfl, rfl, rfl, rfl⟩

end Machine
end Sys2Proof
end

section
/-! The reservation (R82): the reserved count follows the WAITING writes through every effect that adds, changes or takes away an entry of the pool. -/

namespace Sys2Proof
namespace Machine

/-! ### The beats that a list of entries reserves -/

/-- The declared beats of the WAITING writes among these entries (R82). -/
def reservedBeats (pool : List PoolEntry) : Nat := ((pool.filter PoolEntry.reserves).map PoolEntry.beats).sum

theorem reservedBeats_append (l m : List PoolEntry) : reservedBeats (l ++ m) = reservedBeats l + reservedBeats m := by
  simp [reservedBeats]

theorem reservedBeats_cons (e : PoolEntry) (l : List PoolEntry) :
    reservedBeats (e :: l) = (if e.reserves = true then e.beats else 0) + reservedBeats l := by
  unfold reservedBeats
  rw [List.filter_cons]
  split <;> simp

/-- Entries rewritten one by one, each reserving what it did, reserve the same together. -/
theorem reservedBeats_map {f : PoolEntry → PoolEntry} (reserves : ∀ e, (f e).reserves = e.reserves) (beats : ∀ e, (f e).beats = e.beats)
    (pool : List PoolEntry) : reservedBeats (pool.map f) = reservedBeats pool := by
  induction pool with
  | nil => rfl
  | cons e l ih => rw [List.map_cons, reservedBeats_cons, reservedBeats_cons, ih, reserves, beats]

/-- An entry that reserves nothing may leave. -/
theorem reservedBeats_eraseP {test : PoolEntry → Bool} (nothing : ∀ e, test e = true → e.reserves = false) (pool : List PoolEntry) :
    reservedBeats (pool.eraseP test) = reservedBeats pool := by
  induction pool with
  | nil => rfl
  | cons e l ih =>
    cases found : test e with
    | true => simp [found, reservedBeats_cons, nothing e found]
    | false => simp [found, reservedBeats_cons, ih]

theorem PoolEntry.reserves_iff (e : PoolEntry) : e.reserves = true ↔ e.state = .waiting ∧ e.kind = .write := by
  cases state : e.state <;> simp [PoolEntry.reserves, PoolEntry.isWaiting, state]

/-! ### Changes that keep the reservation -/

theorem State.reservationKept_iff (s : State) : s.ReservationKept ↔ s.writes.reserved = reservedBeats s.pool ∧ s.writes.reserved ≤ Config.bufferBeats :=
  Iff.rfl

theorem State.ReservationKept.of {s u : State} (h : s.ReservationKept) (pool : reservedBeats u.pool = reservedBeats s.pool)
    (reserved : u.writes.reserved = s.writes.reserved) : u.ReservationKept := by
  rw [State.reservationKept_iff] at h ⊢
  rwa [pool, reserved]

theorem State.ReservationKept.same {s u : State} (h : s.ReservationKept) (pool : u.pool = s.pool)
    (reserved : u.writes.reserved = s.writes.reserved) : u.ReservationKept := h.of (by rw [pool]) reserved

theorem State.ReservationKept.withdrawPair {s : State} (h : s.ReservationKept) (p : PartitionId) (pair : Pair) (status : WithdrawalStatus) :
    (s.withdrawPair p pair status).ReservationKept :=
  (h.withdraw (fun e => e.pair == pair) status).same (by simp [State.withdrawPair]) (by simp [State.withdrawPair])

theorem State.ReservationKept.freeDiscarding {s : State} (h : s.ReservationKept) (r : OpenWrite) : (s.freeDiscarding r).ReservationKept := by
  have released : reservedBeats (s.pool.map (PoolEntry.releaseFor r.pair)) = reservedBeats s.pool := by
    refine reservedBeats_map (fun e => ?_) (fun e => ?_) s.pool
    · obtain ⟨waiting, kind, _⟩ := e.releaseFor_rest r.pair
      rw [PoolEntry.reserves, PoolEntry.reserves, waiting, kind]
    · exact (e.releaseFor_rest r.pair).2.2
  exact h.of (by rw [s.freeDiscarding_pool, released]) (by rw [s.freeDiscarding_writes])

/-- An issue takes a head and, for a WRITE, its reservation (R55, R57). -/
theorem State.ReservationKept.issue {s : State} (h : s.ReservationKept) (p : PartitionId) : (s.issue p).ReservationKept := by
  rcases s.issue_cases p with same | ⟨e, d, head, _, issued⟩
  · rwa [same]
  · obtain ⟨sum, bound⟩ := s.reservationKept_iff.1 h
    obtain ⟨before, after, pool, _, left⟩ := issued.pool
    obtain ⟨inQueue, _⟩ := (s.head_iff p e).1 head
    obtain ⟨waiting, _⟩ := (PoolEntry.inQueue_iff p e).1 inQueue
    rw [pool, reservedBeats_append, reservedBeats_cons] at sum
    rw [State.reservationKept_iff, left, reservedBeats_append]
    cases kind : e.kind with
    | read =>
      have nothing : e.reserves = false := Bool.eq_false_iff.2 fun r => absurd ((e.reserves_iff.1 r).2.symm.trans kind) (by decide)
      rw [issued.readData kind]
      simp only [nothing] at sum
      exact ⟨by simpa using sum, bound⟩
    | write =>
      rw [(issued.writeData kind).1]
      simp only [e.reserves_iff.2 ⟨waiting, kind⟩, if_true] at sum
      omega

/-- An accepted WRITE has found room for its beats (R63 check 9, R84). -/
theorem State.ReservationKept.accept {s : State} (h : s.ReservationKept) {r : Request} {p : PartitionId} (accepted : s.verdict r = .accepted p) :
    (s.accept r p).ReservationKept := by
  obtain ⟨sum, bound⟩ := s.reservationKept_iff.1 h
  obtain ⟨_, _, _, _, _, room⟩ := State.verdict_accepted accepted
  obtain ⟨e, pool, _, _, waiting, beats, write, read⟩ := s.accept_pool r p
  obtain ⟨writes, other⟩ := s.accept_writes r p
  rw [State.reservationKept_iff, pool, reservedBeats_append, reservedBeats_cons]
  by_cases kind : r.kind = some .write
  · obtain ⟨fits, _⟩ := (s.writeRoom_iff r.beats).1 (room kind)
    rw [writes kind, if_pos (e.reserves_iff.2 ⟨waiting, (write kind).1⟩), beats]
    have size : Config.bufferBeats = 256 := rfl
    simp only [reservedBeats, List.filter_nil, List.map_nil, List.sum_nil] at sum ⊢
    omega
  · have nothing : ¬e.reserves = true := fun r => absurd ((e.reserves_iff.1 r).2.symm.trans (read kind)) (by decide)
    rw [other kind, if_neg nothing]
    exact ⟨by simpa [reservedBeats] using sum, bound⟩

/-! ### Beats, answers and deliveries -/

theorem State.ReservationKept.gather {s : State} (h : s.ReservationKept) (r : OpenWrite) (data : Beat) (last : Bool) :
    (s.gather r data last).ReservationKept := by
  unfold State.gather
  split
  · have freed : ({ s with writes := { s.writes with records := s.writes.records.filter fun x => x.pair != r.pair } } : State).ReservationKept := h
    exact (freed.withdrawPair r.partition r.pair .aborted).same (by simp [State.breakWrite]) (by simp [State.breakWrite])
  · split
    · have marked : reservedBeats (s.pool.map (PoolEntry.completeFor r.owner)) = reservedBeats s.pool := by
        refine reservedBeats_map (fun e => ?_) (fun e => (e.completeFor_rest r.owner).2.2.2) s.pool
        obtain ⟨_, state, kind, _⟩ := e.completeFor_rest r.owner
        rw [PoolEntry.reserves, PoolEntry.reserves, PoolEntry.isWaiting, PoolEntry.isWaiting, state, kind]
      exact h.of marked rfl
    · exact h.same rfl rfl

theorem State.ReservationKept.takeBeat {s : State} (h : s.ReservationKept) (pair : Pair) (data : Beat) (last : Bool) :
    (s.takeBeat pair data last).ReservationKept := by
  unfold State.takeBeat
  split
  · exact h.same (by simp) (by simp)
  · next r _ =>
    split
    · exact h.gather r data last
    · exact h.same (by simp) (by simp)
    · unfold State.discard
      split
      · exact h.freeDiscarding r
      · exact h.same rfl rfl

/-- Only released answers leave the pool at a delivery, and they reserve nothing (R39, R111). -/
theorem State.ReservationKept.finishSource {s : State} (h : s.ReservationKept) (source : ResponseSource) : (s.finishSource source).ReservationKept := by
  cases source with
  | refusal => exact h.same rfl rfl
  | withdrawn pair =>
    unfold State.finishSource State.deliverWithdrawn
    dsimp only
    split
    · exact h
    · refine h.of ?_ (by simp)
      simp only [State.closingCheck_fields, State.hand_fields, State.countPart_fields, State.releasePair_fields]
      refine reservedBeats_eraseP (fun e answers => Bool.eq_false_iff.2 fun reserves => ?_) s.pool
      obtain ⟨waiting, _⟩ := e.reserves_iff.1 reserves
      simp [PoolEntry.answersFor, PoolEntry.isReleased, waiting] at answers
  | inFlight d =>
    unfold State.finishSource State.deliverInFlight
    dsimp only
    split
    · exact h
    · exact h
    · exact h.same (by simp) (by simp)
    · split
      · exact h.same rfl rfl
      · exact h

/-! ### The path restart -/

theorem State.ReservationKept.drainCheck {s : State} (h : s.ReservationKept) : s.drainCheck.ReservationKept := by
  unfold State.drainCheck
  split
  · unfold State.enterReleasing
    dsimp only
    exact List.foldlRecOn (motive := State.ReservationKept) _ _ (h.same (by simp) (by simp)) fun u hu r _ => hu.freeDiscarding r
  · exact h

theorem State.ReservationKept.releaseCheck {s : State} (h : s.ReservationKept) : s.releaseCheck.ReservationKept := by
  unfold State.releaseCheck
  split
  · exact h.same rfl rfl
  · exact h

theorem State.ReservationKept.restartCheck {s : State} (h : s.ReservationKept) : s.restartCheck.ReservationKept := by
  unfold State.restartCheck
  split
  · exact h
  · exact h.drainCheck
  · exact h.releaseCheck

theorem State.ReservationKept.deliver {s : State} (h : s.ReservationKept) : s.deliver.ReservationKept := by
  unfold State.deliver
  split
  · exact h
  · refine (State.ReservationKept.finishSource ?_ _).restartCheck
    exact h.same rfl rfl

theorem State.ReservationKept.beginRestart {s : State} (h : s.ReservationKept) : s.beginRestart.ReservationKept := by
  obtain ⟨_, _, _, flushed, _⟩ := State.flush_each allPartitions { s with restart := { s.restart with phase := .draining } }
  exact (flushed (h.same rfl rfl)).drainCheck

theorem State.ReservationKept.endPulse {s : State} (h : s.ReservationKept) : s.endPulse.ReservationKept := by
  unfold State.endPulse
  split
  · refine State.ReservationKept.releaseCheck ?_
    exact h.same rfl rfl
  · exact h

theorem State.reservationKept_workKeeps : WorkKeeps State.ReservationKept where
  same h work := h.same work.pool (by rw [work.writes])
  reset := ⟨rfl, Nat.zero_le _⟩
  change s p x h := h.same (by simp) (by simp)
  withdraw _ chosen status h := h.withdraw chosen status
  expire s d h := h.same (by simp) (by simp)
  timeouts _ _ h := h.same rfl rfl
  issue _ p h _ := h.issue p
  refuse _ _ _ h _ := h.same rfl rfl
  accept _ _ _ h _ accepted := h.accept accepted
  beat _ pair data last h := h.takeBeat pair data last
  take _ h := h.same rfl rfl
  answer s d status data h := by
    obtain ⟨_, pool, _, writes, _⟩ := s.takeAnswer_rest d status data
    exact h.same pool (by rw [writes])
  choose s h := by
    rcases s.choose_cases with same | ⟨o, c, _, offered⟩
    · rwa [same]
    · rw [offered]
      exact h
  deliver _ h := h.deliver
  endPulse _ h := h.endPulse
  writePartition s i q f l h := by
    obtain ⟨pool, _, writes, _⟩ := s.writePartition_rest i q f l
    exact h.same pool (by rw [writes])
  restart _ h _ := h.beginRestart

/-- Settles O55: the reserved count follows the WAITING writes through every effect on the work in the part. -/
theorem reservationBoundKept : Obligations.ReservationBoundKept :=
  ⟨PoolEntry.reserves_iff, State.reservationKept_workKeeps.stepKeeps.step⟩

end Machine
end Sys2Proof
end

section
/-! The held pairs (R70): acceptance adds a pair to the set and to the pool, issue moves it to an in-flight entry, a delivery takes it from both; every other effect
leaves the pairs where they are. -/

namespace Sys2Proof
namespace Machine

/-! ### The pairs of the in-flight entries -/

/-- The pairs that the in-flight entries carry (R70, R97). -/
def State.flightPairs (s : State) : List Pair := s.flight.table.toList.filterMap FlightEntry.heldPair

theorem State.carriedPairs_eq (s : State) : s.carriedPairs = s.pool.map PoolEntry.pair ++ s.flightPairs := rfl

/-- Vectors that agree under a map at every place give the same list through it. -/
theorem filterMap_toList_congr {α β : Type} {n : Nat} {f : α → Option β} {v w : Vector α n} (h : ∀ i : Fin n, f v[i] = f w[i]) :
    v.toList.filterMap f = w.toList.filterMap f := by
  have pointwise : v.toList.map f = w.toList.map f :=
    List.ext_getElem (by simp) fun i inV _ => by simpa using h ⟨i, by simpa using inV⟩
  have through (u : Vector α n) : u.toList.filterMap f = (u.toList.map f).filterMap id := by simp [List.filterMap_map]
  rw [through, through, pointwise]

theorem State.flightPairs_congr {s u : State} (h : ∀ d : DTag, u.flight.table[d].heldPair = s.flight.table[d].heldPair) :
    u.flightPairs = s.flightPairs := filterMap_toList_congr h

/-- Replacing one in-flight entry by one that carries the same pair changes no pair. -/
theorem State.flightPairs_set {s u : State} {d : DTag} {e : FlightEntry} (table : u.flight.table = s.flight.table.set d e)
    (pair : e.heldPair = s.flight.table[d].heldPair) : u.flightPairs = s.flightPairs :=
  State.flightPairs_congr fun x => by
    rw [table, vector_set_get]
    split
    · next same => rw [pair, same]
    · rfl

/-- A FREE entry that takes a pair adds it to those carried. -/
theorem State.flightPairs_take {s u : State} {d : DTag} {e : FlightEntry} {pair : Pair} (table : u.flight.table = s.flight.table.set d e)
    (before : s.flight.table[d].heldPair = none) (after : e.heldPair = some pair) : u.flightPairs.Perm (pair :: s.flightPairs) := by
  obtain ⟨front, back, here, replaced⟩ := vector_split s.flight.table d
  rw [State.flightPairs, State.flightPairs, table, replaced, here, List.filterMap_append, List.filterMap_append, List.filterMap_cons_some after,
    List.filterMap_cons_none before]
  exact List.perm_middle

/-- An entry that gives up its pair takes it from those carried. -/
theorem State.flightPairs_leave {s u : State} {d : DTag} {e : FlightEntry} {pair : Pair} (table : u.flight.table = s.flight.table.set d e)
    (before : s.flight.table[d].heldPair = some pair) (after : e.heldPair = none) : s.flightPairs.Perm (pair :: u.flightPairs) := by
  obtain ⟨front, back, here, replaced⟩ := vector_split s.flight.table d
  rw [State.flightPairs, State.flightPairs, table, replaced, here, List.filterMap_append, List.filterMap_append, List.filterMap_cons_some before,
    List.filterMap_cons_none after]
  exact List.perm_middle

/-! ### Changes that keep the pairs -/

theorem State.PairsKept.of {s u : State} (h : s.PairsKept) (pool : u.pool.map PoolEntry.pair = s.pool.map PoolEntry.pair)
    (flight : u.flightPairs = s.flightPairs) (held : u.intake.heldPairs = s.intake.heldPairs) : u.PairsKept := by
  rw [State.PairsKept, State.carriedPairs_eq, pool, flight, held]
  exact h

theorem State.PairsKept.same {s u : State} (h : s.PairsKept) (pool : u.pool = s.pool) (table : u.flight.table = s.flight.table)
    (held : u.intake.heldPairs = s.intake.heldPairs) : u.PairsKept :=
  h.of (by rw [pool]) (by rw [State.flightPairs, State.flightPairs, table]) held

/-- Entries rewritten one by one keep their pairs. -/
theorem map_pair_of_kept {f : PoolEntry → PoolEntry} (kept : ∀ e, (f e).pair = e.pair) (pool : List PoolEntry) :
    (pool.map f).map PoolEntry.pair = pool.map PoolEntry.pair := by
  rw [List.map_map]
  exact List.map_congr_left fun e _ => kept e

theorem State.PairsKept.withdraw {s : State} (h : s.PairsKept) (chosen : PoolEntry → Bool) (status : WithdrawalStatus) :
    (s.withdraw chosen status).PairsKept := h.of (s.withdraw_pairs chosen status) rfl rfl

theorem State.PairsKept.withdrawPair {s : State} (h : s.PairsKept) (p : PartitionId) (pair : Pair) (status : WithdrawalStatus) :
    (s.withdrawPair p pair status).PairsKept :=
  (h.withdraw (fun e => e.pair == pair) status).same (by simp [State.withdrawPair]) (by simp) (by simp)

theorem State.PairsKept.freeDiscarding {s : State} (h : s.PairsKept) (r : OpenWrite) : (s.freeDiscarding r).PairsKept :=
  h.of (by rw [s.freeDiscarding_pool, map_pair_of_kept (PoolEntry.releaseFor_pair r.pair)]) (by simp [State.flightPairs]) (by simp)

/-- An expiry leaves the pair with its entry, whose TIMEOUT is owed (R102). -/
theorem State.PairsKept.expire {s : State} (h : s.PairsKept) (d : DTag) : (s.expire d).PairsKept := by
  refine h.of (by simp) (State.flightPairs_congr fun x => ?_) (by simp)
  rw [s.expire_table]
  split
  · cases entry : s.flight.table[x] <;> rfl
  · rfl

/-- An issue moves the pair of the head to the entry it fills (R55, R56). -/
theorem State.PairsKept.issue {s : State} (h : s.PairsKept) (p : PartitionId) : (s.issue p).PairsKept := by
  rcases s.issue_cases p with same | ⟨e, d, _, free, issued⟩
  · rwa [same]
  · obtain ⟨before, after, pool, _, left⟩ := issued.pool
    obtain ⟨intake, _⟩ := issued.rest
    have taken : (s.issue p).flightPairs.Perm (e.pair :: s.flightPairs) :=
      State.flightPairs_take issued.table (by rw [State.lowestFree_free free]; rfl) rfl
    have moved : (s.issue p).carriedPairs.Perm s.carriedPairs := by
      rw [State.carriedPairs_eq, State.carriedPairs_eq, left, pool, List.map_append, List.map_append, List.map_cons]
      have front := taken.append_left (before.map PoolEntry.pair ++ after.map PoolEntry.pair)
      exact (front.trans List.perm_middle).trans (List.perm_middle.append_right s.flightPairs).symm
    obtain ⟨nodup, perm⟩ := h
    rw [State.PairsKept, intake]
    exact ⟨nodup, perm.trans moved.symm⟩

/-- An accepted request has a pair that nothing carried (R63 check 3, R74). -/
theorem State.PairsKept.accept {s : State} (h : s.PairsKept) {r : Request} {p : PartitionId} (accepted : s.verdict r = .accepted p) :
    (s.accept r p).PairsKept := by
  obtain ⟨_, _, new, _⟩ := State.verdict_accepted accepted
  obtain ⟨e, pool, _, pair, _⟩ := s.accept_pool r p
  obtain ⟨intake, _, flight, _⟩ := s.accept_rest r p
  obtain ⟨nodup, perm⟩ := h
  have fresh : ∀ x ∈ s.intake.heldPairs, x ≠ r.pair := by
    rintro _ held rfl
    exact new held
  rw [State.PairsKept, intake]
  refine ⟨by simpa [List.nodup_append, nodup] using fresh, ?_⟩
  rw [State.carriedPairs_eq, pool, State.flightPairs, flight, List.map_append, List.map_singleton, pair, List.append_assoc]
  have shuffled : (s.intake.heldPairs ++ [r.pair]).Perm (r.pair :: s.carriedPairs) :=
    (List.perm_append_singleton _ _).trans (perm.cons _)
  exact shuffled.trans List.perm_middle.symm

/-! ### Beats, answers and deliveries -/

theorem State.PairsKept.takeBeat {s : State} (h : s.PairsKept) (pair : Pair) (data : Beat) (last : Bool) : (s.takeBeat pair data last).PairsKept := by
  unfold State.takeBeat
  split
  · exact h.same (by simp) (by simp) (by simp)
  · next r _ =>
    split
    · unfold State.gather
      split
      · have freed : ({ s with writes := { s.writes with records := s.writes.records.filter fun x => x.pair != r.pair } } : State).PairsKept := h
        exact (freed.withdrawPair r.partition r.pair .aborted).same (by simp [State.breakWrite]) (by simp [State.breakWrite])
          (by simp [State.breakWrite])
      · split
        · exact h.of (map_pair_of_kept (fun e => (e.completeFor_rest r.owner).1) s.pool) rfl rfl
        · exact h
    · exact h.same (by simp) (by simp) (by simp)
    · unfold State.discard
      split
      · exact h.freeDiscarding r
      · exact h

/-- An answered entry keeps its pair until its response is delivered; one that owes nothing carries none (R99, R100). -/
theorem State.PairsKept.takeAnswer {s : State} (h : s.PairsKept) (d : DTag) (status : AnswerStatus) (data : List Beat) :
    (s.takeAnswer d status data).PairsKept := by
  obtain ⟨_, pool, intake, _⟩ := s.takeAnswer_rest d status data
  refine h.of (by rw [pool]) ?_ (by rw [intake])
  cases entry : s.flight.table[d] with
  | issued t =>
    rw [State.takeAnswer_of_issued entry]
    exact State.flightPairs_set (by rw [s.answerIssued_flight]) (by rw [entry]; rfl)
  | orphaned t owed =>
    rw [State.takeAnswer_of_orphaned entry]
    refine State.flightPairs_set (by rw [s.answerLate_flight]) ?_
    rw [entry]
    cases owed <;> rfl
  | free =>
    rw [State.takeAnswer_of_stray (.inl entry)]
    simp [State.flightPairs]
  | returning t a beats =>
    rw [State.takeAnswer_of_stray (.inr ⟨t, a, beats, entry⟩)]
    simp [State.flightPairs]

/-- A withdrawal answer is delivered for a pool entry, which leaves the pool with its pair, or for none (R39, R111). -/
theorem State.deliverWithdrawn_cases (s : State) (pair : Pair) :
    s.deliverWithdrawn pair = s ∨
      ∃ before e after, s.pool = before ++ e :: after ∧ e.isReleased = true ∧ e.pair = pair ∧
        (∀ x ∈ before, x.answersFor pair = false) ∧ (s.deliverWithdrawn pair).pool = before ++ after ∧
        (s.deliverWithdrawn pair).intake = { s.intake with heldPairs := s.intake.heldPairs.erase pair } ∧
        s.deliverWithdrawn pair =
          ((({ s with pool := before ++ after }.releasePair pair).countPart e.partition fun c =>
            { c with withdrawn := c.withdrawn + 1 }).hand (.queue e.partition)).closingCheck e.partition := by
  cases found : s.pool.find? (PoolEntry.answersFor pair) with
  | none => exact .inl (by simp only [State.deliverWithdrawn, found])
  | some e =>
    obtain ⟨answers, before, after, pool, earlier⟩ := List.find?_eq_some_iff_append.1 found
    obtain ⟨released, same⟩ := Bool.and_eq_true_iff.1 answers
    have others : ∀ x ∈ before, x.answersFor pair = false := fun x hx => by simpa using earlier x hx
    have left : s.pool.eraseP (PoolEntry.answersFor pair) = before ++ after := by
      rw [pool, List.eraseP_append_right _ fun x hx => by simp [others x hx], List.eraseP_cons_of_pos answers]
    have made : s.deliverWithdrawn pair =
        ((({ s with pool := before ++ after }.releasePair pair).countPart e.partition fun c =>
          { c with withdrawn := c.withdrawn + 1 }).hand (.queue e.partition)).closingCheck e.partition := by
      simp only [State.deliverWithdrawn, found, left]
    refine .inr ⟨before, e, after, pool, released, beq_iff_eq.1 same, others, ?_, ?_, made⟩
    · simp [made]
    · rw [made]
      simp [State.releasePair]

theorem State.PairsKept.deliverWithdrawn {s : State} (h : s.PairsKept) (pair : Pair) : (s.deliverWithdrawn pair).PairsKept := by
  rcases s.deliverWithdrawn_cases pair with same | ⟨before, e, after, pool, _, mine, _, left, intake, made⟩
  · rwa [same]
  · have flight : (s.deliverWithdrawn pair).flightPairs = s.flightPairs := by simp [made, State.flightPairs]
    refine h.leave pair ?_ (by rw [intake])
    rw [State.carriedPairs_eq, State.carriedPairs_eq, pool, left, flight, List.map_append, List.map_append, List.map_cons, mine]
    exact List.perm_middle.append_right _

/-- The entry of a delivered response gives up its pair (R112, R113). -/
theorem State.PairsKept.deliverInFlight {s : State} (h : s.PairsKept) (d : DTag) : (s.deliverInFlight d).PairsKept := by
  have leave {u : State} {e : FlightEntry} {pair : Pair} (pool : u.pool = s.pool) (table : u.flight.table = s.flight.table.set d e)
      (held : u.intake.heldPairs = s.intake.heldPairs.erase pair) (before : s.flight.table[d].heldPair = some pair) (after : e.heldPair = none) :
      u.PairsKept := by
    refine h.leave pair ?_ held
    rw [State.carriedPairs_eq, State.carriedPairs_eq, pool]
    exact ((State.flightPairs_leave table before after).append_left _).trans List.perm_middle
  unfold State.deliverInFlight
  split
  · exact h
  · exact h
  · next t answer beats entry =>
    exact leave (e := .free) (pair := t.pair) (by simp) (by simp) (by simp) (by rw [entry]; rfl) rfl
  · next t owed entry =>
    split
    · next isOwed => exact leave (e := .orphaned t false) (pair := t.pair) rfl rfl rfl (by rw [entry, isOwed]; rfl) rfl
    · exact h

theorem State.PairsKept.finishSource {s : State} (h : s.PairsKept) (source : ResponseSource) : (s.finishSource source).PairsKept := by
  cases source with
  | refusal => exact h
  | withdrawn pair => exact h.deliverWithdrawn pair
  | inFlight d => exact h.deliverInFlight d

/-! ### The path restart -/

/-- At the end of DRAINING no in-flight entry carries a pair, and freeing the orphans leaves it so (R129, R130). -/
theorem State.PairsKept.drainCheck {s : State} (h : s.PairsKept) : s.drainCheck.PairsKept := by
  unfold State.drainCheck
  split
  · next due =>
    obtain ⟨_, drained⟩ := Bool.and_eq_true_iff.1 due
    unfold State.enterReleasing
    dsimp only
    refine List.foldlRecOn (motive := State.PairsKept) _ _ ?_ fun u hu r _ => hu.freeDiscarding r
    refine h.of (by simp) (State.flightPairs_congr fun d => ?_) (by simp)
    have none := State.drained_flight drained d
    simp only [State.handAll_fields, mapAll_get]
    revert none
    cases s.flight.table[d] <;> simp [FlightEntry.freeOrphan, FlightEntry.heldPair]
  · exact h

theorem State.PairsKept.restartCheck {s : State} (h : s.PairsKept) : s.restartCheck.PairsKept := by
  unfold State.restartCheck
  split
  · exact h
  · exact h.drainCheck
  · unfold State.releaseCheck
    split
    · exact h
    · exact h

theorem State.PairsKept.deliver {s : State} (h : s.PairsKept) : s.deliver.PairsKept := by
  unfold State.deliver
  split
  · exact h
  · refine (State.PairsKept.finishSource ?_ _).restartCheck
    exact h

theorem State.PairsKept.beginRestart {s : State} (h : s.PairsKept) : s.beginRestart.PairsKept := by
  obtain ⟨_, pairs, _, _, _, _, intake, flight, _⟩ := State.flush_each allPartitions { s with restart := { s.restart with phase := .draining } }
  exact State.PairsKept.drainCheck (h.of pairs (by rw [State.flightPairs, flight, State.flightPairs]) (by rw [intake]))

theorem State.PairsKept.endPulse {s : State} (h : s.PairsKept) : s.endPulse.PairsKept := by
  unfold State.endPulse
  split
  · unfold State.releaseCheck
    split
    · exact h
    · exact h
  · exact h

theorem State.pairsKept_reset : State.reset.PairsKept := by
  unfold State.PairsKept
  decide

theorem State.pairsKept_workKeeps : WorkKeeps State.PairsKept where
  same h work := h.same work.pool (by rw [work.flight]) work.heldPairs
  reset := State.pairsKept_reset
  change s p x h := h.same (by simp) (by simp) (by simp)
  withdraw _ chosen status h := h.withdraw chosen status
  expire s d h := h.expire d
  timeouts _ _ h := h
  issue _ p h _ := h.issue p
  refuse _ _ _ h _ := h
  accept _ _ _ h _ accepted := h.accept accepted
  beat _ pair data last h := h.takeBeat pair data last
  take _ h := h
  answer s d status data h := h.takeAnswer d status data
  choose s h := by
    rcases s.choose_cases with same | ⟨o, c, _, offered⟩
    · rwa [same]
    · rw [offered]
      exact h
  deliver _ h := h.deliver
  endPulse _ h := h.endPulse
  writePartition s i q f l h := by
    obtain ⟨pool, intake, _, flight, _⟩ := s.writePartition_rest i q f l
    exact h.same pool (by rw [flight]) (by rw [intake])
  restart _ h _ := h.beginRestart

/-- Settles O56: a pair enters the set and the pool together, moves from the pool to an in-flight entry, and leaves both together. -/
theorem heldPairsKept : Obligations.HeldPairsKept :=
  ⟨fun e => by cases e <;> rfl, State.pairsKept_workKeeps.stepKeeps.step⟩

end Machine
end Sys2Proof
end

section
/-! The account of the work in the part (R32, R83, R127, R130): the records match their pool entries, a CLOSING partition has work outstanding, and the phases of a
restart hold what they say, through every effect. -/

namespace Sys2Proof
namespace Machine

/-! ### What is outstanding (R32) -/

theorem State.outstanding_of_entry {s : State} {e : PoolEntry} (here : e ∈ s.pool) : s.outstanding e.partition = true :=
  (s.outstanding_iff _).2 (.inl ⟨e, here, rfl⟩)

theorem State.outstanding_of_flight {s : State} {d : DTag} {p : PartitionId} (mine : s.flight.table[d].outstandingFor p = true) :
    s.outstanding p = true := (s.outstanding_iff _).2 (.inr (.inl ⟨d, mine⟩))

/-- A DISCARDING record has its pool entry, so pool and in-flight entries alone say what is outstanding (R32, R83). -/
theorem State.RecordsKept.outstanding_cases {s : State} (h : s.RecordsKept) {p : PartitionId} (work : s.outstanding p = true) :
    (∃ e ∈ s.pool, e.partition = p) ∨ ∃ d : DTag, s.flight.table[d].outstandingFor p = true := by
  rcases (s.outstanding_iff p).1 work with entry | flight | ⟨r, here, _, mine⟩
  · exact .inl entry
  · exact .inr flight
  · obtain ⟨_, _, owned, _⟩ := h
    obtain ⟨_, e, inPool, _, _, partition, _⟩ := owned r here
    exact .inl ⟨e, inPool, partition.trans mine⟩

/-- Closing is kept where no partition becomes CLOSING and the work of each pool and in-flight entry is still outstanding. -/
theorem State.ClosingKept.grow {s u : State} (h : s.ClosingKept) (records : s.RecordsKept)
    (parts : ∀ p : PartitionId, u.parts[p].state = .closing → s.parts[p].state = .closing) (pool : ∀ e ∈ s.pool, u.outstanding e.partition = true)
    (flight : ∀ (d : DTag) (p : PartitionId), s.flight.table[d].outstandingFor p = true → u.outstanding p = true) : u.ClosingKept := by
  intro p closing
  rcases records.outstanding_cases (h p (parts p closing)) with ⟨e, here, rfl⟩ | ⟨d, mine⟩
  · exact pool e here
  · exact flight d p mine

/-- Closing is kept where the pool's entries stay in their partitions and the in-flight entries stay. -/
theorem State.ClosingKept.rewrite {s u : State} (h : s.ClosingKept) (records : s.RecordsKept) (parts : u.parts = s.parts)
    {f : PoolEntry → PoolEntry} (pool : u.pool = s.pool.map f) (kept : ∀ e, (f e).partition = e.partition)
    (table : u.flight.table = s.flight.table) : u.ClosingKept := by
  refine h.grow records (by rw [parts]; exact fun _ h => h) (fun e here => ?_) fun d p mine => ?_
  · rw [← kept e]
    exact State.outstanding_of_entry (by rw [pool]; exact List.mem_map_of_mem here)
  · exact State.outstanding_of_flight (d := d) (by rw [table]; exact mine)

theorem State.ClosingKept.same {s u : State} (h : s.ClosingKept) (parts : ∀ p : PartitionId, u.parts[p].state = s.parts[p].state)
    (pool : u.pool = s.pool) (table : u.flight.table = s.flight.table) (records : u.writes.records = s.writes.records) : u.ClosingKept := by
  intro p closing
  rw [State.outstanding, pool, table, records]
  exact h p (by rwa [parts] at closing)

theorem State.ClosingKept.closingCheck {s : State} (h : s.ClosingKept) (p : PartitionId) : (s.closingCheck p).ClosingKept :=
  State.ClosingKept.check p fun q _ => h q

/-- A partition that enters CLOSING is checked at once (R31, R32). -/
theorem State.ClosingKept.changeState {s : State} (h : s.ClosingKept) (p : PartitionId) (x : PartitionState) :
    (s.changeState p x).state.ClosingKept := by
  have others (y : PartitionState) (q : PartitionId) (hq : q ≠ p) : (s.setState p y).parts[q].state = s.parts[q].state := by
    rw [State.setState_parts, modifyAt_get, if_neg hq.symm]
  unfold State.changeState
  split
  · exact h
  · split
    · exact h
    · next y _ =>
      dsimp only
      split
      · exact State.ClosingKept.check p fun q hq closing => h q (others y q hq ▸ closing)
      · next open_ =>
        intro q closing
        by_cases hq : q = p
        · subst hq
          rw [State.setState_parts, modifyAt_get, if_pos rfl] at closing
          exact absurd closing open_
        · exact h q (others y q hq ▸ closing)

/-! ### The phases of a restart (R127, R130) -/

/-- A restart's phases hold what they say where the restart is the same, nothing begins to wait, and in RELEASING nothing comes into use. -/
theorem State.RestartKept.of {s u : State} (h : s.RestartKept) (restart : u.restart = s.restart)
    (waits : ∀ e ∈ u.pool, e.isWaiting = true → ∃ x ∈ s.pool, x.isWaiting = true)
    (rest : s.restart.phase = .releasing →
      (∀ d : DTag, u.flight.table[d] = .free) ∧ u.writes.records = [] ∧ u.flight.output = none) : u.RestartKept := by
  obtain ⟨quiet, _, pulse⟩ := h
  rw [State.RestartKept, restart]
  refine ⟨fun active e here => ?_, rest, pulse⟩
  cases waiting : e.isWaiting with
  | false => rfl
  | true =>
    obtain ⟨x, before, waited⟩ := waits e here waiting
    exact absurd ((quiet active x before).symm.trans waited) (by decide)

theorem State.RestartKept.same {s u : State} (h : s.RestartKept) (restart : u.restart = s.restart) (pool : u.pool = s.pool)
    (table : u.flight.table = s.flight.table) (output : u.flight.output = s.flight.output) (records : u.writes.records = s.writes.records) :
    u.RestartKept := by
  have ⟨_, releasing, _⟩ := h
  refine h.of restart (fun e here waiting => ⟨e, pool ▸ here, waiting⟩) fun phase => ?_
  rw [table, output, records]
  exact releasing phase

/-- In IDLE nothing is asked but that no pulse is under way. -/
theorem State.RestartKept.idle {s u : State} (h : s.RestartKept) (idle : s.restart.phase = .idle) (restart : u.restart = s.restart) : u.RestartKept := by
  obtain ⟨_, _, pulse⟩ := h
  rw [State.RestartKept, restart]
  exact ⟨fun active => absurd idle active, fun releasing => absurd (idle.symm.trans releasing) (by decide), pulse⟩

/-! ### Withdrawals, expiries and issue -/

theorem State.ClosingKept.withdraw {s : State} (h : s.ClosingKept) (records : s.RecordsKept) (chosen : PoolEntry → Bool) (status : WithdrawalStatus) :
    (s.withdraw chosen status).ClosingKept :=
  h.rewrite records rfl rfl (s.withdrawnEntry_partition chosen status) rfl

theorem State.RestartKept.withdraw {s : State} (h : s.RestartKept) (chosen : PoolEntry → Bool) (status : WithdrawalStatus) :
    (s.withdraw chosen status).RestartKept := by
  have ⟨_, releasing, _⟩ := h
  refine h.of rfl (fun x here waiting => ?_) fun phase => ?_
  · obtain ⟨e, before, rfl⟩ := List.mem_map.1 here
    exact ⟨e, before, (State.withdrawnEntry_waiting waiting).2.1⟩
  · obtain ⟨table, records, output⟩ := releasing phase
    exact ⟨table, by simp [State.withdraw, State.withdrawnRecords, records], output⟩

/-- An expired entry is no work of its partition, so the partition is checked (R32, R102). -/
theorem State.ClosingKept.expire {s : State} (h : s.ClosingKept) (d : DTag) : (s.expire d).ClosingKept := by
  unfold State.expire
  split
  · next t entry =>
    refine State.ClosingKept.check t.partition fun q other closing => ?_
    have unmoved : State.outstanding
        ((((s.setFlight d (.orphaned t true)).lastPlace d).sendTimeout
          (s.faultRecord .timeout (some t.partition) (some t.pair) (some t.address) (some d))).hand .orphans) q = s.outstanding q := by
      refine State.outstanding_congr q (by simp) (by simp) fun x => ?_
      simp only [State.hand_fields, State.sendTimeout_fields, State.lastPlace_fields, State.setFlight_table, vector_set_get]
      split
      · next same =>
        subst same
        rw [entry]
        simp [FlightEntry.outstandingFor, other.symm]
      · rfl
    rw [unmoved]
    exact h q (by simpa using closing)
  · exact h
  · exact h
  · exact h

theorem State.RestartKept.expire {s : State} (h : s.RestartKept) (d : DTag) : (s.expire d).RestartKept := by
  have ⟨_, releasing, _⟩ := h
  refine h.of (by simp) (fun e here waiting => ⟨e, by simpa using here, waiting⟩) fun phase => ?_
  obtain ⟨table, records, output⟩ := releasing phase
  have nothing : s.expire d = s := by simp only [State.expire, table d]
  rw [nothing]
  exact ⟨table, records, output⟩

/-- An issued entry takes its record with it, and its work is then that of the in-flight entry (R55 to R57). -/
theorem State.RecordsKept.issue {s : State} (h : s.RecordsKept) (pairs : (s.pool.map PoolEntry.pair).Nodup) (p : PartitionId) :
    (s.issue p).RecordsKept := by
  rcases s.issue_cases p with same | ⟨e, d, _, _, issued⟩
  · rwa [same]
  · obtain ⟨before, after, pool, _, left⟩ := issued.pool
    cases kind : e.kind with
    | read =>
      refine h.dropUnowned pairs pool left (by rw [issued.readData kind]) fun r owns => ?_
      obtain ⟨_, write, _⟩ := owns
      exact absurd (kind.symm.trans write) (by decide)
    | write => exact h.drop pairs pool left (issued.writeData kind).2

theorem State.ClosingKept.issue {s : State} (h : s.ClosingKept) (records : s.RecordsKept) (p : PartitionId) : (s.issue p).ClosingKept := by
  rcases s.issue_cases p with same | ⟨e, d, _, free, issued⟩
  · rwa [same]
  · obtain ⟨before, after, pool, _, left⟩ := issued.pool
    refine h.grow records (by simp) (fun x here => ?_) fun d' q mine => ?_
    · rw [pool, List.mem_append, List.mem_cons] at here
      rcases here with inFront | rfl | behind
      · exact State.outstanding_of_entry (by rw [left]; exact List.mem_append_left _ inFront)
      · refine State.outstanding_of_flight (d := d) ?_
        rw [issued.table, vector_set_get, if_pos rfl]
        simp [FlightEntry.outstandingFor]
      · exact State.outstanding_of_entry (by rw [left]; exact List.mem_append_right _ behind)
    · refine State.outstanding_of_flight (d := d') ?_
      have other : d ≠ d' := by
        rintro rfl
        rw [State.lowestFree_free free] at mine
        exact absurd mine (by simp [FlightEntry.outstandingFor])
      rwa [issued.table, vector_set_get, if_neg other]

/-! ### Acceptance (R74, R84) -/

/-- An accepted WRITE finds a record free and no other of its pair, and its record belongs to its entry. -/
theorem State.RecordsKept.accept {s : State} (h : s.RecordsKept) (pairs : s.PairsKept) {r : Request} {p : PartitionId}
    (accepted : s.verdict r = .accepted p) : (s.accept r p).RecordsKept := by
  obtain ⟨count, nodup, owned, needed⟩ := h
  obtain ⟨_, shaped, new, _, _, room⟩ := State.verdict_accepted accepted
  obtain ⟨e, pool, partition, pair, waiting, beats, write, read⟩ := s.accept_pool r p
  obtain ⟨writes, other⟩ := s.accept_writes r p
  have ownedAfter : ∀ x ∈ s.writes.records, x.Fields ∧ ∃ y ∈ (s.accept r p).pool, x.Owns y := fun x here => by
    obtain ⟨fields, y, inPool, owns⟩ := owned x here
    exact ⟨fields, y, by rw [pool]; exact List.mem_append_left _ inPool, owns⟩
  by_cases kind : r.kind = some .write
  · obtain ⟨_, free⟩ := (s.writeRoom_iff r.beats).1 (room kind)
    obtain ⟨isWrite, incomplete⟩ := write kind
    obtain ⟨_, ⟨some_, _⟩, _⟩ := r.wellShaped_iff.1 shaped
    have fresh : ∀ x ∈ s.writes.records, x.pair ≠ r.pair := fun x here => by
      obtain ⟨_, y, inPool, same, _⟩ := owned x here
      rw [← same]
      exact pairs.notHeld new y inPool
    rw [State.RecordsKept, writes kind]
    refine ⟨?_, ?_, fun x here => ?_, fun y here needs => ?_⟩
    · have size : Config.openWriteRecords = 48 := rfl
      simp only [List.length_append, List.length_singleton]
      omega
    · rw [List.map_append, List.nodup_append]
      refine ⟨nodup, List.nodup_singleton _, fun a ha b hb => ?_⟩
      obtain ⟨x, here, rfl⟩ := List.mem_map.1 ha
      rw [List.map_singleton, List.mem_singleton] at hb
      subst hb
      exact fresh x here
    · rcases List.mem_append.1 here with old | opened
      · exact ownedAfter x old
      · rw [List.mem_singleton] at opened
        subst opened
        exact ⟨⟨rfl, some_, rfl⟩, e, by rw [pool]; simp, pair, isWrite, partition, beats, waiting, incomplete⟩
    · rw [pool, List.mem_append, List.mem_singleton] at here
      rcases here with old | rfl
      · obtain ⟨x, inRecords, same⟩ := needed y old needs
        exact ⟨x, List.mem_append_left _ inRecords, same⟩
      · exact ⟨r.openedRecord p, by simp, pair.symm⟩
  · rw [State.RecordsKept, other kind]
    refine ⟨count, nodup, ownedAfter, fun y here needs => ?_⟩
    rw [pool, List.mem_append, List.mem_singleton] at here
    rcases here with old | rfl
    · exact needed y old needs
    · rcases needs with ⟨_, isWrite⟩ | ⟨status, answering⟩
      · exact absurd (isWrite.symm.trans (read kind)) (by decide)
      · exact absurd (waiting.symm.trans answering) (by simp)

theorem State.ClosingKept.accept {s : State} (h : s.ClosingKept) (records : s.RecordsKept) (r : Request) (p : PartitionId) :
    (s.accept r p).ClosingKept := by
  obtain ⟨e, pool, _⟩ := s.accept_pool r p
  obtain ⟨_, _, flight, _, parts, _⟩ := s.accept_rest r p
  refine h.grow records (by rw [parts]; exact fun _ h => h) (fun x here => ?_) fun d q mine => ?_
  · exact State.outstanding_of_entry (by rw [pool]; exact List.mem_append_left _ here)
  · exact State.outstanding_of_flight (d := d) (by rwa [flight])

/-! ### Beats (R85, R86, R90) -/

theorem State.findRecord_mem {s : State} {pair : Pair} {r : OpenWrite} (found : s.findRecord pair = some r) : r ∈ s.writes.records :=
  List.mem_of_find?_eq_some found

/-- A record may go with what its entry becomes, when that needs no record. -/
theorem State.RecordsKept.close {s u : State} (h : s.RecordsKept) {pair : Pair} {g : PoolEntry → PoolEntry}
    (records : u.writes.records = s.writes.records.filter fun x => x.pair != pair) (pool : u.pool = s.pool.map g)
    (others : ∀ e ∈ s.pool, e.pair ≠ pair → g e = e) (closed : ∀ e ∈ s.pool, e.pair = pair → ¬(g e).NeedsRecord) : u.RecordsKept := by
  obtain ⟨count, nodup, owned, needed⟩ := h
  rw [State.RecordsKept, records, pool]
  refine ⟨(List.length_filter_le _ _).trans count, nodup.sublist (List.filter_sublist.map _), fun x here => ?_, fun y here needs => ?_⟩
  · obtain ⟨before, different⟩ := List.mem_filter.1 here
    obtain ⟨fields, e, inPool, owns⟩ := owned x before
    have other : e.pair ≠ pair := by
      rw [owns.1]
      simpa using different
    exact ⟨fields, e, List.mem_map.2 ⟨e, inPool, others e inPool other⟩, owns⟩
  · obtain ⟨e, inPool, rfl⟩ := List.mem_map.1 here
    by_cases mine : e.pair = pair
    · exact absurd needs (closed e inPool mine)
    · rw [others e inPool mine] at needs ⊢
      obtain ⟨x, before, same⟩ := needed e inPool needs
      exact ⟨x, List.mem_filter.2 ⟨before, by simpa [same] using mine⟩, same⟩

/-- The entry that a broken write leaves: ANSWERING ABORTED with the answer released (R86). -/
def PoolEntry.brokenFor (pair : Pair) (e : PoolEntry) : PoolEntry :=
  if e.isWaiting = true ∧ e.pair = pair then { e with state := .answering .aborted true } else e

/-- A broken write's record is gone when its entry is withdrawn, so the answer is released (R86, R89). -/
theorem State.breakWrite_work (s : State) (r : OpenWrite) :
    (s.breakWrite r).pool = s.pool.map (PoolEntry.brokenFor r.pair) ∧
      (s.breakWrite r).writes.records = (s.writes.records.filter fun x => x.pair != r.pair) ∧
      (s.breakWrite r).writes.reserved =
        s.writes.reserved - ((s.pool.filter fun e => e.isWaiting && e.kind == .write && e.pair == r.pair).map PoolEntry.beats).sum := by
  have entries : ∀ e : PoolEntry,
      State.withdrawnEntry { s with writes := { s.writes with records := s.writes.records.filter fun x => x.pair != r.pair } }
        (fun e => e.pair == r.pair) .aborted e = e.brokenFor r.pair := by
    intro e
    unfold State.withdrawnEntry PoolEntry.brokenFor
    simp only [Bool.and_eq_true, beq_iff_eq]
    split
    · next chosen =>
      have gone : State.holdsBack
          { s with writes := { s.writes with records := s.writes.records.filter fun x => x.pair != r.pair } } e = false := by
        simp only [State.holdsBack, List.any_filter, chosen.2, Bool.and_eq_false_iff, List.any_eq_false]
        right
        intro x _
        by_cases same : x.pair = r.pair <;> simp [same]
      rw [gone]
      rfl
    · rfl
  have records : State.withdrawnRecords
      { s with writes := { s.writes with records := s.writes.records.filter fun x => x.pair != r.pair } } (fun e => e.pair == r.pair) =
        s.writes.records.filter fun x => x.pair != r.pair := by
    unfold State.withdrawnRecords
    refine (List.filterMap_congr fun x here => ?_).trans (List.filterMap_some)
    have other : x.pair ≠ r.pair := by simpa using (List.mem_filter.1 here).2
    refine if_neg ?_
    rw [List.any_eq_true]
    rintro ⟨e, _, chosen⟩
    simp only [Bool.and_eq_true, beq_iff_eq] at chosen
    exact other (chosen.2.symm.trans chosen.1.2)
  refine ⟨?_, ?_, ?_⟩
  · simp only [State.breakWrite, State.recordFault_fields, State.withdrawPair, State.handChanged_fields, State.withdraw_pool]
    exact List.map_congr_left fun e _ => entries e
  · simp only [State.breakWrite, State.recordFault_fields, State.withdrawPair, State.handChanged_fields]
    exact records
  · simp only [State.breakWrite, State.recordFault_fields, State.withdrawPair, State.handChanged_fields]
    rfl

end Machine
end Sys2Proof
end

section
/-! The account of the work in the part, continued: beats, answers, deliveries and the path restart (R85 to R90, R99 to R101, R111 to R113, R127 to R131). -/

namespace Sys2Proof
namespace Machine

/-! ### Beats (R85, R86, R90) -/

theorem PoolEntry.brokenFor_rest (pair : Pair) (e : PoolEntry) :
    (e.brokenFor pair).partition = e.partition ∧ ((e.brokenFor pair).isWaiting = true → e.isWaiting = true) ∧
      (e.pair ≠ pair → e.brokenFor pair = e) := by
  unfold PoolEntry.brokenFor
  split
  · next chosen => exact ⟨rfl, fun _ => chosen.1, fun other => absurd chosen.2 other⟩
  · exact ⟨rfl, id, fun _ => rfl⟩

theorem PoolEntry.isWaiting_iff (e : PoolEntry) : e.isWaiting = true ↔ e.state = .waiting := by
  cases state : e.state <;> simp [PoolEntry.isWaiting, state]

/-- An entry that needs a record and does not wait holds its answer back, so a broken write's entry needs none. -/
theorem State.RecordsKept.breakWrite {s : State} (h : s.RecordsKept) (pairs : (s.pool.map PoolEntry.pair).Nodup) {r : OpenWrite}
    (here : r ∈ s.writes.records) (receiving : r.state = .receiving) : (s.breakWrite r).RecordsKept := by
  obtain ⟨pool, records, _⟩ := s.breakWrite_work r
  have ⟨_, _, owned, _⟩ := h
  refine h.close records pool (fun e _ other => (e.brokenFor_rest r.pair).2.2 other) fun e inPool mine needs => ?_
  obtain ⟨_, x, inPoolToo, owns⟩ := owned r here
  obtain rfl := PoolEntry.unique pairs inPoolToo inPool (owns.1.trans mine.symm)
  obtain ⟨_, _, _, _, byState⟩ := owns
  rw [receiving] at byState
  have chosen : x.isWaiting = true ∧ x.pair = r.pair := ⟨(x.isWaiting_iff).2 byState.1, mine⟩
  rw [PoolEntry.brokenFor, if_pos chosen] at needs
  rcases needs with ⟨waiting, _⟩ | ⟨status, held⟩
  · exact absurd waiting (by simp)
  · exact absurd held (by simp)

theorem PoolEntry.completeFor_partition_waiting (owner : Option Pair) (e : PoolEntry) :
    (e.completeFor owner).partition = e.partition ∧ (e.completeFor owner).isWaiting = e.isWaiting := by
  unfold PoolEntry.completeFor
  split <;> exact ⟨rfl, rfl⟩

theorem OpenWrite.owns_receiving {r : OpenWrite} (receiving : r.state = .receiving) {e : PoolEntry} (owns : r.Owns e) :
    (e.pair = r.pair ∧ e.kind = .write ∧ e.partition = r.partition ∧ e.beats = r.declared) ∧ e.state = .waiting ∧ e.dataComplete = some false := by
  obtain ⟨pair, kind, partition, beats, byState⟩ := owns
  rw [receiving] at byState
  exact ⟨⟨pair, kind, partition, beats⟩, byState⟩

/-- The last beat completes the record, and marks its entry's data complete (R85). -/
theorem State.RecordsKept.completeWrite {s : State} (h : s.RecordsKept) {r : OpenWrite} (here : r ∈ s.writes.records)
    (receiving : r.state = .receiving) (data : Beat) (last : r.received + 1 = r.declared) : (s.completeWrite r data).RecordsKept := by
  have ⟨_, _, owned, _⟩ := h
  obtain ⟨fields, _⟩ := owned r here
  rw [OpenWrite.Fields, receiving] at fields
  obtain ⟨owner, _, stored⟩ := fields
  have others : ∀ e ∈ s.pool, e.pair ≠ r.pair → e.completeFor r.owner = e := fun e _ other => by
    rw [PoolEntry.completeFor, owner, if_neg (by simp [other.symm])]
  refine h.update here (fun x => { OpenWrite.store data x with state := .complete }) (fun x => rfl) (g := PoolEntry.completeFor r.owner) rfl rfl
    others (fun e => (e.completeFor_rest r.owner).1) (fun e _ needs => ?_) (fun e _ owns => ?_) ?_
  · obtain ⟨_, state, kind, _⟩ := e.completeFor_rest r.owner
    rwa [PoolEntry.NeedsRecord, state, kind] at needs
  · obtain ⟨⟨pair, kind, partition, beats⟩, waiting, _⟩ := OpenWrite.owns_receiving receiving owns
    have chosen : (e.isWaiting && r.owner == some e.pair) = true := by simp [(e.isWaiting_iff).2 waiting, owner, pair]
    rw [PoolEntry.completeFor, if_pos chosen]
    exact ⟨pair, kind, partition, beats, waiting, rfl⟩
  · exact ⟨owner, last, by simp [OpenWrite.store, stored, last]⟩

/-- A beat before the last is stored (R85). -/
theorem State.RecordsKept.store {s : State} (h : s.RecordsKept) {r : OpenWrite} (here : r ∈ s.writes.records) (receiving : r.state = .receiving)
    (data : Beat) (room : r.received + 1 < r.declared) : (s.updateRecord r.pair (OpenWrite.store data)).RecordsKept := by
  have ⟨_, _, owned, _⟩ := h
  obtain ⟨fields, _⟩ := owned r here
  rw [OpenWrite.Fields, receiving] at fields
  obtain ⟨owner, _, stored⟩ := fields
  refine h.update here (OpenWrite.store data) (fun x => rfl) (g := id) rfl (List.map_id _).symm (fun _ _ _ => rfl) (fun _ => rfl)
    (fun _ _ needs => needs) (fun e _ owns => ?_) ?_
  · obtain ⟨⟨pair, kind, partition, beats⟩, byState⟩ := OpenWrite.owns_receiving receiving owns
    refine ⟨pair, kind, partition, beats, ?_⟩
    rw [show (r.store data).state = .receiving from receiving]
    exact byState
  · rw [OpenWrite.Fields, show (r.store data).state = .receiving from receiving]
    exact ⟨owner, room, by simp [OpenWrite.store, stored]⟩

/-- A dropped beat before the last counts towards the declared beats of its DISCARDING record (R90). -/
theorem State.RecordsKept.countDropped {s : State} (h : s.RecordsKept) {r : OpenWrite} (here : r ∈ s.writes.records)
    (discarding : r.state = .discarding) (room : r.received + 1 ≠ r.declared) :
    (s.updateRecord r.pair fun x => { x with received := x.received + 1 }).RecordsKept := by
  have ⟨_, _, owned, _⟩ := h
  obtain ⟨fields, _⟩ := owned r here
  rw [OpenWrite.Fields, discarding] at fields
  obtain ⟨owner, some_, few, stored⟩ := fields
  refine h.update here (fun x => { x with received := x.received + 1 }) (fun x => rfl) (g := id) rfl (List.map_id _).symm (fun _ _ _ => rfl)
    (fun _ => rfl) (fun _ _ needs => needs) (fun e _ owns => owns) ?_
  rw [OpenWrite.Fields, show ({ r with received := r.received + 1 } : OpenWrite).state = .discarding from discarding]
  exact ⟨owner, by dsimp only; omega, by dsimp only; omega, stored⟩

theorem State.RecordsKept.recordFault {s : State} (h : s.RecordsKept) (kind : FaultKind) (partition : Option PartitionId) (pair : Option Pair)
    (address : Option Addr) (dtag : Option DTag) : (s.recordFault kind partition pair address dtag).RecordsKept := h.of (by simp) (by simp)

theorem State.RecordsKept.gather {s : State} (h : s.RecordsKept) (pairs : (s.pool.map PoolEntry.pair).Nodup) {r : OpenWrite}
    (here : r ∈ s.writes.records) (receiving : r.state = .receiving) (data : Beat) (last : Bool) : (s.gather r data last).RecordsKept := by
  have ⟨_, _, owned, _⟩ := h
  obtain ⟨fields, _⟩ := owned r here
  rw [OpenWrite.Fields, receiving] at fields
  obtain ⟨_, few, _⟩ := fields
  unfold State.gather
  split
  · exact h.breakWrite pairs here receiving
  · next whole =>
    split
    · next complete =>
      simp only [Bool.and_eq_true, beq_iff_eq] at complete
      exact h.completeWrite here receiving data complete.2
    · next more =>
      refine h.store here receiving data ?_
      cases last <;> simp [OpenWrite.breaks] at whole more <;> omega

theorem State.RecordsKept.takeBeat {s : State} (h : s.RecordsKept) (pairs : (s.pool.map PoolEntry.pair).Nodup) (pair : Pair) (data : Beat)
    (last : Bool) : (s.takeBeat pair data last).RecordsKept := by
  unfold State.takeBeat
  split
  · exact h.recordFault _ _ _ _ _
  · next r found =>
    have here := State.findRecord_mem found
    split
    · next receiving => exact h.gather pairs here receiving data last
    · exact h.recordFault _ _ _ _ _
    · next discarding =>
      unfold State.discard
      split
      · exact h.free pairs r here discarding
      · next more =>
        refine h.countDropped here discarding ?_
        rw [Bool.or_eq_true, beq_iff_eq, not_or] at more
        exact more.2

/-- The closing check after a record is freed keeps closing: the other partitions' work is in the pool or in flight (R32, R83, R90). -/
theorem State.ClosingKept.freeDiscarding {s : State} (h : s.ClosingKept) (records : s.RecordsKept) (r : OpenWrite) :
    (s.freeDiscarding r).ClosingKept := by
  have before : (s.releaseRecord r.pair).ClosingKept :=
    h.rewrite records rfl rfl (PoolEntry.releaseFor_partition r.pair) rfl
  exact before.closingCheck r.partition

theorem State.ClosingKept.recordFault {s : State} (h : s.ClosingKept) (kind : FaultKind) (partition : Option PartitionId) (pair : Option Pair)
    (address : Option Addr) (dtag : Option DTag) : (s.recordFault kind partition pair address dtag).ClosingKept :=
  h.same (by simp) (by simp) (by simp) (by simp)

theorem State.ClosingKept.takeBeat {s : State} (h : s.ClosingKept) (records : s.RecordsKept) (pair : Pair) (data : Beat) (last : Bool) :
    (s.takeBeat pair data last).ClosingKept := by
  unfold State.takeBeat
  split
  · exact h.recordFault _ _ _ _ _
  · next r _ =>
    split
    · unfold State.gather
      split
      · obtain ⟨pool, _⟩ := s.breakWrite_work r
        exact h.rewrite records (by simp [State.breakWrite, State.withdrawPair]) pool (fun e => (e.brokenFor_rest r.pair).1)
          (by simp [State.breakWrite, State.withdrawPair])
      · split
        · exact h.rewrite records rfl rfl (fun e => (e.completeFor_partition_waiting r.owner).1) rfl
        · exact h.rewrite records (f := id) rfl (List.map_id _).symm (fun _ => rfl) rfl
    · exact h.recordFault _ _ _ _ _
    · unfold State.discard
      split
      · exact h.freeDiscarding records r
      · exact h.rewrite records (f := id) rfl (List.map_id _).symm (fun _ => rfl) rfl

theorem State.RestartKept.recordFault {s : State} (h : s.RestartKept) (kind : FaultKind) (partition : Option PartitionId) (pair : Option Pair)
    (address : Option Addr) (dtag : Option DTag) : (s.recordFault kind partition pair address dtag).RestartKept :=
  h.same (by simp) (by simp) (by simp) (by simp) (by simp)

/-- Entries rewritten one by one, none of which begins to wait, outside RELEASING. -/
theorem State.RestartKept.rewrite {s u : State} (h : s.RestartKept) (restart : u.restart = s.restart) (active : s.restart.phase ≠ .releasing)
    {f : PoolEntry → PoolEntry} (pool : u.pool = s.pool.map f) (waits : ∀ e, (f e).isWaiting = true → e.isWaiting = true) : u.RestartKept := by
  refine h.of restart (fun x here waiting => ?_) fun phase => absurd phase active
  rw [pool] at here
  obtain ⟨e, before, rfl⟩ := List.mem_map.1 here
  exact ⟨e, before, waits e waiting⟩

/-- In RELEASING there is no record, so every beat is stray. -/
theorem State.RestartKept.takeBeat {s : State} (h : s.RestartKept) (pair : Pair) (data : Beat) (last : Bool) :
    (s.takeBeat pair data last).RestartKept := by
  unfold State.takeBeat
  split
  · exact h.recordFault _ _ _ _ _
  · next r found =>
    have active : s.restart.phase ≠ .releasing := fun releasing => by
      obtain ⟨_, whenReleasing, _⟩ := h
      obtain ⟨_, none, _⟩ := whenReleasing releasing
      exact absurd (State.findRecord_mem found) (by simp [none])
    split
    · unfold State.gather
      split
      · obtain ⟨pool, _⟩ := s.breakWrite_work r
        exact h.rewrite (by simp [State.breakWrite, State.withdrawPair]) active pool fun e => (e.brokenFor_rest r.pair).2.1
      · split
        · exact h.rewrite rfl active rfl fun e waiting => (e.completeFor_partition_waiting r.owner).2 ▸ waiting
        · exact h.rewrite (f := id) rfl active (List.map_id _).symm fun _ => id
    · exact h.recordFault _ _ _ _ _
    · unfold State.discard
      split
      · exact h.rewrite (by simp) active (s.freeDiscarding_pool r) (PoolEntry.releaseFor_waiting r.pair)
      · exact h.rewrite (f := id) rfl active (List.map_id _).symm fun _ => id

/-! ### Answers (R99 to R101) -/

/-- An answered entry is work of its partition as long as it was before (R32). -/
theorem State.ClosingKept.takeAnswer {s : State} (h : s.ClosingKept) (records : s.RecordsKept) (d : DTag) (status : AnswerStatus)
    (data : List Beat) : (s.takeAnswer d status data).ClosingKept := by
  obtain ⟨parts, pool, _, writes, _⟩ := s.takeAnswer_rest d status data
  have grown {e : FlightEntry} (table : (s.takeAnswer d status data).flight.table = s.flight.table.set d e)
      (more : ∀ p, s.flight.table[d].outstandingFor p = true → e.outstandingFor p = true) : (s.takeAnswer d status data).ClosingKept := by
    refine h.grow records (by rw [parts]; exact fun _ h => h) (fun x here => State.outstanding_of_entry (by rwa [pool])) fun x p mine => ?_
    refine State.outstanding_of_flight (d := x) ?_
    rw [table, vector_set_get]
    split
    · next same => exact more p (by rwa [same])
    · exact mine
  cases entry : s.flight.table[d] with
  | issued t =>
    refine grown (by rw [State.takeAnswer_of_issued entry, s.answerIssued_flight]) fun p mine => ?_
    rw [entry] at mine
    exact mine
  | orphaned t owed =>
    refine grown (by rw [State.takeAnswer_of_orphaned entry, s.answerLate_flight]) fun p mine => ?_
    rw [entry] at mine
    exact absurd mine (by simp [FlightEntry.outstandingFor])
  | free =>
    rw [State.takeAnswer_of_stray (.inl entry)]
    exact h.recordFault _ _ _ _ _
  | returning t a beats =>
    rw [State.takeAnswer_of_stray (.inr ⟨t, a, beats, entry⟩)]
    exact h.recordFault _ _ _ _ _

theorem State.RestartKept.takeAnswer {s : State} (h : s.RestartKept) (d : DTag) (status : AnswerStatus) (data : List Beat) :
    (s.takeAnswer d status data).RestartKept := by
  obtain ⟨_, pool, _, writes, restart, _⟩ := s.takeAnswer_rest d status data
  have ⟨_, releasing, _⟩ := h
  refine h.of restart (fun e here waiting => ⟨e, pool ▸ here, waiting⟩) fun phase => ?_
  obtain ⟨table, records, output⟩ := releasing phase
  rw [State.takeAnswer_of_stray (.inl (table d))]
  exact ⟨by simpa using table, by simpa using records, by simpa using output⟩

end Machine
end Sys2Proof
end

section
/-! The account of the work in the part, concluded: deliveries, the end of DRAINING and of RELEASING, and the guarantee (R32, R83, R127 to R131). -/

namespace Sys2Proof
namespace Machine

/-! ### Deliveries (R111 to R113) -/

/-- No record belongs to an entry whose answer is released. -/
theorem PoolEntry.not_owned_of_released {e : PoolEntry} (released : e.isReleased = true) (r : OpenWrite) : ¬r.Owns e := by
  rintro ⟨_, _, _, _, byState⟩
  unfold PoolEntry.isReleased at released
  cases state : r.state with
  | receiving =>
    rw [state] at byState
    rw [byState.1] at released
    exact absurd released (by simp)
  | complete =>
    rw [state] at byState
    rw [byState.1] at released
    exact absurd released (by simp)
  | discarding =>
    rw [state] at byState
    obtain ⟨status, held⟩ := byState
    rw [held] at released
    exact absurd released (by simp)

theorem State.RecordsKept.finishSource {s : State} (h : s.RecordsKept) (pairs : (s.pool.map PoolEntry.pair).Nodup) (source : ResponseSource) :
    (s.finishSource source).RecordsKept := by
  cases source with
  | refusal => exact h
  | withdrawn pair =>
    show (s.deliverWithdrawn pair).RecordsKept
    rcases s.deliverWithdrawn_cases pair with same | ⟨before, e, after, pool, released, _, _, left, _, made⟩
    · rwa [same]
    · exact h.dropUnowned pairs pool left (by simp [made, State.releasePair]) (PoolEntry.not_owned_of_released released)
  | inFlight d =>
    unfold State.finishSource State.deliverInFlight
    dsimp only
    split
    · exact h
    · exact h
    · exact h.of (by simp) (by simp)
    · split
      · exact h.of rfl rfl
      · exact h

/-- A delivery takes an entry's work away from its own partition alone, which is then checked (R32, R111, R112). -/
theorem State.ClosingKept.deliverWithdrawn {s : State} (h : s.ClosingKept) (records : s.RecordsKept) (pair : Pair) :
    (s.deliverWithdrawn pair).ClosingKept := by
  rcases s.deliverWithdrawn_cases pair with same | ⟨before, e, after, pool, _, _, _, _, _, made⟩
  · rwa [same]
  · rw [made]
    refine State.ClosingKept.check e.partition fun q other closing => ?_
    have work := h q (by simpa using closing)
    rcases records.outstanding_cases work with ⟨x, here, mine⟩ | ⟨d, mine⟩
    · rw [pool, List.mem_append, List.mem_cons] at here
      rw [← mine]
      refine State.outstanding_of_entry ?_
      rcases here with inFront | rfl | behind
      · simpa using .inl inFront
      · exact absurd mine.symm other
      · simpa using .inr behind
    · exact State.outstanding_of_flight (d := d) (by simpa using mine)

theorem State.ClosingKept.deliverInFlight {s : State} (h : s.ClosingKept) (d : DTag) : (s.deliverInFlight d).ClosingKept := by
  unfold State.deliverInFlight
  split
  · exact h
  · exact h
  · next t answer beats entry =>
    refine State.ClosingKept.check t.partition fun q other closing => ?_
    have unmoved : State.outstanding
        ((((s.leaveClass d .free).releasePair t.pair).countPart t.partition answer.count).hand .inFlight) q = s.outstanding q := by
      refine State.outstanding_congr q (by simp) (by simp) fun x => ?_
      simp only [State.hand_fields]
      change (s.flight.table.set d FlightEntry.free)[x].outstandingFor q = _
      rw [vector_set_get]
      split
      · next same =>
        subst same
        rw [entry]
        simp [FlightEntry.outstandingFor, other.symm]
      · rfl
    rw [unmoved]
    exact h q (by simpa using closing)
  · next t owed entry =>
    split
    · intro q closing
      have stays : ∀ x : DTag, (s.leaveClass d (.orphaned t false)).flight.table[x].outstandingFor q = s.flight.table[x].outstandingFor q := by
        intro x
        change (s.flight.table.set d (FlightEntry.orphaned t false))[x].outstandingFor q = _
        rw [vector_set_get]
        split
        · next same =>
          subst same
          rw [entry]
          rfl
        · rfl
      exact (State.outstanding_congr (s := s) (u := s.leaveClass d (.orphaned t false)) q rfl rfl stays).trans (h q closing)
    · exact h

theorem State.ClosingKept.finishSource {s : State} (h : s.ClosingKept) (records : s.RecordsKept) (source : ResponseSource) :
    (s.finishSource source).ClosingKept := by
  cases source with
  | refusal => exact h
  | withdrawn pair => exact h.deliverWithdrawn records pair
  | inFlight d => exact h.deliverInFlight d

/-- In RELEASING no in-flight entry has a response to deliver. -/
theorem State.RestartKept.finishSource {s : State} (h : s.RestartKept) (source : ResponseSource) : (s.finishSource source).RestartKept := by
  have ⟨_, releasing, _⟩ := h
  cases source with
  | refusal => exact h
  | withdrawn pair =>
    show (s.deliverWithdrawn pair).RestartKept
    rcases s.deliverWithdrawn_cases pair with same | ⟨before, e, after, pool, _, _, _, left, _, made⟩
    · rwa [same]
    · refine h.of (by simp [made]) (fun x here waiting => ⟨x, ?_, waiting⟩) fun phase => ?_
      · rw [left, List.mem_append] at here
        rw [pool, List.mem_append, List.mem_cons]
        exact here.imp_right .inr
      · obtain ⟨table, records, output⟩ := releasing phase
        simp only [made, State.closingCheck_fields, State.hand_fields]
        exact ⟨table, records, output⟩
  | inFlight d =>
    show (s.deliverInFlight d).RestartKept
    by_cases phase : s.restart.phase = .releasing
    · obtain ⟨table, _⟩ := releasing phase
      have nothing : s.deliverInFlight d = s := by simp only [State.deliverInFlight, table d]
      rwa [nothing]
    · have kept : (s.deliverInFlight d).restart = s.restart ∧ (s.deliverInFlight d).pool = s.pool := by
        unfold State.deliverInFlight
        split
        · exact ⟨rfl, rfl⟩
        · exact ⟨rfl, rfl⟩
        · simp [State.leaveClass, State.releasePair]
        · split <;> exact ⟨rfl, rfl⟩
      obtain ⟨restart, pool⟩ := kept
      exact h.of restart (fun e here waiting => ⟨e, pool ▸ here, waiting⟩) fun now => absurd now phase

/-! ### The end of DRAINING (R129, R130) -/

/-- Records freed one after the other keep the account of the work. -/
theorem State.freeDiscarding_each_account (l : List OpenWrite) {s : State} (pairs : (s.pool.map PoolEntry.pair).Nodup) (records : s.RecordsKept)
    (closing : s.ClosingKept) (distinct : (l.map OpenWrite.pair).Nodup) (here : ∀ r ∈ l, r ∈ s.writes.records ∧ r.state = .discarding) :
    (l.foldl State.freeDiscarding s).RecordsKept ∧ (l.foldl State.freeDiscarding s).ClosingKept := by
  induction l generalizing s with
  | nil => exact ⟨records, closing⟩
  | cons r l ih =>
    obtain ⟨inRecords, discarding⟩ := here r List.mem_cons_self
    rw [List.map_cons, List.nodup_cons] at distinct
    obtain ⟨fresh, distinct⟩ := distinct
    refine ih (s := s.freeDiscarding r) ?_ (records.free pairs r inRecords discarding) (closing.freeDiscarding records r) distinct fun x hx => ?_
    · rwa [s.freeDiscarding_pool, map_pair_of_kept (PoolEntry.releaseFor_pair r.pair)]
    · obtain ⟨old, state⟩ := here x (List.mem_cons_of_mem _ hx)
      refine ⟨?_, state⟩
      have other : x.pair ≠ r.pair := fun same => fresh (same ▸ List.mem_map_of_mem hx)
      rw [s.freeDiscarding_writes]
      exact List.mem_filter.2 ⟨old, by simpa using other⟩

/-- The in-flight unit as RELEASING finds it, before the records are freed (R130). -/
def State.emptied (s : State) : State :=
  { s with
    restart := { phase := .releasing, pulse := some Config.drstnPulseClk }
    flight := { s.flight with table := mapAll FlightEntry.freeOrphan s.flight.table, output := none } }.handAll [.inFlight, .orphans]

/-- Where no entry waits every record is DISCARDING (R83). -/
theorem State.RecordsKept.all_discarding {s : State} (h : s.RecordsKept) (quiet : ∀ e ∈ s.pool, e.isWaiting = false) :
    ∀ r ∈ s.writes.records, r.state = .discarding := by
  obtain ⟨_, _, owned, _⟩ := h
  intro r here
  obtain ⟨_, e, inPool, _, _, _, _, byState⟩ := owned r here
  have still : e.state ≠ .waiting := fun waiting =>
    absurd ((quiet e inPool).symm.trans ((e.isWaiting_iff).2 waiting)) (by decide)
  cases state : r.state with
  | receiving =>
    rw [state] at byState
    exact absurd byState.1 still
  | complete =>
    rw [state] at byState
    exact absurd byState.1 still
  | discarding => rfl

/-- RELEASING begins with the account kept: no entry waits, so every record is DISCARDING and freed, and what is in flight owes nothing (R130). -/
theorem State.enterReleasing_account {s : State} (pairs : (s.pool.map PoolEntry.pair).Nodup) (records : s.RecordsKept) (closing : s.ClosingKept)
    (quiet : ∀ e ∈ s.pool, e.isWaiting = false) (drained : s.drained = true) :
    s.enterReleasing.RecordsKept ∧ s.enterReleasing.ClosingKept ∧ s.enterReleasing.RestartKept := by
  have all := records.all_discarding quiet
  have list : (s.emptied.writes.records.filter fun r => r.state == .discarding) = s.writes.records := by
    have writes : s.emptied.writes = s.writes := by simp [State.emptied]
    rw [writes, List.filter_eq_self]
    exact fun r here => by simpa using all r here
  have made : s.enterReleasing = s.writes.records.foldl State.freeDiscarding s.emptied := by
    rw [← list]
    rfl
  have pool : s.emptied.pool = s.pool := by simp [State.emptied]
  have emptied : s.emptied.RecordsKept := records.of pool (by simp [State.emptied])
  have open_ : s.emptied.ClosingKept := by
    intro p now
    refine (State.outstanding_congr p pool (by simp [State.emptied]) fun d => ?_).trans (closing p (by simpa [State.emptied] using now))
    simp only [State.emptied, State.handAll_fields, mapAll_get]
    cases s.flight.table[d] <;> rfl
  have ⟨_, distinct, _⟩ := records
  obtain ⟨recordsAfter, closingAfter⟩ := State.freeDiscarding_each_account s.writes.records (by rwa [pool]) emptied open_ distinct
    fun r here => ⟨by simpa [State.emptied] using here, all r here⟩
  obtain ⟨restart, flight, _, _, _, _, _, _, _, _, _, left, after⟩ := State.freeDiscarding_each s.writes.records s.emptied
  rw [made]
  refine ⟨recordsAfter, closingAfter, fun _ e here => ?_, fun _ => ⟨fun d => ?_, ?_, ?_⟩, fun _ => ?_⟩
  · rcases after e here with released | ⟨old, _⟩
    · revert released
      unfold PoolEntry.isReleased PoolEntry.isWaiting
      cases e.state <;> simp
    · exact quiet e (pool ▸ old)
  · have none := State.drained_flight drained d
    rw [flight]
    simp only [State.emptied, State.handAll_fields, mapAll_get]
    revert none
    cases s.flight.table[d] <;> simp [FlightEntry.freeOrphan, FlightEntry.heldPair]
  · rw [List.eq_nil_iff_forall_not_mem]
    intro r here
    obtain ⟨old, other⟩ := (left r).1 here
    exact other r (by simpa [State.emptied] using old) rfl
  · rw [flight]
    simp [State.emptied]
  · rw [restart]
    simp [State.emptied]

/-! ### The account as one -/

/-- The records, the closing partitions and the phases of a restart. -/
def State.AccountKept (s : State) : Prop := s.RecordsKept ∧ s.ClosingKept ∧ s.RestartKept

theorem State.AccountKept.drainCheck {s : State} (h : s.AccountKept) (pairs : (s.pool.map PoolEntry.pair).Nodup) : s.drainCheck.AccountKept := by
  unfold State.drainCheck
  split
  · next due =>
    obtain ⟨phase, drained⟩ := Bool.and_eq_true_iff.1 due
    obtain ⟨records, closing, quiet, _⟩ := h
    have draining : s.restart.phase ≠ .idle := by
      rw [beq_iff_eq.1 phase]
      decide
    exact State.enterReleasing_account pairs records closing (quiet draining) drained
  · exact h

theorem State.AccountKept.releaseCheck {s : State} (h : s.AccountKept) : s.releaseCheck.AccountKept := by
  unfold State.releaseCheck
  split
  · next due =>
    obtain ⟨_, released⟩ := Bool.and_eq_true_iff.1 due
    obtain ⟨records, closing, _⟩ := h
    have ended : s.restart.pulse = none := by
      simp only [State.released, Bool.and_eq_true] at released
      exact Option.isNone_iff_eq_none.1 released.1.1
    refine ⟨records, closing, fun active => absurd rfl active, fun releasing => RestartPhase.noConfusion releasing, fun pulse => ?_⟩
    exact absurd (ended ▸ pulse) (by decide)
  · exact h

theorem State.AccountKept.restartCheck {s : State} (h : s.AccountKept) (pairs : (s.pool.map PoolEntry.pair).Nodup) :
    s.restartCheck.AccountKept := by
  unfold State.restartCheck
  split
  · exact h
  · exact h.drainCheck pairs
  · exact h.releaseCheck

theorem State.AccountKept.finishSource {s : State} (h : s.AccountKept) (pairs : s.PairsKept) (source : ResponseSource) :
    (s.finishSource source).AccountKept := by
  obtain ⟨records, closing, restart⟩ := h
  exact ⟨records.finishSource pairs.poolNodup source, closing.finishSource records source, restart.finishSource source⟩

theorem State.AccountKept.deliver {s : State} (h : s.AccountKept) (pairs : s.PairsKept) : s.deliver.AccountKept := by
  unfold State.deliver
  split
  · exact h
  · next o _ =>
    have taken : ({ s with flight := { s.flight with offer := none, turn := o.source.responseClass.after } } : State).PairsKept := pairs
    have account : ({ s with flight := { s.flight with offer := none, turn := o.source.responseClass.after } } : State).AccountKept := h
    exact State.AccountKept.restartCheck (account.finishSource taken o.source) (taken.finishSource o.source).poolNodup

theorem State.AccountKept.endPulse {s : State} (h : s.AccountKept) : s.endPulse.AccountKept := by
  unfold State.endPulse
  split
  · refine State.AccountKept.releaseCheck ?_
    obtain ⟨records, closing, quiet, releasing, _⟩ := h
    exact ⟨records, closing, quiet, releasing, fun pulse => absurd pulse (by simp)⟩
  · exact h

/-- Flushes one after the other keep the records and the work that holds closing back. -/
theorem State.flush_each_account (l : List PartitionId) {s : State} (pairs : s.PairsKept) (records : s.RecordsKept) (closing : s.ClosingKept) :
    (l.foldl State.flush s).PairsKept ∧ (l.foldl State.flush s).RecordsKept ∧ (l.foldl State.flush s).ClosingKept := by
  induction l generalizing s with
  | nil => exact ⟨pairs, records, closing⟩
  | cons p l ih =>
    refine ih (s := s.flush p) ?_ ?_ ?_
    · exact (pairs.withdraw (fun e => e.partition == p) .aborted).same (s.flush_pool p) (by simp) (by simp)
    · exact (records.withdraw pairs.poolNodup (fun e => e.partition == p) .aborted).of (s.flush_pool p) (by rw [s.flush_writes])
    · exact (closing.withdraw records (fun e => e.partition == p) .aborted).same (by simp) (s.flush_pool p) (by simp) (by rw [s.flush_writes])

theorem mem_allPartitions : ∀ p : PartitionId, p ∈ allPartitions := by decide

/-- A restart begins with every WAITING entry withdrawn (R127). -/
theorem State.AccountKept.beginRestart {s : State} (h : s.AccountKept) (pairs : s.PairsKept) (idle : s.restart.phase = .idle) :
    s.beginRestart.AccountKept := by
  obtain ⟨records, closing, _, _, pulse⟩ := h
  obtain ⟨pairsAfter, recordsAfter, closingAfter⟩ :=
    State.flush_each_account allPartitions (s := { s with restart := { s.restart with phase := .draining } }) pairs records closing
  obtain ⟨waiting, _, _, _, _, restart, _⟩ := State.flush_each allPartitions { s with restart := { s.restart with phase := .draining } }
  refine State.AccountKept.drainCheck ⟨recordsAfter, closingAfter, ?_⟩ pairsAfter.poolNodup
  rw [State.RestartKept, restart]
  refine ⟨fun _ e here => Bool.eq_false_iff.2 fun waits => ?_, fun releasing => RestartPhase.noConfusion releasing, fun under => ?_⟩
  · exact (waiting e here waits).1 (mem_allPartitions e.partition)
  · have releasing := pulse under
    rw [idle] at releasing
    exact RestartPhase.noConfusion releasing

theorem State.accountKept_reset : State.reset.AccountKept := by
  refine ⟨⟨Nat.zero_le _, List.nodup_nil, by simp [State.reset], by simp [State.reset]⟩, fun p closing => ?_, by simp [State.reset], ?_, by simp [State.reset]⟩
  · have none : ∀ q : PartitionId, State.reset.parts[q].state ≠ .closing := by decide
    exact absurd closing (none p)
  · simp [State.reset]

/-- The guarantee of O57. -/
def State.WorkAccount (s : State) : Prop := s.PairsKept ∧ s.ReservationKept ∧ s.RecordsKept ∧ s.ClosingKept ∧ s.RestartKept

theorem State.workAccount_workKeeps : WorkKeeps State.WorkAccount where
  same h work := by
    obtain ⟨pairs, reservation, records, closing, restart⟩ := h
    exact ⟨State.pairsKept_workKeeps.same pairs work, State.reservationKept_workKeeps.same reservation work,
      records.of work.pool (by rw [work.writes]),
      closing.same (by rw [work.parts]; exact fun _ => rfl) work.pool (by rw [work.flight]) (by rw [work.writes]),
      restart.same work.restart work.pool (by rw [work.flight]) (by rw [work.flight]) (by rw [work.writes])⟩
  reset := ⟨State.pairsKept_workKeeps.reset, State.reservationKept_workKeeps.reset, State.accountKept_reset⟩
  change s p x h := by
    obtain ⟨pairs, reservation, records, closing, restart⟩ := h
    exact ⟨State.pairsKept_workKeeps.change s p x pairs, State.reservationKept_workKeeps.change s p x reservation,
      records.of (by simp) (by simp), closing.changeState p x, restart.same (by simp) (by simp) (by simp) (by simp) (by simp)⟩
  withdraw s chosen status h := by
    obtain ⟨pairs, reservation, records, closing, restart⟩ := h
    exact ⟨pairs.withdraw chosen status, reservation.withdraw chosen status, records.withdraw pairs.poolNodup chosen status,
      closing.withdraw records chosen status, restart.withdraw chosen status⟩
  expire s d h := by
    obtain ⟨pairs, reservation, records, closing, restart⟩ := h
    exact ⟨pairs.expire d, State.reservationKept_workKeeps.expire s d reservation, records.of (by simp) (by simp), closing.expire d, restart.expire d⟩
  timeouts _ _ h := h
  issue s p h idle := by
    obtain ⟨pairs, reservation, records, closing, restart⟩ := h
    exact ⟨pairs.issue p, reservation.issue p, records.issue pairs.poolNodup p, closing.issue records p, restart.idle idle (by simp)⟩
  refuse _ _ _ h _ := h
  accept s r p h _ accepted := by
    obtain ⟨pairs, reservation, records, closing, restart⟩ := h
    obtain ⟨idle, _⟩ := State.verdict_accepted accepted
    obtain ⟨_, _, _, same, _⟩ := s.accept_rest r p
    exact ⟨pairs.accept accepted, reservation.accept accepted, records.accept pairs accepted, closing.accept records r p, restart.idle idle same⟩
  beat s pair data last h := by
    obtain ⟨pairs, reservation, records, closing, restart⟩ := h
    exact ⟨pairs.takeBeat pair data last, reservation.takeBeat pair data last, records.takeBeat pairs.poolNodup pair data last,
      closing.takeBeat records pair data last, restart.takeBeat pair data last⟩
  take s h := by
    obtain ⟨pairs, reservation, records, closing, restart⟩ := h
    exact ⟨pairs, reservation, records, closing, restart.of rfl (fun e here waiting => ⟨e, here, waiting⟩) fun phase =>
      have ⟨_, releasing, _⟩ := restart
      have ⟨table, records, _⟩ := releasing phase
      ⟨table, records, rfl⟩⟩
  answer s d status data h := by
    obtain ⟨pairs, reservation, records, closing, restart⟩ := h
    obtain ⟨_, pool, _, writes, _⟩ := s.takeAnswer_rest d status data
    exact ⟨pairs.takeAnswer d status data, State.reservationKept_workKeeps.answer s d status data reservation,
      records.of pool (by rw [writes]), closing.takeAnswer records d status data, restart.takeAnswer d status data⟩
  choose s h := by
    rcases s.choose_cases with same | ⟨o, c, _, offered⟩
    · rwa [same]
    · rw [offered]
      exact h
  deliver s h := by
    obtain ⟨pairs, reservation, account⟩ := h
    exact ⟨pairs.deliver, reservation.deliver, State.AccountKept.deliver account pairs⟩
  endPulse s h := by
    obtain ⟨pairs, reservation, account⟩ := h
    exact ⟨pairs.endPulse, reservation.endPulse, State.AccountKept.endPulse account⟩
  writePartition s i q f l h := by
    obtain ⟨pairs, reservation, records, closing, restart⟩ := h
    obtain ⟨pool, _, writes, flight, phases, states⟩ := s.writePartition_rest i q f l
    exact ⟨State.pairsKept_workKeeps.writePartition s i q f l pairs, State.reservationKept_workKeeps.writePartition s i q f l reservation,
      records.of pool (by rw [writes]), closing.same states pool (by rw [flight]) (by rw [writes]),
      restart.same phases pool (by rw [flight]) (by rw [flight]) (by rw [writes])⟩
  restart s h idle := by
    obtain ⟨pairs, reservation, account⟩ := h
    exact ⟨pairs.beginRestart, reservation.beginRestart, State.AccountKept.beginRestart account pairs idle⟩

/-- Settles O57: the account of the work is kept by every effect on the work in the part. -/
theorem workAccountKept : Obligations.WorkAccountKept := State.workAccount_workKeeps.stepKeeps.step

end Machine
end Sys2Proof
end

section
/-! The responses (R97, R105, R106, R109): each entry of the IN-FLIGHT class has one place in turn, and the record on offer is that of a response that still waits,
through every effect. -/

namespace Sys2Proof
namespace Machine

/-! ### Places in turn (R97, R109) -/

theorem State.PlacesKept.of {s u : State} (h : s.PlacesKept) (places : u.flight.places = s.flight.places)
    (table : ∀ d : DTag, u.flight.table[d].owes = s.flight.table[d].owes) : u.PlacesKept := by
  obtain ⟨nodup, owing⟩ := h
  rw [State.PlacesKept, places]
  exact ⟨nodup, fun d => by rw [table, owing]⟩

theorem State.PlacesKept.same {s u : State} (h : s.PlacesKept) (flight : u.flight = s.flight) : u.PlacesKept :=
  h.of (by rw [flight]) fun d => by rw [flight]

/-- An entry replaced by one that owes a response as it did. -/
theorem State.PlacesKept.set {s u : State} (h : s.PlacesKept) {d : DTag} {e : FlightEntry} (places : u.flight.places = s.flight.places)
    (table : u.flight.table = s.flight.table.set d e) (owes : e.owes = s.flight.table[d].owes) : u.PlacesKept :=
  h.of places fun x => by
    rw [table, vector_set_get]
    split
    · next same => rw [owes, same]
    · rfl

/-- An entry that comes to owe a response takes the last place. -/
theorem State.PlacesKept.join {s u : State} (h : s.PlacesKept) {d : DTag} {e : FlightEntry} (places : u.flight.places = s.flight.places ++ [d])
    (table : u.flight.table = s.flight.table.set d e) (before : s.flight.table[d].owes = false) (after : e.owes = true) : u.PlacesKept := by
  obtain ⟨nodup, owing⟩ := h
  have outside : d ∉ s.flight.places := fun inside => absurd (before.symm.trans ((owing d).1 inside)) (by decide)
  rw [State.PlacesKept, places, table]
  refine ⟨List.nodup_append.2 ⟨nodup, List.nodup_singleton d, fun x hx y hy => ?_⟩, fun x => ?_⟩
  · rintro rfl
    exact outside (List.mem_singleton.1 hy ▸ hx)
  · rw [vector_set_get, List.mem_append, List.mem_singleton]
    by_cases same : d = x
    · subst same
      simp [after]
    · rw [if_neg same, ← owing]
      simp [Ne.symm same]

/-- An entry that owes nothing more gives up its place. -/
theorem State.PlacesKept.leave {s u : State} (h : s.PlacesKept) {d : DTag} {e : FlightEntry} (places : u.flight.places = s.flight.places.erase d)
    (table : u.flight.table = s.flight.table.set d e) (after : e.owes = false) : u.PlacesKept := by
  obtain ⟨nodup, owing⟩ := h
  rw [State.PlacesKept, places, table]
  refine ⟨nodup.erase d, fun x => ?_⟩
  rw [nodup.mem_erase_iff, vector_set_get]
  by_cases same : d = x
  · subst same
    simp [after]
  · rw [if_neg same, ← owing]
    exact and_iff_right (Ne.symm same)

theorem State.PlacesKept.expire {s : State} (h : s.PlacesKept) (d : DTag) : (s.expire d).PlacesKept := by
  unfold State.expire
  split
  · next t entry =>
    exact h.join (d := d) (e := .orphaned t true) (by simp [State.lastPlace]) (by simp) (by rw [entry]; rfl) rfl
  · exact h
  · exact h
  · exact h

theorem State.PlacesKept.issue {s : State} (h : s.PlacesKept) (p : PartitionId) : (s.issue p).PlacesKept := by
  rcases s.issue_cases p with same | ⟨e, d, _, free, issued⟩
  · rwa [same]
  · exact h.set (by simp) issued.table (by rw [State.lowestFree_free free]; rfl)

theorem State.PlacesKept.takeAnswer {s : State} (h : s.PlacesKept) (d : DTag) (status : AnswerStatus) (data : List Beat) :
    (s.takeAnswer d status data).PlacesKept := by
  cases entry : s.flight.table[d] with
  | issued t =>
    rw [State.takeAnswer_of_issued entry]
    exact h.join (by rw [s.answerIssued_flight]) (by rw [s.answerIssued_flight]) (by rw [entry]; rfl) rfl
  | orphaned t owed =>
    rw [State.takeAnswer_of_orphaned entry]
    refine h.set (by rw [s.answerLate_flight]) (by rw [s.answerLate_flight]) ?_
    rw [entry]
    cases owed <;> rfl
  | free =>
    rw [State.takeAnswer_of_stray (.inl entry)]
    exact h.same (by simp)
  | returning t a beats =>
    rw [State.takeAnswer_of_stray (.inr ⟨t, a, beats, entry⟩)]
    exact h.same (by simp)

theorem State.PlacesKept.deliverInFlight {s : State} (h : s.PlacesKept) (d : DTag) : (s.deliverInFlight d).PlacesKept := by
  unfold State.deliverInFlight
  split
  · exact h
  · exact h
  · exact h.leave (d := d) (e := .free) (by simp [State.leaveClass, State.releasePair]) (by simp) rfl
  · next t owed entry =>
    split
    · exact h.leave (d := d) (e := .orphaned t false) rfl rfl rfl
    · exact h

theorem State.PlacesKept.finishSource {s : State} (h : s.PlacesKept) (source : ResponseSource) : (s.finishSource source).PlacesKept := by
  cases source with
  | refusal => exact h
  | withdrawn pair =>
    show (s.deliverWithdrawn pair).PlacesKept
    rcases s.deliverWithdrawn_cases pair with same | ⟨_, _, _, _, _, _, _, _, _, made⟩
    · rwa [same]
    · exact h.same (by simp [made, State.releasePair])
  | inFlight d => exact h.deliverInFlight d

/-! ### What RELEASING leaves in flight (R129, R130) -/

/-- The table and the rest of the in-flight unit as RELEASING begins. -/
theorem State.enterReleasing_flight (s : State) :
    s.enterReleasing.flight = { s.flight with table := mapAll FlightEntry.freeOrphan s.flight.table, output := none } := by
  obtain ⟨_, flight, _⟩ := State.freeDiscarding_each (s.emptied.writes.records.filter fun r => r.state == .discarding) s.emptied
  exact flight.trans (by simp [State.emptied])

theorem State.PlacesKept.drainCheck {s : State} (h : s.PlacesKept) : s.drainCheck.PlacesKept := by
  unfold State.drainCheck
  split
  · next due =>
    obtain ⟨_, drained⟩ := Bool.and_eq_true_iff.1 due
    refine h.of (by rw [s.enterReleasing_flight]) fun d => ?_
    have none := State.drained_flight drained d
    rw [s.enterReleasing_flight, mapAll_get]
    revert none
    cases s.flight.table[d] <;> simp [FlightEntry.freeOrphan, FlightEntry.heldPair, FlightEntry.owes]
  · exact h

theorem State.releaseCheck_flight (s : State) : s.releaseCheck.flight = s.flight := by
  unfold State.releaseCheck
  split <;> rfl

theorem State.PlacesKept.restartCheck {s : State} (h : s.PlacesKept) : s.restartCheck.PlacesKept := by
  unfold State.restartCheck
  split
  · exact h
  · exact h.drainCheck
  · exact h.same s.releaseCheck_flight

/-! ### The record on offer (R105, R106) -/

/-- With nothing on offer nothing is asked. -/
theorem State.OfferKept.of_none {s : State} (none : s.flight.offer = none) : s.OfferKept := fun o offered => absurd (none.symm.trans offered) (by simp)

/-- What is on offer stays where every response that waits keeps waiting. -/
theorem State.OfferKept.grow {s u : State} (h : s.OfferKept) (offer : u.flight.offer = s.flight.offer)
    (refusal : s.intake.refusal ≠ none → u.intake.refusal = s.intake.refusal)
    (pool : ∀ e ∈ s.pool, ∀ o, e.offer = some o → e ∈ u.pool)
    (table : ∀ (d : DTag) (o : Offer), s.flight.table[d].offer d = some o → u.flight.table[d].offer d = some o) : u.OfferKept := by
  intro o offered
  have waiting := h o (offer ▸ offered)
  cases source : o.source with
  | refusal =>
    simp only [source] at waiting ⊢
    rw [State.firstOf, refusal fun none => by simp [State.firstOf, none] at waiting]
    exact waiting
  | withdrawn pair =>
    simp only [source] at waiting ⊢
    obtain ⟨_, e, here, mine, answer⟩ := waiting
    exact ⟨trivial, e, pool e here o answer, mine, answer⟩
  | inFlight d =>
    simp only [source] at waiting ⊢
    exact table d o waiting

theorem State.OfferKept.same {s u : State} (h : s.OfferKept) (flight : u.flight = s.flight) (refusal : u.intake.refusal = s.intake.refusal)
    (pool : u.pool = s.pool) : u.OfferKept :=
  h.grow (by rw [flight]) (fun _ => refusal) (fun _ here _ _ => pool ▸ here) fun _ _ waits => by rwa [flight]

/-- Only a released answer is given. -/
theorem PoolEntry.offer_isReleased {e : PoolEntry} {o : Offer} (answer : e.offer = some o) : e.isReleased = true := by
  unfold PoolEntry.offer at answer
  unfold PoolEntry.isReleased
  cases state : e.state with
  | waiting => simp [state] at answer
  | answering status released => cases released <;> simp [state] at answer ⊢

/-- Entries rewritten one by one, where an entry with an answer to give stays. -/
theorem State.OfferKept.rewrite {s u : State} (h : s.OfferKept) (flight : u.flight = s.flight) (refusal : u.intake.refusal = s.intake.refusal)
    {f : PoolEntry → PoolEntry} (pool : u.pool = s.pool.map f) (stays : ∀ e, e.isReleased = true → f e = e) : u.OfferKept := by
  refine h.grow (by rw [flight]) (fun _ => refusal) (fun e here o answer => ?_) fun _ _ waits => by rwa [flight]
  rw [pool, List.mem_map]
  exact ⟨e, here, stays e (PoolEntry.offer_isReleased answer)⟩

theorem PoolEntry.not_waiting_of_released {e : PoolEntry} (released : e.isReleased = true) : e.isWaiting = false := by
  unfold PoolEntry.isReleased at released
  unfold PoolEntry.isWaiting
  cases state : e.state with
  | waiting => simp [state] at released
  | answering => rfl

theorem State.withdrawnEntry_of_released (s : State) (chosen : PoolEntry → Bool) (status : WithdrawalStatus) {e : PoolEntry}
    (released : e.isReleased = true) : s.withdrawnEntry chosen status e = e := by
  rw [State.withdrawnEntry, PoolEntry.not_waiting_of_released released, Bool.false_and, if_neg (by decide)]

theorem PoolEntry.releaseFor_of_released (pair : Pair) {e : PoolEntry} (released : e.isReleased = true) : e.releaseFor pair = e := by
  unfold PoolEntry.isReleased at released
  unfold PoolEntry.releaseFor
  split
  · rfl
  · next status r state =>
    rw [state] at released
    obtain rfl : r = true := released
    split
    · rw [← state]
    · rw [← state]

theorem PoolEntry.completeFor_of_released (owner : Option Pair) {e : PoolEntry} (released : e.isReleased = true) : e.completeFor owner = e := by
  rw [PoolEntry.completeFor, PoolEntry.not_waiting_of_released released, Bool.false_and, if_neg (by decide)]

theorem PoolEntry.brokenFor_of_released (pair : Pair) {e : PoolEntry} (released : e.isReleased = true) : e.brokenFor pair = e := by
  rw [PoolEntry.brokenFor, PoolEntry.not_waiting_of_released released, if_neg (by simp)]

theorem State.OfferKept.withdraw {s : State} (h : s.OfferKept) (chosen : PoolEntry → Bool) (status : WithdrawalStatus) :
    (s.withdraw chosen status).OfferKept := h.rewrite rfl rfl rfl fun _ => s.withdrawnEntry_of_released chosen status

/-- An in-flight entry replaced by one with the same response, if it had one to give. -/
theorem State.OfferKept.set {s u : State} (h : s.OfferKept) (offer : u.flight.offer = s.flight.offer) (intake : u.intake = s.intake)
    (pool : ∀ e ∈ s.pool, ∀ o, e.offer = some o → e ∈ u.pool) {d : DTag} {e : FlightEntry} (table : u.flight.table = s.flight.table.set d e)
    (answer : ∀ o, s.flight.table[d].offer d = some o → e.offer d = some o) : u.OfferKept := by
  refine h.grow offer (fun _ => by rw [intake]) pool fun x o waits => ?_
  rw [table, vector_set_get]
  split
  · next same =>
    subst same
    exact answer o waits
  · exact waits

theorem State.OfferKept.expire {s : State} (h : s.OfferKept) (d : DTag) : (s.expire d).OfferKept := by
  unfold State.expire
  split
  · next t entry =>
    refine h.set (d := d) (e := .orphaned t true) (by simp) (by simp) (fun _ here _ _ => by simpa using here) (by simp) fun o answer => ?_
    rw [entry] at answer
    exact absurd answer (by simp [FlightEntry.offer])
  · exact h
  · exact h
  · exact h

/-- What is issued waited, so it had no answer to give. -/
theorem State.OfferKept.issue {s : State} (h : s.OfferKept) (p : PartitionId) : (s.issue p).OfferKept := by
  rcases s.issue_cases p with same | ⟨e, d, head, free, issued⟩
  · rwa [same]
  · obtain ⟨before, after, pool, _, left⟩ := issued.pool
    obtain ⟨intake, _⟩ := issued.rest
    obtain ⟨inQueue, _⟩ := (s.head_iff p e).1 head
    obtain ⟨waiting, _⟩ := (PoolEntry.inQueue_iff p e).1 inQueue
    refine h.set (by simp) intake (fun x here o answer => ?_) issued.table fun o answer => ?_
    · rw [pool, List.mem_append, List.mem_cons] at here
      rw [left, List.mem_append]
      rcases here with inFront | rfl | behind
      · exact .inl inFront
      · exact absurd answer (by simp [PoolEntry.offer, waiting])
      · exact .inr behind
    · rw [State.lowestFree_free free] at answer
      exact absurd answer (by simp [FlightEntry.offer])

theorem State.OfferKept.accept {s : State} (h : s.OfferKept) (r : Request) (p : PartitionId) : (s.accept r p).OfferKept := by
  obtain ⟨e, pool, _⟩ := s.accept_pool r p
  obtain ⟨intake, _, flight, _⟩ := s.accept_rest r p
  exact h.grow (by rw [flight]) (fun _ => by rw [intake]) (fun x here _ _ => by rw [pool]; exact List.mem_append_left _ here)
    fun d o waits => by rwa [flight]

/-- A refusal is made into an empty slot (R75), where none was on offer. -/
theorem State.OfferKept.refuse {s : State} (h : s.OfferKept) (pair : Pair) (status : RefusalStatus) (empty : s.intake.refusal = none) :
    (s.refuse pair status).OfferKept :=
  h.grow rfl (fun full => absurd empty full) (fun _ here _ _ => here) fun _ _ waits => waits

theorem State.OfferKept.recordFault {s : State} (h : s.OfferKept) (kind : FaultKind) (partition : Option PartitionId) (pair : Option Pair)
    (address : Option Addr) (dtag : Option DTag) : (s.recordFault kind partition pair address dtag).OfferKept :=
  h.same (by simp) (by simp) (by simp)

theorem State.OfferKept.takeBeat {s : State} (h : s.OfferKept) (pair : Pair) (data : Beat) (last : Bool) : (s.takeBeat pair data last).OfferKept := by
  unfold State.takeBeat
  split
  · exact h.recordFault _ _ _ _ _
  · next r _ =>
    split
    · unfold State.gather
      split
      · obtain ⟨pool, _⟩ := s.breakWrite_work r
        exact h.rewrite (by simp [State.breakWrite, State.withdrawPair]) (by simp [State.breakWrite, State.withdrawPair]) pool
          fun _ => PoolEntry.brokenFor_of_released r.pair
      · split
        · exact h.rewrite rfl rfl rfl fun _ => PoolEntry.completeFor_of_released r.owner
        · exact h.same rfl rfl rfl
    · exact h.recordFault _ _ _ _ _
    · unfold State.discard
      split
      · exact h.rewrite (by simp) (by simp) (s.freeDiscarding_pool r) fun _ => PoolEntry.releaseFor_of_released r.pair
      · exact h.same rfl rfl rfl

/-- A late answer of an entry that owes its TIMEOUT leaves that response as it is (R100). -/
theorem State.OfferKept.takeAnswer {s : State} (h : s.OfferKept) (d : DTag) (status : AnswerStatus) (data : List Beat) :
    (s.takeAnswer d status data).OfferKept := by
  obtain ⟨_, pool, intake, _⟩ := s.takeAnswer_rest d status data
  have here : ∀ e ∈ s.pool, ∀ o, e.offer = some o → e ∈ (s.takeAnswer d status data).pool := fun e inPool _ _ => by rwa [pool]
  cases entry : s.flight.table[d] with
  | issued t =>
    have flight := s.answerIssued_flight d t status data
    rw [← State.takeAnswer_of_issued entry] at flight
    refine h.set (by rw [flight]) intake here (by rw [flight]) fun o answer => ?_
    rw [entry] at answer
    exact absurd answer (by simp [FlightEntry.offer])
  | orphaned t owed =>
    have flight := s.answerLate_flight d t owed
    rw [← State.takeAnswer_of_orphaned entry status data] at flight
    refine h.set (by rw [flight]) intake here (by rw [flight]) fun o answer => ?_
    rw [entry] at answer
    cases owed with
    | false => exact absurd answer (by simp [FlightEntry.offer])
    | true =>
      have none : responseData t.kind .timeout [] = none := by cases t.kind <;> rfl
      simpa [FlightEntry.offer, none, FlightAnswer.response] using answer
  | free =>
    rw [State.takeAnswer_of_stray (.inl entry)]
    exact h.recordFault _ _ _ _ _
  | returning t a beats =>
    rw [State.takeAnswer_of_stray (.inr ⟨t, a, beats, entry⟩)]
    exact h.recordFault _ _ _ _ _

/-- The first response of a class waits in it. -/
theorem State.OfferKept.of_first {s u : State} {o : Offer} {c : ResponseClass} (first : s.firstOf c = some o) (pool : u.pool = s.pool)
    (intake : u.intake = s.intake) (table : u.flight.table = s.flight.table) (offer : u.flight.offer = some o) : u.OfferKept := by
  intro o' offered
  obtain rfl : o = o' := Option.some.inj (offer.symm.trans offered)
  cases c with
  | refusal =>
    have source : o.source = .refusal := by
      obtain ⟨r, _, rfl⟩ := Option.map_eq_some_iff.1 first
      rfl
    simp only [source]
    rw [State.firstOf, intake]
    exact first
  | withdrawn =>
    obtain ⟨e, here, answer⟩ := List.exists_of_findSome?_eq_some first
    have source : o.source = .withdrawn e.pair := by
      unfold PoolEntry.offer at answer
      split at answer
      · exact absurd answer (by simp)
      · split at answer
        · rw [← Option.some.inj answer]
        · exact absurd answer (by simp)
    simp only [source]
    exact ⟨trivial, e, pool ▸ here, rfl, answer⟩
  | inFlight =>
    obtain ⟨d, _, answer⟩ := List.exists_of_findSome?_eq_some first
    have source : o.source = .inFlight d := by
      unfold FlightEntry.offer at answer
      split at answer
      · exact absurd answer (by simp)
      · exact absurd answer (by simp)
      · rw [← Option.some.inj answer]
      · split at answer
        · rw [← Option.some.inj answer]
        · exact absurd answer (by simp)
    simp only [source]
    rwa [table]

/-! ### Deliveries and the path restart -/

theorem State.finishSource_offer (s : State) (source : ResponseSource) : (s.finishSource source).flight.offer = s.flight.offer := by
  cases source with
  | refusal => rfl
  | withdrawn pair =>
    show (s.deliverWithdrawn pair).flight.offer = _
    rcases s.deliverWithdrawn_cases pair with same | ⟨_, _, _, _, _, _, _, _, _, made⟩
    · rw [same]
    · simp [made, State.releasePair]
  | inFlight d =>
    unfold State.finishSource State.deliverInFlight
    dsimp only
    split
    · rfl
    · rfl
    · simp [State.leaveClass, State.releasePair]
    · split <;> rfl

theorem State.restartCheck_offer (s : State) : s.restartCheck.flight.offer = s.flight.offer := by
  unfold State.restartCheck
  split
  · rfl
  · unfold State.drainCheck
    split
    · rw [s.enterReleasing_flight]
    · rfl
  · rw [s.releaseCheck_flight]

/-- After a delivery nothing is on offer. -/
theorem State.offerKept_deliver {s : State} (h : s.OfferKept) : s.deliver.OfferKept := by
  unfold State.deliver
  split
  · exact h
  · refine .of_none ?_
    rw [State.restartCheck_offer, State.finishSource_offer]

/-- Where nothing is left to drain nothing is on offer (R129). -/
theorem State.OfferKept.none_of_drained {s : State} (h : s.OfferKept) (drained : s.drained = true) : s.flight.offer = none := by
  have flight := State.drained_flight drained
  simp only [State.drained, Bool.and_eq_true, List.all_eq_true, Bool.not_eq_true', Option.isNone_iff_eq_none] at drained
  obtain ⟨⟨_, refusal⟩, pool⟩ := drained
  cases offered : s.flight.offer with
  | none => rfl
  | some o =>
    exfalso
    have waiting := h o offered
    cases source : o.source with
    | refusal => simp [source, State.firstOf, refusal] at waiting
    | withdrawn pair =>
      simp only [source] at waiting
      obtain ⟨_, e, here, _, answer⟩ := waiting
      exact absurd ((pool e here).symm.trans (PoolEntry.offer_isReleased answer)) (by decide)
    | inFlight d =>
      simp only [source] at waiting
      have held := flight d
      cases entry : s.flight.table[d] with
      | free => simp [entry, FlightEntry.offer] at waiting
      | issued t => simp [entry, FlightEntry.offer] at waiting
      | returning t a beats => simp [entry, FlightEntry.heldPair] at held
      | orphaned t owed => cases owed <;> simp [entry, FlightEntry.heldPair, FlightEntry.offer] at held waiting

theorem State.OfferKept.drainCheck {s : State} (h : s.OfferKept) : s.drainCheck.OfferKept := by
  unfold State.drainCheck
  split
  · next due =>
    obtain ⟨_, drained⟩ := Bool.and_eq_true_iff.1 due
    refine .of_none ?_
    rw [s.enterReleasing_flight]
    exact h.none_of_drained drained
  · exact h

theorem State.OfferKept.beginRestart {s : State} (h : s.OfferKept) : s.beginRestart.OfferKept := by
  have draining : ({ s with restart := { s.restart with phase := .draining } } : State).OfferKept := h
  refine (List.foldlRecOn (motive := State.OfferKept) allPartitions State.flush draining fun u hu p _ => ?_).drainCheck
  exact (hu.withdraw (fun e => e.partition == p) .aborted).same (by simp) (by simp) (u.flush_pool p)

theorem State.takeBeat_flight (s : State) (pair : Pair) (data : Beat) (last : Bool) : (s.takeBeat pair data last).flight = s.flight := by
  unfold State.takeBeat
  split
  · simp
  · split
    · unfold State.gather
      split
      · simp [State.breakWrite, State.withdrawPair]
      · split <;> rfl
    · simp
    · unfold State.discard
      split
      · simp
      · rfl

theorem State.PlacesKept.beginRestart {s : State} (h : s.PlacesKept) : s.beginRestart.PlacesKept := by
  have draining : ({ s with restart := { s.restart with phase := .draining } } : State).PlacesKept := h
  exact (List.foldlRecOn (motive := State.PlacesKept) allPartitions State.flush draining fun u hu p _ => hu.same (by simp)).drainCheck

theorem State.endPulse_work (s : State) : s.endPulse.flight = s.flight ∧ s.endPulse.intake = s.intake ∧ s.endPulse.pool = s.pool := by
  unfold State.endPulse State.releaseCheck
  split
  · split <;> exact ⟨rfl, rfl, rfl⟩
  · exact ⟨rfl, rfl, rfl⟩

/-! ### The guarantee -/

/-- The guarantee of O58, the pairs apart. -/
def State.AnswersKept (s : State) : Prop := s.PlacesKept ∧ s.OfferKept

theorem State.answersKept_workKeeps : WorkKeeps State.AnswersKept where
  same h work := by
    obtain ⟨places, offer⟩ := h
    exact ⟨places.same work.flight, offer.same work.flight work.refusal work.pool⟩
  reset := ⟨⟨List.nodup_nil, by decide⟩, .of_none rfl⟩
  change s p x h := by
    obtain ⟨places, offer⟩ := h
    exact ⟨places.same (by simp), offer.same (by simp) (by simp) (by simp)⟩
  withdraw _ chosen status h := by
    obtain ⟨places, offer⟩ := h
    exact ⟨places, offer.withdraw chosen status⟩
  expire _ d h := by
    obtain ⟨places, offer⟩ := h
    exact ⟨places.expire d, offer.expire d⟩
  timeouts _ _ h := h
  issue _ p h _ := by
    obtain ⟨places, offer⟩ := h
    exact ⟨places.issue p, offer.issue p⟩
  refuse _ pair status h empty := by
    obtain ⟨places, offer⟩ := h
    exact ⟨places, offer.refuse pair status empty⟩
  accept s r p h _ _ := by
    obtain ⟨places, offer⟩ := h
    obtain ⟨_, _, flight, _⟩ := s.accept_rest r p
    exact ⟨places.same flight, offer.accept r p⟩
  beat s pair data last h := by
    obtain ⟨places, offer⟩ := h
    exact ⟨places.same (State.takeBeat_flight s pair data last), offer.takeBeat pair data last⟩
  take _ h := h
  answer _ d status data h := by
    obtain ⟨places, offer⟩ := h
    exact ⟨places.takeAnswer d status data, offer.takeAnswer d status data⟩
  choose s h := by
    rcases s.choose_cases with same | ⟨o, c, first, offered⟩
    · rwa [same]
    · obtain ⟨places, _⟩ := h
      rw [offered]
      exact ⟨places, .of_first first rfl rfl rfl rfl⟩
  deliver s h := by
    obtain ⟨places, offer⟩ := h
    refine ⟨?_, State.offerKept_deliver offer⟩
    unfold State.deliver
    split
    · exact places
    · refine (State.PlacesKept.finishSource ?_ _).restartCheck
      exact places
  endPulse s h := by
    obtain ⟨places, offer⟩ := h
    obtain ⟨flight, intake, pool⟩ := s.endPulse_work
    exact ⟨places.same flight, offer.same flight (by rw [intake]) pool⟩
  writePartition s i q f l h := by
    obtain ⟨places, offer⟩ := h
    obtain ⟨pool, intake, _, flight, _⟩ := s.writePartition_rest i q f l
    exact ⟨places.same flight, offer.same flight (by rw [intake]) pool⟩
  restart _ h _ := by
    obtain ⟨places, offer⟩ := h
    exact ⟨places.beginRestart, offer.beginRestart⟩

theorem WithdrawalStatus.response_eq (status : WithdrawalStatus) :
    status.response = match status with | .cancelled => .cancelled | .aborted => .aborted := by
  cases status <;> rfl

theorem responseData_eq (t : Transaction) (a : FlightAnswer) (beats : List Beat) :
    responseData t.kind a beats = if t.kind = .read ∧ a = .okay then some beats else none := by
  cases t.kind <;> cases a <;> rfl

theorem FlightAnswer.response_eq (a : FlightAnswer) :
    a.response = match a with | .okay => .okay | .derr => .derr | .timeout => .timeout := by
  cases a <;> rfl

/-- Settles O58: a response keeps its place and its record from the event that makes it due to its delivery. -/
theorem responsesKept : Obligations.ResponsesKept := by
  refine ⟨fun e status released state => ?_, fun e state => ?_, fun d e => ?_, fun s t h run up => ?_⟩
  · simp only [PoolEntry.offer, state, status.response_eq] <;> rfl
  · simp only [PoolEntry.offer, state]
  · cases e with
    | free => rfl
    | issued t => rfl
    | returning t a beats =>
      simp only [FlightEntry.offer, responseData_eq, a.response_eq] <;> rfl
    | orphaned t owed => rfl
  · have ⟨places, offer⟩ := State.answersKept_workKeeps.stepKeeps.step s t (fun up => have ⟨places, offer, _⟩ := h up; ⟨places, offer⟩) run up
    have pairs := State.pairsKept_workKeeps.stepKeeps.step s t (fun up => have ⟨_, _, pairs⟩ := h up; pairs) run up
    exact ⟨places, offer, pairs⟩

end Machine
end Sys2Proof
end

section
/-! Carrying a guarantee about the monitors, the trigger entries, the fault queue and the latched causes through every step: what is left to show of it once
everything that concerns none of these is set aside. -/

namespace Sys2Proof
namespace Machine

/-- What the monitors watch, the monitors themselves, the trigger entries and the fault queue are the same in both states. -/
structure SameWatched (s u : State) : Prop where
  monitors : u.monitors = s.monitors
  pool : u.pool = s.pool
  counters : u.counters = s.counters
  table : u.flight.table = s.flight.table
  reserved : u.writes.reserved = s.writes.reserved
  slotCount : u.sched.slotCount = s.sched.slotCount
  queue : u.attention.queue = s.attention.queue
  latched : u.attention.latched = s.attention.latched
  entries : u.triggers.entries = s.triggers.entries

theorem SameWatched.refl (s : State) : SameWatched s s := ⟨rfl, rfl, rfl, rfl, rfl, rfl, rfl, rfl, rfl⟩

/-- A guarantee about what `SameWatched` names, and the effects that touch it. -/
structure WatchKeeps (G : State → Prop) (H : State → Prop := fun _ => True) : Prop where
  premise : ∀ (s : State) (q : List Instr), H s → H { s with pending := q }
  same : ∀ {s u : State}, G s → SameWatched s u → G u
  reset : G State.reset
  leave : ∀ (s : State) (b : Bool), G s → G (s.leaveReset b)
  settle : ∀ s : State, G s → G s.settle
  cause : ∀ (s : State) (c : Cause), G s → G (s.takeCause c)
  slot : ∀ s : State, G s → G s.startSlot.runSlot
  expireDue : ∀ s : State, G s → G s.expireDue
  arrive : ∀ s : State, G s → G s.timeoutArrives
  request : ∀ (s : State) (r : Request), G s → G (s.takeRequest r)
  cancel : ∀ (s : State) (pair : Pair), H s → G s → G (s.takeCancel pair)
  beat : ∀ (s : State) (pair : Pair) (data : Beat) (last : Bool), H s → G s → G (s.takeBeat pair data last)
  answer : ∀ (s : State) (d : DTag) (status : AnswerStatus) (data : List Beat), G s → G (s.takeAnswer d status data)
  deliver : ∀ s : State, G s → G s.deliver
  releaseCheck : ∀ s : State, G s → G s.releaseCheck
  pop : ∀ s : State, G s → G s.popRecord
  rearm : ∀ (s : State) (i : Fin 4) (m : Monitor), G s → G (s.rearmMonitor i m)
  writeTrigger : ∀ (s : State) (i : Half) (f c ca a aa : Byte), G s → G (s.writeTriggerEntry i f c ca a aa).state
  change : ∀ (s : State) (p : PartitionId) (x : PartitionState), G s → G (s.changeState p x).state
  flush : ∀ (s : State) (p : PartitionId), G s → G (s.flush p)
  restart : ∀ s : State, G s → G s.beginRestart
  acknowledge : ∀ (s : State) (c : Byte), G s → G (s.acknowledgeCommand c).state
  clear : ∀ s : State, G s → G s.clearCommand.state

/-! ### Commands that touch none of it -/

theorem State.seeEdge_sameWatched (s : State) (k : EventLine) (high : Bool) : SameWatched s (s.seeEdge k high) := by
  unfold State.seeEdge
  split <;> exact ⟨rfl, rfl, rfl, rfl, rfl, rfl, rfl, rfl, rfl⟩

theorem State.seeFirst_sameWatched (s : State) (k : EventLine) (high : Bool) : SameWatched s (s.seeFirst k high) := by
  unfold State.seeFirst
  split <;> exact ⟨rfl, rfl, rfl, rfl, rfl, rfl, rfl, rfl, rfl⟩

theorem State.choose_sameWatched (s : State) : SameWatched s s.choose := by
  rcases s.choose_cases with same | ⟨o, c, _, offered⟩
  · rw [same]
    exact .refl s
  · rw [offered]
    exact ⟨rfl, rfl, rfl, rfl, rfl, rfl, rfl, rfl, rfl⟩

theorem State.writeSchedule_sameWatched (s : State) (t : TableName) (i : Half) (d : ScheduleEntryData) : SameWatched s (s.writeSchedule t i d).state := by
  unfold State.writeSchedule
  split
  · exact .refl s
  · split
    · exact .refl s
    · split
      · exact .refl s
      · refine ⟨rfl, rfl, rfl, rfl, rfl, ?_, rfl, rfl, rfl⟩
        cases t <;> rfl

theorem State.writePartition_sameWatched (s : State) (i : Half) (q f l : Byte) : SameWatched s (s.writePartition i q f l).state := by
  unfold State.writePartition
  dsimp only
  split
  · exact .refl s
  · split
    · exact .refl s
    · split
      · exact .refl s
      · split
        · exact .refl s
        · exact ⟨rfl, rfl, rfl, rfl, rfl, rfl, rfl, rfl, rfl⟩

theorem State.writeMap_sameWatched (s : State) (i : Half) (v : Byte) : SameWatched s (s.writeMap i v).state := by
  unfold State.writeMap
  split <;> exact ⟨rfl, rfl, rfl, rfl, rfl, rfl, rfl, rfl, rfl⟩

theorem State.writeRegionEntry_sameWatched (s : State) (i : Half) (b l : Word) (m f : Byte) : SameWatched s (s.writeRegionEntry i b l m f).state := by
  unfold State.writeRegionEntry
  split
  · exact .refl s
  · dsimp only
    split
    · exact .refl s
    · exact ⟨rfl, rfl, rfl, rfl, rfl, rfl, rfl, rfl, rfl⟩

theorem State.writeMask_sameWatched (s : State) (i : Half) (m : Byte) : SameWatched s (s.writeMask i m).state := by
  unfold State.writeMask
  split <;> exact ⟨rfl, rfl, rfl, rfl, rfl, rfl, rfl, rfl, rfl⟩

theorem State.requestTarget_sameWatched (s : State) (t : TableName) : SameWatched s (s.requestTarget t).state := by
  unfold State.requestTarget
  split <;> exact ⟨rfl, rfl, rfl, rfl, rfl, rfl, rfl, rfl, rfl⟩

/-- A guarantee about what is watched is kept by every step, when the effects that touch it keep it. -/
theorem WatchKeeps.stepKeeps {G H : State → Prop} (k : WatchKeeps G H) : StepKeeps G G H where
  premise := k.premise
  queue _ _ h := k.same h ⟨rfl, rfl, rfl, rfl, rfl, rfl, rfl, rfl, rfl⟩
  reset _ _ := k.same k.reset ⟨rfl, rfl, rfl, rfl, rfl, rfl, rfl, rfl, rfl⟩
  leave s b _ h := k.leave s b h
  mid _ h _ := h
  settle s h := k.settle s h
  port _ _ _ h _ := k.same h ⟨rfl, rfl, rfl, rfl, rfl, rfl, rfl, rfl, rfl⟩
  midPort _ _ _ h := k.same h ⟨rfl, rfl, rfl, rfl, rfl, rfl, rfl, rfl, rfl⟩
  slot s h _ := k.slot s h
  expiry s h _ := k.arrive _ (k.expireDue s h)
  arrive s h _ := k.arrive s h
  request s r h _ := k.request s r h
  cancel s pair start h _ := k.cancel s pair start h
  beat s pair data last start h _ := k.beat s pair data last start h
  take _ h _ := k.same h ⟨rfl, rfl, rfl, rfl, rfl, rfl, rfl, rfl, rfl⟩
  answer s d status data h _ := k.answer s d status data h
  choose s h _ := k.same h s.choose_sameWatched
  deliver s h _ := k.deliver s h
  endPulse s h _ := by
    unfold State.endPulse
    split
    · exact k.releaseCheck _ (k.same h ⟨rfl, rfl, rfl, rfl, rfl, rfl, rfl, rfl, rfl⟩)
    · exact h
  edge s l high h _ := k.same h (s.seeEdge_sameWatched l high)
  first s l high h _ := k.same h (s.seeFirst_sameWatched l high)
  outputPulse _ _ h _ := k.same h ⟨rfl, rfl, rfl, rfl, rfl, rfl, rfl, rfl, rfl⟩
  held s h _ := by
    unfold State.takeHeld
    split
    · exact h
    · exact k.cause _ _ (k.same h ⟨rfl, rfl, rfl, rfl, rfl, rfl, rfl, rfl, rfl⟩)
  pop s h _ := k.pop s h
  writeSchedule s t i d h _ := k.same h (s.writeSchedule_sameWatched t i d)
  writePartition s i q f l h _ := k.same h (s.writePartition_sameWatched i q f l)
  writeMap s i v h _ := k.same h (s.writeMap_sameWatched i v)
  writeRegion s i b l m f h _ := k.same h (s.writeRegionEntry_sameWatched i b l m f)
  writeMonitor s i f o c a t h _ := by
    unfold State.writeMonitorEntry
    split
    · exact h
    · split
      · split
        · exact h
        · exact k.rearm _ _ _ h
      · exact h
      · exact h
  writeTrigger s i f c ca a aa h _ := k.writeTrigger s i f c ca a aa h
  writeMask s i m h _ := k.same h (s.writeMask_sameWatched i m)
  switch s a h _ := by
    unfold State.switchCommand
    split
    · exact h
    · exact k.same h (s.requestTarget_sameWatched _)
  setState s a x h _ := by
    unfold State.setStateCommand
    split
    · exact h
    · split
      · exact k.change s _ _ h
      · exact h
  flush s a h _ := by
    unfold State.flushCommand
    split
    · split
      · exact h
      · exact k.flush s _ h
    · exact h
  restart s h _ _ := k.restart s h
  acknowledge s c h _ := k.acknowledge s c h
  clear s h _ := k.clear s h

end Machine
end Sys2Proof
end

section
/-! The triggers, the fault queue, the latched causes and the monitors (R142, R146, R148, R160, R163) through every step. -/

namespace Sys2Proof
namespace Machine

/-! ### The fault queue (R160) -/

theorem State.FaultsKept.same {s u : State} (h : s.FaultsKept) (queue : u.attention.queue = s.attention.queue) : u.FaultsKept := by
  rw [State.FaultsKept, queue]
  exact h

/-- A record is stored only where fewer than 16 are held. -/
theorem State.FaultsKept.storeFault {s : State} (h : s.FaultsKept) (record : FaultRecord) : (s.storeFault record).FaultsKept := by
  unfold State.storeFault
  dsimp only
  split
  · next room =>
    have size : Config.faultRecords = 16 := rfl
    simp only [State.FaultsKept, State.raise_fields, State.hand_fields, List.length_append, List.length_singleton]
    omega
  · exact h.same (by simp)

theorem State.FaultsKept.recordFault {s : State} (h : s.FaultsKept) (kind : FaultKind) (partition : Option PartitionId) (pair : Option Pair)
    (address : Option Addr) (dtag : Option DTag) : (s.recordFault kind partition pair address dtag).FaultsKept := h.storeFault _

theorem State.FaultsKept.timeoutArrives {s : State} (h : s.FaultsKept) : s.timeoutArrives.FaultsKept := by
  unfold State.timeoutArrives
  split
  · exact h
  · next record rest _ =>
    have taken : ({ s with flight := { s.flight with timeouts := rest } } : State).FaultsKept := h
    exact taken.storeFault record

theorem State.faultsKept_actions : ActionsKeep State.FaultsKept where
  triggers _ _ h := h
  free _ _ h := h
  monitors _ _ h := h
  latched _ _ _ h := h
  snapshot _ _ h := h
  target _ _ h := h.same (by simp)
  change _ _ _ h := h.same (by simp)
  withdraw _ _ _ h := h

theorem State.FaultsKept.startSlot {s : State} (h : s.FaultsKept) : s.startSlot.FaultsKept := by
  have advanced : ({ s with sched := s.sched.advance } : State).FaultsKept := h
  unfold State.startSlot
  dsimp only
  split
  · have started : ({ s with sched := s.sched.advance } : State).roundStart.FaultsKept := advanced.same (by simp)
    exact (State.someTimeoutsArrive_keeps (fun _ hu => hu.timeoutArrives) started).same (by simp)
  · exact advanced.same (by simp)

theorem State.runSlot_attention (s : State) : s.runSlot.attention = s.attention := by
  unfold State.runSlot State.chargeLost
  cases s.decideSlot.lost <;> cases s.decideSlot.outcome <;> simp [State.applyOutcome]

theorem State.FaultsKept.takeRequest {s : State} (h : s.FaultsKept) (r : Request) : (s.takeRequest r).FaultsKept := by
  have refused (status : RefusalStatus) : ((s.countRefused (s.mapped r.pair.initiator)).refuse r.pair status).FaultsKept := by
    cases s.mapped r.pair.initiator <;> exact h.same (by simp [State.countRefused])
  unfold State.takeRequest
  split
  · cases s.verdict r with
    | retry => cases mapped : s.mapped r.pair.initiator <;> exact h.same (by simp [State.applyVerdict, mapped, State.countRetried])
    | refused k => exact (refused .refused).recordFault _ _ _ _ _
    | tagErr => exact (refused .tagErr).recordFault _ _ _ _ _
    | accepted p =>
      obtain ⟨_, _, _, _, _, attention⟩ := s.accept_rest r p
      exact h.same (congrArg Attention.queue attention)
  · exact h

theorem State.FaultsKept.takeBeat {s : State} (h : s.FaultsKept) (pair : Pair) (data : Beat) (last : Bool) : (s.takeBeat pair data last).FaultsKept := by
  unfold State.takeBeat
  split
  · exact h.recordFault _ _ _ _ _
  · next r _ =>
    split
    · unfold State.gather
      split
      · have freed : ({ s with writes := { s.writes with records := s.writes.records.filter fun x => x.pair != r.pair } } : State).FaultsKept := h
        exact State.FaultsKept.recordFault (freed.same (by simp)) _ _ _ _ _
      · split <;> exact h
    · exact h.recordFault _ _ _ _ _
    · unfold State.discard
      split
      · exact h.same (by simp)
      · exact h

theorem State.FaultsKept.takeAnswer {s : State} (h : s.FaultsKept) (d : DTag) (status : AnswerStatus) (data : List Beat) :
    (s.takeAnswer d status data).FaultsKept := by
  unfold State.takeAnswer
  split
  · next t _ =>
    have returned (a : FlightAnswer) (beats : List Beat) : ((s.setFlight d (.returning t a beats)).lastPlace d).FaultsKept := h
    unfold State.answerIssued
    dsimp only
    split
    · exact returned _ _
    · exact (returned _ _).recordFault _ _ _ _ _
    · exact returned _ _
  · next t _ _ =>
    have faulted := h.recordFault .late (some t.partition) (some t.pair) (some t.address) (some d)
    unfold State.answerLate State.recordFlightFault
    dsimp only
    split <;> exact faulted.same (by simp)
  · exact h.recordFault _ _ _ _ _
  · exact h.recordFault _ _ _ _ _

theorem State.drainCheck_queue (s : State) : s.drainCheck.attention.queue = s.attention.queue := by
  unfold State.drainCheck
  split
  · obtain ⟨_, _, _, _, _, _, _, queue, _⟩ := State.freeDiscarding_each (s.emptied.writes.records.filter fun r => r.state == .discarding) s.emptied
    exact queue.trans (by simp [State.emptied])
  · rfl

theorem State.releaseCheck_queue (s : State) : s.releaseCheck.attention.queue = s.attention.queue := by
  unfold State.releaseCheck
  split <;> rfl

theorem State.finishSource_queue (s : State) (source : ResponseSource) : (s.finishSource source).attention.queue = s.attention.queue := by
  cases source with
  | refusal => rfl
  | withdrawn pair =>
    show (s.deliverWithdrawn pair).attention.queue = _
    rcases s.deliverWithdrawn_cases pair with same | ⟨_, _, _, _, _, _, _, _, _, made⟩
    · rw [same]
    · simp [made]
  | inFlight d =>
    unfold State.finishSource State.deliverInFlight
    dsimp only
    split
    · rfl
    · rfl
    · simp
    · split <;> rfl

theorem State.deliver_queue (s : State) : s.deliver.attention.queue = s.attention.queue := by
  unfold State.deliver
  split
  · rfl
  · next o _ =>
    have finished := State.finishSource_queue { s with flight := { s.flight with offer := none, turn := o.source.responseClass.after } } o.source
    unfold State.restartCheck
    split
    · exact finished
    · rw [State.drainCheck_queue, finished]
    · rw [State.releaseCheck_queue, finished]

theorem State.faultsKept_watchKeeps : WatchKeeps State.FaultsKept where
  premise _ _ h := h
  same h w := h.same w.queue
  reset := Nat.zero_le _
  leave s b h := by
    have running : ({ s with line := .running, port := { s.port with selnLow := b, acrossReset := b } } : State).FaultsKept := h
    exact State.faultsKept_actions.settle (running.same (by rw [State.runSlot_attention]; simp))
  settle _ h := State.faultsKept_actions.settle h
  cause _ c h := State.faultsKept_actions.takeCause c h
  slot _ h := h.startSlot.same (by rw [State.runSlot_attention])
  expireDue _ h := h.same (by simp)
  arrive _ h := h.timeoutArrives
  request _ r h := h.takeRequest r
  cancel s pair _ h := by
    unfold State.takeCancel
    split
    · split
      · exact h.same (by simp)
      · unfold State.countLate
        split <;> exact h
    · exact h
  beat _ pair data last _ h := h.takeBeat pair data last
  answer _ d status data h := h.takeAnswer d status data
  deliver s h := h.same s.deliver_queue
  releaseCheck s h := h.same s.releaseCheck_queue
  pop s h := by
    refine Nat.le_trans ?_ h
    simp [State.popRecord]
  rearm _ _ _ h := h.same (by simp)
  writeTrigger s i f c ca a aa h := by
    unfold State.writeTriggerEntry
    split
    · exact h
    · split
      · split <;> exact h
      · exact h
      · exact h
  change _ _ _ h := h.same (by simp)
  flush _ _ h := h.same (by simp)
  restart s h := by
    obtain ⟨_, _, _, _, _, _, _, _, _, _, attention⟩ := State.flush_each allPartitions { s with restart := { s.restart with phase := .draining } }
    refine h.same ?_
    rw [State.beginRestart, State.drainCheck_queue, attention]
  acknowledge _ _ h := h
  clear _ h := h.same (by simp [State.clearCommand])

/-! ### The armed entries (R146) -/

theorem State.ArmedOnlyEnabled.same {s u : State} (h : s.ArmedOnlyEnabled) (entries : u.triggers.entries = s.triggers.entries) : u.ArmedOnlyEnabled := by
  rw [State.ArmedOnlyEnabled, entries]
  exact h

theorem State.ArmedOnlyEnabled.frame {s u : State} (h : s.ArmedOnlyEnabled) (f : DataPathFrame s u) : u.ArmedOnlyEnabled := h.same f.entries

/-- An entry replaced by one that is armed only when enabled. -/
theorem State.ArmedOnlyEnabled.setTrigger {s : State} (h : s.ArmedOnlyEnabled) (i : Fin 8) (f : Trigger → Trigger)
    (kept : ∀ t : Trigger, (t.armed = true → t.enabled = true) → (f t).armed = true → (f t).enabled = true) : (s.setTrigger i f).ArmedOnlyEnabled := by
  intro j armed
  rw [State.setTrigger_entries, modifyAt_get] at armed ⊢
  split at armed
  · next same =>
    rw [if_pos same]
    exact kept _ (h j) armed
  · next other =>
    rw [if_neg other]
    exact h j armed

theorem State.ArmedOnlyEnabled.applyAction {s : State} (h : s.ArmedOnlyEnabled) (action : ActionCode) (argument : Byte) :
    (s.applyAction action argument).ArmedOnlyEnabled := by
  cases action with
  | arm =>
    refine h.setTrigger _ _ fun t kept armed => ?_
    rw [Trigger.arm, Bool.or_eq_true] at armed
    exact armed.elim kept id
  | disarm => exact h.setTrigger _ _ fun t _ armed => absurd armed (by simp [Trigger.disarm])
  | requestSwitch => exact h.same (by simp [State.applyAction])
  | setRun => exact h.same (by simp [State.applyAction, State.setAction])
  | setHold => exact h.same (by simp [State.applyAction, State.setAction])
  | setClosing => exact h.same (by simp [State.applyAction, State.setAction])
  | flush => exact h.same (by simp [State.applyAction])
  | evoutSet => exact h
  | evoutClear => exact h
  | evoutPulse => exact h
  | snapshot => exact h
  | attention => exact h
  | clearMonitor => exact h.same (by simp [State.applyAction])

/-- Firing disarms or leaves armed (R149). -/
theorem State.ArmedOnlyEnabled.takeCause {s : State} (h : s.ArmedOnlyEnabled) (c : Cause) : (s.takeCause c).ArmedOnlyEnabled := by
  unfold State.takeCause
  refine List.foldlRecOn (motive := State.ArmedOnlyEnabled) _ _ h fun u hu i _ => ?_
  have fired : (u.setTrigger i Trigger.fire).ArmedOnlyEnabled := hu.setTrigger i Trigger.fire fun t kept armed => by
    unfold Trigger.fire at armed
    cases mode : t.mode with
    | single => simp [mode] at armed
    | recurring =>
      simp only [mode] at armed
      exact kept armed
  exact (fired.applyAction _ _).same rfl

theorem State.ArmedOnlyEnabled.settle {s : State} (h : s.ArmedOnlyEnabled) : s.settle.ArmedOnlyEnabled := by
  unfold State.settle
  split
  · exact h
  · have begun : ({ s with triggers := { s.triggers with raised := [] }, free := s.free + 1 } : State).ArmedOnlyEnabled := h
    exact List.foldlRecOn (motive := State.ArmedOnlyEnabled) _ _ begun fun _ hu c _ => hu.takeCause c

theorem State.runSlot_entries (s : State) : s.runSlot.triggers.entries = s.triggers.entries := by
  unfold State.runSlot State.chargeLost
  cases s.decideSlot.lost <;> cases s.decideSlot.outcome <;> simp [State.applyOutcome]

theorem State.armedOnlyEnabled_watchKeeps : WatchKeeps State.ArmedOnlyEnabled where
  premise _ _ h := h
  same h w := h.same w.entries
  reset := by
    unfold State.ArmedOnlyEnabled
    decide
  leave s b h := by
    have running : ({ s with line := .running, port := { s.port with selnLow := b, acrossReset := b } } : State).ArmedOnlyEnabled := h
    exact State.ArmedOnlyEnabled.settle (running.same (by rw [State.runSlot_entries]; simp))
  settle _ h := h.settle
  cause _ c h := h.takeCause c
  slot s h := h.same (by rw [State.runSlot_entries, (SlotFrame.startSlot s).entries])
  expireDue s h := h.frame (.expireDue s)
  arrive s h := h.frame (.timeoutArrives s)
  request s r h := h.frame (.takeRequest s r)
  cancel s pair _ h := h.frame (.takeCancel s pair)
  beat s pair data last _ h := h.frame (.takeBeat s pair data last)
  answer s d status data h := h.frame (.takeAnswer s d status data)
  deliver s h := h.frame (.deliver s)
  releaseCheck s h := h.frame (.releaseCheck s)
  pop s h := h
  rearm _ _ _ h := h.same (by simp)
  writeTrigger s i f c ca a aa h := by
    unfold State.writeTriggerEntry
    split
    · exact h
    · split
      · split
        · exact h.setTrigger _ _ fun _ _ armed => armed
        · exact h
      · exact h
      · exact h
  change s p x h := h.same (by simp)
  flush s p h := h.same (by simp)
  restart s h := h.frame (.beginRestart s)
  acknowledge _ _ h := h
  clear s h := h.frame (.clearCommand s)

/-! ### The latched causes (R163) -/

theorem State.faultNotLatched_watchKeeps : WatchKeeps State.FaultNotLatched where
  premise _ _ h := h
  same h w := h.same w.latched
  reset := by
    unfold State.FaultNotLatched
    decide
  leave s b h := by
    have running : ({ s with line := .running, port := { s.port with selnLow := b, acrossReset := b } } : State).FaultNotLatched := h
    exact State.faultNotLatched_actions.settle (State.FaultNotLatched.runSlot (running.roundStart.same (by simp)))
  settle _ h := State.faultNotLatched_actions.settle h
  cause _ c h := State.faultNotLatched_actions.takeCause c h
  slot _ h := h.startSlot.runSlot
  expireDue _ h := h.expireDue
  arrive _ h := h.timeoutArrives
  request _ r h := h.takeRequest r
  cancel _ pair _ h := h.takeCancel pair
  beat _ pair data last _ h := h.takeBeat pair data last
  answer _ d status data h := h.takeAnswer d status data
  deliver _ h := h.deliver
  releaseCheck _ h := h.releaseCheck
  pop _ h := h
  rearm _ i m h := State.faultNotLatched_actions.rearmMonitor i m h
  writeTrigger s i f c ca a aa h := by
    unfold State.writeTriggerEntry
    split
    · exact h
    · split
      · split <;> exact h
      · exact h
      · exact h
  change s p x h := State.faultNotLatched_actions.change s p x h
  flush _ p h := State.faultNotLatched_actions.flush p h
  restart _ h := h.beginRestart
  acknowledge _ c h := h.acknowledge c
  clear _ h := h.same (by simp [State.clearCommand])

/-! ### The monitors (R141, R142) -/

theorem State.MonitorsCurrent.watched {s u : State} (h : s.MonitorsCurrent) (w : SameWatched s u) : u.MonitorsCurrent :=
  h.same (.of w.monitors w.pool w.counters w.table w.reserved w.queue)

theorem State.monitorsCurrent_watchKeeps : WatchKeeps State.MonitorsCurrent where
  premise _ _ h := h
  same h w := h.watched w
  reset := by
    unfold State.MonitorsCurrent
    decide
  leave s b h := by
    have running : ({ s with line := .running, port := { s.port with selnLow := b, acrossReset := b } } : State).MonitorsCurrent :=
      h.watched ⟨rfl, rfl, rfl, rfl, rfl, rfl, rfl, rfl, rfl⟩
    exact State.monitorsCurrent_settles.settle (State.MonitorsCurrent.runSlot (running.roundStart.handAll _))
  settle _ h := State.monitorsCurrent_settles.settle h
  cause _ c h := State.monitorsCurrent_settles.takeCause c h
  slot _ h := h.startSlot.runSlot
  expireDue _ h := h.expireDue
  arrive _ h := h.timeoutArrives
  request _ r h := h.takeRequest r
  cancel _ pair _ h := h.takeCancel pair
  beat _ pair data last _ h := h.takeBeat pair data last
  answer _ d status data h := h.takeAnswer d status data
  deliver _ h := h.deliver
  releaseCheck _ h := h.releaseCheck
  pop _ h := h.popRecord
  rearm _ i m h := h.rearmMonitor i m
  writeTrigger s i f c ca a aa h := by
    unfold State.writeTriggerEntry
    split
    · exact h
    · split
      · split
        · exact h.same (.of rfl rfl rfl rfl rfl rfl)
        · exact h
      · exact h
      · exact h
  change _ p x h := h.changeState p x
  flush _ p h := h.flush p
  restart _ h := h.beginRestart
  acknowledge _ _ h := h.same (.of rfl rfl rfl rfl rfl rfl)
  clear _ h := h.countersCleared _

theorem State.agesCurrent_watchKeeps : WatchKeeps State.AgesCurrent (fun s => s.PairsKept ∧ s.RecordsKept) where
  premise _ _ h := h
  same h w := h.quiet w.monitors w.pool w.slotCount
  reset := by
    unfold State.AgesCurrent
    decide
  leave _ b h := h.leaveReset b
  settle _ h := State.agesCurrent_settles.settle h
  cause _ c h := State.agesCurrent_settles.takeCause c h
  slot _ h := h.startSlot.runSlot
  expireDue _ h := h.expireDue
  arrive _ h := h.timeoutArrives
  request _ r h := h.takeRequest r
  cancel _ pair start h := h.takeCancel start.1 pair
  beat _ pair data last start h := h.takeBeat start.1 start.2 pair data last
  answer _ d status data h := h.takeAnswer d status data
  deliver _ h := h.deliver
  releaseCheck _ h := h.releaseCheck
  pop s h := by
    have taken : ({ s with attention := { s.attention with queue := s.attention.queue.tail } } : State).AgesCurrent := h.quiet rfl rfl rfl
    exact taken.hand .faults
  rearm _ i m h := h.rearmMonitor i m
  writeTrigger s i f c ca a aa h := by
    unfold State.writeTriggerEntry
    split
    · exact h
    · split
      · split
        · exact h.quiet rfl rfl rfl
        · exact h
      · exact h
      · exact h
  change _ p x h := h.quiet (by simp) (by simp) (by simp)
  flush _ p h := h.flush p
  restart _ h := h.beginRestart
  acknowledge _ _ h := h.quiet rfl rfl rfl
  clear s h := by
    have cleared : ({ s with counters := Counters.zero } : State).AgesCurrent := h.quiet rfl rfl rfl
    exact cleared.handAll _

/-! ### The causes taken (R148) -/

theorem State.CausesTaken.same {s u : State} (h : s.CausesTaken) (raised : u.triggers.raised = s.triggers.raised) : u.CausesTaken := raised.trans h

/-- The taking of a cause leaves what its actions raised held, and nothing to take (R149, R152). -/
theorem State.CausesTaken.takeCause {s : State} (h : s.CausesTaken) (c : Cause) : (s.takeCause c).CausesTaken := by
  unfold State.takeCause
  exact List.foldlRecOn (motive := State.CausesTaken) _ _ h fun _ _ _ _ => State.holdRaised_raised _

theorem State.causesTaken_stepKeeps : StepKeeps State.CausesTaken fun _ => True where
  premise _ _ h := h
  queue _ _ h := h
  reset _ _ := rfl
  leave _ _ _ _ := State.settle_taken _
  mid _ _ _ := trivial
  settle _ _ := State.settle_taken _
  port _ _ _ h _ := h
  midPort _ _ _ h := h
  slot _ _ _ := trivial
  expiry _ _ _ := trivial
  arrive _ _ _ := trivial
  request _ _ _ _ := trivial
  cancel _ _ _ _ _ := trivial
  beat _ _ _ _ _ _ _ := trivial
  take _ h _ := h
  answer _ _ _ _ _ _ := trivial
  choose s h _ := by
    rcases s.choose_cases with same | ⟨o, c, _, offered⟩
    · rwa [same]
    · rw [offered]
      exact h
  deliver _ _ _ := trivial
  endPulse _ _ _ := trivial
  edge _ _ _ _ _ := trivial
  first s k high h _ := by
    unfold State.seeFirst
    split <;> exact h
  outputPulse _ _ h _ := h
  held s h _ := by
    unfold State.takeHeld
    split
    · exact h
    · next c cs _ =>
      have taken : ({ s with triggers := { s.triggers with held := cs } } : State).CausesTaken := h
      exact taken.takeCause c
  pop _ _ _ := trivial
  writeSchedule s t i d h _ := by
    unfold State.writeSchedule
    split
    · exact h
    · split
      · exact h
      · split <;> exact h
  writePartition s i q f l h _ := by
    unfold State.writePartition
    dsimp only
    split
    · exact h
    · split
      · exact h
      · split
        · exact h
        · split <;> exact h
  writeMap s i v h _ := by
    unfold State.writeMap
    split <;> exact h
  writeRegion s i b l m f h _ := by
    unfold State.writeRegionEntry
    split
    · exact h
    · dsimp only
      split <;> exact h
  writeMonitor _ _ _ _ _ _ _ _ _ := trivial
  writeTrigger s i f c ca a aa h _ := by
    unfold State.writeTriggerEntry
    split
    · exact h
    · split
      · split <;> exact h
      · exact h
      · exact h
  writeMask s i m h _ := by
    unfold State.writeMask
    split <;> exact h
  switch s a h _ := by
    unfold State.switchCommand
    split
    · exact h
    · exact h.same (by simp)
  setState _ _ _ _ _ := trivial
  flush _ _ _ _ := trivial
  restart _ _ _ _ := trivial
  acknowledge _ _ h _ := h
  clear _ _ _ := trivial

/-- Settles O59: each guarantee of the triggers, the faults and the monitors is kept by every effect that touches it. -/
theorem triggersAndFaultsKept : Obligations.TriggersAndFaultsKept := by
  refine ⟨fun s t h run up => ?_, State.agesCurrent_watchKeeps.stepKeeps.stepFrom⟩
  have armed := State.armedOnlyEnabled_watchKeeps.stepKeeps.step s t (fun up => have ⟨armed, _⟩ := h up; armed) run up
  have faults := State.faultsKept_watchKeeps.stepKeeps.step s t (fun up => have ⟨_, faults, _⟩ := h up; faults) run up
  have latched := State.faultNotLatched_watchKeeps.stepKeeps.step s t (fun up => have ⟨_, _, latched, _⟩ := h up; latched) run up
  have monitors := State.monitorsCurrent_watchKeeps.stepKeeps.step s t (fun up => have ⟨_, _, _, monitors, _⟩ := h up; monitors) run up
  have taken := State.causesTaken_stepKeeps.step s t (fun up => have ⟨_, _, _, _, taken⟩ := h up; taken) run up
  exact ⟨armed, faults, latched, monitors, taken⟩

end Machine
end Sys2Proof
end

section
/-! The machine (R1, R8): the reset values, what is taken while RSTN is low or the state is not defined, and the first slot start. -/

namespace Sys2Proof
namespace Machine

/-- Settles O1: both clauses are the definition of a step. -/
theorem stepRunsFrontCommand : Obligations.StepRunsFrontCommand := by
  refine ⟨fun c rest s => step_cons s c rest, fun s empty => ?_⟩
  simp only [step, empty]

/-- Settles O4. -/
theorem nothingTakenWhileLow : Obligations.NothingTakenWhileLow := fun _ _ low notReset notHigh => exec_heldLow low notReset notHigh

/-- While the state is not defined every command but PIN_RESET leaves it so, and the queue (R1). -/
theorem exec_of_undefined {c : Instr} {s : State} (undefined : s.line = .undefined) (other : c ≠ .pinReset) : exec c s = .next s.madeUndefined := by
  obtain ⟨line, sched, parts, pool, intake, writes, flight, restart, counters, snapshot, monitors, triggers, attention, port, free, pending⟩ := s
  obtain rfl : line = .undefined := undefined
  cases c with
  | pinReset => exact absurd rfl other
  | _ => rfl

theorem exec_shortRstnPulse_of_running {s : State} (run : s.line = .running) : exec .shortRstnPulse s = .next s.madeUndefined := by
  simp only [exec, execShortRstnPulse, live_running run]

/-- Settles O5. -/
theorem pinResetAndShortPulse : Obligations.PinResetAndShortPulse :=
  ⟨fun _ => rfl, fun _ run => ⟨_, exec_shortRstnPulse_of_running run, rfl, rfl⟩, fun _ _ undefined other =>
    ⟨_, exec_of_undefined undefined other, rfl, rfl⟩⟩

/-! ### Reset values -/

/-- Settles O2: each value is read off the reset state. -/
theorem resetValues : Obligations.ResetValues := by
  refine ⟨⟨rfl, rfl, ?_, ?_, ?_⟩, ⟨rfl, rfl, ?_, ?_, ?_⟩, ⟨rfl, rfl, rfl, rfl, rfl, ?_, rfl⟩, ?_, ⟨rfl, rfl, rfl, ?_, rfl, rfl⟩, ?_,
    ⟨?_, rfl, rfl, rfl, rfl, rfl, rfl, rfl⟩, ⟨rfl, rfl, rfl, rfl, rfl, rfl, ?_, rfl⟩, ?_, ?_, ?_, rfl, ⟨rfl, rfl, rfl, rfl, rfl, rfl, rfl⟩⟩
  all_goals decide

/-- Settles O3: each guarantee holds at reset. -/
theorem guaranteesHoldAtReset : Obligations.GuaranteesHoldAtReset := by
  obtain ⟨pairs, reservation, records, closing, restart⟩ := State.workAccount_workKeeps.reset
  obtain ⟨places, offer⟩ := State.answersKept_workKeeps.reset
  exact ⟨ScheduleUnit.sound_reset, State.quotaKept_reset, reservation, pairs, records, places, offer, closing, restart,
    State.armedOnlyEnabled_watchKeeps.reset, State.faultsKept_watchKeeps.reset, State.faultNotLatched_watchKeeps.reset,
    State.monitorsCurrent_watchKeeps.reset, State.agesCurrent_watchKeeps.reset, rfl, fun _ => rfl⟩

/-! ### The first slot start (R8, R54) -/

/-- The part as RSTN has just returned high. -/
def State.risen (selnLow : Bool) (free : Nat) (pending : List Instr) : State :=
  { State.reset with
    line := .running
    port := { State.reset.port with selnLow := selnLow, acrossReset := selnLow }
    free := free
    pending := pending }

/-- The same with these causes raised. -/
def State.risenWith (selnLow : Bool) (free : Nat) (pending : List Instr) (raised : List Cause) : State :=
  { State.risen selnLow free pending with triggers := { State.reset.triggers with raised := raised } }

section

variable (selnLow : Bool) (free : Nat) (pending : List Instr)

theorem State.risen_monitors (raised : List Cause) (i : Fin 4) : (State.risenWith selnLow free pending raised).monitors[i].enabled = false := by
  have disabled : ∀ j : Fin 4, State.reset.monitors[j].enabled = false := by decide
  exact disabled i

/-- The round start of slot 0 finds nothing to switch, load or clear, and emits ROUND START (R8, R9, R15). -/
theorem State.risen_switchRound : (State.risen selnLow free pending).switchRound = State.risenWith selnLow free pending [.roundStart .a] := by
  have cleared : (State.risenWith selnLow free pending [.roundStart .a]).clearRoundCounts = State.risenWith selnLow free pending [.roundStart .a] := by
    unfold State.clearRoundCounts
    rw [State.handAll_of_disabled]
    · rfl
    · exact State.risen_monitors selnLow free pending [.roundStart .a]
  calc (State.risen selnLow free pending).switchRound
      = (State.risenWith selnLow free pending [.roundStart .a]).clearRoundCounts := rfl
    _ = State.risenWith selnLow free pending [.roundStart .a] := cleared

theorem State.risen_expireDue : (State.risenWith selnLow free pending [.roundStart .a]).expireDue = State.risenWith selnLow free pending [.roundStart .a] := by
  have none : (State.risenWith selnLow free pending [.roundStart .a]).dueEntries = [] := rfl
  rw [State.expireDue, none, List.foldl_nil]

theorem State.risen_handAges : (State.risenWith selnLow free pending [.roundStart .a]).handAges = State.risenWith selnLow free pending [.roundStart .a] :=
  State.handAll_of_disabled (State.risen_monitors selnLow free pending [.roundStart .a]) _

/-- With nothing queued the outcome of slot 0 is IDLE (R54). -/
theorem State.risen_decideSlot : (State.risenWith selnLow free pending [.roundStart .a]).decideSlot = { lost := none, outcome := .idle } := rfl

/-- No entry is enabled, so ROUND START is taken with nothing fired (R149). -/
theorem State.risen_settle (g : GlobalCounters → GlobalCounters) :
    ((State.risenWith selnLow free pending [.roundStart .a]).countGlobal g).settle =
      (State.risenWith selnLow (free + 1) pending []).countGlobal g := rfl

end

/-- Settles O6: the first slot start, part by part. -/
theorem leavingReset : Obligations.LeavingReset := by
  refine ⟨fun selnLow free pending => ?_, fun selnLow s run => ?_⟩
  · have left : exec (.rstnReturnsHigh selnLow) { State.reset with free := free, pending := pending } =
        .next (State.risen selnLow free pending).roundStart.handAges.runSlot.settle := rfl
    rw [left, State.roundStart, State.risen_switchRound, State.risen_expireDue, State.risen_handAges, State.runSlot, State.risen_decideSlot]
    exact congrArg Host.Outcome.next (State.risen_settle selnLow free pending _)
  · simp only [exec, execRstnReturnsHigh, run]

end Machine
end Sys2Proof
end

section
/-! Slot starts (R3, R5 to R7, R15, R16, R40 to R58): their own work, who may issue, and the outcome of the decision. -/

namespace Sys2Proof
namespace Machine

/-! ### A slot start's own work -/

theorem exec_slotStart_atDecision {s : State} (run : s.line = .running) : exec .slotStart s = .next s.atDecision.runSlot.settle :=
  exec_slotStart_of_running run

theorem ScheduleUnit.lastSlot_iff (u : ScheduleUnit) : u.lastSlot = true ↔ u.activeTable.roundLength ≤ u.slot + 1 := decide_eq_true_iff

theorem ScheduleUnit.lastSlot_of_lt {u : ScheduleUnit} (inside : u.slot + 1 < u.activeTable.roundLength) : u.lastSlot = false :=
  Bool.eq_false_iff.2 fun last => absurd (u.lastSlot_iff.1 last) (by omega)

/-- The schedule unit after a slot start that is a round start (R5, R6, R7, R9, R15). -/
theorem State.startSlot_round_sched {s : State} (last : s.sched.lastSlot = true) :
    s.startSlot.sched =
      { s.sched with
        slot := 0, round := s.sched.round + 1, slotCount := s.sched.slotCount + 1, active := s.sched.pendingTarget.getD s.sched.active
        pendingTarget := none, remaining := (s.sched.table (s.sched.pendingTarget.getD s.sched.active)).allowance } := by
  rw [s.startSlot_round last]
  simp only [State.handAges_fields, State.someTimeoutsArrive_fields, State.roundStart_sched]
  cases s.sched.pendingTarget.getD s.sched.active <;> rfl

theorem State.startSlot_inside_sched {s : State} (inside : s.sched.lastSlot = false) :
    s.startSlot.sched = { s.sched with slot := s.sched.slot + 1, slotCount := s.sched.slotCount + 1 } := by
  rw [s.startSlot_inside inside]
  simp

/-- What every slot start leaves of the state. -/
theorem State.startSlot_rest (s : State) :
    s.startSlot.sched.tableA = s.sched.tableA ∧ s.startSlot.sched.tableB = s.sched.tableB ∧
      s.startSlot.sched.slackPointer = s.sched.slackPointer ∧ s.startSlot.counters.global = s.counters.global ∧
      s.startSlot.pool = s.pool ∧ s.startSlot.writes = s.writes ∧ s.startSlot.flight.output = s.flight.output ∧
      s.startSlot.flight.turn = s.flight.turn ∧ s.startSlot.flight.offer = s.flight.offer ∧ s.startSlot.intake = s.intake ∧
      s.startSlot.restart = s.restart := by
  cases last : s.sched.lastSlot with
  | false =>
    rw [s.startSlot_inside last]
    simp
  | true =>
    rw [s.startSlot_round_sched last, s.startSlot_round last]
    simp

theorem State.startSlot_slotCount (s : State) : s.startSlot.sched.slotCount = s.sched.slotCount + 1 := by
  cases last : s.sched.lastSlot with
  | false => rw [s.startSlot_inside_sched last]
  | true => rw [s.startSlot_round_sched last]

/-- Every slot start ends with the head ages handed out (R16, R41). -/
theorem State.startSlot_ends_handAges (s : State) : ∃ b : State, s.startSlot = b.handAges ∧ b.pool = s.pool ∧ MonitorsSame s b := by
  cases last : s.sched.lastSlot with
  | false => exact ⟨_, s.startSlot_inside last, rfl, .refl _⟩
  | true =>
    refine ⟨_, s.startSlot_round last, by simp, ?_⟩
    have begun := SlotFrame.setSched s { s.sched with slot := 0, round := s.sched.round + 1, slotCount := s.sched.slotCount + 1 }
    have switched := begun.trans (.switchRound _)
    have expired := switched.trans (.of (.expireDue _))
    exact (expired.trans (.of (.someTimeoutsArrive _))).monitors

/-- The AGE monitor of a queue that is not empty takes the result of the age handed out (R41, R142). -/
theorem State.handAges_last {s : State} {i : Fin 4} {p : PartitionId} (enabled : s.monitors[i].enabled = true)
    (watched : s.monitors[i].quantity = .age p) (held : s.head p ≠ none) :
    s.handAges.monitors[i].last = s.monitors[i].result (s.handAges.headAge p).toNat := by
  obtain ⟨object, rfl⟩ := Monitor.quantity_age_only watched
  have same : MonitorsSame s s.handAges := .handAll s _
  have stale : s.AgesBut allPartitions := fun j _ _ outside => absurd (mem_allPartitions _) outside
  have handed := stale.handAll ((allPartitions.filter fun p => (s.head p).isSome).map Quantity.age)
  have config := same i
  have current := handed i ((same.enabled i).trans enabled) ((congrArg Monitor.object config).trans object) fun outside => by
    have argument : s.handAges.monitors[i].argument = s.monitors[i].argument := by rw [← config]
    rw [List.mem_filter, decide_eq_true_eq] at outside
    refine outside.2 (List.mem_map_of_mem (List.mem_filter.2 ⟨mem_allPartitions _, ?_⟩))
    change (s.head (byteIndex 8 s.handAges.monitors[i].argument)).isSome = true
    rw [argument, Option.isSome_iff_ne_none]
    exact held
  rw [State.handAges, current]
  change Monitor.result s.handAges.monitors[i] (s.handAges.quantity s.handAges.monitors[i].quantity) = _
  rw [same.quantity i, watched, ← config]
  rfl

theorem State.startSlot_age_last {s : State} {i : Fin 4} {p : PartitionId} (enabled : s.monitors[i].enabled = true)
    (watched : s.monitors[i].quantity = .age p) (held : s.head p ≠ none) :
    s.startSlot.monitors[i].last = s.monitors[i].result (s.startSlot.headAge p).toNat := by
  obtain ⟨b, made, pool, same⟩ := s.startSlot_ends_handAges
  have head : b.head p = s.head p := by rw [State.head, State.head, pool]
  rw [made, State.handAges_last ((same.enabled i).trans enabled) ((same.quantity i).trans watched) (by rwa [head]), ← same i]
  rfl

theorem ScheduleUnit.activeNext_eq (u : ScheduleUnit) : u.activeNext = u.pendingTarget.getD u.active := rfl

/-- The per-round counts are cleared at a round start (R135). -/
theorem State.startSlot_round_counts {s : State} (last : s.sched.lastSlot = true) (p : PartitionId) :
    s.startSlot.counters.parts[p] = { s.counters.parts[p] with lostRound := 0, retriedRound := 0 } := by
  rw [s.startSlot_round last]
  simp only [State.handAges_fields, State.someTimeoutsArrive_fields]
  exact State.roundStart_counts _ p

/-- SWITCH is pending once the active table has changed (R16). -/
theorem State.startSlot_round_switch {s : State} (last : s.sched.lastSlot = true) (switched : s.startSlot.sched.active ≠ s.sched.active) :
    s.startSlot.attention.isPending .switch = true := by
  rw [s.startSlot_round_sched last] at switched
  rw [s.startSlot_round last]
  simp only [State.handAges_fields]
  refine (AttentionGrows.someTimeoutsArrive _).isPending _ ?_
  obtain ⟨_, taken⟩ := State.roundStart_raised
    { s with sched := { s.sched with slot := 0, round := s.sched.round + 1, slotCount := s.sched.slotCount + 1 } }
  exact (taken switched).2

/-- Settles O7: a slot start inside the round and one that is a round start, each by what it leaves of the schedule unit and what it emits. -/
theorem slotStartTiming : Obligations.SlotStartTiming := by
  refine ⟨fun u => ⟨rfl, rfl, by cases active : u.active <;> simp [ScheduleUnit.activeTable, ScheduleUnit.table, active]⟩, ?_⟩
  rintro s w run rfl
  have decision : s.atDecision = s.settleTimeouts.startSlot := rfl
  rw [decision]
  obtain ⟨tableA, tableB, pointer, global, pool, writes, output, turn, offer, intake, restart⟩ := s.settleTimeouts.startSlot_rest
  refine ⟨exec_slotStart_atDecision run, State.startSlot_slotCount _, fun inside => ?_, fun end_ => ?_,
    fun i p enabled watched held => State.startSlot_age_last enabled watched held, tableA, tableB, pointer, global, pool, writes, output, turn,
    offer, intake, restart, SlotFrame.startSlot _⟩
  · have last := ScheduleUnit.lastSlot_of_lt inside
    refine ⟨State.startSlot_inside_sched last, ?_, ?_, ?_, ?_, State.startSlot_inside_emits _ last⟩
    all_goals
      rw [State.startSlot_inside _ last]
      simp
  · have last := (ScheduleUnit.lastSlot_iff _).2 end_
    have sched := State.startSlot_round_sched last
    obtain ⟨n, due, expired, handed, raised, trigger, control⟩ := State.startSlot_expired _ last
    have active : s.settleTimeouts.startSlot.sched.active = s.settleTimeouts.sched.activeNext := by rw [sched, ScheduleUnit.activeNext_eq]
    refine ⟨by rw [sched], by rw [sched], by rw [sched], by rw [sched], ?_, State.startSlot_round_counts last, ?_,
      State.startSlot_round_switch last, trigger, control, n, due, expired, handed⟩
    · rw [sched]
      cases s.settleTimeouts.sched.pendingTarget.getD s.settleTimeouts.sched.active <;> rfl
    · rw [active]
      exact raised

/-! ### Who may issue (R37, R40, R41, R48, R52) -/

theorem PoolEntry.inQueue_eq (p : PartitionId) (e : PoolEntry) : e.inQueue p = decide (e.state = .waiting ∧ e.partition = p) := by
  rw [Bool.eq_iff_iff, e.inQueue_iff p, decide_eq_true_iff]

theorem PoolEntry.not_inQueue_iff (p : PartitionId) (e : PoolEntry) : e.inQueue p = false ↔ ¬(e.state = .waiting ∧ e.partition = p) := by
  rw [← e.inQueue_iff p, Bool.not_eq_true]

theorem State.head_eq_queue_head (s : State) (p : PartitionId) : s.head p = (s.queue p).head? := by
  rw [State.queue, List.head?_filter, State.head]

theorem State.headAge_eq (s : State) (p : PartitionId) :
    s.headAge p = match s.queue p with | [] => 0 | e :: _ => s.sched.slotCount - e.stamp := by
  rw [State.headAge, s.head_eq_queue_head]
  cases s.queue p <;> rfl

theorem PoolEntry.ready_iff (e : PoolEntry) : e.ready = true ↔ e.kind = .read ∨ (e.kind = .write ∧ e.dataComplete = some true) := by
  cases kind : e.kind <;> simp [PoolEntry.ready, kind]

theorem PartitionState.mayIssue_iff (x : PartitionState) : x.mayIssue = true ↔ x = .run ∨ x = .closing := by
  cases x <;> simp [PartitionState.mayIssue]

/-- Eligible: the state allows issue and the head is ready (R48). -/
theorem State.eligible_iff (s : State) (p : PartitionId) :
    s.eligible p = true ↔ (s.parts[p].state = .run ∨ s.parts[p].state = .closing) ∧ ∃ e, s.head p = some e ∧ e.ready = true := by
  rw [State.eligible, Bool.and_eq_true, PartitionState.mayIssue_iff]
  cases s.head p <;> simp

theorem State.qualifies_iff (s : State) (p : PartitionId) :
    s.qualifies p = true ↔ s.eligible p = true ∧ s.parts[p].slack = true ∧ 1 ≤ s.sched.remaining[p] := by
  rw [State.qualifies, Bool.and_eq_true, Bool.and_eq_true, decide_eq_true_iff, and_assoc]

/-- Settles O9. -/
theorem whoMayIssue : Obligations.WhoMayIssue := by
  refine ⟨fun s p => ⟨?_, s.head_eq_queue_head p, (s.headAge_eq p).trans ?_⟩, fun s p => ⟨?_, s.qualifies_iff p⟩⟩
  · exact List.filter_congr fun e _ => e.inQueue_eq p
  · cases s.queue p <;> rfl
  · refine (s.eligible_iff p).trans (and_congr_right fun _ => ?_)
    constructor
    · rintro ⟨e, head, ready⟩
      obtain ⟨inQueue, before, after, pool, earlier⟩ := (s.head_iff p e).1 head
      obtain ⟨waiting, partition⟩ := (PoolEntry.inQueue_iff p e).1 inQueue
      exact ⟨before, e, after, pool, fun x hx => (PoolEntry.not_inQueue_iff p x).1 (earlier x hx), waiting, partition, e.ready_iff.1 ready⟩
    · rintro ⟨before, e, after, pool, earlier, waiting, partition, ready⟩
      refine ⟨e, (s.head_iff p e).2 ⟨(PoolEntry.inQueue_iff p e).2 ⟨waiting, partition⟩, before, after, pool, fun x hx => ?_⟩,
        e.ready_iff.2 ready⟩
      exact (PoolEntry.not_inQueue_iff p x).2 (earlier x hx)

end Machine
end Sys2Proof
end

section
/-! The outcome of a slot (R3, R43 to R58): the decision, the slots in which nothing is issued, the owned issue and the slack issue. -/

namespace Sys2Proof
namespace Machine

/-! ### The decision (R43 to R54) -/

theorem ScheduleUnit.slotEntry_of {u : ScheduleUnit} {i : Fin 32} (slot : u.slot = i.val) : u.slotEntry = u.activeTable.entries[i] := by
  rw [ScheduleUnit.slotEntry, dif_pos (by rw [slot]; exact i.isLt)]
  simp only [slot]
  rfl

theorem State.stalled_eq_false {s : State} {d : DTag} (free : s.flight.table[d] = .free) (output : s.flight.output = none) : s.stalled = false := by
  rw [← Bool.not_eq_true, s.stalled_iff]
  rintro (full | taken)
  · exact full d free
  · exact taken output

section
variable {s : State} (idle : s.restart.phase = .idle)
include idle

theorem State.decideSlot_of_quiet (entry : s.sched.slotEntry = .quiet) : s.decideSlot = { lost := none, outcome := .quiet } := by
  rw [State.decideSlot, if_neg (not_not.2 idle)]
  simp only [entry]

theorem State.decideSlot_of_stalled (entry : s.sched.slotEntry ≠ .quiet) (stalled : s.stalled = true) :
    s.decideSlot = { lost := none, outcome := .stalled } := by
  rw [State.decideSlot, if_neg (not_not.2 idle)]
  cases slot : s.sched.slotEntry with
  | quiet => exact absurd slot entry
  | openSlot => simp only [stalled, if_true]
  | owned p lend => simp only [stalled, if_true]

theorem State.decideSlot_of_open (entry : s.sched.slotEntry = .openSlot) (open_ : s.stalled = false) :
    s.decideSlot = { lost := none, outcome := s.slackOutcome } := by
  rw [State.decideSlot, if_neg (not_not.2 idle)]
  simp only [entry, open_, Bool.false_eq_true, if_false]

theorem State.decideSlot_of_owned {p : PartitionId} {lend : Bool} (entry : s.sched.slotEntry = .owned p lend) (open_ : s.stalled = false)
    (eligible : s.eligible p = true) : s.decideSlot = { lost := none, outcome := .ownedIssue p } := by
  rw [State.decideSlot, if_neg (not_not.2 idle)]
  simp only [entry, open_, eligible, Bool.false_eq_true, if_false, if_true]

theorem State.decideSlot_of_lost {p : PartitionId} {lend : Bool} (entry : s.sched.slotEntry = .owned p lend) (open_ : s.stalled = false)
    (notEligible : s.eligible p = false) : s.decideSlot = { lost := some p, outcome := if lend then s.slackOutcome else .idle } := by
  rw [State.decideSlot, if_neg (not_not.2 idle)]
  simp only [entry, open_, notEligible, Bool.false_eq_true, if_false]

end

theorem State.slackOutcome_of_none {s : State} (none : ∀ p : PartitionId, s.qualifies p = false) : s.slackOutcome = .idle := by
  rw [State.slackOutcome, s.slackWinner_none none]

theorem State.runSlot_of {s : State} {lost : Option PartitionId} {outcome : SlotOutcome} (decision : s.decideSlot = { lost := lost, outcome := outcome }) :
    s.runSlot = (s.chargeLost lost).applyOutcome outcome := by
  rw [State.runSlot, decision]

/-! ### Nothing issued (R54) -/

theorem bumpRound_eq (n : Nat) : bumpRound n = if n < 65535 then n + 1 else n := rfl

/-- The counters after a loss (R44). -/
theorem State.countLost_counters (s : State) (p : PartitionId) :
    (s.countLost p).counters =
      countersWith s p fun c =>
        { c with lostOwned := c.lostOwned + 1, lostRound := if c.lostRound < 65535 then c.lostRound + 1 else c.lostRound } := by
  simp only [State.countLost, State.hand_fields]
  rfl

theorem DataPathFrame.countGlobal_idle (s : State) : DataPathFrame s (s.countGlobal fun c => { c with idle := c.idle + 1 }) :=
  ⟨rfl, rfl, rfl, rfl, rfl, fun _ => rfl, .quiet rfl fun _ h => h, rfl, rfl, rfl, rfl, rfl, rfl, rfl, rfl⟩

/-- Settles O8: the decision is read off the phase, the slot's entry and the path, and its outcome moves one counter. -/
theorem slotWithoutIssue : Obligations.SlotWithoutIssue := by
  refine ⟨fun v p q f => ?_, fun s run => ⟨fun busy => ?_, fun i slot => ⟨fun idle quiet => ?_, fun idle busy full => ?_, fun idle entry free output none => ?_,
    fun p lend idle entry free output notEligible none => ?_⟩⟩⟩
  · rw [modifyAt_get]
    by_cases same : q = p
    · rw [if_pos same.symm, if_pos same]
    · rw [if_neg (Ne.symm same), if_neg same]
  · rw [exec_slotStart_atDecision run, State.runSlot_of (State.decideSlot_phase _ busy)]
    rfl
  · rw [← ScheduleUnit.slotEntry_of slot] at quiet
    rw [exec_slotStart_atDecision run, State.runSlot_of (State.decideSlot_of_quiet idle quiet)]
    rfl
  · rw [← ScheduleUnit.slotEntry_of slot] at busy
    rw [exec_slotStart_atDecision run, State.runSlot_of (State.decideSlot_of_stalled idle busy ((State.stalled_iff _).2 full))]
    rfl
  · obtain ⟨d, free⟩ := free
    rw [← ScheduleUnit.slotEntry_of slot] at entry
    rw [exec_slotStart_atDecision run, State.runSlot_of (State.decideSlot_of_open idle entry (State.stalled_eq_false free output)),
      State.slackOutcome_of_none none]
    rfl
  · obtain ⟨d, free⟩ := free
    rw [← ScheduleUnit.slotEntry_of slot] at entry
    have decision := State.decideSlot_of_lost idle entry (State.stalled_eq_false free output) notEligible
    have outcome : (if lend then s.atDecision.slackOutcome else .idle) = SlotOutcome.idle := by
      cases lend with
      | false => rfl
      | true => exact State.slackOutcome_of_none (none rfl)
    rw [outcome] at decision
    refine ⟨(s.atDecision.countLost p).countGlobal fun c => { c with idle := c.idle + 1 }, ?_, ?_, by simp, by simp, by simp, by simp, by simp, by simp,
      by simp, by simp, ?_, ?_⟩
    · rw [exec_slotStart_atDecision run, State.runSlot_of decision]
      rfl
    · change Counters.mk _ _ = _
      rw [State.countLost_counters]
      rfl
    · exact (SlotFrame.of (.chargeLost _ (some p))).trans (.of (.countGlobal_idle _))
    · have sent : Sends s.atDecision ((s.atDecision.countLost p).countGlobal fun c => { c with idle := c.idle + 1 }) [] [.lostRound p] :=
        (Sends.countLost s.atDecision p).same_after rfl rfl
      exact sent.emits

/-! ### Issues (R48 to R58) -/

theorem DataPathFrame.countPart_of (s : State) (p : PartitionId) (f : PartitionCounters → PartitionCounters) : DataPathFrame s (s.countPart p f) :=
  ⟨rfl, rfl, rfl, rfl, rfl, fun _ => rfl, .quiet rfl fun _ h => h, rfl, rfl, rfl, rfl, rfl, rfl, rfl, rfl⟩

/-- What an issue does does not depend on the counts that are not its own. -/
theorem Issued.congr {a b u v : State} {p : PartitionId} {e : PoolEntry} {d : DTag} (h : Issued a u p e d)
    (before : a.pool = b.pool ∧ a.flight = b.flight ∧ a.parts = b.parts ∧ a.sched = b.sched ∧ a.writes = b.writes ∧ a.intake = b.intake ∧
      a.restart = b.restart ∧ a.attention = b.attention ∧ a.counters.global = b.counters.global)
    (after : v.pool = u.pool ∧ v.flight = u.flight ∧ v.writes = u.writes ∧ v.intake = u.intake ∧ v.restart = u.restart ∧ v.parts = u.parts ∧
      v.attention = u.attention ∧ v.counters.global = u.counters.global) : Issued b v p e d := by
  obtain ⟨pool, flight, parts, sched, writes, intake, restart, attention, global⟩ := before
  obtain ⟨pool', flight', writes', intake', restart', parts', attention', global'⟩ := after
  have record (pair : Pair) : b.findRecord pair = a.findRecord pair := by rw [State.findRecord, State.findRecord, writes]
  obtain ⟨p1, p2, p3, p4, p5, p6, p7⟩ := h
  constructor
  · rwa [← pool, pool']
  · rwa [← flight, ← parts, ← sched, flight']
  · rwa [record, flight']
  · rwa [← flight, flight']
  · rwa [← writes, writes']
  · rwa [← writes, writes']
  · rwa [← intake, ← restart, ← parts, ← attention, ← global, intake', restart', parts', attention', global']

/-- Settles O10: the decision is the owner's issue, and the act of issue is that of `Issued`. -/
theorem ownedIssue : Obligations.OwnedIssue := by
  intro s i p lend e d run idle slot entry output free lower eligible head
  rw [← ScheduleUnit.slotEntry_of slot] at entry
  have decision := State.decideSlot_of_owned idle entry (State.stalled_eq_false free output) eligible
  have lowest := State.lowestFree_some _ d free lower
  refine ⟨(s.atDecision.issue p).countPart p fun c => { c with ownedIssues := c.ownedIssues + 1 }, ?_, ?_, by simp, by simp, ?_, ?_⟩
  · rw [exec_slotStart_atDecision run, State.runSlot_of decision]
    rfl
  · exact (State.issue_issued _ p e d head lowest).congr ⟨rfl, rfl, rfl, rfl, rfl, rfl, rfl, rfl, rfl⟩ ⟨rfl, rfl, rfl, rfl, rfl, rfl, rfl, rfl⟩
  · exact (State.issue_slotFrame _ p).trans (.of (.countPart_of _ p _))
  · have sent : Sends s.atDecision ((s.atDecision.issue p).countPart p fun c => { c with ownedIssues := c.ownedIssues + 1 }) [] (issueMoved p e) :=
      (Sends.issue _ p e d head lowest).same_after rfl rfl
    exact sent.emits

theorem State.slackOutcome_of_some {s : State} {k : Fin 8} {w : PartitionId} (winner : w = s.sched.slackPointer + k)
    (earlier : ∀ j : Fin 8, j < k → s.qualifies (s.sched.slackPointer + j) = false) (qualifies : s.qualifies w = true) :
    s.slackOutcome = .slackIssue w := by
  subst winner
  rw [State.slackOutcome, s.slackWinner_some k qualifies earlier]

/-- The issue of a slack winner, with its charge and its counter (R51 to R53, R55 to R58). -/
theorem State.slackIssue_issued {s : State} {w : PartitionId} {e : PoolEntry} {d : DTag} (head : s.head w = some e) (lowest : s.lowestFree = some d) :
    Issued s (s.applyOutcome (.slackIssue w)) w e d ∧
      (s.applyOutcome (.slackIssue w)).counters.parts = modifyAt s.counters.parts w (fun c => { c with slackIssues := c.slackIssues + 1 }) ∧
      (s.applyOutcome (.slackIssue w)).sched =
        { s.sched with remaining := modifyAt s.sched.remaining w (fun n => n - 1), slackPointer := w + 1 } ∧
      SlotFrame s (s.applyOutcome (.slackIssue w)) ∧ Sends s (s.applyOutcome (.slackIssue w)) [] (issueMoved w e) := by
  refine ⟨?_, by simp [State.applyOutcome], ?_, ?_, ?_⟩
  · exact (s.issue_issued w e d head lowest).congr ⟨rfl, rfl, rfl, rfl, rfl, rfl, rfl, rfl, rfl⟩ ⟨rfl, rfl, rfl, rfl, rfl, rfl, rfl, rfl⟩
  · simp [State.applyOutcome, State.chargeSlack]
  · exact ((s.issue_slotFrame w).trans (SlotFrame.setSched _ _)).trans (.of (.countPart_of _ w _))
  · exact (Sends.issue s w e d head lowest).same_after rfl rfl

/-- Settles O11: the first partition from the pointer on that qualifies is issued, in an OPEN slot and in an owned one that is lost and lent. -/
theorem slackIssue : Obligations.SlackIssue := by
  intro s i k w e d run idle slot output free lower winner earlier qualifies head
  have open_ := State.stalled_eq_false free output
  have lowest := State.lowestFree_some _ d free lower
  have outcome := State.slackOutcome_of_some winner earlier qualifies
  refine ⟨fun entry => ?_, fun p entry notEligible => ?_⟩
  · rw [← ScheduleUnit.slotEntry_of slot] at entry
    have decision := State.decideSlot_of_open idle entry open_
    rw [outcome] at decision
    obtain ⟨issued, counters, sched, frame, sent⟩ := State.slackIssue_issued head lowest
    exact ⟨_, by rw [exec_slotStart_atDecision run, State.runSlot_of decision]; rfl, issued, counters, sched, frame, sent.emits⟩
  · rw [← ScheduleUnit.slotEntry_of slot] at entry
    have decision := State.decideSlot_of_lost idle entry open_ notEligible
    rw [outcome] at decision
    have head' : (s.atDecision.countLost p).head w = some e := by simpa [State.head] using head
    have lowest' : (s.atDecision.countLost p).lowestFree = some d := by simpa [State.lowestFree] using lowest
    obtain ⟨issued, counters, sched, frame, sent⟩ := State.slackIssue_issued head' lowest'
    refine ⟨(s.atDecision.countLost p).applyOutcome (.slackIssue w), ?_, ?_, ?_, ?_, ?_, ?_⟩
    · rw [exec_slotStart_atDecision run, State.runSlot_of decision]
      rfl
    · exact issued.congr (by simp) ⟨rfl, rfl, rfl, rfl, rfl, rfl, rfl, rfl⟩
    · rw [counters, State.countLost_counters]
      rfl
    · rw [sched]
      simp
    · exact (SlotFrame.of (.chargeLost _ (some p))).trans frame
    · exact ((Sends.countLost _ p).trans sent).emits

end Machine
end Sys2Proof
end

section
/-! The intake and the expiries (R61 to R78, R84, R102, R115, R118 to R120): requests turned away, requests accepted, and cancels. -/

namespace Sys2Proof
namespace Machine

/-! ### Expiries (R102, R161) -/

theorem State.timeoutArrives_of_cons {s : State} {record : FaultRecord} {rest : List FaultRecord} (waiting : s.flight.timeouts = record :: rest) :
    s.timeoutArrives = State.storeFault { s with flight := { s.flight with timeouts := rest } } record := by
  simp only [State.timeoutArrives, waiting]

theorem State.timeoutArrives_of_nil {s : State} (none : s.flight.timeouts = []) : s.timeoutArrives = s := by
  simp only [State.timeoutArrives, none]

theorem State.storeFault_latched (s : State) (record : FaultRecord) : (s.storeFault record).attention.latched = latchedByFault s := by
  unfold State.storeFault latchedByFault Config.faultRecords
  dsimp only
  split <;> rfl

/-- Settles O13: the expiries that are due, then one fault that reaches the queue. -/
theorem deadlineExpiry : Obligations.DeadlineExpiry := by
  refine ⟨fun s run => ?_, fun s run taken none notDue => ?_, fun s none => State.settleTimeouts_nil none, fun s record rest waiting => ?_⟩
  · obtain ⟨expired, handed, silent⟩ := s.expireDue_arrives_expired
    refine ⟨s.expireDue.timeoutArrives, s.dueEntries, exec_deadlineExpiry_of_running run, expired, handed,
      silent _ (by decide) (by decide) (by decide), silent _ (by decide) (by decide) (by decide), silent _ (by decide) (by decide) (by decide),
      by simp, by simp, by simp, by simp, by simp, by simp, by simp, by simp, ?_⟩
    exact (DataPathFrame.expireDue s).trans (.timeoutArrives _)
  · have nothingDue : s.expireDue = s := by rw [State.expireDue, s.dueEntries_nil notDue, List.foldl_nil]
    rw [exec_deadlineExpiry_of_running run, nothingDue, State.timeoutArrives_of_nil none, State.settle_of_taken taken]
  · have arrived := s.timeoutArrives_arrived
    have sent := Sends.timeoutArrives s
    rw [waiting] at arrived sent
    refine ⟨s.timeoutArrives, State.settleTimeouts_cons waiting, ?_, arrived, ?_, by simp, by simp, by simp, by simp, by simp, by simp,
      .timeoutArrives s, sent.emits⟩
    · rw [State.timeoutArrives_of_cons waiting]
      simp
    · rw [State.timeoutArrives_of_cons waiting, State.storeFault_latched]
      rfl

/-! ### The verdict (R63) -/

theorem State.verdict_of_restart {s : State} (r : Request) (busy : s.restart.phase ≠ .idle) : s.verdict r = .retry := by
  rw [State.verdict, if_pos busy]

section
variable {s : State} {r : Request} (idle : s.restart.phase = .idle)
include idle

theorem State.verdict_of_misshapen (misshapen : r.wellShaped = false) : s.verdict r = .refused .shape := by
  simp [State.verdict, idle, misshapen]

variable (shaped : r.wellShaped = true)
include shaped

theorem State.verdict_of_duplicate (held : r.pair ∈ s.intake.heldPairs) : s.verdict r = .tagErr := by
  simp [State.verdict, idle, shaped, held]

variable (new : r.pair ∉ s.intake.heldPairs)
include new

theorem State.verdict_of_unmapped (unmapped : s.mapped r.pair.initiator = none) : s.verdict r = .refused .unmapped := by
  simp [State.verdict, idle, shaped, new, unmapped]

variable {p : PartitionId} (mapped : s.mapped r.pair.initiator = some p)
include mapped

theorem State.verdict_of_off (off : s.parts[p].state = .off) : s.verdict r = .refused .closed := by
  simp only [State.verdict, idle, shaped, mapped, off]
  simp [new]

theorem State.verdict_of_closing (closing : s.parts[p].state = .closing) : s.verdict r = .retry := by
  simp only [State.verdict, idle, shaped, mapped, closing]
  simp [new]

theorem State.verdict_of_open (open_ : s.parts[p].state = .run ∨ s.parts[p].state = .hold) : s.verdict r = s.admits r p := by
  rcases open_ with run | hold
  · simp only [State.verdict, idle, shaped, mapped, run]
    simp [new]
  · simp only [State.verdict, idle, shaped, mapped, hold]
    simp [new]

end

theorem State.admits_of_outside {s : State} {r : Request} {p : PartitionId} (outside : s.regionPasses r p = false) :
    s.admits r p = .refused .range := by
  simp [State.admits, outside]

theorem State.admits_of_full {s : State} {r : Request} {p : PartitionId} (inside : s.regionPasses r p = true)
    (full : s.heldCount p = s.parts[p].quota) : s.admits r p = .retry := by
  simp [State.admits, inside, full]

theorem State.admits_of_noRoom {s : State} {r : Request} {p : PartitionId} (inside : s.regionPasses r p = true)
    (room : s.heldCount p ≠ s.parts[p].quota) (write : r.kind = some .write)
    (noRoom : 256 - s.writes.reserved < r.beats ∨ 48 ≤ s.writes.records.length) : s.admits r p = .retry := by
  have full : s.writeRoom r.beats = false := by
    rw [← Bool.not_eq_true, s.writeRoom_iff]
    omega
  simp only [State.admits, inside, if_neg room, write, full]
  simp

theorem State.admits_of_room {s : State} {r : Request} {p : PartitionId} (inside : s.regionPasses r p = true)
    (room : s.heldCount p ≠ s.parts[p].quota) (writeRoom : r.kind = some .write → s.writeRoom r.beats = true) : s.admits r p = .accepted p := by
  rw [State.admits, if_neg (by simp [inside]), if_neg room, if_neg]
  rw [Bool.and_eq_true, beq_iff_eq, Bool.not_eq_true']
  rintro ⟨write, full⟩
  exact absurd ((writeRoom write).symm.trans full) (by decide)

/-! ### A request by its verdict (R63, R75 to R77) -/

theorem State.intakeReady_of {s : State} (run : s.line = .running) (empty : s.intake.refusal = none) : s.intakeReady = true :=
  s.intakeReady_iff.2 ⟨by rw [run]; decide, empty⟩

section
variable {i : Instr} {r : Request} {s : State} (request : requestOf i = some r) (run : s.line = .running)
include request run

/-- While the refusal slot holds a response no request is taken (R61, R75). -/
theorem exec_request_of_full (taken : s.CausesTaken) (full : s.intake.refusal ≠ none) : exec i s = .next s := by
  have notReady : ¬s.intakeReady = true := fun ready => full (s.intakeReady_iff.1 ready).2
  rw [exec_request request, event_running run, State.takeRequest, if_neg notReady, State.settle_of_taken taken]

theorem exec_request_of_verdict (empty : s.intake.refusal = none) {v : Verdict} (verdict : s.verdict r = v) :
    exec i s = .next (s.applyVerdict r v).settle := by
  rw [exec_request request, event_running run, State.takeRequest, if_pos (State.intakeReady_of run empty), verdict]

variable (empty : s.intake.refusal = none)
include empty

theorem exec_request_retried (verdict : s.verdict r = .retry) {mapped : Option PartitionId} (map : s.mapped r.pair.initiator = mapped) :
    ∃ u : State, exec i s = .next u.settle ∧ TurnedAway s u r .retry [] (retryMoved mapped) ∧ u.counters = retryCounters s mapped ∧ NoFault s u := by
  subst map
  exact ⟨_, exec_request_of_verdict request run empty verdict, s.applyVerdict_retry r⟩

theorem exec_request_refused {kind : FaultKind} (verdict : s.verdict r = .refused kind) {mapped : Option PartitionId}
    (map : s.mapped r.pair.initiator = mapped) :
    ∃ u : State, exec i s = .next u.settle ∧ TurnedAway s u r .refused [.fault kind] [.faults] ∧ u.counters = refusedCounters s mapped ∧
      FaultRecorded s u kind mapped (some r.pair) (faultAddress kind r.address) none ∧ u.attention.latched = latchedByFault s := by
  subst map
  exact ⟨_, exec_request_of_verdict request run empty verdict, s.refuse_with_fault r .refused kind (faultAddress kind r.address) _ rfl⟩

theorem exec_request_tagErr (verdict : s.verdict r = .tagErr) :
    ∃ u : State, exec i s = .next u.settle ∧ TurnedAway s u r .tagErr [.fault .tag] [.faults] ∧
      u.counters = refusedCounters s (s.mapped r.pair.initiator) ∧ FaultRecorded s u .tag (s.mapped r.pair.initiator) (some r.pair) none none ∧
        u.attention.latched = latchedByFault s :=
  ⟨_, exec_request_of_verdict request run empty verdict, s.refuse_with_fault r .tagErr .tag none _ rfl⟩

end

theorem State.heldCount_eq (s : State) (p : PartitionId) : s.heldCount p = (s.pool.filter fun e => decide (e.partition = p)).length := by
  rw [State.heldCount, List.countP_eq_length_filter]
  rfl

/-- Settles O15: each check answers with its verdict, and each verdict is carried out in one way. -/
theorem requestTurnedAway : Obligations.RequestTurnedAway := by
  refine ⟨fun s => s.intakeReady_iff, fun s i p => ⟨rfl, s.heldCount_eq p⟩,
    fun i r s request run taken full => exec_request_of_full request run taken full, fun i r s request run empty => ?_⟩
  refine ⟨fun busy => ?_, fun idle misshapen => ?_, fun idle shaped held => ?_, fun idle shaped new => ⟨fun unmapped => ?_, fun p mapped =>
    ⟨fun off => ?_, fun closing => ?_, fun open_ => ⟨fun outside => ?_, fun inside full => ?_, fun inside room write noRoom => ?_⟩⟩⟩⟩
  · exact exec_request_retried request run empty (State.verdict_of_restart r busy) rfl
  · exact exec_request_refused request run empty (State.verdict_of_misshapen idle misshapen) rfl
  · exact exec_request_tagErr request run empty (State.verdict_of_duplicate idle shaped held)
  · exact exec_request_refused request run empty (State.verdict_of_unmapped idle shaped new unmapped) unmapped
  · exact exec_request_refused request run empty (State.verdict_of_off idle shaped new mapped off) mapped
  · exact exec_request_retried request run empty (State.verdict_of_closing idle shaped new mapped closing) mapped
  · have verdict := State.verdict_of_open idle shaped new mapped open_
    exact exec_request_refused request run empty (verdict.trans (State.admits_of_outside outside)) mapped
  · have verdict := State.verdict_of_open idle shaped new mapped open_
    exact exec_request_retried request run empty (verdict.trans (State.admits_of_full inside full)) mapped
  · have verdict := State.verdict_of_open idle shaped new mapped open_
    exact exec_request_retried request run empty (verdict.trans (State.admits_of_noRoom inside room write noRoom)) mapped

/-! ### Acceptance (R74, R84) -/

/-- An acceptance of a named kind appends this entry. -/
theorem State.accept_entry (s : State) {r : Request} {k : AccessKind} (kind : r.kind = some k) (p : PartitionId) :
    (s.accept r p).pool =
      s.pool ++
        [{ partition := p, pair := r.pair, kind := k, address := r.address, beats := r.beats, stamp := s.sched.slotCount
           dataComplete := if k = .write then some false else none, state := .waiting }] := by
  unfold State.accept
  dsimp only
  cases k with
  | read => simp [kind, State.enqueue, State.newEntry]
  | write => simp [kind, State.enqueue, State.newEntry]

theorem State.head_isNone_iff (s : State) (p : PartitionId) : (s.head p).isNone = true ↔ s.queue p = [] := by
  rw [s.head_eq_queue_head, Option.isNone_iff_eq_none, List.head?_eq_none_iff]

/-- Settles O16: what no check stops is accepted, and an acceptance does this. -/
theorem requestAccepted : Obligations.RequestAccepted := by
  intro i r k p s request kind run empty idle shaped new mapped open_ inside room writeRoom
  have noWriteStop : r.kind = some .write → s.writeRoom r.beats = true := fun write =>
    (s.writeRoom_iff r.beats).2 (writeRoom (Option.some.inj (kind.symm.trans write)))
  have verdict := (State.verdict_of_open idle shaped new mapped open_).trans (State.admits_of_room inside room noWriteStop)
  obtain ⟨writes, other⟩ := s.accept_writes r p
  obtain ⟨intake, counters, flight, restart, parts, attention⟩ := s.accept_rest r p
  have sent := Sends.accept s r p k kind
  have ages : (if (s.head p).isNone then [Quantity.age p] else []) = if s.queue p = [] then [.age p] else [] :=
    if_congr (s.head_isNone_iff p) rfl rfl
  rw [ages] at sent
  refine ⟨s.accept r p, exec_request_of_verdict request run empty verdict, s.accept_entry kind p, intake, counters, fun read => ?_, fun write => ?_,
    flight, restart, parts, attention, .accept s r p, sent.emits⟩
  · exact other (by rw [kind, read]; decide)
  · have opened := writes (by rw [kind, write])
    exact ⟨by rw [opened], by rw [opened]; rfl⟩

/-! ### Cancels (R78, R118 to R120) -/

theorem State.waitingFor_of_exists {s : State} {pair : Pair} (some_ : ∃ e ∈ s.pool, e.state = .waiting ∧ e.pair = pair) :
    ∃ e, s.waitingFor pair = some e ∧ e ∈ s.pool ∧ e.state = .waiting ∧ e.pair = pair := by
  obtain ⟨x, here, waiting, mine⟩ := some_
  have found : (s.waitingFor pair).isSome = true := List.find?_isSome.2 ⟨x, here, by simp [(x.isWaiting_iff).2 waiting, mine]⟩
  obtain ⟨e, eq⟩ := Option.isSome_iff_exists.1 found
  have holds := List.find?_some eq
  rw [Bool.and_eq_true, beq_iff_eq, e.isWaiting_iff] at holds
  exact ⟨e, eq, List.mem_of_find?_eq_some eq, holds.1, holds.2⟩

theorem State.waitingFor_of_none {s : State} {pair : Pair} (absent : ∀ e ∈ s.pool, e.state = .waiting → e.pair ≠ pair) : s.waitingFor pair = none := by
  refine List.find?_eq_none.2 fun e here chosen => ?_
  rw [Bool.and_eq_true, beq_iff_eq, e.isWaiting_iff] at chosen
  exact absent e here chosen.1 chosen.2

/-- Settles O17: the entry that waits for the pair is withdrawn, or the cancel is counted. -/
theorem cancelOutcome : Obligations.CancelOutcome := by
  refine ⟨fun ini tag s run taken full => ?_, fun ini tag s run empty => ⟨fun some_ => ?_, fun absent => ?_⟩⟩
  · have notReady : ¬s.intakeReady = true := fun ready => full (s.intakeReady_iff.1 ready).2
    rw [exec_cancel_of_running run, State.takeCancel, if_neg notReady, State.settle_of_taken taken]
  · obtain ⟨e, found, here, waiting, mine⟩ := State.waitingFor_of_exists some_
    have made : s.takeCancel { initiator := ini, tag := tag } = s.withdrawPair e.partition { initiator := ini, tag := tag } .cancelled := by
      rw [State.takeCancel, if_pos (State.intakeReady_of run empty)]
      simp only [found]
    refine ⟨s.withdrawPair e.partition { initiator := ini, tag := tag } .cancelled, e, ?_, here, waiting, mine, (Sends.withdrawPair ..).emits, ?_, ?_,
      by simp, by simp, by simp, by simp, by simp, ?_, ?_⟩
    · rw [exec_cancel_of_running run, made]
    · simp [State.withdrawPair]
    · simp [State.withdrawPair]
    · simp [NoFault]
    · rw [← made]
      exact .takeCancel s _
  · rw [exec_cancel_of_running run, State.takeCancel, if_pos (State.intakeReady_of run empty)]
    simp only [State.waitingFor_of_none absent]
    cases s.mapped ini <;> rfl

end Machine
end Sys2Proof
end

section
/-! Withdrawals, write data and answers (R38, R81, R85, R86, R89, R94 to R101, R115). -/

namespace Sys2Proof
namespace Machine

/-! ### Withdrawals (R38, R89) -/

/-- The answer of a write is held back while its record receives (R38). -/
theorem State.holdsBack_iff (s : State) (e : PoolEntry) :
    s.holdsBack e = true ↔ e.kind = .write ∧ ∃ r ∈ s.writes.records, r.pair = e.pair ∧ r.state = .receiving ∧ 1 ≤ r.received := by
  simp [State.holdsBack, and_assoc]

theorem State.withdrawnEntry_of_chosen {s : State} {chosen : PoolEntry → Bool} {e : PoolEntry} (waiting : e.state = .waiting) (hit : chosen e = true)
    (status : WithdrawalStatus) : s.withdrawnEntry chosen status e = { e with state := .answering status (!s.holdsBack e) } := by
  rw [State.withdrawnEntry, if_pos (by rw [(e.isWaiting_iff).2 waiting, hit]; rfl)]

theorem State.withdrawnEntry_of_other {s : State} {chosen : PoolEntry → Bool} {e : PoolEntry} (other : e.state ≠ .waiting ∨ chosen e = false)
    (status : WithdrawalStatus) : s.withdrawnEntry chosen status e = e := by
  rw [State.withdrawnEntry, if_neg]
  rw [Bool.and_eq_true, e.isWaiting_iff]
  rintro ⟨waiting, hit⟩
  exact other.elim (fun h => h waiting) fun h => absurd (h.symm.trans hit) (by decide)

/-- A write of this record's pair is withdrawn. -/
def State.hits (s : State) (chosen : PoolEntry → Bool) (r : OpenWrite) : Bool :=
  s.pool.any fun e => e.reserves && chosen e && e.pair == r.pair

theorem State.hits_iff (s : State) (chosen : PoolEntry → Bool) (r : OpenWrite) :
    s.hits chosen r = true ↔ ∃ e ∈ s.pool, e.state = .waiting ∧ e.kind = .write ∧ chosen e = true ∧ e.pair = r.pair := by
  simp only [State.hits, List.any_eq_true, Bool.and_eq_true, beq_iff_eq, PoolEntry.reserves_iff, and_assoc]

theorem State.mem_withdrawn_records (s : State) (chosen : PoolEntry → Bool) (status : WithdrawalStatus) (x : OpenWrite) :
    x ∈ (s.withdraw chosen status).writes.records ↔
      ∃ r ∈ s.writes.records, (if s.hits chosen r = true then r.afterWithdrawal else some r) = some x :=
  List.mem_filterMap

theorem OpenWrite.afterWithdrawal_of_freed {r : OpenWrite} (freed : r.state = .complete ∨ (r.state = .receiving ∧ r.received = 0)) :
    r.afterWithdrawal = none := by
  rcases freed with complete | ⟨receiving, nothing⟩
  · simp only [OpenWrite.afterWithdrawal, complete]
  · simp only [OpenWrite.afterWithdrawal, receiving, nothing, if_true]

theorem OpenWrite.afterWithdrawal_of_some {r : OpenWrite} (receiving : r.state = .receiving) (some_ : 1 ≤ r.received) :
    r.afterWithdrawal = some { r with state := .discarding, owner := none, stored := [] } := by
  simp only [OpenWrite.afterWithdrawal, receiving, if_neg (show ¬r.received = 0 by omega)]

/-- A record that a withdrawal leaves is as it was, or begins to discard (R89). -/
theorem OpenWrite.afterWithdrawal_cases {r x : OpenWrite} (left : r.afterWithdrawal = some x) :
    x = r ∨ (r.state = .receiving ∧ 1 ≤ r.received ∧ x = { r with state := .discarding, owner := none, stored := [] }) := by
  unfold OpenWrite.afterWithdrawal at left
  split at left
  · exact absurd left (by simp)
  · next receiving =>
    split at left
    · exact absurd left (by simp)
    · next more => exact .inr ⟨receiving, Nat.one_le_iff_ne_zero.2 more, (Option.some.inj left).symm⟩
  · exact .inl (Option.some.inj left).symm

theorem OpenWrite.afterWithdrawal_pair {r x : OpenWrite} (left : r.afterWithdrawal = some x) : x.pair = r.pair :=
  (OpenWrite.afterWithdrawal_discarding left).2

/-- What is kept of a list keeps its keys in order. -/
theorem map_filterMap_sublist {α β : Type} {f : α → Option α} {g : α → β} (kept : ∀ a b, f a = some b → g b = g a) (l : List α) :
    ((l.filterMap f).map g).Sublist (l.map g) := by
  induction l with
  | nil => exact .refl _
  | cons a l ih =>
    cases left : f a with
    | none =>
      rw [List.filterMap_cons_none left]
      exact ih.cons _
    | some b =>
      rw [List.filterMap_cons_some left, List.map_cons, List.map_cons, kept a b left]
      exact ih.cons_cons _

/-- Settles O18: a withdrawn entry by whether its answer is held back, and a record by whether a withdrawn write is its own. -/
theorem withdrawalOfOneEntry : Obligations.WithdrawalOfOneEntry := by
  intro s chosen status kept
  have ⟨_, distinct, _⟩ := kept
  have answering {e : PoolEntry} (here : e ∈ s.pool) (waiting : e.state = .waiting) (hit : chosen e = true) {back : Bool}
      (held : s.holdsBack e = back) : { e with state := .answering status (!back) } ∈ (s.withdraw chosen status).pool := by
    subst held
    rw [State.withdraw_pool, ← State.withdrawnEntry_of_chosen waiting hit]
    exact List.mem_map_of_mem here
  refine ⟨fun e here waiting hit => ⟨fun read => ?_, fun r inRecords write mine => ⟨fun freed => ⟨?_, fun x left => ?_⟩, fun receiving some_ => ⟨?_, ?_⟩⟩⟩, rfl,
    fun e other => State.withdrawnEntry_of_other other status, fun e waiting hit => ⟨!s.holdsBack e, State.withdrawnEntry_of_chosen waiting hit status, ?_⟩,
    rfl, fun r inRecords other => ?_, fun x left => ?_, ?_, rfl⟩
  · refine answering here waiting hit (back := false) (Bool.eq_false_iff.2 fun held => ?_)
    exact absurd (read.symm.trans ((s.holdsBack_iff e).1 held).1) (by decide)
  · refine answering here waiting hit (back := false) (Bool.eq_false_iff.2 fun held => ?_)
    obtain ⟨_, x, inToo, same, receiving, more⟩ := (s.holdsBack_iff e).1 held
    obtain rfl := State.record_unique distinct inToo inRecords (same.trans mine.symm)
    rcases freed with complete | ⟨_, nothing⟩
    · exact absurd (complete.symm.trans receiving) (by decide)
    · omega
  · intro same
    obtain ⟨y, inToo, becomes⟩ := (s.mem_withdrawn_records chosen status x).1 left
    have hit' : ∀ z : OpenWrite, z.pair = e.pair → s.hits chosen z = true := fun z own =>
      (s.hits_iff chosen z).2 ⟨e, here, waiting, write, hit, own.symm⟩
    have pair : y.pair = e.pair := by
      split at becomes
      · exact (OpenWrite.afterWithdrawal_pair becomes).symm.trans same
      · rw [Option.some.inj becomes]
        exact same
    obtain rfl := State.record_unique distinct inToo inRecords (pair.trans mine.symm)
    rw [if_pos (hit' y pair), OpenWrite.afterWithdrawal_of_freed freed] at becomes
    exact absurd becomes (by simp)
  · exact answering here waiting hit (back := true) ((s.holdsBack_iff e).2 ⟨write, r, inRecords, mine, receiving, some_⟩)
  · refine (s.mem_withdrawn_records chosen status _).2 ⟨r, inRecords, ?_⟩
    rw [if_pos ((s.hits_iff chosen r).2 ⟨e, here, waiting, write, hit, mine.symm⟩), OpenWrite.afterWithdrawal_of_some receiving some_]
  · rw [Bool.not_eq_false', s.holdsBack_iff]
  · refine (s.mem_withdrawn_records chosen status _).2 ⟨r, inRecords, if_neg ?_⟩
    rw [s.hits_iff]
    rintro ⟨e, here, waiting, write, hit, mine⟩
    exact other e here waiting write hit mine
  · obtain ⟨r, inRecords, becomes⟩ := (s.mem_withdrawn_records chosen status x).1 left
    split at becomes
    · rcases OpenWrite.afterWithdrawal_cases becomes with rfl | ⟨receiving, some_, rfl⟩
      · exact .inl inRecords
      · exact .inr ⟨r, inRecords, receiving, some_, rfl⟩
    · rw [← Option.some.inj becomes]
      exact .inl inRecords
  · refine map_filterMap_sublist (fun r x becomes => ?_) s.writes.records
    split at becomes
    · exact OpenWrite.afterWithdrawal_pair becomes
    · rw [Option.some.inj becomes]

/-! ### Beats that are gathered (R85, R86) -/

theorem State.takeBeat_of_receiving {s : State} {pair : Pair} {r : OpenWrite} (found : s.findRecord pair = some r) (state : r.state = .receiving)
    (data : Beat) (last : Bool) : s.takeBeat pair data last = s.gather r data last := by
  simp only [State.takeBeat, found, state]

theorem State.gather_of_more {s : State} {r : OpenWrite} (more : r.received + 1 < r.declared) (data : Beat) :
    s.gather r data false = s.updateRecord r.pair (OpenWrite.store data) := by
  rw [State.gather, if_neg, if_neg (by simp)]
  simp only [OpenWrite.breaks, Bool.false_eq_true, if_false, decide_eq_true_eq]
  omega

theorem State.gather_of_last {s : State} {r : OpenWrite} (last : r.received + 1 = r.declared) (data : Beat) :
    s.gather r data true = s.completeWrite r data := by
  rw [State.gather, if_neg, if_pos (by simp [last])]
  simp only [OpenWrite.breaks, if_true, decide_eq_true_eq]
  omega

theorem State.gather_of_broken {s : State} {r : OpenWrite} {last : Bool}
    (broken : (last = true ∧ r.received + 1 < r.declared) ∨ (last = false ∧ r.received + 1 = r.declared)) (data : Beat) :
    s.gather r data last = s.breakWrite r := by
  rw [State.gather, if_pos]
  rcases broken with ⟨rfl, early⟩ | ⟨rfl, missing⟩
  · simp [OpenWrite.breaks, early]
  · simp [OpenWrite.breaks, missing]

/-- Settles O19: a beat that breaks nothing is stored, and the last one completes the record and its entry. -/
theorem beatGathered : Obligations.BeatGathered := by
  refine ⟨fun pair s => ?_, fun ini tag data r s run found receiving => ⟨fun more => ?_, fun last owner => ?_⟩⟩
  · rw [State.findRecord]
    congr 1
  · rw [exec_writeDataBeat_of_running run, State.takeBeat_of_receiving found receiving, State.gather_of_more more, State.findRecord_pair found]
    rfl
  · have marked : PoolEntry.completeFor (some { initiator := ini, tag := tag }) = fun e : PoolEntry =>
        if e.isWaiting = true ∧ e.pair = { initiator := ini, tag := tag } then { e with dataComplete := some true } else e := by
      funext e
      refine if_congr ?_ rfl rfl
      rw [Bool.and_eq_true, beq_iff_eq, Option.some.injEq, eq_comm (a := e.pair)]
    rw [exec_writeDataBeat_of_running run, State.takeBeat_of_receiving found receiving, State.gather_of_last last, State.completeWrite,
      State.findRecord_pair found, owner, marked]
    rfl

/-! ### Broken writes (R86, R94) -/

/-- A recorded fault is one for every state with the same queue and clock before, and the same queue and more causes after. -/
theorem FaultRecorded.congr {a b u v : State} {kind : FaultKind} {partition : Option PartitionId} {pair : Option Pair} {address : Option Addr}
    {dtag : Option DTag} (h : FaultRecorded a u kind partition pair address dtag) (queue : a.attention.queue = b.attention.queue)
    (sched : a.sched = b.sched) (attention : v.attention = u.attention) (causes : ∀ c ∈ u.triggers.raised, c ∈ v.triggers.raised) :
    FaultRecorded b v kind partition pair address dtag := by
  obtain ⟨stored, dropped, raised⟩ := h
  rw [FaultRecorded, ← queue, ← sched, attention]
  exact ⟨stored, dropped, causes _ raised⟩

/-- A fault recorded in a state with the same queue, clock and latched causes. -/
theorem State.recordFault_recorded_of {a s : State} (attention : a.attention = s.attention) (sched : a.sched = s.sched) (kind : FaultKind)
    (partition : Option PartitionId) (pair : Option Pair) (address : Option Addr) (dtag : Option DTag) :
    FaultRecorded s (a.recordFault kind partition pair address dtag) kind partition pair address dtag ∧
      (a.recordFault kind partition pair address dtag).attention.latched = latchedByFault s := by
  obtain ⟨recorded, latched⟩ := a.recordFault_recorded kind partition pair address dtag
  refine ⟨recorded.congr (by rw [attention]) sched rfl fun _ h => h, latched.trans ?_⟩
  rw [latchedByFault, latchedByFault, attention]

theorem Sends.breakWrite (s : State) (r : OpenWrite) : Sends s (s.breakWrite r) [.fault .wdata] [.age r.partition, .wbuf, .faults] := by
  have withdrawn := (Sends.withdrawPair { s with writes := { s.writes with records := s.writes.records.filter fun x => x.pair != r.pair } }
    r.partition r.pair .aborted).same_before (s := s) rfl rfl
  exact withdrawn.trans (.recordFault ..)

/-- Settles O20. -/
theorem beatBreaksWrite : Obligations.BeatBreaksWrite := by
  intro ini tag data last r s run found receiving broken
  obtain ⟨pool, records, reserved⟩ := s.breakWrite_work r
  have pair := State.findRecord_pair found
  obtain ⟨recorded, latched⟩ := State.recordFault_recorded_of (s := s)
    (a := State.withdrawPair { s with writes := { s.writes with records := s.writes.records.filter fun x => x.pair != r.pair } } r.partition r.pair
      .aborted) (by simp) (by simp) .wdata (some r.partition) (some r.pair) none none
  rw [pair] at pool records reserved
  refine ⟨s.breakWrite r, ?_, pool, records, reserved, ?_, latched, ?_, ?_, ?_, ?_, ?_, .breakWrite s r, (Sends.breakWrite s r).emits⟩
  · rw [exec_writeDataBeat_of_running run, State.takeBeat_of_receiving found receiving, State.gather_of_broken broken]
  · rw [← pair]
    exact recorded
  all_goals simp [State.breakWrite]

/-! ### Answers (R95 to R101) -/

theorem exec_answer_to {s : State} (run : s.line = .running) (d : DTag) (status : AnswerStatus) (data : List Beat) :
    exec (.answer d status data) s = .next (s.settleTimeouts.takeAnswer d status data).settle := exec_answer_of_running run d status data

theorem Transaction.outcome_okay {t : Transaction} {data : List Beat} (whole : t.kind = .write ∨ data.length = t.beats) :
    t.outcome .ok data = (.okay, if t.kind = .read then data else []) := by
  cases kind : t.kind with
  | write => simp only [Transaction.outcome, kind]; rfl
  | read =>
    have count : data.length = t.beats := whole.resolve_left (by rw [kind]; decide)
    simp only [Transaction.outcome, kind, if_pos count, if_true]

theorem Transaction.outcome_derr {t : Transaction} {status : AnswerStatus} {data : List Beat}
    (bad : status = .err ∨ (t.kind = .read ∧ data.length ≠ t.beats)) : t.outcome status data = (.derr, []) := by
  rcases bad with rfl | ⟨kind, count⟩
  · rfl
  · cases status with
    | err => rfl
    | ok => simp only [Transaction.outcome, kind, if_neg count]

/-- The entry of an answer, RETURNING with the last place in turn (R99). -/
theorem State.answerIssued_of_okay {s : State} {d : DTag} {t : Transaction} {status : AnswerStatus} {data beats : List Beat}
    (outcome : t.outcome status data = (.okay, beats)) :
    s.answerIssued d t status data = (s.setFlight d (.returning t .okay beats)).lastPlace d := by
  simp only [State.answerIssued, outcome]

theorem State.answerIssued_of_derr {s : State} {d : DTag} {t : Transaction} {status : AnswerStatus} {data beats : List Beat}
    (outcome : t.outcome status data = (.derr, beats)) :
    s.answerIssued d t status data =
      ((s.setFlight d (.returning t .derr beats)).lastPlace d).recordFault .downErr (some t.partition) (some t.pair) (some t.address) (some d) := by
  simp only [State.answerIssued, outcome, State.recordFlightFault]

theorem State.settleTimeouts_table (s : State) (d : DTag) : s.settleTimeouts.flight.table[d] = s.flight.table[d] := by
  rw [s.settleTimeouts_flight]

/-- Settles O22: an answer by what it makes of the entry, OKAY or DERR. -/
theorem takeAndAnswer : Obligations.TakeAndAnswer := by
  refine ⟨fun s run => exec_downstreamTake_of_running run, ?_⟩
  rintro d status data t s w run rfl issued
  have entry : s.settleTimeouts.flight.table[d] = .issued t := (s.settleTimeouts_table d).trans issued
  have flight := s.settleTimeouts_flight
  rw [exec_answer_to run, State.takeAnswer_of_issued entry]
  refine ⟨?_, fun bad => ?_⟩
  · rintro ⟨rfl, whole⟩
    rw [State.answerIssued_of_okay (Transaction.outcome_okay whole)]
    simp only [State.lastPlace, State.setFlight, flight]
  · have outcome := Transaction.outcome_derr bad
    have made := State.answerIssued_of_derr (s := s.settleTimeouts) (d := d) outcome
    obtain ⟨recorded, latched⟩ := State.recordFault_recorded_of (s := s.settleTimeouts)
      (a := (s.settleTimeouts.setFlight d (.returning t .derr [])).lastPlace d) rfl rfl .downErr (some t.partition) (some t.pair) (some t.address) (some d)
    refine ⟨s.settleTimeouts.answerIssued d t status data, rfl, ?_, ?_⟩
    · rw [State.answerIssued_flight, outcome, flight]
    · have frame := DataPathFrame.answerIssued s.settleTimeouts d t status data
      rw [made] at frame ⊢
      refine ⟨recorded, latched, by simp, by simp, by simp, by simp, by simp, by simp, frame, ?_⟩
      have faulted := Sends.recordFault ((s.settleTimeouts.setFlight d (.returning t .derr [])).lastPlace d) .downErr (some t.partition) (some t.pair)
        (some t.address) (some d)
      exact (faulted.same_before (s := s.settleTimeouts) rfl rfl).emits

theorem State.answerLate_eq (s : State) (d : DTag) (t : Transaction) (owed : Bool) :
    s.answerLate d t owed =
      State.handAll ((s.recordFault .late (some t.partition) (some t.pair) (some t.address) (some d)).setFlight d
        (if owed = true then .returning t .timeout [] else .free)) (if owed = true then [.orphans] else [.inFlight, .orphans]) := by
  cases owed <;> rfl

theorem Sends.answerLate (s : State) (d : DTag) (t : Transaction) (owed : Bool) :
    Sends s (s.answerLate d t owed) [.fault .late] (.faults :: if owed = true then [.orphans] else [.inFlight, .orphans]) := by
  have faulted := Sends.recordFault s .late (some t.partition) (some t.pair) (some t.address) (some d)
  rw [State.answerLate_eq]
  generalize s.recordFault .late (some t.partition) (some t.pair) (some t.address) (some d) = u at faulted ⊢
  exact (faulted.same_after (u := u.setFlight d _) rfl rfl).trans (.handAll _ _)

theorem State.handAll_raised_mem (s : State) (qs : List Quantity) : ∀ c ∈ s.triggers.raised, c ∈ (s.handAll qs).triggers.raised := by
  obtain ⟨l, more⟩ := s.handAll_raised qs
  intro c here
  rw [more]
  exact List.mem_append_left l here

/-- Settles O23: an answer that comes late, and one for an entry that expects none. -/
theorem answerLateOrStray : Obligations.AnswerLateOrStray := by
  rintro d status data s w run rfl
  have flight := s.settleTimeouts_flight
  rw [exec_answer_to run]
  refine ⟨fun t owed orphaned => ?_, fun other => ?_⟩
  · have entry : s.settleTimeouts.flight.table[d] = .orphaned t owed := (s.settleTimeouts_table d).trans orphaned
    have frame := DataPathFrame.answerLate s.settleTimeouts d t owed
    have after := s.settleTimeouts.answerLate_flight d t owed
    rw [flight] at after
    obtain ⟨recorded, latched⟩ := s.settleTimeouts.recordFault_recorded .late (some t.partition) (some t.pair) (some t.address) (some d)
    rw [State.takeAnswer_of_orphaned entry]
    refine ⟨_, rfl, after, ?_⟩
    have sent := Sends.answerLate s.settleTimeouts d t owed
    rw [State.answerLate_eq] at frame sent ⊢
    have handed := State.handAll_raised_mem
      ((s.settleTimeouts.recordFault .late (some t.partition) (some t.pair) (some t.address) (some d)).setFlight d
        (if owed = true then .returning t .timeout [] else .free)) (if owed = true then [.orphans] else [.inFlight, .orphans])
    refine ⟨FaultRecorded.congr recorded rfl rfl (by simp) handed, by simpa using latched, by simp, by simp, by simp, by simp, by simp, by simp, frame, ?_⟩
    exact sent.emits
  · have entry : s.settleTimeouts.flight.table[d] = .free ∨ ∃ t a beats, s.settleTimeouts.flight.table[d] = .returning t a beats := by
      rwa [s.settleTimeouts_table d]
    obtain ⟨recorded, latched⟩ := s.settleTimeouts.recordFault_recorded .strayAnswer none none none (some d)
    rw [State.takeAnswer_of_stray entry]
    exact ⟨_, rfl, recorded, latched, by simpa using flight, by simp, by simp, by simp, by simp, by simp, by simp, .recordFault .., (Sends.recordFault ..).emits⟩

end Machine
end Sys2Proof
end

section
/-! The response channel and the path restart (R39, R105 to R113, R126 to R133): what is offered, what is delivered, and how a restart begins and ends. -/

namespace Sys2Proof
namespace Machine

/-! ### The first response of each class (R105 to R109) -/

theorem RefusalStatus.response_eq (status : RefusalStatus) :
    status.response = match status with | .retry => .retry | .refused => .refused | .tagErr => .tagErr := by
  cases status <;> rfl

theorem PoolEntry.offer_of_released {e : PoolEntry} {status : WithdrawalStatus} (released : e.state = .answering status true) :
    e.offer = some { source := .withdrawn e.pair, record := { pair := e.pair, status := status.response, data := none } } := by
  simp only [PoolEntry.offer, released, if_true]

theorem PoolEntry.offer_of_other {e : PoolEntry} (other : ∀ y, e.state ≠ .answering y true) : e.offer = none := by
  unfold PoolEntry.offer
  cases state : e.state with
  | waiting => rfl
  | answering status released =>
    cases released with
    | false => rfl
    | true => exact absurd state (other status)

theorem State.firstOf_withdrawn_none {s : State} (none_ : ∀ x ∈ s.pool, ∀ y, x.state ≠ .answering y true) : s.firstOf .withdrawn = none :=
  List.findSome?_eq_none_iff.2 fun x here => PoolEntry.offer_of_other (none_ x here)

theorem State.firstOf_withdrawn_some {s : State} {before after : List PoolEntry} {e : PoolEntry} {status : WithdrawalStatus}
    (pool : s.pool = before ++ e :: after) (earlier : ∀ x ∈ before, ∀ y, x.state ≠ .answering y true) (released : e.state = .answering status true) :
    s.firstOf .withdrawn = some { source := .withdrawn e.pair, record := { pair := e.pair, status := status.response, data := none } } := by
  have skipped : before.findSome? PoolEntry.offer = none := List.findSome?_eq_none_iff.2 fun x here => PoolEntry.offer_of_other (earlier x here)
  rw [State.firstOf, pool, List.findSome?_append, skipped, Option.none_or, List.findSome?_cons_of_isSome, PoolEntry.offer_of_released released]
  rw [PoolEntry.offer_of_released released]
  rfl

theorem State.firstOf_inFlight_of_cons {s : State} {d : DTag} {ds : List DTag} (places : s.flight.places = d :: ds) {o : Offer}
    (offer : s.flight.table[d].offer d = some o) : s.firstOf .inFlight = some o := by
  simp only [State.firstOf, places, List.findSome?_cons, offer]

/-- Settles O24. -/
theorem firstOfEachClass : Obligations.FirstOfEachClass := by
  refine fun s => ⟨?_, fun before after e status pool earlier released => ?_, State.firstOf_withdrawn_none, fun d ds t places => ⟨fun a beats returning => ?_,
    fun orphaned => ?_⟩, fun empty => ?_⟩
  · simp only [State.firstOf, RefusalStatus.response_eq] <;> rfl
  · rw [State.firstOf_withdrawn_some pool earlier released, status.response_eq] <;> rfl
  · refine State.firstOf_inFlight_of_cons places ?_
    rw [returning, FlightEntry.offer, responseData_eq, a.response_eq] <;> rfl
  · refine State.firstOf_inFlight_of_cons places ?_
    rw [orphaned, FlightEntry.offer, if_pos rfl]
  · simp only [State.firstOf, empty, List.findSome?_nil]

/-! ### The arbiter (R107) -/

theorem State.choose_of_offer {s : State} (offered : s.flight.offer ≠ none) : s.choose = s := by
  obtain ⟨o, offer⟩ := Option.ne_none_iff_exists'.1 offered
  simp only [State.choose, offer]

section
variable {s : State} (none_ : s.flight.offer = none)
include none_

theorem State.choose_of_found {o : Offer} (found : s.flight.turn.order.findSome? s.firstOf = some o) :
    s.choose = { s with flight := { s.flight with offer := some o } } := by
  simp only [State.choose, none_, found]

theorem State.choose_of_nothing (nothing : s.flight.turn.order.findSome? s.firstOf = none) : s.choose = s := by
  simp only [State.choose, none_, nothing]

end

/-- Settles O25: the classes are asked in their order from the turn on. -/
theorem arbiterChoice : Obligations.ArbiterChoice := by
  intro s run
  rw [exec_arbiterChoice_of_running run]
  refine ⟨fun offered => by rw [State.choose_of_offer offered], fun none_ => ⟨fun o first => ?_, fun o first second => ?_, fun o first second third => ?_,
    fun refusal withdrawn inFlight => ?_⟩, rfl, rfl, rfl⟩
  · rw [State.choose_of_found none_ (o := o) (by simp only [ResponseClass.order, List.findSome?_cons, first])]
  · rw [State.choose_of_found none_ (o := o) (by simp only [ResponseClass.order, List.findSome?_cons, first, second])]
  · rw [State.choose_of_found none_ (o := o) (by simp only [ResponseClass.order, List.findSome?_cons, first, second, third])]
  · have all : ∀ c, s.firstOf c = none := by
      intro c
      cases c with
      | refusal => exact refusal
      | withdrawn => exact withdrawn
      | inFlight => exact inFlight
    rw [State.choose_of_nothing none_ (List.findSome?_eq_none_iff.2 fun c _ => all c)]

/-! ### Deliveries (R39, R105, R111 to R113) -/

theorem State.deliver_of_none {s : State} (none_ : s.flight.offer = none) : s.deliver = s := by
  simp only [State.deliver, none_]

/-- The state in which a response's source is finished with (R105, R107). -/
def State.offerTaken (s : State) (c : ResponseClass) : State := { s with flight := { s.flight with offer := none, turn := c } }

theorem State.deliver_of_offer {s : State} {source : ResponseSource} {record : ResponseRecord}
    (offered : s.flight.offer = some { source := source, record := record }) :
    s.deliver = ((s.offerTaken source.responseClass.after).finishSource source).restartCheck := by
  simp only [State.deliver, offered]
  rfl

theorem DataPathFrame.offerTaken (s : State) (c : ResponseClass) : DataPathFrame s (s.offerTaken c) :=
  ⟨rfl, rfl, rfl, rfl, rfl, fun _ => rfl, .quiet rfl fun _ h => h, rfl, rfl, rfl, rfl, rfl, rfl, rfl, rfl⟩

theorem PoolEntry.answersFor_iff (pair : Pair) (e : PoolEntry) :
    e.answersFor pair = true ↔ (∃ status, e.state = .answering status true) ∧ e.pair = pair := by
  rw [PoolEntry.answersFor, Bool.and_eq_true, beq_iff_eq, PoolEntry.isReleased]
  cases e.state <;> simp

/-- The first released answer of the pair leaves the pool (R39, R111). -/
theorem State.deliverWithdrawn_of {s : State} {pair : Pair} {before after : List PoolEntry} {e : PoolEntry} (pool : s.pool = before ++ e :: after)
    (earlier : ∀ x ∈ before, x.answersFor pair = false) (answers : e.answersFor pair = true) :
    s.deliverWithdrawn pair =
      ((({ s with pool := before ++ after }.releasePair pair).countPart e.partition fun c => { c with withdrawn := c.withdrawn + 1 }).hand
        (.queue e.partition)).closingCheck e.partition := by
  have found : s.pool.find? (PoolEntry.answersFor pair) = some e :=
    List.find?_eq_some_iff_append.2 ⟨answers, before, after, pool, fun x here => by simp [earlier x here]⟩
  have left : s.pool.eraseP (PoolEntry.answersFor pair) = before ++ after := by
    rw [pool, List.eraseP_append_right _ fun x here => by simp [earlier x here], List.eraseP_cons_of_pos answers]
  simp only [State.deliverWithdrawn, found, left]

theorem FlightAnswer.count_eq (a : FlightAnswer) (c : PartitionCounters) :
    a.count c = if a = .okay then { c with completedOk := c.completedOk + 1 } else { c with completedError := c.completedError + 1 } := by
  cases a <;> rfl

/-- The closing check at the end of an effect speaks of the partition records before it. -/
theorem State.closingCheck_checked_of {s a : State} (parts : a.parts = s.parts) (p : PartitionId) : ClosingChecked s (a.closingCheck p) p := by
  have checked := a.closingCheck_checked p
  rwa [ClosingChecked, parts] at checked

theorem Sends.closingCheck_of {s a : State} (parts : a.parts = s.parts) {qs : List Quantity} (sent : Sends s a [] qs) (p : PartitionId) :
    Sends s (a.closingCheck p) (closingCauses s (a.closingCheck p) p) qs := by
  have checked := sent.trans (.closingCheck a p)
  rwa [closingCauses_congr (s := s) parts rfl, List.nil_append, List.append_nil] at checked

/-- Settles O26: a delivery by the source of the record on offer. -/
theorem responseDelivery : Obligations.ResponseDelivery := by
  intro s run
  rw [exec_responseDelivery_of_running run]
  refine ⟨fun none_ taken => ?_, fun record offered => ?_, fun pair record before after e status offered pool earlier released mine => ?_,
    fun d record offered => ⟨fun t a beats returning => ?_, fun t orphaned => ?_⟩⟩
  · rw [State.deliver_of_none none_, State.settle_of_taken taken]
  · rw [State.deliver_of_offer offered]
    exact ⟨_, rfl, rfl⟩
  · rw [State.deliver_of_offer offered]
    have made := State.deliverWithdrawn_of (s := s.offerTaken .inFlight) (pair := pair) pool
      (fun x here => Bool.eq_false_iff.2 fun answers => have ⟨⟨y, state⟩, same⟩ := (x.answersFor_iff pair).1 answers; earlier x here same y state)
      ((e.answersFor_iff pair).2 ⟨⟨status, released⟩, mine⟩)
    have frame := (DataPathFrame.offerTaken s .inFlight).trans (.deliverWithdrawn _ pair)
    refine ⟨(s.offerTaken .inFlight).deliverWithdrawn pair, rfl, ?_⟩
    rw [made] at frame ⊢
    refine ⟨by simp, by simp [State.offerTaken], by simp [State.offerTaken, State.releasePair], by simp [State.offerTaken, countersWith, State.countPart], ?_,
      by simp [State.offerTaken], by simp [State.offerTaken], by simp [State.offerTaken], frame, ?_⟩
    · exact State.closingCheck_checked_of (by simp [State.offerTaken]) _
    · refine (Sends.closingCheck_of (by simp [State.offerTaken]) ?_ _).emits
      exact (Sends.hand _ _).same_before rfl rfl
  · rw [State.deliver_of_offer offered]
    have made : (s.offerTaken .refusal).deliverInFlight d =
        (((((s.offerTaken .refusal).leaveClass d .free).releasePair t.pair).countPart t.partition a.count).hand .inFlight).closingCheck t.partition := by
      have entry : (s.offerTaken .refusal).flight.table[d] = .returning t a beats := returning
      simp only [State.deliverInFlight, entry]
    have frame := (DataPathFrame.offerTaken s .refusal).trans (.deliverInFlight _ d)
    refine ⟨(s.offerTaken .refusal).deliverInFlight d, rfl, ?_⟩
    rw [made] at frame ⊢
    have count : a.count = fun c =>
        if a = .okay then { c with completedOk := c.completedOk + 1 } else { c with completedError := c.completedError + 1 } := funext a.count_eq
    refine ⟨by simp [State.offerTaken, State.leaveClass, State.releasePair], by simp [State.offerTaken, State.leaveClass, State.releasePair],
      by simp [State.offerTaken, countersWith, State.countPart, count, State.leaveClass, State.releasePair], ?_, by simp [State.offerTaken], by simp [State.offerTaken],
      by simp [State.offerTaken], by simp [State.offerTaken], frame, ?_⟩
    · exact State.closingCheck_checked_of (by simp [State.offerTaken]) _
    · refine (Sends.closingCheck_of (by simp [State.offerTaken]) ?_ _).emits
      exact (Sends.hand _ _).same_before rfl rfl
  · rw [State.deliver_of_offer offered]
    have entry : (s.offerTaken .refusal).flight.table[d] = .orphaned t true := orphaned
    have made : (s.offerTaken .refusal).finishSource (.inFlight d) =
        (((s.offerTaken .refusal).leaveClass d (.orphaned t false)).releasePair t.pair).countPart t.partition (FlightAnswer.count .timeout) := by
      simp only [State.finishSource, State.deliverInFlight, entry, if_true]
    exact congrArg (fun u : State => Host.Outcome.next u.restartCheck.settle) made

end Machine
end Sys2Proof
end

section
/-! PATH RESTART from its command to its end (R126 to R131). -/

namespace Sys2Proof
namespace Machine

/-! ### Frames whose effect is one of the data path (R168, R169) -/

/-- A frame that is taken closes with the state its effect makes. -/
theorem State.takeFrame_of_frame {s u : State} {status : Status} (idle : s.port.idle = true) (written extra : Nat) {effect : State → Taken}
    (eq : effect s = { state := u, status := status }) (frame : DataPathFrame s u) :
    s.takeFrame written extra effect = s.framed u status written extra :=
  s.takeFrame_of written extra effect _ idle eq frame.port frame.free

/-- With no cause left, a frame that changes nothing but the port leaves nothing for the trigger unit. -/
theorem State.settle_framed_self {s : State} (taken : s.CausesTaken) (status : Status) (written extra : Nat) :
    (s.framed s status written extra).settle = s.framed s status written extra := State.settle_of_taken taken

/-! ### The command (R126, R127) -/

def State.draining (s : State) : State := { s with restart := { s.restart with phase := .draining } }

theorem DataPathFrame.draining (s : State) : DataPathFrame s s.draining :=
  ⟨rfl, rfl, rfl, rfl, rfl, fun _ => rfl, .quiet rfl fun _ h => h, rfl, rfl, rfl, rfl, rfl, rfl, rfl, rfl⟩

/-- The state of DRAINING before its first check: every partition flushed (R127). -/
def State.allFlushed (s : State) : State := allPartitions.foldl State.flush s.draining

theorem State.allFlushed_restart (s : State) : s.allFlushed.restart = { s.restart with phase := .draining } := by
  obtain ⟨_, _, _, _, _, restart, _⟩ := State.flush_each allPartitions s.draining
  exact restart

theorem State.restartCheck_of_draining {v : State} (draining : v.restart.phase = .draining) : v.restartCheck = v.drainCheck := by
  simp only [State.restartCheck, draining]

theorem State.beginRestart_eq (s : State) : s.beginRestart = s.allFlushed.restartCheck := by
  rw [State.restartCheck_of_draining (by rw [s.allFlushed_restart])]
  rfl

theorem State.restartCommand_of_idle {s : State} (idle : s.restart.phase = .idle) :
    s.restartCommand = { state := s.allFlushed.restartCheck, status := .done } := by
  rw [State.restartCommand, if_neg (not_not.2 idle), s.beginRestart_eq]

theorem State.restartCommand_of_busy {s : State} (busy : s.restart.phase ≠ .idle) : s.restartCommand = { state := s, status := .busy } := if_pos busy

theorem DataPathFrame.restartCheck_allFlushed (s : State) : DataPathFrame s s.allFlushed.restartCheck := by
  rw [← s.beginRestart_eq]
  exact .beginRestart s

theorem State.allFlushed_waiting (s : State) : ∀ e ∈ s.allFlushed.pool, e.isWaiting = false := by
  obtain ⟨waiting, _⟩ := State.flush_each allPartitions s.draining
  exact fun e here => Bool.eq_false_iff.2 fun waits => (waiting e here waits).1 (mem_allPartitions e.partition)

/-- Where no entry waits nothing is reserved (R82). -/
theorem State.ReservationKept.none_reserved {s : State} (h : s.ReservationKept) (quiet : ∀ e ∈ s.pool, e.isWaiting = false) :
    s.writes.reserved = 0 := by
  obtain ⟨sum, _⟩ := h
  have nothing : s.pool.filter PoolEntry.reserves = [] :=
    List.filter_eq_nil_iff.2 fun e here => by simp [PoolEntry.reserves, quiet e here]
  rw [sum, nothing]
  rfl

/-- Every record but a DISCARDING one has a WAITING write of its pair in the pool (R83). -/
def State.RecordsAwaited (s : State) : Prop :=
  ∀ r ∈ s.writes.records, r.state ≠ .discarding → ∃ e ∈ s.pool, e.state = .waiting ∧ e.kind = .write ∧ e.pair = r.pair

theorem State.RecordsKept.awaited {s : State} (h : s.RecordsKept) : s.RecordsAwaited := by
  obtain ⟨_, _, owned, _⟩ := h
  intro r here open_
  obtain ⟨_, e, inPool, pair, kind, _, _, byState⟩ := owned r here
  refine ⟨e, inPool, ?_, kind, pair⟩
  cases state : r.state with
  | receiving =>
    rw [state] at byState
    exact byState.1
  | complete =>
    rw [state] at byState
    exact byState.1
  | discarding => exact absurd state open_

/-- A withdrawal leaves a record as it is only where its entry stays WAITING (R89). -/
theorem State.RecordsAwaited.withdraw {s : State} (h : s.RecordsAwaited) (chosen : PoolEntry → Bool) (status : WithdrawalStatus) :
    (s.withdraw chosen status).RecordsAwaited := by
  intro x here open_
  obtain ⟨r, old, left⟩ := (s.mem_withdrawn_records chosen status x).1 here
  split at left
  · exact absurd (OpenWrite.afterWithdrawal_discarding left).1 open_
  · next spared =>
    obtain rfl := Option.some.inj left
    obtain ⟨e, inPool, waiting, kind, pair⟩ := h r old open_
    have other : chosen e = false := Bool.eq_false_iff.2 fun hit => spared ((s.hits_iff chosen r).2 ⟨e, inPool, waiting, kind, hit, pair⟩)
    exact ⟨e, List.mem_map.2 ⟨e, inPool, State.withdrawnEntry_of_other (.inr other) status⟩, waiting, kind, pair⟩

theorem State.RecordsAwaited.flush_each {s : State} (h : s.RecordsAwaited) (l : List PartitionId) : (l.foldl State.flush s).RecordsAwaited := by
  refine List.foldlRecOn (motive := State.RecordsAwaited) l State.flush h fun u hu p _ => ?_
  have flushed := hu.withdraw (fun e => e.partition == p) .aborted
  rw [State.RecordsAwaited] at flushed ⊢
  rwa [u.flush_pool, u.flush_writes]

theorem State.RecordsAwaited.all_discarding {s : State} (h : s.RecordsAwaited) (quiet : ∀ e ∈ s.pool, e.isWaiting = false) :
    ∀ r ∈ s.writes.records, r.state = .discarding := by
  intro r here
  by_contra open_
  obtain ⟨e, inPool, waiting, _⟩ := h r here open_
  exact absurd ((quiet e inPool).symm.trans (e.isWaiting_iff.2 waiting)) (by decide)

theorem State.allFlushed_pool {s : State} (pairs : s.PairsKept) : s.allFlushed.pool = s.pool.map (s.withdrawnEntry (fun _ => true) .aborted) := by
  have pool := State.flush_each_pool allPartitions (s := s.draining) pairs.poolNodup
  refine pool.trans (List.map_congr_left fun e _ => ?_)
  simp only [State.withdrawnEntry, List.contains_iff_mem.2 (mem_allPartitions e.partition)]
  rfl

theorem State.allFlushed_entries (s : State) :
    List.Forall₂ (fun e x => if e.isWaiting = true then ∃ released : Bool, x = { e with state := .answering .aborted released } else x = e)
      s.pool s.allFlushed.pool := by
  refine (State.flush_each_entry allPartitions s.draining).imp fun e x each => ?_
  simpa only [mem_allPartitions, and_true] using each

theorem State.allFlushed_discarding {s : State} (records : s.RecordsKept) : ∀ r ∈ s.allFlushed.writes.records, r.state = .discarding := by
  have awaited : s.draining.RecordsAwaited := records.awaited
  have flushed : s.allFlushed.RecordsAwaited := awaited.flush_each allPartitions
  exact flushed.all_discarding s.allFlushed_waiting

theorem Sends.allFlushed (s : State) : Sends s s.allFlushed [] (allPartitions.flatMap fun p => [.age p, .wbuf]) :=
  (Sends.flushEach allPartitions s.draining).same_before rfl rfl

/-- Settles O27: the command flushes every partition, and the first check of DRAINING is `restartCheck`. -/
theorem pathRestartCommand : Obligations.PathRestartCommand := by
  intro extra s run port
  rw [exec_pathRestart_of_running run]
  constructor
  · intro idle
    obtain ⟨_, pairs, stay, reservation, frame, restart, intake, flight, parts, counters, attention⟩ :=
      State.flush_each allPartitions s.draining
    have reserved : s.ReservationKept → s.allFlushed.ReservationKept := reservation
    have sent := Sends.allFlushed s
    refine ⟨s.allFlushed, ?_, restart, s.allFlushed_waiting, s.allFlushed_entries, State.allFlushed_pool, pairs, stay,
      fun kept => (reserved kept).none_reserved s.allFlushed_waiting, State.allFlushed_discarding, intake, flight, parts,
      counters, attention, (DataPathFrame.draining s).trans frame, sent.emits⟩
    rw [State.takeFrame_of_frame port 0 extra (State.restartCommand_of_idle idle) (.restartCheck_allFlushed s)]
  · intro busy taken
    rw [State.takeFrame_of_frame port 0 extra (State.restartCommand_of_busy busy) (.refl s), State.settle_framed_self taken]

/-! ### The end of DRAINING (R129, R130) -/

theorem PoolEntry.isReleased_iff (e : PoolEntry) : e.isReleased = true ↔ ∃ status, e.state = .answering status true := by
  unfold PoolEntry.isReleased
  cases e.state with
  | waiting => simp
  | answering status released => cases released <;> simp

theorem FlightEntry.heldPair_none_iff (e : FlightEntry) :
    e.heldPair = none ↔ (∀ t, e ≠ .issued t) ∧ (∀ t a beats, e ≠ .returning t a beats) ∧ ∀ t, e ≠ .orphaned t true := by
  cases e with
  | free => simp [FlightEntry.heldPair]
  | issued t => simp [FlightEntry.heldPair]
  | returning t a beats => simp [FlightEntry.heldPair]
  | orphaned t owed => cases owed <;> simp [FlightEntry.heldPair]

/-- Nothing is left to drain (R129). -/
theorem State.drained_iff (s : State) :
    s.drained = true ↔ (∀ d : DTag, s.flight.table[d].heldPair = none) ∧ s.intake.refusal = none ∧ ∀ e ∈ s.pool, e.isReleased = false := by
  rw [State.drained, Bool.and_eq_true, Bool.and_eq_true, vector_all_toList_iff]
  simp only [List.all_eq_true, Option.isNone_iff_eq_none, Bool.not_eq_true', and_assoc]

/-- The records that entry to RELEASING frees (R130). -/
def State.discardingRecords (s : State) : List OpenWrite := s.writes.records.filter fun r => r.state == .discarding

theorem State.mem_discardingRecords (s : State) (r : OpenWrite) : r ∈ s.discardingRecords ↔ r ∈ s.writes.records ∧ r.state = .discarding := by
  simp [State.discardingRecords]

theorem State.enterReleasing_eq (s : State) : s.enterReleasing = s.discardingRecords.foldl State.freeDiscarding s.emptied := by
  have writes : s.emptied.writes = s.writes := by simp [State.emptied]
  rw [State.discardingRecords, ← writes]
  rfl

theorem Sends.emptied (s : State) : Sends s s.emptied [] [.inFlight, .orphans] := (Sends.handAll _ _).same_before rfl rfl

section
variable {s : State} (drained : s.drained = true)
include drained

/-- What drained holds at most orphans that owe nothing, and those are freed (R130). -/
theorem State.enterReleasing_table (d : DTag) : s.enterReleasing.flight.table[d] = .free := by
  have nothing := State.drained_flight drained d
  rw [s.enterReleasing_flight, mapAll_get]
  revert nothing
  cases s.flight.table[d] <;> simp [FlightEntry.freeOrphan, FlightEntry.heldPair]

end

/-- Each freed record has its pool entry, so no partition is made OFF (R32, R83). -/
theorem State.RecordsKept.enterReleasing_quiet {s : State} (h : s.RecordsKept) :
    s.enterReleasing.parts = s.parts ∧ Emits s s.enterReleasing [] [.inFlight, .orphans] := by
  obtain ⟨_, _, owned, _⟩ := h
  have entry : ∀ r ∈ s.discardingRecords, ∃ e ∈ s.emptied.pool, e.partition = r.partition := by
    intro r here
    obtain ⟨_, e, inPool, _, _, partition, _⟩ := owned r ((s.mem_discardingRecords r).1 here).1
    exact ⟨e, by simpa [State.emptied] using inPool, partition⟩
  obtain ⟨parts, sent⟩ := State.freeDiscarding_each_quiet s.discardingRecords s.emptied entry
  have all := (Sends.emptied s).trans sent
  rw [s.enterReleasing_eq]
  exact ⟨parts.trans (by simp [State.emptied]), all.emits⟩

/-- Where no entry waits every record is freed, and with it every answer released (R83, R130). -/
theorem State.RecordsKept.enterReleasing_empty {s : State} (h : s.RecordsKept) (quiet : ∀ e ∈ s.pool, e.isWaiting = false) :
    s.enterReleasing.writes.records = [] ∧ ∀ e ∈ s.enterReleasing.pool, e.isReleased = true := by
  obtain ⟨_, _, _, _, _, _, _, _, _, _, _, left, after⟩ := State.freeDiscarding_each s.discardingRecords s.emptied
  have discarding := h.all_discarding quiet
  rw [s.enterReleasing_eq]
  constructor
  · refine List.eq_nil_iff_forall_not_mem.2 fun r here => ?_
    obtain ⟨old, other⟩ := (left r).1 here
    have inRecords : r ∈ s.writes.records := by simpa [State.emptied] using old
    exact other r ((s.mem_discardingRecords r).2 ⟨inRecords, discarding r inRecords⟩) rfl
  · intro e here
    rcases after e here with released | ⟨old, waits | unnamed⟩
    · exact released
    · exact absurd ((quiet e (by simpa [State.emptied] using old)).symm.trans waits) (by decide)
    · have inPool : e ∈ s.pool := by simpa [State.emptied] using old
      obtain ⟨_, _, _, needed⟩ := h
      cases state : e.state with
      | waiting => exact absurd ((quiet e inPool).symm.trans (e.isWaiting_iff.2 state)) (by decide)
      | answering status released =>
        cases released with
        | true => exact e.isReleased_iff.2 ⟨status, state⟩
        | false =>
          obtain ⟨r, inRecords, pair⟩ := needed e inPool (.inr ⟨status, state⟩)
          exact absurd pair.symm (unnamed r ((s.mem_discardingRecords r).2 ⟨inRecords, discarding r inRecords⟩))

/-- Settles O28: DRAINING's check is `restartCheck`, its five conditions are `drained`, and entry to RELEASING frees the DISCARDING records one by one. -/
theorem endOfDraining : Obligations.EndOfDraining := by
  refine ⟨fun e => ⟨e.isWaiting_iff, e.isReleased_iff⟩, fun v draining => ?_⟩
  have phase : (v.restart.phase == .draining) = true := beq_iff_eq.2 draining
  rw [State.restartCheck_of_draining draining]
  refine ⟨?_, fun more => by rw [State.drainCheck, more, Bool.and_false, if_neg Bool.false_ne_true], fun drained => ?_⟩
  · rw [v.drained_iff]
    simp only [FlightEntry.heldPair_none_iff, forall_and, and_assoc]
  · rw [State.drainCheck, phase, drained, Bool.and_self, if_pos rfl]
    obtain ⟨restart, _, _, reserved, intake, counters, sched, queue, port, _, pairs, left, _⟩ :=
      State.freeDiscarding_each v.discardingRecords v.emptied
    rw [← v.enterReleasing_eq] at restart reserved intake counters sched queue port pairs left
    have began : v.enterReleasing.restart = { phase := .releasing, pulse := some 64 } := by
      rw [restart]
      simp [State.emptied, Config.drstnPulseClk]
    have flight := v.enterReleasing_flight
    refine ⟨began, by simp [State.drstnLow, began], State.enterReleasing_table drained, by rw [flight], by rw [flight], by rw [flight],
      by rw [flight], by rw [flight], by simp [reserved, State.emptied], fun r here => ?record, State.RecordsKept.enterReleasing_quiet,
      State.RecordsKept.enterReleasing_empty, by simp [pairs, State.emptied], by simp [intake, State.emptied], by simp [counters, State.emptied],
      by simp [sched, State.emptied], by simp [queue, State.emptied], by simp [port, State.emptied]⟩
    case record =>
      obtain ⟨old, other⟩ := (left r).1 here
      have inRecords : r ∈ v.writes.records := by simpa [State.emptied] using old
      exact ⟨inRecords, fun discarding => other r ((v.mem_discardingRecords r).2 ⟨inRecords, discarding⟩) rfl⟩

/-! ### The end of RELEASING (R131) -/

theorem State.released_iff (s : State) :
    s.released = true ↔ s.restart.pulse = none ∧ (∀ e ∈ s.pool, e.isWaiting = true) ∧ s.intake.refusal = none := by
  simp only [State.released, Bool.and_eq_true, List.all_eq_true, Option.isNone_iff_eq_none, and_assoc]

theorem State.releaseCheck_of_more {s : State} (more : ¬(s.released = true)) : s.releaseCheck = s :=
  if_neg fun due => more (Bool.and_eq_true_iff.1 due).2

section
variable {s : State} (releasing : s.restart.phase = .releasing)
include releasing

theorem State.releaseCheck_of_released (released : s.released = true) : s.releaseCheck = s.finishRestart := by
  simp only [State.releaseCheck, releasing, released, BEq.rfl, Bool.and_self, if_true]

theorem State.restartCheck_of_releasing : s.restartCheck = s.releaseCheck := by
  simp only [State.restartCheck, releasing]

end

/-- RELEASING with its pulse ended (R131). -/
def State.pulseEnded (s : State) : State := { s with restart := { phase := .releasing, pulse := none } }

theorem State.pulseEnded_released_iff (s : State) :
    s.pulseEnded.released = true ↔ (∀ e ∈ s.pool, e.isWaiting = true) ∧ s.intake.refusal = none := by
  rw [State.released_iff]
  exact and_iff_right rfl

theorem State.endPulse_of_pulse {s : State} {width : Nat} (restart : s.restart = { phase := .releasing, pulse := some width }) :
    s.endPulse = s.pulseEnded.releaseCheck := by
  rw [State.pulseEnded]
  simp only [State.endPulse, restart, Option.isSome_some, if_true]

/-- Settles O29: the check of RELEASING is `releaseCheck`, made at the end of the pulse and at each delivery. -/
theorem endOfReleasing : Obligations.EndOfReleasing := by
  refine ⟨fun s => ?_, fun s width run restart => ?_, fun v releasing => ?_, fun v idle => ?_⟩
  · simp only [State.drstnLow, Bool.or_eq_true, beq_iff_eq, ne_eq, ← Option.isSome_iff_ne_none]
  · rw [exec_drstnPulseEnd_of_running run, State.endPulse_of_pulse restart]
    constructor
    · intro all
      rw [State.releaseCheck_of_released rfl (s.pulseEnded_released_iff.2 all)]
      rfl
    · intro more
      rw [State.releaseCheck_of_more fun released => more (s.pulseEnded_released_iff.1 released)]
      rfl
  · rw [State.restartCheck_of_releasing releasing]
    constructor
    · intro all
      rw [State.releaseCheck_of_released releasing (v.released_iff.2 all)]
      rfl
    · intro more
      exact State.releaseCheck_of_more fun released => more (v.released_iff.1 released)
  · simp only [State.restartCheck, idle]

end Machine
end Sys2Proof
end

section
/-! Event lines and the trigger unit: edges, outputs, and the taking of causes (chapter 9). -/

namespace Sys2Proof
namespace Machine

/-! ### Event lines (R155 to R158) -/

theorem State.seeEdge_of_edge {s : State} {k : EventLine} {high : Bool} (edge : s.triggers.seen[k] = some (!high)) :
    s.seeEdge k high = (s.setSeen k high).raise (if high then .evinRise k else .evinFall k) := if_pos edge

theorem State.seeEdge_of_none {s : State} {k : EventLine} {high : Bool} (none_ : s.triggers.seen[k] ≠ some (!high)) : s.seeEdge k high = s := if_neg none_

/-- Settles O30, by whether the line has an edge and whether it has a seen level. -/
theorem eventInputs : Obligations.EventInputs := by
  intro k high s run
  rw [exec_evinEdge_of_running run, exec_evinFirstLevel_of_running run]
  refine ⟨fun edge => ?_, fun none_ taken => ?_, fun unseen => ?_, fun seen => ?_⟩
  · rw [State.seeEdge_of_edge edge]
    rfl
  · rw [State.seeEdge_of_none none_, State.settle_of_taken taken]
  · rw [State.seeFirst, if_pos unseen]
    rfl
  · rw [State.seeFirst, if_neg seen]

theorem State.evoutHigh_of_running {s : State} (run : s.line = .running) (k : EventLine) :
    s.evoutHigh k = (s.triggers.outputs[k].level != s.triggers.outputs[k].pulse.isSome) := by
  rw [State.evoutHigh, run]
  rfl

/-- Settles O31: each of the four replaces the state of one output. -/
theorem eventOutputs : Obligations.EventOutputs := by
  refine fun k s run => ⟨exec_evoutPulseEnd_of_running run k, fun w pulse => ?_, fun still => ?_, fun argument code => ?_⟩
  · rw [State.evoutHigh_of_running run, pulse, Option.isSome_some, Bool.bne_true]
  · rw [State.evoutHigh_of_running run, still, Option.isSome_none, Bool.bne_false]
  · simp only [State.applyAction, byteIndex_of_toNat argument k code]
    exact ⟨rfl, rfl, rfl⟩

/-! ### Held causes (R152) -/

/-- Settles O32, by whether a cause is held. -/
theorem heldCauseTaken : Obligations.HeldCauseTaken := by
  intro s run
  rw [exec_heldCauseTaken_of_running run]
  constructor
  · intro empty
    simp only [State.takeHeld, empty]
  · intro c cs held
    simp only [State.takeHeld, held]

/-! ### What the taking of causes may change (R148, R150) -/

theorem State.takeCause_of_no_answer {s : State} {c : Cause} (unanswered : ∀ i : Fin 8, s.triggers.entries[i].answers c = false) : s.takeCause c = s := by
  have nothing : s.firing c = [] := List.filter_eq_nil_iff.2 fun i _ => Bool.eq_false_iff.1 (unanswered i)
  rw [State.takeCause, nothing]
  rfl

/-- The state in which the causes an event raised are taken one by one (R148). -/
def State.taking (s : State) : State := { s with triggers := { s.triggers with raised := [] }, free := s.free + 1 }

theorem State.settle_of_raised {s : State} (raised : s.triggers.raised ≠ []) :
    s.settle = (takenOrder s.free (orderRaised s.triggers.raised)).foldl State.takeCause s.taking := if_neg raised

/-- Settles O33: the frame of `settle`, and that a cause which no entry answers is taken without effect. -/
theorem causesTakenFrame : Obligations.CausesTakenFrame := by
  intro s
  have frame := s.settle_frame
  refine ⟨⟨frame.line, ?_, frame.intake, frame.flight, frame.restart, frame.counters, frame.seen, frame.queue, frame.mask, frame.port,
    frame.pending⟩, s.settle_taken, State.settle_of_taken, fun raised unanswered => ?_⟩
  · rw [← frame.sched]
  · rw [State.settle_of_raised raised]
    refine List.foldlRecOn (motive := fun u => u = s.taking) _ State.takeCause rfl fun u same c taken => ?_
    subst same
    exact State.takeCause_of_no_answer (unanswered c (orderRaised_mem (takenOrder_mem taken)))

/-! ### The firing of entries (R149) -/

theorem Cause.agrees_and_code_iff (c : Cause) (t : Trigger) :
    (t.cause = c.causeCode ∧ c.agrees t.causeArgument.toNat = true) ↔
      match c with
      | .monitor m => t.cause = .monitor ∧ t.causeArgument.toNat = m.val
      | .roundStart x => t.cause = .roundStart ∧ (t.causeArgument.toNat = tableCode x ∨ t.causeArgument.toNat = 2)
      | .switchTaken => t.cause = .switchTaken
      | .evinRise k => t.cause = .evinRise ∧ t.causeArgument.toNat = k.val
      | .evinFall k => t.cause = .evinFall ∧ t.causeArgument.toNat = k.val
      | .fault kind => t.cause = .fault ∧ t.causeArgument.toNat = kind.code
      | .partitionOff p => t.cause = .partitionOff ∧ t.causeArgument.toNat = p.val
      | .restartDone => t.cause = .restartDone := by
  cases c <;> simp [Cause.causeCode, Cause.agrees]

theorem Trigger.answers_iff (t : Trigger) (c : Cause) :
    t.answers c = true ↔ t.enabled = true ∧ t.armed = true ∧ t.cause = c.causeCode ∧ c.agrees t.causeArgument.toNat = true := by
  simp only [Trigger.answers, Bool.and_eq_true, beq_iff_eq, and_assoc]

theorem Trigger.fire_eq (t : Trigger) :
    t.fire = { t with fireCount := t.fireCount + 1, armed := if t.mode = .single then false else t.armed } := by
  unfold Trigger.fire
  cases t.mode <;> rfl

/-- What the firing of several entries, each once, makes of one entry: each fires by its own action, and those are never changed. -/
theorem State.fireEach_entry (l : List (Fin 8)) (distinct : l.Nodup) (s : State) (i : Fin 8) :
    ∃ x,
      (l.foldl State.fireEntry s).triggers.entries[i] =
          { s.triggers.entries[i] with armed := x, fireCount := s.triggers.entries[i].fireCount + if i ∈ l then 1 else 0 } ∧
        ((∀ j ∈ l, s.triggers.entries[j].action ≠ .arm) →
          s.triggers.entries[i].armed = false ∨ (i ∈ l ∧ s.triggers.entries[i].mode = .single) → x = false) := by
  induction l generalizing s with
  | nil => exact ⟨s.triggers.entries[i].armed, by simp, fun _ still => by simpa using still⟩
  | cons j l ih =>
    obtain ⟨fresh, distinct⟩ := List.nodup_cons.1 distinct
    obtain ⟨x, fired, disarms, _⟩ := s.fireEntry_entry j i
    obtain ⟨y, rest, restDisarms⟩ := ih distinct (s.fireEntry j)
    rw [fired] at rest restDisarms
    have actions : ∀ k : Fin 8, (s.fireEntry j).triggers.entries[k].action = s.triggers.entries[k].action := fun k => by
      obtain ⟨_, same, _⟩ := s.fireEntry_entry j k
      rw [same]
    refine ⟨y, ?_, fun noArm still => restDisarms (fun k later => ?_) ?_⟩
    · rw [List.foldl_cons, rest]
      by_cases now : i = j
      · subst now
        simp [fresh]
      · simp [now]
    · rw [actions k]
      exact noArm k (List.mem_cons_of_mem j later)
    · have disarmed : s.triggers.entries[i].armed = false ∨ (i = j ∧ s.triggers.entries[i].mode = .single) → x = false :=
        disarms (noArm j List.mem_cons_self)
      rcases still with already | ⟨fires, single⟩
      · exact .inl (disarmed (.inl already))
      · rcases List.mem_cons.1 fires with now | later
        · exact .inl (disarmed (.inr ⟨now, single⟩))
        · exact .inr ⟨later, single⟩

theorem State.firing_nodup (s : State) (c : Cause) : (s.firing c).Nodup := List.Nodup.filter _ (by decide)

theorem State.mem_firing (s : State) (c : Cause) (i : Fin 8) : i ∈ s.firing c ↔ s.triggers.entries[i].answers c = true := by
  have all : ∀ j : Fin 8, j ∈ allTriggers := by decide
  simp [State.firing, all i]

/-- An order of causes that keeps those of monitors as `orderRaised` has them takes MONITOR causes in increasing number (R142). -/
theorem monitors_increase {raised order : List Cause}
    (same : (order.filter fun x => x.block == .countersUnit) = (orderRaised raised).filter fun x => x.block == .countersUnit) {i j : Fin 4}
    (pair : [Cause.monitor i, Cause.monitor j].Sublist order) : i ≤ j := by
  have both := pair.filter fun x => x.block == .countersUnit
  rw [same] at both
  have sorted := (orderRaised_monitors raised).sublist both
  exact List.rel_of_pairwise_cons sorted List.mem_cons_self i j rfl rfl

/-- Settles O34: what the firing of several entries makes of each is `State.fireEach_entry`, the order of causes is `takenOrder` of `orderRaised`. -/
theorem firingOfEntries : Obligations.FiringOfEntries := by
  refine ⟨fun t c => ?answers, fun s c => rfl, fun s i => ⟨_, rfl, ?fires⟩, fun c => ?block,
    fun raised => ⟨orderRaised_perm raised, fun b other => orderRaised_filter b other raised, fun i j pair => monitors_increase rfl pair⟩,
    fun s raised => ⟨takenOrder s.free (orderRaised s.triggers.raised), (takenOrder_perm _ _).trans (orderRaised_perm _), fun b other => ?order,
      fun i j pair => monitors_increase (takenOrder_filter s.free .countersUnit _) pair, State.settle_of_raised raised⟩,
    fun s c i => ?count, fun s c i answers single noArm => ?disarmed⟩
  case answers =>
    rw [t.answers_iff, c.agrees_and_code_iff]
    cases c with
    | roundStart x => cases x <;> rfl
    | fault kind => cases kind <;> rfl
    | _ => rfl
  case fires =>
    rw [← Trigger.fire_eq]
    rfl
  case block => cases c <;> rfl
  case order => exact (takenOrder_filter s.free b _).trans (orderRaised_filter b other _)
  case count =>
    obtain ⟨x, entry, _⟩ := State.fireEach_entry (s.firing c) (s.firing_nodup c) s i
    rw [State.takeCause, entry]
    simp only [s.mem_firing]
  case disarmed =>
    obtain ⟨x, entry, disarms⟩ := State.fireEach_entry (s.firing c) (s.firing_nodup c) s i
    rw [State.takeCause, entry]
    exact disarms (fun j fires => noArm j ((s.mem_firing c j).1 fires)) (.inr ⟨(s.mem_firing c i).2 answers, single⟩)

end Machine
end Sys2Proof
end

section
/-! Changes of a partition's state and SET PARTITION STATE (R28 to R32). -/

namespace Sys2Proof
namespace Machine

/-! ### The table of states and targets (R28) -/

theorem stateChange_toRun (present : PartitionState) (quota : Nat) :
    stateChange present quota .run = if present = .off ∧ quota = 0 then .error .range else .ok .run := by
  cases present with
  | off => cases quota <;> simp [stateChange]
  | _ => simp [stateChange]

theorem stateChange_toHold (present : PartitionState) (quota : Nat) :
    stateChange present quota .hold =
      if present = .closing then .error .state else if present = .off ∧ quota = 0 then .error .range else .ok .hold := by
  cases present with
  | off => cases quota <;> simp [stateChange]
  | _ => simp [stateChange]

theorem stateChange_toClosing (present : PartitionState) (quota : Nat) :
    stateChange present quota .closing = if present = .closing then .error .state else if present = .off then .ok .off else .ok .closing := by
  cases present <;> simp [stateChange]

theorem stateChange_toOff (present : PartitionState) (quota : Nat) : stateChange present quota .off = .error .state := by
  cases present <;> rfl

theorem State.setState_eq (s : State) (p : PartitionId) (x : PartitionState) :
    s.setState p x = { s with parts := s.parts.set p { s.parts[p] with state := x } } := rfl

theorem State.setState_self {s : State} {p : PartitionId} {x : PartitionState} (present : s.parts[p].state = x) : s.setState p x = s := by
  subst present
  have same : s.parts.set p s.parts[p] = s.parts := Vector.set_getElem_self p.isLt
  rw [s.setState_eq p, show ({ s.parts[p] with state := s.parts[p].state } : PartitionRecord) = s.parts[p] from rfl, same]

/-- A partition that has no outstanding work is OFF when its closing check is made (R32). -/
def State.closed (s : State) (p : PartitionId) : State := ((s.setState p .off).raise (.partitionOff p)).latch .closed

theorem State.setState_closingCheck (s : State) (p : PartitionId) :
    (s.setState p .closing).closingCheck p = if s.outstanding p = true then s.setState p .closing else s.closed p := by
  have work : (s.setState p .closing).outstanding p = s.outstanding p := rfl
  have state : (s.setState p .closing).parts[p].state = .closing := by rw [State.setState_parts, modifyAt_get, if_pos rfl]
  have twice : (s.setState p .closing).setState p .off = s.setState p .off := by
    simp [State.setState, modifyAt, Vector.set_set]
  simp only [State.closingCheck, work, state, BEq.rfl, Bool.true_and, Bool.not_eq_true', twice]
  cases s.outstanding p <;> rfl

/-! ### The change of a partition's state -/

theorem State.changeState_of_busy {s : State} (busy : s.restart.phase ≠ .idle) (p : PartitionId) (target : PartitionState) :
    s.changeState p target = { state := s, status := .busy } := if_pos busy

section
variable {s : State} (idle : s.restart.phase = .idle) {p : PartitionId} {target : PartitionState}
include idle

theorem State.changeState_of_refused {status : Status} (refused : stateChange s.parts[p].state s.parts[p].quota target = .error status) :
    s.changeState p target = { state := s, status := status } := by
  rw [State.changeState, if_neg (not_not.2 idle)]
  simp only [refused]

theorem State.changeState_of_taken {x : PartitionState} (taken : stateChange s.parts[p].state s.parts[p].quota target = .ok x) (open_ : x ≠ .closing) :
    s.changeState p target = { state := s.setState p x, status := .done } := by
  rw [State.changeState, if_neg (not_not.2 idle)]
  simp only [taken, open_, if_false]

theorem State.changeState_of_closing (taken : stateChange s.parts[p].state s.parts[p].quota target = .ok .closing) :
    s.changeState p target =
      { state := if s.outstanding p = true then s.setState p .closing else s.closed p, status := .done } := by
  rw [State.changeState, if_neg (not_not.2 idle), ← s.setState_closingCheck p]
  simp only [taken, if_true]

end

/-! ### SET PARTITION STATE (R28) -/

theorem partitionStateOf_eq (b : Byte) : partitionStateOf b = ([.off, .run, .hold, .closing] : List PartitionState)[b.toNat]? := by
  rcases Nat.lt_or_ge b.toNat 4 with small | large
  · have named : b = 0 ∨ b = 1 ∨ b = 2 ∨ b = 3 := by bv_omega
    rcases named with rfl | rfl | rfl | rfl <;> rfl
  · have unnamed : b ≠ 0 ∧ b ≠ 1 ∧ b ≠ 2 ∧ b ≠ 3 := by
      refine ⟨?_, ?_, ?_, ?_⟩ <;> rintro rfl <;> exact absurd large (by decide)
    obtain ⟨n0, n1, n2, n3⟩ := unnamed
    rw [partitionStateOf, if_neg n0, if_neg n1, if_neg n2, if_neg n3]
    exact (List.getElem?_eq_none large).symm

theorem FlightEntry.outstandingFor_iff (p : PartitionId) (e : FlightEntry) :
    e.outstandingFor p = true ↔ (∃ t, e = .issued t ∧ t.partition = p) ∨ ∃ t a beats, e = .returning t a beats ∧ t.partition = p := by
  cases e <;> simp [FlightEntry.outstandingFor]

theorem State.setStateCommand_of_range {s : State} {argument target : Byte} (out : 7 < argument.toNat ∨ 3 < target.toNat) :
    s.setStateCommand argument target = { state := s, status := .range } := by
  unfold State.setStateCommand
  split
  · rfl
  · next x named =>
    rcases out with large | unnamed
    · rw [dif_neg (by omega), State.refuseWith]
    · rw [partitionStateOf_eq, List.getElem?_eq_none unnamed] at named
      cases named

theorem State.setStateCommand_of_named {s : State} {argument code : Byte} {p : PartitionId} {target : PartitionState}
    (partition : argument.toNat = p.val) (named : partitionStateOf code = some target) :
    s.setStateCommand argument code = s.changeState p target := by
  simp only [State.setStateCommand, named, partition, p.isLt, dite_true]

/-- SET PARTITION STATE closes its frame with the state and the status that its checks give, and the causes raised are taken. -/
theorem exec_setPartitionState_of {s u : State} {argument : Byte} {index : Half} {status : Status} (run : s.line = .running)
    (port : s.port.idle = true) (extra : Nat) (checks : s.setStateCommand argument (index.extractLsb' 0 8) = { state := u, status := status }) :
    exec (.setPartitionState argument index extra) s = .next (s.framed u status 0 extra).settle := by
  have frame := DataPathFrame.setStateCommand s argument (index.extractLsb' 0 8)
  rw [checks] at frame
  rw [exec_setPartitionState_of_running run, State.takeFrame_of_frame port 0 extra checks frame]

theorem exec_setPartitionState_refused {s : State} {argument : Byte} {index : Half} {status : Status} (run : s.line = .running)
    (port : s.port.idle = true) (extra : Nat) (taken : s.CausesTaken)
    (checks : s.setStateCommand argument (index.extractLsb' 0 8) = { state := s, status := status }) :
    exec (.setPartitionState argument index extra) s = .next (s.framed s status 0 extra) := by
  rw [exec_setPartitionState_of run port extra checks, State.settle_framed_self taken]

/-- Settles O49, by R28's checks in their order and its table of present states and targets. -/
theorem stateCommand : Obligations.StateCommand := by
  refine ⟨partitionStateOf_eq, fun s p => ?_, fun argument index extra s run port => ⟨fun out taken => ?range, fun p target partition named => ?named⟩⟩
  · simp only [s.outstanding_iff, FlightEntry.outstandingFor_iff, exists_or, or_assoc]
  case range =>
    refine exec_setPartitionState_refused run port extra taken (State.setStateCommand_of_range ?_)
    simpa using out
  case named =>
    have command := State.setStateCommand_of_named (s := s) partition named
    refine ⟨fun busy taken => exec_setPartitionState_refused run port extra taken (command.trans (State.changeState_of_busy busy p target)),
      fun idle => ⟨fun taken refused => ?_, fun taken off none_ opens => ?_, fun opens room => ?_, fun closing off taken => ?_, fun closing open_ => ?_⟩⟩
    · refine exec_setPartitionState_refused run port extra taken (command.trans (State.changeState_of_refused idle ?_))
      rcases refused with rfl | ⟨present, rfl | rfl⟩
      · exact stateChange_toOff _ _
      · rw [stateChange_toHold, if_pos present]
      · rw [stateChange_toClosing, if_pos present]
    · refine exec_setPartitionState_refused run port extra taken (command.trans (State.changeState_of_refused idle ?_))
      rcases opens with rfl | rfl
      · rw [stateChange_toRun, if_pos ⟨off, none_⟩]
      · rw [stateChange_toHold, off, none_]
        rfl
    · have may : ¬(s.parts[p].state = .off ∧ s.parts[p].quota = 0) := by
        rintro ⟨off, none_⟩
        rcases room with notOff | some_
        · exact notOff off
        · omega
      have change : stateChange s.parts[p].state s.parts[p].quota target = .ok target ∧ target ≠ .closing := by
        rcases opens with rfl | ⟨rfl, notClosing⟩
        · exact ⟨by rw [stateChange_toRun, if_neg may], by decide⟩
        · exact ⟨by rw [stateChange_toHold, if_neg notClosing, if_neg may], by decide⟩
      obtain ⟨change, notClosing⟩ := change
      exact exec_setPartitionState_of run port extra (command.trans (State.changeState_of_taken idle change notClosing))
    · subst closing
      have change : stateChange s.parts[p].state s.parts[p].quota .closing = .ok .off := by
        rw [stateChange_toClosing, off]
        rfl
      have checks := command.trans (State.changeState_of_taken idle change (by decide))
      rw [State.setState_self off] at checks
      rw [exec_setPartitionState_of run port extra checks, State.settle_framed_self taken]
    · subst closing
      have change : stateChange s.parts[p].state s.parts[p].quota .closing = .ok .closing := by
        rw [stateChange_toClosing]
        rcases open_ with present | present <;> rw [present] <;> rfl
      have checks := command.trans (State.changeState_of_closing idle change)
      rw [exec_setPartitionState_of run port extra checks]
      constructor
      · intro work
        rw [if_pos work]
        rfl
      · intro none_
        rw [if_neg (by simp [none_])]
        rfl

end Machine
end Sys2Proof
end

section
/-! The actions of the trigger unit (R150, R153) and the evaluation of monitors (R142). -/

namespace Sys2Proof
namespace Machine

/-! ### The actions (R29, R123, R139, R144, R150, R153) -/

/-- What a fired entry becomes by an action that is a change of the entry itself (R149, R153). -/
theorem State.fireEntry_self {s : State} {i : Fin 8} {f : Trigger → Trigger}
    (applies : ∀ u : State, u.applyAction s.triggers.entries[i].action s.triggers.entries[i].actionArgument = u.setTrigger i f) :
    (s.fireEntry i).triggers.entries[i] = f s.triggers.entries[i].fire := by
  simp only [State.fireEntry, applies, State.holdRaised_fields, State.setTrigger_entries, modifyAt_get, if_true]

theorem Trigger.fire_enabled (t : Trigger) : t.fire.enabled = t.enabled := rfl

section
variable {s : State} {argument : Byte}

theorem State.applyAction_arm {i : Fin 8} (code : argument.toNat = i.val) : s.applyAction .arm argument = s.setTrigger i Trigger.arm := by
  rw [State.applyAction, byteIndex_of_toNat argument i code]

theorem State.applyAction_disarm {i : Fin 8} (code : argument.toNat = i.val) :
    s.applyAction .disarm argument = s.setTrigger i Trigger.disarm := by
  rw [State.applyAction, byteIndex_of_toNat argument i code]

theorem actionTable_of_code {t : TableName} (code : argument.toNat = tableCode t) : actionTable argument = t := by
  cases t with
  | a =>
    obtain rfl : argument = 0 := BitVec.eq_of_toNat_eq code
    rfl
  | b =>
    obtain rfl : argument = 1 := BitVec.eq_of_toNat_eq code
    rfl

theorem State.applyAction_requestSwitch {t : TableName} (code : argument.toNat = tableCode t) :
    s.applyAction .requestSwitch argument = (s.requestTarget t).state := by
  rw [State.applyAction, actionTable_of_code code]

section
variable {p : PartitionId} (code : argument.toNat = p.val)
include code

theorem State.applyAction_set (s : State) :
    s.applyAction .setRun argument = (s.changeState p .run).state ∧ s.applyAction .setHold argument = (s.changeState p .hold).state ∧
      s.applyAction .setClosing argument = (s.changeState p .closing).state ∧ s.applyAction .flush argument = s.flushAction p := by
  simp only [State.applyAction, State.setAction, byteIndex_of_toNat argument p code, and_self]

/-- During a restart these four do nothing (R29, R123). -/
theorem State.applyAction_of_busy (busy : s.restart.phase ≠ .idle) :
    s.applyAction .setRun argument = s ∧ s.applyAction .setHold argument = s ∧ s.applyAction .setClosing argument = s ∧
      s.applyAction .flush argument = s := by
  obtain ⟨run, hold, closing, flush⟩ := s.applyAction_set code
  rw [run, hold, closing, flush]
  simp only [State.changeState_of_busy busy, State.flushAction, busy, if_false, and_self]

theorem State.applyAction_setRun (idle : s.restart.phase = .idle) :
    s.applyAction .setRun argument = if s.parts[p].state = .off ∧ s.parts[p].quota = 0 then s else s.setState p .run := by
  obtain ⟨run, _⟩ := s.applyAction_set code
  rw [run]
  split
  · next none_ => rw [State.changeState_of_refused idle (by rw [stateChange_toRun, if_pos none_])]
  · next may => rw [State.changeState_of_taken idle (by rw [stateChange_toRun, if_neg may]) (by decide)]

theorem State.applyAction_setHold (idle : s.restart.phase = .idle) :
    s.applyAction .setHold argument =
      if s.parts[p].state = .closing ∨ (s.parts[p].state = .off ∧ s.parts[p].quota = 0) then s else s.setState p .hold := by
  obtain ⟨_, hold, _⟩ := s.applyAction_set code
  rw [hold]
  split
  · next refused =>
    by_cases closing : s.parts[p].state = .closing
    · rw [State.changeState_of_refused idle (by rw [stateChange_toHold, if_pos closing])]
    · rw [State.changeState_of_refused idle (by rw [stateChange_toHold, if_neg closing, if_pos (refused.resolve_left closing)])]
  · next may =>
    obtain ⟨open_, room⟩ := not_or.1 may
    rw [State.changeState_of_taken idle (by rw [stateChange_toHold, if_neg open_, if_neg room]) (by decide)]

theorem State.applyAction_setClosing (idle : s.restart.phase = .idle) :
    s.applyAction .setClosing argument =
      if s.parts[p].state = .closing ∨ s.parts[p].state = .off then s
      else if s.outstanding p = true then s.setState p .closing else s.closed p := by
  obtain ⟨_, _, closing, _⟩ := s.applyAction_set code
  rw [closing]
  split
  · next still =>
    by_cases already : s.parts[p].state = .closing
    · rw [State.changeState_of_refused idle (by rw [stateChange_toClosing, if_pos already])]
    · have off := still.resolve_left already
      rw [State.changeState_of_taken idle (by rw [stateChange_toClosing, if_neg already, if_pos off]) (by decide), State.setState_self off]
  · next open_ =>
    obtain ⟨notClosing, notOff⟩ := not_or.1 open_
    rw [State.changeState_of_closing idle (by rw [stateChange_toClosing, if_neg notClosing, if_neg notOff])]

theorem State.applyAction_flush (idle : s.restart.phase = .idle) : s.applyAction .flush argument = s.flush p := by
  obtain ⟨_, _, _, flush⟩ := s.applyAction_set code
  rw [flush, State.flushAction, if_pos idle]

end

end

theorem State.rearmMonitor_eq (s : State) (i : Fin 4) (m : Monitor) :
    s.rearmMonitor i m =
      { s with
        monitors := s.monitors.set i { m with last := m.enabled && m.result (s.quantity m.quantity) }
        triggers :=
          { s.triggers with
            raised := s.triggers.raised ++ if (m.enabled && m.result (s.quantity m.quantity)) = true then [Cause.monitor i] else [] } } := by
  unfold State.rearmMonitor
  cases m.enabled && m.result (s.quantity m.quantity) with
  | true => rfl
  | false => simp

theorem State.applyAction_clearMonitor {s : State} {argument : Byte} {i : Fin 4} (code : argument.toNat = i.val) :
    s.applyAction .clearMonitor argument = s.rearmMonitor i s.monitors[i] := by
  obtain rfl := byteIndex_of_toNat argument i code
  rfl

/-- Settles O35, action by action. -/
theorem armAndDisarm : Obligations.ArmAndDisarm := by
  refine ⟨fun s i enabled code => ⟨fun arm => ?armSelf, fun disarm => ?disarmSelf⟩, fun s i argument code => ⟨?arm, ?disarm⟩,
    fun s t argument code => ⟨fun valid => ?switch, fun invalid => ?noSwitch⟩,
    fun s p argument code => ⟨State.applyAction_of_busy code, fun idle => ⟨State.applyAction_setRun code idle, State.applyAction_setHold code idle,
      State.applyAction_setClosing code idle, s.flush p, State.applyAction_flush code idle, ?flush⟩⟩, fun s argument => ⟨rfl, rfl⟩,
    fun s i argument code => ⟨_, rfl, ?clearMonitor⟩⟩
  case armSelf =>
    have own := State.fireEntry_self (s := s) (i := i) (f := Trigger.arm) fun u => by rw [arm, State.applyAction_arm code]
    rw [own, Trigger.arm_eq, if_pos (by rw [Trigger.fire_enabled, enabled])]
  case disarmSelf =>
    have own := State.fireEntry_self (s := s) (i := i) (f := Trigger.disarm) fun u => by rw [disarm, State.applyAction_disarm code]
    rw [own]
    rfl
  case arm =>
    rw [State.applyAction_arm code, ← Trigger.arm_eq]
    rfl
  case disarm =>
    rw [State.applyAction_disarm code]
    rfl
  case switch =>
    have table : argument.toNat = tableCode t := by rw [code]; cases t <;> rfl
    rw [State.applyAction_requestSwitch table, State.requestTarget_of_valid valid]
  case noSwitch =>
    have table : argument.toNat = tableCode t := by rw [code]; cases t <;> rfl
    rw [State.applyAction_requestSwitch table, State.requestTarget_of_invalid invalid]
  case flush =>
    have quiet : NoFault s (s.flush p) := by simp [NoFault]
    exact ⟨s.flush_pool p, s.flush_writes p, by simp, by simp, by simp, by simp, by simp, quiet, .flush s p, (Sends.flush s p).emits⟩
  case clearMonitor => rw [State.applyAction_clearMonitor code, State.rearmMonitor_eq]

/-! ### The evaluation of monitors (R141, R142) -/

theorem Monitor.hears_iff (q : Quantity) (m : Monitor) : m.hears q = true ↔ m.enabled = true ∧ m.quantity = q := by
  simp only [Monitor.hears, Bool.and_eq_true, beq_iff_eq]

/-- A monitor fires when its last result goes from false to true. -/
theorem Monitor.fires_eq (q : Quantity) (value : Nat) (m : Monitor) : m.fires q value = (!m.last && (m.evaluate q value).last) := by
  unfold Monitor.fires Monitor.evaluate
  cases m.hears q with
  | true => simp
  | false => simp

/-- Settles O36: a handed value is evaluated by each monitor that hears it, and the order in which causes are taken keeps those of monitors in order. -/
theorem monitorEvaluation : Obligations.MonitorEvaluation := by
  refine ⟨fun occasion raised i j pair => monitors_increase (takenOrder_filter occasion .countersUnit _) pair,
    fun s q => ⟨fun i => ?evaluates, ?fires, rfl⟩⟩
  case evaluates =>
    rw [s.hand_monitor q i, Monitor.evaluate]
    exact if_congr (s.monitors[i].hears_iff q) rfl rfl
  case fires =>
    have fires : ∀ i : Fin 4, s.monitors[i].fires q (s.quantity q) = (!s.monitors[i].last && (s.hand q).monitors[i].last) := fun i => by
      rw [s.hand_monitor q i, Monitor.fires_eq]
    simp only [← fires]
    rfl

end Machine
end Sys2Proof
end

section
/-! The management port: index completion, the read commands, POP FAULT, and the frames that change nothing (R162, R167 to R173). -/

namespace Sys2Proof
namespace Machine

/-! ### Index completion (R167, R170) -/

theorem Port.idle_iff (p : Port) : p.idle = true ↔ p.frame = none ∧ p.acrossReset = false := by
  simp only [Port.idle, Port.listens, Bool.and_eq_true, Bool.not_eq_true', Option.isNone_iff_eq_none, and_comm]

theorem State.openRead_of_command {s : State} {b : IndexBytes} {command : ReadCommand} (named : b.command = some command)
    (idle : s.port.idle = true) :
    s.openRead b =
      { s with
        port := { s.port with frame := some { bytes := b.list, received := 4, captured := s.capture command }, selnLow := true } } := by
  simp only [State.openRead, named, idle, if_true]

theorem State.openRead_of_none {s : State} {b : IndexBytes} (unnamed : b.command = none) : s.openRead b = s := by
  simp only [State.openRead, unnamed]

/-- A table of codes read as a chain of comparisons. -/
theorem find?_code_cons {α : Type} (k : Byte) (x : α) (l : List (Byte × α)) (a : Byte) :
    (((k, x) :: l).find? fun e => e.1 == a).map Prod.snd = if a = k then some x else (l.find? fun e => e.1 == a).map Prod.snd := by
  rw [List.find?_cons]
  by_cases hit : a = k
  · simp [hit]
  · rw [if_neg hit, beq_eq_false_iff_ne.2 fun same : k = a => hit same.symm]

/-- The table codes of R177. -/
theorem entryTableOf_eq (argument : Byte) :
    entryTableOf argument =
      ((([(0x00, .schedule .a .header), (0x01, .schedule .a .slot), (0x02, .schedule .a .allowance), (0x03, .schedule .b .header),
          (0x04, .schedule .b .slot), (0x05, .schedule .b .allowance), (0x08, .partitions), (0x09, .initiatorMap), (0x0A, .regions),
          (0x0B, .monitors), (0x0C, .triggers), (0x0D, .attentionMask)] : List (Byte × EntryTable)).find? fun e => e.1 == argument).map Prod.snd) := by
  simp only [find?_code_cons, List.find?_nil, Option.map_none, entryTableOf]

theorem halfOf_toNat (high low : Byte) : (halfOf high low).toNat = 256 * high.toNat + low.toNat := by
  rw [halfOf, BitVec.toNat_append, ← Nat.shiftLeft_add_eq_or_of_lt low.isLt, Nat.shiftLeft_eq, Nat.mul_comm]

theorem State.capture_of_some {s : State} {command : ReadCommand} {data : List Byte} (read : s.readData command = some data) :
    s.capture command = { command := command, data := data, status := .done } := by
  simp only [State.capture, read]

theorem State.capture_of_none {s : State} {command : ReadCommand} (refused : s.readData command = none) :
    s.capture command = { command := command, data := List.replicate (readLength command) 0, status := readRefusal command } := by
  simp only [State.capture, refused]

theorem State.capture_command (s : State) (command : ReadCommand) : (s.capture command).command = command := by
  cases read : s.readData command with
  | some data => rw [State.capture_of_some read]
  | none => rw [State.capture_of_none read]

theorem State.capture_length (s : State) (command : ReadCommand) : (s.capture command).data.length = readLength command := by
  cases read : s.readData command with
  | some data => rw [State.capture_of_some read, s.readData_length command data read]
  | none => rw [State.capture_of_none read, List.length_replicate]

theorem readRefusal_eq (command : ReadCommand) : readRefusal command = if command = .popFault then .empty else .range := by
  cases command <;> rfl

theorem State.entryBytes_none_iff (s : State) (table : EntryTable) (index : Half) :
    s.entryBytes table index = none ↔
      (match table with
        | .schedule _ .header => 1
        | .schedule _ .slot => 32
        | .schedule _ .allowance => 1
        | .partitions => 8
        | .initiatorMap => 32
        | .regions => 16
        | .monitors => 4
        | .triggers => 8
        | .attentionMask => 1) ≤ index.toNat := by
  cases table with
  | schedule t part => cases part <;> simp only [State.entryBytes, ScheduleTable.bytes, Option.map_eq_none_iff, indexIn_none]
  | _ => simp only [State.entryBytes, Option.map_eq_none_iff, indexIn_none]

theorem State.countersBytes_none_iff (s : State) (argument : Byte) : s.countersBytes argument = none ↔ 8 < argument.toNat := by
  unfold State.countersBytes
  split
  · simp
    omega
  · split
    · next eight => simp [eight]
    · next other =>
      have notEight : argument.toNat ≠ 8 := fun same => other (BitVec.eq_of_toNat_eq same)
      simp
      omega

theorem Snapshot.bytes_none_iff (n : Snapshot) (index : Half) : n.bytes index = none ↔ 8 < index.toNat := by
  unfold Snapshot.bytes
  split
  · next zero => simp [zero]
  · split
    · simp
      omega
    · simp
      omega

/-- Settles O37: the capture is what `readData` gives, and `readData` is none exactly at the indexes that name nothing. -/
theorem indexCompletion : Obligations.IndexCompletion := by
  refine ⟨Port.idle_iff, fun b s run => ⟨fun command named idle => ?completes, fun unnamed => ?nothing⟩, fun b => ?codes, halfOf_toNat,
    fun command => ?lengths, fun command s => ⟨s.capture_command command, s.capture_length command, fun data read => ?captured, fun refused => ?refused⟩,
    fun s => ⟨s.entryBytes_none_iff, s.countersBytes_none_iff, s.snapshot.bytes_none_iff, Option.some_ne_none _, ?popFault⟩⟩
  case completes =>
    rw [exec_indexComplete_of_running run, State.openRead_of_command named idle]
    rfl
  case nothing => rw [exec_indexComplete_of_running run, State.openRead_of_none unnamed]
  case codes =>
    rw [IndexBytes.command, readCommandOf, entryTableOf_eq, Option.map_map]
    rfl
  case lengths =>
    cases command with
    | readEntry table index =>
      cases table with
      | schedule t part => cases part <;> rfl
      | _ => rfl
    | readCounters argument => simp only [readLength, countersLength, Nat.lt_succ_iff]
    | _ => rfl
  case captured =>
    rw [State.capture_of_some read]
    exact ⟨rfl, rfl⟩
  case refused =>
    rw [State.capture_of_none refused, readRefusal_eq]
    exact ⟨rfl, rfl⟩
  case popFault => rw [State.readData, Option.map_eq_none_iff, List.head?_eq_none_iff]

/-! ### The read commands (R167 to R170) -/

theorem State.takeRead_of {s : State} {command : ReadCommand} {f : Capture} (closing : s.closingFrame command = some f) (extra : Nat) :
    s.takeRead command extra = { s with port := s.port.afterRead f extra } := by
  simp only [State.takeRead, closing, State.finishRead_eq]

theorem exec_close_of_running {s : State} (run : s.line = .running) {command : ReadCommand} (other : command ≠ .popFault) (extra : Nat) :
    exec (command.close extra) s = .next (s.takeRead command extra) := by
  cases command with
  | readEntry table index => exact exec_readEntry_of_running run table index extra
  | popFault => exact absurd rfl other
  | readStatus => exact exec_readStatus_of_running run extra
  | readCounters argument => exact exec_readCounters_of_running run argument extra
  | readSnapshot index => exact exec_readSnapshot_of_running run index extra

/-- Settles O38: the frame that closes is the open one or one captured now, and its close changes the port alone. -/
theorem readCommandsClose : Obligations.ReadCommandsClose := by
  intro command f extra s run listens other frame
  rw [exec_close_of_running run other, State.takeRead_of (s.closingFrame_of command f listens frame)]

/-- Settles O40: after the close of the read frame the oldest record is removed, where one was captured. -/
theorem popFault : Obligations.PopFault := by
  intro f extra s run listens frame
  have closing := s.closingFrame_of .popFault f listens frame
  rw [exec_popFault_of_running run]
  refine ⟨fun done => ?_, fun other taken => ?_, fun r rs queue => ?_⟩
  · have sent : Sends s (s.finishRead f extra).popRecord [] [.faults] := (Sends.hand _ .faults).same_before (by simp) (by simp)
    refine ⟨(s.finishRead f extra).popRecord, ?_, by simp [State.popRecord, State.finishRead], ?_, by simp, by simp, by simp, by simp, by simp, by simp,
      by simp, by simp, by simp, by simp, sent.emits⟩
    · simp only [State.takePop, closing, done, if_true]
    · rw [(DataPathFrame.popRecord _).port, s.finishRead_eq]
  · have same : s.takePop extra = { s with port := s.port.afterRead f extra } := by
      simp only [State.takePop, closing, other, if_false, State.finishRead_eq]
    have none_ : (s.takePop extra).CausesTaken := by
      rw [same]
      exact taken
    rw [State.settle_of_taken none_, same]
  · exact State.capture_of_some (by rw [State.readData, queue]; rfl)

/-! ### What stands on SDO (R167 to R169) -/

theorem State.sdoBytes_length (s : State) (written : Nat) (data : List Byte) (total : Nat) : (s.sdoBytes written data total).length = total := by
  rw [State.sdoBytes, List.length_take, List.length_append, List.length_replicate]
  omega

/-- The values in the place of write data (log entry 14). -/
def State.sdoFree (s : State) (written : Nat) : List Byte := (List.range written).map fun k => Config.unstatedSdo (s.free + k)

theorem State.sdoFree_length (s : State) (written : Nat) : (s.sdoFree written).length = written := by simp [State.sdoFree]

theorem State.sdoBytes_eq (s : State) (written extra : Nat) (data : List Byte) :
    s.sdoBytes written data (5 + written + data.length + extra) =
      [0, 0, 0, 0, s.port.lastStatus.code] ++ s.sdoFree written ++ data ++ List.replicate extra 0 := by
  have length : ([0, 0, 0, 0, s.port.lastStatus.code] ++ s.sdoFree written ++ data).length = 5 + written + data.length := by
    simp only [List.length_append, s.sdoFree_length]
    rfl
  rw [State.sdoBytes, List.take_append, ← State.sdoFree, length, List.take_of_length_le (by omega), List.take_replicate]
  congr 2
  omega

/-! ### Frames that change nothing (R167 to R169) -/

theorem Port.mayCut_of {p : Port} {bytes : List Byte} (listens : p.acrossReset = false)
    (frame : p.frame = none ∨ ∃ o, p.frame = some o ∧ o.bytes <+: bytes) : p.mayCut bytes = true := by
  have hears : p.listens = true := by simp [Port.listens, listens]
  rcases frame with none_ | ⟨o, some_, isPrefix⟩
  · simp only [Port.mayCut, hears, none_, Bool.and_self]
  · simp [Port.mayCut, hears, some_, isPrefix]

theorem State.sdoCut_length (s : State) (bytes : List Byte) : (s.sdoCut bytes).length = bytes.length := by
  unfold State.sdoCut
  split
  · exact s.sdoBytes_length _ _ _
  · split <;> exact s.sdoBytes_length _ _ _

section
variable {s : State} (waits : s.port.acrossReset = true)
include waits

theorem State.takeFrame_of_waiting (written extra : Nat) (effect : State → Taken) : s.takeFrame written extra effect = s := by
  rw [State.takeFrame, if_neg (by simp [Port.idle, Port.listens, waits])]

theorem State.closingFrame_of_waiting (command : ReadCommand) : s.closingFrame command = none := by
  rw [State.closingFrame, if_neg (by simp [Port.listens, waits])]

theorem State.takeRead_of_waiting (command : ReadCommand) (extra : Nat) : s.takeRead command extra = s := by
  simp only [State.takeRead, State.closingFrame_of_waiting waits]

theorem State.takePop_of_waiting (extra : Nat) : s.takePop extra = s := by
  simp only [State.takePop, State.closingFrame_of_waiting waits]

theorem State.openRead_of_waiting (b : IndexBytes) : s.openRead b = s := by
  unfold State.openRead
  split
  · rfl
  · rw [if_neg (by simp [Port.idle, Port.listens, waits])]

theorem State.cutShort_of_waiting (bytes : List Byte) : s.cutShort bytes = s := by
  rw [State.cutShort, if_neg (by simp [Port.mayCut, Port.listens, waits])]

/-- No frame is taken until SELN has gone high after a reset (R167). -/
theorem exec_frame_of_waiting (run : s.line = .running) (taken : s.CausesTaken) {c : Instr} (frame : isFrame c = true) : exec c s = .next s := by
  have settled := State.settle_of_taken taken
  cases c with
  | indexComplete b => rw [exec_indexComplete_of_running run, State.openRead_of_waiting waits]
  | frameCutShort bytes => rw [exec_frameCutShort_of_running run, State.cutShort_of_waiting waits]
  | unknown bytes => rw [exec_unknown_of_running run, State.takeFrame_of_waiting waits]
  | readEntry table index extra => rw [exec_readEntry_of_running run, State.takeRead_of_waiting waits]
  | popFault extra => rw [exec_popFault_of_running run, State.takePop_of_waiting waits, settled]
  | readStatus extra => rw [exec_readStatus_of_running run, State.takeRead_of_waiting waits]
  | readCounters argument extra => rw [exec_readCounters_of_running run, State.takeRead_of_waiting waits]
  | readSnapshot index extra => rw [exec_readSnapshot_of_running run, State.takeRead_of_waiting waits]
  | writeScheduleEntry t index data extra => rw [exec_writeScheduleEntry_of_running run, State.takeFrame_of_waiting waits]
  | writePartitionRecord index i q f l extra => rw [exec_writePartitionRecord_of_running run, State.takeFrame_of_waiting waits]
  | writeInitiatorMap index v extra => rw [exec_writeInitiatorMap_of_running run, State.takeFrame_of_waiting waits]
  | writeRegion index base limit m f extra => rw [exec_writeRegion_of_running run, State.takeFrame_of_waiting waits]
  | writeMonitor index f o c a t extra => rw [exec_writeMonitor_of_running run, State.takeFrame_of_waiting waits, settled]
  | writeTrigger index f c ca a aa n extra => rw [exec_writeTrigger_of_running run, State.takeFrame_of_waiting waits]
  | writeAttentionMask index m extra => rw [exec_writeAttentionMask_of_running run, State.takeFrame_of_waiting waits]
  | requestSwitch argument extra => rw [exec_requestSwitch_of_running run, State.takeFrame_of_waiting waits]
  | setPartitionState argument index extra => rw [exec_setPartitionState_of_running run, State.takeFrame_of_waiting waits, settled]
  | flushPartition argument extra => rw [exec_flushPartition_of_running run, State.takeFrame_of_waiting waits, settled]
  | pathRestart extra => rw [exec_pathRestart_of_running run, State.takeFrame_of_waiting waits, settled]
  | acknowledge causes extra => rw [exec_acknowledge_of_running run, State.takeFrame_of_waiting waits]
  | clearCounters extra => rw [exec_clearCounters_frame run, State.takeFrame_of_waiting waits, settled]
  | _ => cases frame

end

/-- Settles O41, frame by frame; what stands on SDO is `State.sdoBytes_eq`. -/
theorem framesThatChangeNothing : Obligations.FramesThatChangeNothing := by
  refine ⟨fun bytes s run listens frame => ⟨_, exec_frameCutShort_of_running run bytes, ?cutShort⟩, fun bytes s run idle enough => ?unknown,
    fun s run => ⟨fun waits => ?across, fun listens => ?notAcross⟩, fun c s run taken waits frame => exec_frame_of_waiting waits run taken frame,
    fun written extra data s => ⟨s.sdoFree written, s.sdoFree_length written, s.sdoBytes_eq written extra data⟩, fun s => ?driven⟩
  case cutShort =>
    rw [State.cutShort, if_pos (Port.mayCut_of listens frame)]
    exact ⟨rfl, s.sdoCut_length bytes⟩
  case unknown =>
    have sdo : s.sdoBytes 0 [] (5 + 0 + (bytes.length - 5)) = [0, 0, 0, 0, s.port.lastStatus.code] ++ List.replicate (bytes.length - 5) 0 := by
      simpa [State.sdoFree] using s.sdoBytes_eq 0 (bytes.length - 5) []
    rw [exec_unknown_of_running run, State.takeFrame_of_frame idle 0 (bytes.length - 5) rfl (.refl s), State.framed, sdo]
    rfl
  case across => rw [exec_frameOpenAcrossReset_of_running run, State.endAcrossReset, if_pos waits]
  case notAcross => rw [exec_frameOpenAcrossReset_of_running run, State.endAcrossReset, if_neg (by simp [listens])]
  case driven => simp only [State.sdoDriven, Bool.and_eq_true, bne_iff_ne]

end Machine
end Sys2Proof
end

section
/-! WRITE ENTRY on the tables that hold no monitor and no trigger: schedule tables, partition records, the initiator map and the regions (R19, R25, R69). -/

namespace Sys2Proof
namespace Machine

/-! ### Schedule tables (R18, R19) -/

theorem ScheduleUnit.isLocked_iff (u : ScheduleUnit) (t : TableName) : u.isLocked t = true ↔ u.active = t ∨ u.pendingTarget = some t := by
  simp only [ScheduleUnit.isLocked, Bool.or_eq_true, beq_iff_eq]

theorem State.writeSchedule_of_range {s : State} {index : Half} {data : ScheduleEntryData} (out : partEntries data.part ≤ index.toNat)
    (t : TableName) : s.writeSchedule t index data = { state := s, status := .range } := if_pos out

section
variable {s : State} {t : TableName} {index : Half} {data : ScheduleEntryData} (inside : index.toNat < partEntries data.part)
include inside

theorem State.writeSchedule_of_locked (locked : s.sched.isLocked t = true) : s.writeSchedule t index data = { state := s, status := .locked } := by
  rw [State.writeSchedule, if_neg (Nat.not_le.2 inside), if_pos locked, State.refuseWith]

variable (unlocked : ¬(s.sched.isLocked t = true))
include unlocked

theorem State.writeSchedule_of_replaced {table : ScheduleTable} (replaced : (s.sched.table t).replace index data = some table) :
    s.writeSchedule t index data = { state := { s with sched := s.sched.setTable t table }, status := .done } := by
  rw [State.writeSchedule, if_neg (Nat.not_le.2 inside), if_neg unlocked]
  simp only [replaced]

theorem State.writeSchedule_of_invalid (invalid : (s.sched.table t).replace index data = none) :
    s.writeSchedule t index data = { state := s, status := .range } := by
  rw [State.writeSchedule, if_neg (Nat.not_le.2 inside), if_neg unlocked]
  simp only [invalid, State.refuseWith]

end

/-- A write of a schedule entry closes its frame with the state and the status its checks give. -/
theorem exec_writeScheduleEntry_of {s u : State} {t : TableName} {index : Half} {data : ScheduleEntryData} {status : Status} (run : s.line = .running)
    (idle : s.port.idle = true) (extra : Nat) (checks : s.writeSchedule t index data = { state := u, status := status }) (port : u.port = s.port)
    (free : u.free = s.free) :
    exec (.writeScheduleEntry t index data extra) s = .next (s.framed u status data.bytes.length extra) := by
  rw [exec_writeScheduleEntry_of_running run, s.takeFrame_of data.bytes.length extra _ _ idle checks port free]

/-- Settles O42: the checks of R19 in their order, and by the part of the table that is written. -/
theorem scheduleWrite : Obligations.ScheduleWrite := by
  refine ⟨fun u t x => by cases t <;> rfl, fun t index data extra s run idle => ⟨fun out => ?_, fun inside => ⟨fun locked => ?_, fun other notPending => ?_⟩⟩⟩
  · exact exec_writeScheduleEntry_of run idle extra (State.writeSchedule_of_range out t) rfl rfl
  · exact exec_writeScheduleEntry_of run idle extra (State.writeSchedule_of_locked inside ((s.sched.isLocked_iff t).2 locked)) rfl rfl
  · have unlocked : ¬(s.sched.isLocked t = true) := fun locked => ((s.sched.isLocked_iff t).1 locked).elim other notPending
    refine ⟨fun r l header => ?_, fun e slot => ?_, fun a0 a1 a2 a3 a4 a5 a6 a7 allowance => ?_⟩
    · subst header
      constructor
      · intro ranges
        exact exec_writeScheduleEntry_of run idle extra (State.writeSchedule_of_replaced inside unlocked (if_pos ranges)) rfl rfl
      · intro out
        exact exec_writeScheduleEntry_of run idle extra (State.writeSchedule_of_invalid inside unlocked (if_neg out)) rfl rfl
    · subst slot
      constructor
      · intro x named
        refine exec_writeScheduleEntry_of run idle extra (State.writeSchedule_of_replaced inside unlocked ?_) rfl rfl
        rw [ScheduleTable.replace, named, Option.map_some]
      · intro unnamed
        refine exec_writeScheduleEntry_of run idle extra (State.writeSchedule_of_invalid inside unlocked ?_) rfl rfl
        rw [ScheduleTable.replace, unnamed, Option.map_none]
    · subst allowance
      constructor
      · intro ranges
        refine exec_writeScheduleEntry_of run idle extra (State.writeSchedule_of_replaced inside unlocked (if_pos ?_)) rfl rfl
        exact List.all_eq_true.2 fun a here => decide_eq_true (ranges a here)
      · rintro ⟨a, here, large⟩
        refine exec_writeScheduleEntry_of run idle extra (State.writeSchedule_of_invalid inside unlocked (if_neg fun all => ?_)) rfl rfl
        exact absurd (of_decide_eq_true (List.all_eq_true.1 all a here)) (by omega)

/-! ### Partition records (R25) -/

theorem State.writePartition_of_range {s : State} {index : Half} (out : 8 ≤ index.toNat) (quota flags limit : Byte) :
    s.writePartition index quota flags limit = { state := s, status := .range } := by
  simp only [State.writePartition, (indexIn_none (n := 8) index).2 out, State.refuseWith]

/-- The partition records with the three fields of one written (R25). -/
def State.writtenParts (s : State) (p : PartitionId) (quota flags limit : Byte) : Vector PartitionRecord 8 :=
  modifyAt s.parts p fun r => r.rewrite quota.toNat (flags.getLsb 0) limit.toNat

theorem State.writtenParts_quotaSum (s : State) (p : PartitionId) (quota flags limit : Byte) :
    quotaSum (s.writtenParts p quota flags limit) = ((s.parts.toList.map PartitionRecord.quota).sum - s.parts[p].quota) + quota.toNat :=
  quotaSum_modifyAt s.parts p _

theorem State.writePartition_of_index {s : State} {index : Half} {p : PartitionId} (code : index.toNat = p.val) (quota flags limit : Byte) :
    s.writePartition index quota flags limit =
      if 64 < quota.toNat ∨ 15 < limit.toNat then { state := s, status := .range }
      else if quota.toNat ≠ s.parts[p].quota ∧ s.parts[p].state ≠ .off then { state := s, status := .state }
      else if 64 < quotaSum (s.writtenParts p quota flags limit) then { state := s, status := .range }
      else { state := { s with parts := s.writtenParts p quota flags limit }, status := .done } := by
  simp only [State.writePartition, (indexIn_some index p).2 code]
  rfl

theorem exec_writePartitionRecord_of {s u : State} {index : Half} {quota flags limit : Byte} {status : Status} (run : s.line = .running)
    (idle : s.port.idle = true) (ignored : Byte) (extra : Nat)
    (checks : s.writePartition index quota flags limit = { state := u, status := status }) (port : u.port = s.port) (free : u.free = s.free) :
    exec (.writePartitionRecord index ignored quota flags limit extra) s = .next (s.framed u status 4 extra) := by
  rw [exec_writePartitionRecord_of_running run, s.takeFrame_of 4 extra _ _ idle checks port free]

/-- Settles O43: the checks of R25 in their order. -/
theorem partitionRecordWrite : Obligations.PartitionRecordWrite := by
  intro index ignored quota flags limit extra s run idle
  refine ⟨fun out => exec_writePartitionRecord_of run idle ignored extra (State.writePartition_of_range out quota flags limit) rfl rfl, fun p code => ?_⟩
  have checks := State.writePartition_of_index (s := s) code quota flags limit
  refine ⟨fun large => ?_, fun quotaFits limitFits => ⟨fun changed active => ?_, fun may => ?_⟩⟩
  · rw [if_pos large] at checks
    exact exec_writePartitionRecord_of run idle ignored extra checks rfl rfl
  · rw [if_neg (by omega), if_pos ⟨changed, active⟩] at checks
    exact exec_writePartitionRecord_of run idle ignored extra checks rfl rfl
  · have free : ¬(quota.toNat ≠ s.parts[p].quota ∧ s.parts[p].state ≠ .off) := fun ⟨changed, active⟩ => may.elim changed active
    rw [if_neg (by omega), if_neg free, s.writtenParts_quotaSum p] at checks
    constructor
    · intro above
      rw [if_pos above] at checks
      exact exec_writePartitionRecord_of run idle ignored extra checks rfl rfl
    · intro fits
      rw [if_neg (Nat.not_lt.2 fits)] at checks
      exact exec_writePartitionRecord_of run idle ignored extra checks rfl rfl

/-! ### The initiator map and the regions (R69) -/

theorem mapValueOf_of_partition {value : Byte} {p : PartitionId} (code : value.toNat = p.val) : mapValueOf value = some (some p) := by
  simp only [mapValueOf, code, p.isLt, dite_true]

theorem mapValueOf_none {value : Byte} (large : 8 ≤ value.toNat) (other : value ≠ 0xFF) : mapValueOf value = none := by
  rw [mapValueOf, dif_neg (Nat.not_lt.2 large), if_neg other]

theorem State.writeMap_of_range {s : State} {index : Half} {value : Byte} (out : 32 ≤ index.toNat ∨ (8 ≤ value.toNat ∧ value ≠ 0xFF)) :
    s.writeMap index value = { state := s, status := .range } := by
  unfold State.writeMap
  split
  · next i v entry named =>
    have small := (indexIn_some index i).1 entry
    rcases out with outside | ⟨large, other⟩
    · omega
    · rw [mapValueOf_none large other] at named
      cases named
  · rfl
  · rfl

theorem State.writeMap_of_value {s : State} {index : Half} {value : Byte} {i : Initiator} {v : Option PartitionId} (code : index.toNat = i.val)
    (named : mapValueOf value = some v) :
    s.writeMap index value = { state := { s with intake := { s.intake with map := s.intake.map.set i v } }, status := .done } := by
  simp only [State.writeMap, (indexIn_some index i).2 code, named]

theorem exec_writeInitiatorMap_of {s u : State} {index : Half} {value : Byte} {status : Status} (run : s.line = .running)
    (idle : s.port.idle = true) (extra : Nat) (checks : s.writeMap index value = { state := u, status := status }) (port : u.port = s.port)
    (free : u.free = s.free) : exec (.writeInitiatorMap index value extra) s = .next (s.framed u status 1 extra) := by
  rw [exec_writeInitiatorMap_of_running run, s.takeFrame_of 1 extra _ _ idle checks port free]

/-- The region that a write of the region table names (R69, R177). -/
def writtenRegion (base limit : Word) (mask flags : Byte) : Region :=
  { base := base.setWidth 28, limit := limit.setWidth 28, mask := mask, readAllow := flags.getLsb 0, writeAllow := flags.getLsb 1
    enabled := flags.getLsb 2 }

theorem writtenRegion_reversed_iff (base limit : Word) (mask flags : Byte) :
    (writtenRegion base limit mask flags).limit < (writtenRegion base limit mask flags).base ↔ limit.toNat % 2 ^ 28 < base.toNat % 2 ^ 28 := by
  simp only [writtenRegion, BitVec.lt_def, BitVec.toNat_setWidth]

theorem State.writeRegionEntry_of_index {s : State} {index : Half} {k : Fin 16} (code : index.toNat = k.val) (base limit : Word) (mask flags : Byte) :
    s.writeRegionEntry index base limit mask flags =
      if limit.toNat % 2 ^ 28 < base.toNat % 2 ^ 28 then { state := s, status := .range }
      else
        { state := { s with intake := { s.intake with regions := s.intake.regions.set k (writtenRegion base limit mask flags) } }
          status := .done } := by
  simp only [← writtenRegion_reversed_iff base limit mask flags, State.writeRegionEntry, (indexIn_some index k).2 code]
  rfl

theorem State.writeRegionEntry_of_range {s : State} {index : Half} (out : 16 ≤ index.toNat) (base limit : Word) (mask flags : Byte) :
    s.writeRegionEntry index base limit mask flags = { state := s, status := .range } := by
  simp only [State.writeRegionEntry, (indexIn_none (n := 16) index).2 out, State.refuseWith]

theorem exec_writeRegion_of {s u : State} {index : Half} {base limit : Word} {mask flags : Byte} {status : Status} (run : s.line = .running)
    (idle : s.port.idle = true) (extra : Nat) (checks : s.writeRegionEntry index base limit mask flags = { state := u, status := status })
    (port : u.port = s.port) (free : u.free = s.free) :
    exec (.writeRegion index base limit mask flags extra) s = .next (s.framed u status 10 extra) := by
  rw [exec_writeRegion_of_running run, s.takeFrame_of 10 extra _ _ idle checks port free]

/-- Settles O44: the checks of R69 on the map and on the regions. -/
theorem mapAndRegionWrite : Obligations.MapAndRegionWrite := by
  refine ⟨fun index value extra s run idle => ⟨fun out => ?_, fun i code => ⟨fun p named => ?_, fun none_ => ?_⟩⟩,
    fun index base limit mask flags extra s run idle => ⟨fun out => ?_, fun k code ordered => ?_⟩⟩
  · exact exec_writeInitiatorMap_of run idle extra (State.writeMap_of_range out) rfl rfl
  · exact exec_writeInitiatorMap_of run idle extra (State.writeMap_of_value code (mapValueOf_of_partition named)) rfl rfl
  · subst none_
    exact exec_writeInitiatorMap_of run idle extra (State.writeMap_of_value code rfl) rfl rfl
  · refine exec_writeRegion_of run idle extra ?_ rfl rfl
    by_cases large : 16 ≤ index.toNat
    · exact State.writeRegionEntry_of_range large base limit mask flags
    · have reversed := out.resolve_left large
      rw [State.writeRegionEntry_of_index (k := ⟨index.toNat, by omega⟩) rfl, if_pos reversed]
  · have checks := State.writeRegionEntry_of_index (s := s) code base limit mask flags
    rw [if_neg (Nat.not_lt.2 ordered)] at checks
    exact exec_writeRegion_of run idle extra checks rfl rfl

end Machine
end Sys2Proof
end

section
/-! WRITE ENTRY on the monitors, the triggers and the attention mask, and the attention output (R140, R147, R163 to R165). -/

namespace Sys2Proof
namespace Machine

/-! ### Codes (R177) -/

/-- Where each code of a list is its place, the code names what stands at its place. -/
theorem find?_code_eq_getElem? {α : Type} {codes : List α} {code : α → Byte} (places : ∀ k : Nat, ∀ h : k < codes.length, (code codes[k]).toNat = k)
    (b : Byte) : (codes.find? fun x => code x == b) = codes[b.toNat]? := by
  rcases Nat.lt_or_ge b.toNat codes.length with small | large
  · rw [List.getElem?_eq_getElem small, List.find?_eq_some_iff_getElem]
    refine ⟨beq_iff_eq.2 (BitVec.eq_of_toNat_eq (places _ small)), b.toNat, small, rfl, fun j before => ?_⟩
    have other : code (codes[j]'(before.trans small)) ≠ b := fun same => by
      have place := places j (before.trans small)
      rw [same] at place
      omega
    simp [other]
  · rw [List.getElem?_eq_none large, List.find?_eq_none]
    intro x here
    obtain ⟨k, inside, rfl⟩ := List.getElem_of_mem here
    have other : code codes[k] ≠ b := fun same => by
      have place := places k inside
      rw [same] at place
      omega
    simp [other]

theorem monitorObjectOf_eq (b : Byte) :
    monitorObjectOf b = ([.queue, .age, .lostRound, .retryRound, .inFlight, .orphans, .wbuf, .faults] : List MonitorObject)[b.toNat]? :=
  find?_code_eq_getElem? (by decide) b

theorem monitorConditionOf_eq (b : Byte) : monitorConditionOf b = ([.atOrAbove, .below] : List MonitorCondition)[b.toNat]? :=
  find?_code_eq_getElem? (by decide) b

theorem causeCodeOf_eq (b : Byte) : causeCodeOf b = causeCodeTable[b.toNat]? := find?_code_eq_getElem? (codes := causeCodeTable) (by decide) b

theorem actionCodeOf_eq (b : Byte) : actionCodeOf b = actionCodeTable[b.toNat]? := find?_code_eq_getElem? (codes := actionCodeTable) (by decide) b

/-! ### Monitors (R140, R141, R143) -/

theorem Monitor.quantity_of_partition {m : Monitor} {p : PartitionId} (code : m.argument.toNat = p.val) :
    (m.object = .queue → m.quantity = .queue p) ∧ (m.object = .age → m.quantity = .age p) ∧
      (m.object = .lostRound → m.quantity = .lostRound p) ∧ (m.object = .retryRound → m.quantity = .retryRound p) := by
  have index := byteIndex_of_toNat m.argument p code
  refine ⟨?_, ?_, ?_, ?_⟩ <;> intro object <;> simp only [Monitor.quantity, object, index]

theorem Monitor.quantity_of_unit (m : Monitor) :
    (m.object = .inFlight → m.quantity = .inFlight) ∧ (m.object = .orphans → m.quantity = .orphans) ∧ (m.object = .wbuf → m.quantity = .wbuf) ∧
      (m.object = .faults → m.quantity = .faults) := by
  refine ⟨?_, ?_, ?_, ?_⟩ <;> intro object <;> simp only [Monitor.quantity, object]

theorem State.heldCount_eq_length (s : State) (p : PartitionId) : s.heldCount p = (s.pool.filter fun e => e.partition == p).length :=
  List.countP_eq_length_filter

theorem State.occupancy_eq_length (s : State) : s.occupancy = (s.flight.table.toList.filter fun e => e != .free).length := by
  have used : (fun e : FlightEntry => !e.isFree) = fun e => e != .free := by
    funext e
    cases e <;> rfl
  rw [State.occupancy, used, List.countP_eq_length_filter]

theorem State.orphanCount_eq_length (s : State) :
    s.orphanCount = (s.flight.table.toList.filter fun e => match e with | .orphaned _ _ => true | _ => false).length := by
  rw [State.orphanCount, List.countP_eq_length_filter]
  congr 2
  funext e
  cases e <;> rfl

theorem MonitorObject.takesPartition_iff {b : Byte} {o : MonitorObject} (named : monitorObjectOf b = some o) :
    o.takesPartition = true ↔ b.toNat ≤ 3 := by
  rw [monitorObjectOf_eq] at named
  obtain ⟨inside, there⟩ := List.getElem?_eq_some_iff.1 named
  have all : ∀ k : Nat, ∀ h : k < 8,
      (([.queue, .age, .lostRound, .retryRound, .inFlight, .orphans, .wbuf, .faults] : List MonitorObject)[k]).takesPartition = true ↔ k ≤ 3 := by
    decide
  rw [← there]
  exact all b.toNat inside

/-- The five fields that a write of a monitor replaces, the last result false (R140, R143). -/
def writtenMonitor (flags : Byte) (o : MonitorObject) (argument : Byte) (c : MonitorCondition) (threshold : Half) : Monitor :=
  { enabled := flags.getLsb 0, object := o, argument := argument, condition := c, threshold := threshold, last := false }

/-- A monitor that is evaluated at once if it is enabled (R143). -/
def State.evaluated (s : State) (m : Monitor) : Monitor := { m with last := m.enabled && m.result (s.quantity m.quantity) }

theorem State.writeMonitorEntry_of_range {s : State} {index : Half} {object condition argument : Byte} (flags : Byte) (threshold : Half)
    (out : 4 ≤ index.toNat ∨ 7 < object.toNat ∨ 1 < condition.toNat ∨ (object.toNat ≤ 3 ∧ 7 < argument.toNat)) :
    s.writeMonitorEntry index flags object condition argument threshold = { state := s, status := .range } := by
  unfold State.writeMonitorEntry
  split
  · rfl
  · next i entry =>
    have small := (indexIn_some index i).1 entry
    split
    · next o c objectNamed conditionNamed =>
      have takes := MonitorObject.takesPartition_iff objectNamed
      rw [monitorObjectOf_eq] at objectNamed
      rw [monitorConditionOf_eq] at conditionNamed
      obtain ⟨objectIn, _⟩ := List.getElem?_eq_some_iff.1 objectNamed
      obtain ⟨conditionIn, _⟩ := List.getElem?_eq_some_iff.1 conditionNamed
      simp only [List.length_cons, List.length_nil] at objectIn conditionIn
      have argumentOut : object.toNat ≤ 3 ∧ 7 < argument.toNat := by
        have := i.isLt
        omega
      obtain ⟨partition, large⟩ := argumentOut
      rw [if_pos (Bool.and_eq_true_iff.2 ⟨takes.2 partition, decide_eq_true large⟩), State.refuseWith]
    · rfl
    · rfl

theorem State.writeMonitorEntry_of_named {s : State} {index : Half} {object condition argument : Byte} {i : Fin 4} {o : MonitorObject}
    {c : MonitorCondition} (code : index.toNat = i.val) (objectNamed : monitorObjectOf object = some o)
    (conditionNamed : monitorConditionOf condition = some c) (argumentIn : object.toNat ≤ 3 → argument.toNat ≤ 7) (flags : Byte) (threshold : Half) :
    s.writeMonitorEntry index flags object condition argument threshold =
      { state := s.rearmMonitor i (writtenMonitor flags o argument c threshold), status := .done } := by
  have fits : ¬((o.takesPartition && decide (7 < argument.toNat)) = true) := by
    rw [Bool.and_eq_true, MonitorObject.takesPartition_iff objectNamed, decide_eq_true_eq]
    omega
  simp only [State.writeMonitorEntry, (indexIn_some index i).2 code, objectNamed, conditionNamed, if_neg fits]
  rfl

theorem exec_writeMonitor_of {s u : State} {index : Half} {flags object condition argument : Byte} {threshold : Half} {status : Status}
    (run : s.line = .running) (idle : s.port.idle = true) (extra : Nat)
    (checks : s.writeMonitorEntry index flags object condition argument threshold = { state := u, status := status }) (port : u.port = s.port)
    (free : u.free = s.free) :
    exec (.writeMonitor index flags object condition argument threshold extra) s = .next (s.framed u status 6 extra).settle := by
  rw [exec_writeMonitor_of_running run, s.takeFrame_of 6 extra _ _ idle checks port free]

/-- Settles O45: the codes, what a monitor watches, and the checks of R140. -/
theorem monitorWrite : Obligations.MonitorWrite := by
  refine ⟨fun b => ⟨monitorObjectOf_eq b, monitorConditionOf_eq b⟩, fun m => ⟨fun p => Monitor.quantity_of_partition, ?watches⟩,
    fun s p => ⟨s.heldCount_eq_length p, fun empty => ?empty, fun e es queue => ?head, rfl, rfl, s.occupancy_eq_length, s.orphanCount_eq_length, rfl, rfl⟩,
    fun index flags object condition argument threshold extra s run idle => ⟨fun out taken => ?refused,
      fun i o c code objectNamed conditionNamed argumentIn => ⟨s.evaluated (writtenMonitor flags o argument c threshold), rfl, rfl, ?taken⟩⟩⟩
  case watches =>
    obtain ⟨inFlight, orphans, wbuf, faults⟩ := m.quantity_of_unit
    exact ⟨inFlight, orphans, wbuf, faults, fun value => rfl⟩
  case empty =>
    rw [State.quantity, State.headAge_of_queue_nil empty]
    rfl
  case head => rw [State.quantity, s.headAge_eq, queue]
  case refused =>
    rw [exec_writeMonitor_of run idle extra (State.writeMonitorEntry_of_range flags threshold out) rfl rfl, State.settle_framed_self taken]
  case taken =>
    have checks := State.writeMonitorEntry_of_named (s := s) code objectNamed conditionNamed argumentIn flags threshold
    rw [exec_writeMonitor_of run idle extra checks (by simp) (by simp), State.rearmMonitor_eq]
    rfl

/-! ### Triggers (R147, R148, R150) -/

theorem CauseCode.allows_iff (c : CauseCode) (b : Byte) :
    c.allows b = true ↔
      match c with
      | .monitor => b.toNat ≤ 3
      | .roundStart => b.toNat ≤ 2
      | .switchTaken => True
      | .evinRise => b.toNat ≤ 3
      | .evinFall => b.toNat ≤ 3
      | .fault => b.toNat ≤ 10
      | .partitionOff => b.toNat ≤ 7
      | .restartDone => True := by
  cases c <;> simp [CauseCode.allows]

theorem ActionCode.allows_iff (a : ActionCode) (b : Byte) :
    a.allows b = true ↔
      match a with
      | .requestSwitch => b.toNat ≤ 1
      | .setRun => b.toNat ≤ 7
      | .setHold => b.toNat ≤ 7
      | .setClosing => b.toNat ≤ 7
      | .flush => b.toNat ≤ 7
      | .evoutSet => b.toNat ≤ 3
      | .evoutClear => b.toNat ≤ 3
      | .evoutPulse => b.toNat ≤ 3
      | .snapshot => True
      | .attention => True
      | .arm => b.toNat ≤ 7
      | .disarm => b.toNat ≤ 7
      | .clearMonitor => b.toNat ≤ 3 := by
  cases a <;> simp [ActionCode.allows]

/-- A written trigger entry does not pass R147's checks. -/
def TriggerWriteRefused (index : Half) (cause causeArgument action actionArgument : Byte) : Prop :=
  8 ≤ index.toNat ∨ causeCodeOf cause = none ∨ actionCodeOf action = none ∨
    (∃ c, causeCodeOf cause = some c ∧ c.allows causeArgument = false) ∨ (∃ a, actionCodeOf action = some a ∧ a.allows actionArgument = false)

theorem State.writeTriggerEntry_of_range {s : State} {index : Half} {cause causeArgument action actionArgument : Byte} (flags : Byte)
    (refused : TriggerWriteRefused index cause causeArgument action actionArgument) :
    s.writeTriggerEntry index flags cause causeArgument action actionArgument = { state := s, status := .range } := by
  unfold State.writeTriggerEntry
  split
  · rfl
  · next i entry =>
    have small := (indexIn_some index i).1 entry
    split
    · next c a causeNamed actionNamed =>
      rw [if_neg, State.refuseWith]
      rw [Bool.and_eq_true]
      rintro ⟨causeAllowed, actionAllowed⟩
      rcases refused with large | noCause | noAction | ⟨x, named, denied⟩ | ⟨x, named, denied⟩
      · omega
      · exact absurd (causeNamed.symm.trans noCause) (Option.some_ne_none c)
      · exact absurd (actionNamed.symm.trans noAction) (Option.some_ne_none a)
      · obtain rfl := Option.some.inj (causeNamed.symm.trans named)
        exact absurd (causeAllowed.symm.trans denied) (by decide)
      · obtain rfl := Option.some.inj (actionNamed.symm.trans named)
        exact absurd (actionAllowed.symm.trans denied) (by decide)
    · rfl
    · rfl

theorem State.writeTriggerEntry_of_named {s : State} {index : Half} {cause causeArgument action actionArgument : Byte} {i : Fin 8} {c : CauseCode}
    {a : ActionCode} (code : index.toNat = i.val) (causeNamed : causeCodeOf cause = some c) (actionNamed : actionCodeOf action = some a)
    (causeAllowed : c.allows causeArgument = true) (actionAllowed : a.allows actionArgument = true) (flags : Byte) :
    s.writeTriggerEntry index flags cause causeArgument action actionArgument =
      { state :=
          s.setTrigger i fun t =>
            { enabled := flags.getLsb 0, mode := triggerModeOf (flags.getLsb 1), armed := flags.getLsb 0, cause := c
              causeArgument := causeArgument, action := a, actionArgument := actionArgument, fireCount := t.fireCount }
        status := .done } := by
  simp only [State.writeTriggerEntry, (indexIn_some index i).2 code, causeNamed, actionNamed, causeAllowed, actionAllowed, Bool.and_self, if_true]

theorem exec_writeTrigger_of {s u : State} {index : Half} {flags cause causeArgument action actionArgument : Byte} {status : Status}
    (run : s.line = .running) (idle : s.port.idle = true) (ignored : Half) (extra : Nat)
    (checks : s.writeTriggerEntry index flags cause causeArgument action actionArgument = { state := u, status := status })
    (port : u.port = s.port) (free : u.free = s.free) :
    exec (.writeTrigger index flags cause causeArgument action actionArgument ignored extra) s = .next (s.framed u status 7 extra) := by
  rw [exec_writeTrigger_of_running run, s.takeFrame_of 7 extra _ _ idle checks port free]

/-- Settles O46: the codes, the arguments each allows, and the checks of R147. -/
theorem triggerWrite : Obligations.TriggerWrite := by
  refine ⟨fun b => ⟨causeCodeOf_eq b, actionCodeOf_eq b⟩, CauseCode.allows_iff, ActionCode.allows_iff,
    fun index flags cause causeArgument action actionArgument ignored extra s run idle => ⟨fun refused => ?_,
      fun i c a code causeNamed actionNamed causeAllowed actionAllowed => ?_⟩⟩
  · exact exec_writeTrigger_of run idle ignored extra (State.writeTriggerEntry_of_range flags refused) rfl rfl
  · have checks := State.writeTriggerEntry_of_named (s := s) code causeNamed actionNamed causeAllowed actionAllowed flags
    exact exec_writeTrigger_of run idle ignored extra checks rfl rfl

/-! ### Attention (R163 to R165) -/

/-- The place of an attention cause's bit (R177). -/
def AttentionCause.place : AttentionCause → Fin 7
  | .fault => 0
  | .overflow => 1
  | .trigger => 2
  | .snapshot => 3
  | .switch => 4
  | .restart => 5
  | .closed => 6

theorem AttentionCause.bit_eq (c : AttentionCause) : c.bit = BitVec.twoPow 7 c.place := by
  cases c <;> rfl

theorem AttentionCause.place_surjective (k : Fin 7) : ∃ c : AttentionCause, c.place = k := by
  fin_cases k
  exacts [⟨.fault, rfl⟩, ⟨.overflow, rfl⟩, ⟨.trigger, rfl⟩, ⟨.snapshot, rfl⟩, ⟨.switch, rfl⟩, ⟨.restart, rfl⟩, ⟨.closed, rfl⟩]

/-- A set of attention causes meets a cause's bit where it has that bit. -/
theorem and_bit_ne_zero_iff (v : BitVec 7) (c : AttentionCause) : v &&& c.bit ≠ 0 ↔ v.getLsbD c.place = true := by
  rw [c.bit_eq, BitVec.and_twoPow]
  cases v.getLsbD c.place with
  | true => cases c <;> decide
  | false => simp

theorem Attention.isPending_iff (a : Attention) (c : AttentionCause) : a.isPending c = true ↔ a.pendingSet &&& c.bit ≠ 0 := bne_iff_ne

theorem Attention.pendingSet_eq (a : Attention) : a.pendingSet = a.latched ||| if a.queue = [] then 0 else AttentionCause.fault.bit := by
  simp only [Attention.pendingSet, List.isEmpty_iff]

/-- A cause is pending where it is latched, and FAULT where the queue holds a record (R163). -/
theorem Attention.isPending_iff_latched (a : Attention) (c : AttentionCause) :
    a.isPending c = true ↔ a.latched &&& c.bit ≠ 0 ∨ (c = .fault ∧ a.queue ≠ []) := by
  rw [a.isPending_iff, and_bit_ne_zero_iff, and_bit_ne_zero_iff, a.pendingSet_eq, BitVec.getLsbD_or, Bool.or_eq_true]
  refine or_congr_right ?_
  by_cases empty : a.queue = []
  · simp [empty]
  · rw [if_neg empty]
    simp only [empty, ne_eq, not_false_eq_true, and_true]
    cases c <;> decide

theorem State.writeMask_of_zero (s : State) (mask : Byte) :
    s.writeMask 0 mask = { state := { s with attention := { s.attention with mask := mask.extractLsb' 0 7 } }, status := .done } := if_pos rfl

theorem State.writeMask_of_other {s : State} {index : Half} (other : index ≠ 0) (mask : Byte) :
    s.writeMask index mask = { state := s, status := .range } := if_neg other

theorem exec_writeAttentionMask_of {s u : State} {index : Half} {mask : Byte} {status : Status} (run : s.line = .running) (idle : s.port.idle = true)
    (extra : Nat) (checks : s.writeMask index mask = { state := u, status := status }) (port : u.port = s.port) (free : u.free = s.free) :
    exec (.writeAttentionMask index mask extra) s = .next (s.framed u status 1 extra) := by
  rw [exec_writeAttentionMask_of_running run, s.takeFrame_of 1 extra _ _ idle checks port free]

/-- Settles O47: a set of causes is read bit by bit. -/
theorem attentionCommands : Obligations.AttentionCommands := by
  refine ⟨fun index mask extra s run idle => ⟨fun zero => ?_, fun other => ?_⟩,
    fun causes extra s run idle => ⟨s.attention.latched &&& ~~~(causes.extractLsb' 0 7), ?_, fun k inside => ?_⟩,
    fun a c => ⟨a.isPending_iff_latched c, a.isPending_iff c⟩, fun s => ⟨?_, fun unlatched => ?_⟩⟩
  · subst zero
    exact exec_writeAttentionMask_of run idle extra (s.writeMask_of_zero mask) rfl rfl
  · exact exec_writeAttentionMask_of run idle extra (State.writeMask_of_other other mask) rfl rfl
  · rw [exec_acknowledge_of_running run, s.takeFrame_of 1 extra _ _ idle rfl rfl rfl]
    rfl
  · simp only [BitVec.getLsbD_and, BitVec.getLsbD_not, BitVec.getLsbD_extractLsb', inside, decide_true, Bool.true_and, Nat.zero_add]
  · simp only [Attention.isPending_iff, and_bit_ne_zero_iff]
    rw [State.attnnLow, and_ne_zero_iff]
    constructor
    · rintro ⟨k, pending, enabled⟩
      obtain ⟨c, rfl⟩ := AttentionCause.place_surjective k
      exact ⟨c, pending, enabled⟩
    · rintro ⟨c, pending, enabled⟩
      exact ⟨c.place, pending, enabled⟩
  · rw [s.attention.isPending_iff_latched]
    simp [unlatched]

end Machine
end Sys2Proof
end

section
/-! Frames as bytes: what each frame is read as, and that the frame of a command is read as the command (R167, R168, R177). -/

namespace Sys2Proof
namespace Machine

/-! ### Numbers and codes -/

theorem byteAt_toNat {n : Nat} (k : Nat) (v : BitVec n) : (byteAt k v).toNat = v.toNat / 2 ^ (8 * k) % 2 ^ 8 := by
  rw [byteAt, BitVec.extractLsb'_toNat, Nat.shiftRight_eq_div_pow]

theorem halfOf_byteAt (v : Half) : halfOf (byteAt 1 v) (byteAt 0 v) = v := by
  apply BitVec.eq_of_toNat_eq
  rw [halfOf_toNat, byteAt_toNat, byteAt_toNat]
  have := v.isLt
  omega

theorem append_byte_toNat {n : Nat} (v : BitVec n) (b : Byte) : (v ++ b).toNat = 256 * v.toNat + b.toNat := by
  rw [BitVec.toNat_append, ← Nat.shiftLeft_add_eq_or_of_lt b.isLt, Nat.shiftLeft_eq, Nat.mul_comm]

theorem wordOf_toNat (b3 b2 b1 b0 : Byte) :
    (wordOf b3 b2 b1 b0).toNat = 256 * (256 * (256 * b3.toNat + b2.toNat) + b1.toNat) + b0.toNat := by
  rw [wordOf, append_byte_toNat, append_byte_toNat, append_byte_toNat]

theorem wordOf_byteAt (v : Word) : wordOf (byteAt 3 v) (byteAt 2 v) (byteAt 1 v) (byteAt 0 v) = v := by
  apply BitVec.eq_of_toNat_eq
  simp only [wordOf_toNat, byteAt_toNat]
  have := v.isLt
  omega

theorem entryTableOf_code (table : EntryTable) : entryTableOf (entryTableCode table) = some table := by
  cases table with
  | schedule t part => cases t <;> cases part <;> rfl
  | _ => rfl

/-! ### Frames that are taken, by their code (R168, R177) -/

/-- A read command's code is none of the codes that are looked at before it. -/
theorem readCommandOf_code {code argument : Byte} {index : Half} {command : ReadCommand} (named : readCommandOf code argument index = some command) :
    code ≠ 0x02 ∧ code ≠ 0x10 ∧ code ≠ 0x11 ∧ code ≠ 0x12 ∧ code ≠ 0x13 ∧ code ≠ 0x21 ∧ code ≠ 0x32 := by
  refine ⟨?_, ?_, ?_, ?_, ?_, ?_, ?_⟩ <;> rintro rfl <;> cases named

theorem decodeBody_of_other {code argument : Byte} {index : Half} {data : List Byte}
    (other : code ≠ 0x02 ∧ code ≠ 0x10 ∧ code ≠ 0x11 ∧ code ≠ 0x12 ∧ code ≠ 0x13 ∧ code ≠ 0x21 ∧ code ≠ 0x32) :
    decodeBody code argument index data =
      match readCommandOf code argument index with
      | none => some none
      | some command => if data.length < readLength command then none else some (some (command.close (data.length - readLength command))) := by
  obtain ⟨n02, n10, n11, n12, n13, n21, n32⟩ := other
  simp only [decodeBody, n02, n10, n11, n12, n13, n21, n32, if_false] <;> rfl

section
variable {b : IndexBytes} {command : ReadCommand} {data : List Byte} (named : b.command = some command) (ignored : Byte)
include named

theorem decodeFrame_read (enough : readLength command ≤ data.length) :
    decodeFrame (b.code :: b.argument :: b.high :: b.low :: ignored :: data) = command.close (data.length - readLength command) := by
  rw [IndexBytes.command] at named
  simp only [decodeFrame, decodeBody_of_other (readCommandOf_code named), named, if_neg (Nat.not_lt.2 enough)]

theorem decodeFrame_read_short (short : data.length < readLength command) :
    decodeFrame (b.code :: b.argument :: b.high :: b.low :: ignored :: data) =
      .frameCutShort (b.code :: b.argument :: b.high :: b.low :: ignored :: data) := by
  rw [IndexBytes.command] at named
  simp only [decodeFrame, decodeBody_of_other (readCommandOf_code named), named, if_pos short]

end

/-- A WRITE ENTRY frame is read by the table it names. -/
theorem decodeFrame_write {argument high low ignored : Byte} {data : List Byte} {table : EntryTable} {i : Instr}
    (named : entryTableOf argument = some table) (taken : decodeWrite table (halfOf high low) data = some i) :
    decodeFrame (0x02 :: argument :: high :: low :: ignored :: data) = i := by
  simp only [decodeFrame, decodeBody, if_true, named, taken, Option.map_some]

/-! ### Frames that are cut short, and unknown codes (R168) -/

theorem decodeFrame_short {bytes : List Byte} (short : bytes.length < 5) : decodeFrame bytes = .frameCutShort bytes := by
  unfold decodeFrame
  split
  · simp only [List.length_cons] at short
    omega
  · rfl

theorem decodeWrite_short {table : EntryTable} {index : Half} {data : List Byte} (short : data.length < entryLength table) :
    decodeWrite table index data = none := by
  unfold decodeWrite
  split
  -- The last row of `decodeWrite`; each row before it has the data of a whole entry.
  case h_10 => rfl
  all_goals
    simp only [entryLength, List.length_cons] at short
    omega

theorem decodeFrame_write_short {argument high low ignored : Byte} {data : List Byte} {table : EntryTable}
    (named : entryTableOf argument = some table) (short : data.length < entryLength table) :
    decodeFrame (0x02 :: argument :: high :: low :: ignored :: data) = .frameCutShort (0x02 :: argument :: high :: low :: ignored :: data) := by
  simp only [decodeFrame, decodeBody, if_true, named, decodeWrite_short short, Option.map_none]

theorem entryTable_of_length {argument : Byte} {length : Nat}
    (listed : (argument, length) ∈
      ([(0x00, 2), (0x01, 1), (0x02, 8), (0x03, 2), (0x04, 1), (0x05, 8), (0x08, 4), (0x09, 1), (0x0A, 10), (0x0B, 6), (0x0C, 7), (0x0D, 1)] :
        List (Byte × Nat))) : ∃ table, entryTableOf argument = some table ∧ entryLength table = length := by
  simp only [List.mem_cons, List.not_mem_nil, or_false, Prod.mk.injEq] at listed
  rcases listed with ⟨rfl, rfl⟩ | ⟨rfl, rfl⟩ | ⟨rfl, rfl⟩ | ⟨rfl, rfl⟩ | ⟨rfl, rfl⟩ | ⟨rfl, rfl⟩ | ⟨rfl, rfl⟩ | ⟨rfl, rfl⟩ | ⟨rfl, rfl⟩ |
    ⟨rfl, rfl⟩ | ⟨rfl, rfl⟩ | ⟨rfl, rfl⟩
  all_goals exact ⟨_, rfl, rfl⟩

theorem entryTableOf_none {argument : Byte}
    (unlisted : argument ∉ ([0x00, 0x01, 0x02, 0x03, 0x04, 0x05, 0x08, 0x09, 0x0A, 0x0B, 0x0C, 0x0D] : List Byte)) : entryTableOf argument = none := by
  simp only [List.mem_cons, List.not_mem_nil, or_false, not_or] at unlisted
  simp only [entryTableOf, unlisted, if_false]

theorem decodeFrame_unknown {code argument : Byte} (high low ignored : Byte) (data : List Byte)
    (unnamed : decodeBody code argument (halfOf high low) data = some none) :
    decodeFrame (code :: argument :: high :: low :: ignored :: data) = .unknown (code :: argument :: high :: low :: ignored :: data) := by
  simp only [decodeFrame, unnamed]

theorem decodeBody_unlisted_code {code : Byte}
    (unlisted : code ∉ ([0x01, 0x02, 0x10, 0x11, 0x12, 0x13, 0x20, 0x21, 0x30, 0x31, 0x32, 0x33] : List Byte)) (argument : Byte) (index : Half)
    (data : List Byte) : decodeBody code argument index data = some none := by
  simp only [List.mem_cons, List.not_mem_nil, or_false, not_or] at unlisted
  obtain ⟨n01, n02, n10, n11, n12, n13, n20, n21, n30, n31, n32, n33⟩ := unlisted
  have none_ : readCommandOf code argument index = none := by
    rw [readCommandOf, if_neg n01, if_neg n20, if_neg n30, if_neg n31, if_neg n33]
  simp only [decodeBody_of_other ⟨n02, n10, n11, n12, n13, n21, n32⟩, none_]

theorem decodeBody_unlisted_table {code argument : Byte} (table : code = 0x01 ∨ code = 0x02) (none_ : entryTableOf argument = none) (index : Half)
    (data : List Byte) : decodeBody code argument index data = some none := by
  rcases table with rfl | rfl
  · have unnamed : readCommandOf 0x01 argument index = none := by rw [readCommandOf, if_pos rfl, none_, Option.map_none]
    simp only [decodeBody_of_other (show (0x01 : Byte) ≠ 0x02 ∧ _ by decide), unnamed]
  · simp only [decodeBody, if_true, none_]

/-! ### The frame of a command is read as the command -/

theorem decodeFrame_encodeRead (command : ReadCommand) (extra : Nat) : decodeFrame (encodeRead command extra) = command.close extra := by
  have length : (List.replicate (readLength command) (0 : Byte) ++ List.replicate extra 0).length = readLength command + extra := by simp
  have header : ∃ b : IndexBytes, readHeader command = b.list ∧ b.command = some command := by
    cases command with
    | readEntry table index =>
      refine ⟨{ code := 0x01, argument := entryTableCode table, high := byteAt 1 index, low := byteAt 0 index }, rfl, ?_⟩
      rw [IndexBytes.command, readCommandOf, if_pos rfl, entryTableOf_code, halfOf_byteAt, Option.map_some]
    | popFault => exact ⟨{ code := 0x20, argument := 0, high := 0, low := 0 }, rfl, rfl⟩
    | readStatus => exact ⟨{ code := 0x30, argument := 0, high := 0, low := 0 }, rfl, rfl⟩
    | readCounters argument => exact ⟨{ code := 0x31, argument := argument, high := 0, low := 0 }, rfl, rfl⟩
    | readSnapshot index =>
      refine ⟨{ code := 0x33, argument := 0, high := byteAt 1 index, low := byteAt 0 index }, rfl, ?_⟩
      exact congrArg (fun i => some (ReadCommand.readSnapshot i)) (halfOf_byteAt index)
  obtain ⟨b, listed, named⟩ := header
  have frame : encodeRead command extra = b.code :: b.argument :: b.high :: b.low :: 0 :: (List.replicate (readLength command) 0 ++ List.replicate extra 0) := by
    rw [encodeRead, listed, frameBytes, List.append_assoc]
    rfl
  rw [frame, decodeFrame_read named 0 (by omega), length, Nat.add_sub_cancel_left]

theorem decodeFrame_frameBytes {table : EntryTable} {index : Half} {data : List Byte} {extra : Nat} {i : Instr}
    (taken : decodeWrite table index (data ++ List.replicate extra 0) = some i) : decodeFrame (frameBytes (writeHeader table index) data extra) = i := by
  have frame : frameBytes (writeHeader table index) data extra =
      0x02 :: entryTableCode table :: byteAt 1 index :: byteAt 0 index :: 0 :: (data ++ List.replicate extra 0) := by
    rw [frameBytes, List.append_assoc]
    rfl
  rw [frame, decodeFrame_write (entryTableOf_code table) (by rw [halfOf_byteAt]; exact taken)]

theorem decodeFrame_encodeFrame {i : Instr} {bytes : List Byte} (wellFormed : i.wellFormed = true) (encoded : encodeFrame i = some bytes) :
    decodeFrame bytes = i := by
  cases i with
  | frameCutShort whole =>
    obtain rfl := Option.some.inj encoded
    exact of_decide_eq_true wellFormed
  | unknown whole =>
    obtain rfl := Option.some.inj encoded
    exact of_decide_eq_true wellFormed
  | readEntry table index extra =>
    obtain rfl := Option.some.inj encoded
    exact decodeFrame_encodeRead _ extra
  | popFault extra =>
    obtain rfl := Option.some.inj encoded
    exact decodeFrame_encodeRead _ extra
  | readStatus extra =>
    obtain rfl := Option.some.inj encoded
    exact decodeFrame_encodeRead _ extra
  | readCounters argument extra =>
    obtain rfl := Option.some.inj encoded
    exact decodeFrame_encodeRead _ extra
  | readSnapshot index extra =>
    obtain rfl := Option.some.inj encoded
    exact decodeFrame_encodeRead _ extra
  | writeScheduleEntry t index data extra =>
    obtain rfl := Option.some.inj encoded
    refine decodeFrame_frameBytes ?_
    cases data <;> simp [decodeWrite, ScheduleEntryData.bytes, ScheduleEntryData.part]
  | writePartitionRecord index s q f l extra =>
    obtain rfl := Option.some.inj encoded
    exact decodeFrame_frameBytes (by simp [decodeWrite])
  | writeInitiatorMap index v extra =>
    obtain rfl := Option.some.inj encoded
    exact decodeFrame_frameBytes (by simp [decodeWrite])
  | writeRegion index base limit m f extra =>
    obtain rfl := Option.some.inj encoded
    exact decodeFrame_frameBytes (by simp [decodeWrite, wordBytes, wordOf_byteAt])
  | writeMonitor index f o c a t extra =>
    obtain rfl := Option.some.inj encoded
    exact decodeFrame_frameBytes (by simp [decodeWrite, halfBytes, halfOf_byteAt])
  | writeTrigger index f c ca a aa n extra =>
    obtain rfl := Option.some.inj encoded
    exact decodeFrame_frameBytes (by simp [decodeWrite, halfBytes, halfOf_byteAt])
  | writeAttentionMask index m extra =>
    obtain rfl := Option.some.inj encoded
    exact decodeFrame_frameBytes (by simp [decodeWrite])
  | requestSwitch argument extra =>
    obtain rfl := Option.some.inj encoded
    exact congrArg (Instr.requestSwitch argument) List.length_replicate
  | setPartitionState argument index extra =>
    obtain rfl := Option.some.inj encoded
    exact congrArg₂ (Instr.setPartitionState argument) (halfOf_byteAt index) List.length_replicate
  | flushPartition argument extra =>
    obtain rfl := Option.some.inj encoded
    exact congrArg (Instr.flushPartition argument) List.length_replicate
  | pathRestart extra =>
    obtain rfl := Option.some.inj encoded
    exact congrArg Instr.pathRestart List.length_replicate
  | acknowledge causes extra =>
    obtain rfl := Option.some.inj encoded
    exact congrArg (Instr.acknowledge causes) List.length_replicate
  | clearCounters extra =>
    obtain rfl := Option.some.inj encoded
    exact congrArg Instr.clearCounters List.length_replicate
  | _ => cases encoded

/-- Settles O60. -/
theorem framesReadBack : Obligations.FramesReadBack := by
  refine ⟨fun i bytes => decodeFrame_encodeFrame, fun argument high low ignored data => ⟨rfl, rfl, rfl, rfl, rfl, fun causes => rfl⟩,
    fun t high low ignored b0 b1 b2 b3 b4 b5 b6 b7 b8 b9 data => ⟨?_, ?_, ?_, rfl, rfl, rfl, rfl, rfl, rfl⟩,
    fun b command ignored data named => ⟨fun enough => ?_, decodeFrame_read_short named ignored⟩, fun bytes => decodeFrame_short,
    fun code argument high low ignored data bytes frame => ⟨fun acknowledge empty => ?_, fun length write short listed => ?_, fun unlisted => ?_⟩⟩
  · cases t <;> rfl
  · cases t <;> rfl
  · cases t <;> rfl
  · rw [decodeFrame_read named ignored enough]
    cases command <;> rfl
  · subst frame acknowledge empty
    rfl
  · subst frame write
    obtain ⟨table, named, same⟩ := entryTable_of_length listed
    exact decodeFrame_write_short named (by omega)
  · subst frame
    refine decodeFrame_unknown high low ignored data ?_
    rcases unlisted with code | ⟨table, argument⟩
    · exact decodeBody_unlisted_code code _ _ _
    · exact decodeBody_unlisted_table table (entryTableOf_none argument) _ _

end Machine
end Sys2Proof
end

section
/-! The layouts of R177: what is read back of each table, and how numbers, flags and codes stand in bytes. -/

namespace Sys2Proof
namespace Machine

/-! ### Numbers in bytes -/

theorem byte_ofNat_toNat {n : Nat} (small : n < 256) : (BitVec.ofNat 8 n).toNat = n := by
  rw [BitVec.toNat_ofNat, Nat.mod_eq_of_lt small]

theorem bigEndian_singleton (b : Byte) : bigEndian [b] = b.toNat := by
  simp [bigEndian]

theorem bigEndian_halfBytes (v : Half) : bigEndian (halfBytes v) = v.toNat := by
  have := v.isLt
  simp only [bigEndian, halfBytes, List.foldl_cons, List.foldl_nil, byteAt_toNat]
  omega

theorem bigEndian_wordBytes (v : Word) : bigEndian (wordBytes v) = v.toNat := by
  have := v.isLt
  simp only [bigEndian, wordBytes, List.foldl_cons, List.foldl_nil, byteAt_toNat]
  omega

/-- The five bytes of an address (R177). -/
def addressBytes (a : Addr) : List Byte := [byteAt 4 a, byteAt 3 a, byteAt 2 a, byteAt 1 a, byteAt 0 a]

theorem bigEndian_addressBytes (a : Addr) : bigEndian (addressBytes a) = a.toNat := by
  have := a.isLt
  simp only [bigEndian, addressBytes, List.foldl_cons, List.foldl_nil, byteAt_toNat]
  omega

theorem fieldAt_one {bytes : List Byte} {k : Nat} (inside : k < bytes.length) : fieldAt bytes k 1 = bytes[k].toNat := by
  rw [fieldAt, List.drop_eq_getElem_cons inside, List.take_succ_cons, List.take_zero, bigEndian_singleton]

/-! ### Flags in a byte -/

theorem flagByte_toNat {k : Nat} (inside : k < 8) (flag : Bool) : (flagByte k flag).toNat = bitValue k flag := by
  interval_cases k <;> cases flag <;> rfl

theorem flagBytes_two_toNat (a b : Bool) : (flagByte 0 a ||| flagByte 7 b).toNat = bitValue 0 a + bitValue 7 b := by
  revert a b
  decide

theorem flagBytes_mode_toNat (a b c : Bool) :
    (flagByte 0 a ||| flagByte 1 b ||| flagByte 7 c).toNat = bitValue 0 a + bitValue 1 b + bitValue 7 c := by
  revert a b c
  decide

theorem flagBytes_three_toNat (a b c : Bool) :
    (flagByte 0 a ||| flagByte 1 b ||| flagByte 2 c).toNat = bitValue 0 a + bitValue 1 b + bitValue 2 c := by
  revert a b c
  decide

theorem flagBytes_four_toNat (a b c d : Bool) :
    (flagByte 0 a ||| flagByte 1 b ||| flagByte 2 c ||| flagByte 3 d).toNat = bitValue 0 a + bitValue 1 b + bitValue 2 c + bitValue 3 d := by
  revert a b c d
  decide

/-! ### Partition states in READ STATUS (R172) -/

theorem append_pair_toNat {n : Nat} (v : BitVec n) (b : BitVec 2) : (v ++ b).toNat = 4 * v.toNat + b.toNat := by
  rw [BitVec.toNat_append, ← Nat.shiftLeft_add_eq_or_of_lt b.isLt, Nat.shiftLeft_eq, Nat.mul_comm]

/-- Four codes of two bits in one byte, the first in the lowest place. -/
theorem pairs_extract (c3 c2 c1 c0 : BitVec 2) :
    ((c3 ++ c2 ++ c1 ++ c0).extractLsb' 0 2).toNat = c0.toNat ∧ ((c3 ++ c2 ++ c1 ++ c0).extractLsb' 2 2).toNat = c1.toNat ∧
      ((c3 ++ c2 ++ c1 ++ c0).extractLsb' 4 2).toNat = c2.toNat ∧ ((c3 ++ c2 ++ c1 ++ c0).extractLsb' 6 2).toNat = c3.toNat := by
  have := c3.isLt
  have := c2.isLt
  have := c1.isLt
  have := c0.isLt
  simp only [BitVec.extractLsb'_toNat, append_pair_toNat, Nat.shiftRight_eq_div_pow]
  omega

theorem PartitionState.code_toNat (x : PartitionState) :
    x.code.toNat = match x with | .off => 0 | .run => 1 | .hold => 2 | .closing => 3 := by
  cases x <;> rfl

/-! ### Slot entries (R19, R177) -/

theorem slotEntryOf_byte (e : SlotEntry) : slotEntryOf e.byte = some e := by
  cases e with
  | quiet => rfl
  | openSlot => rfl
  | owned p lend =>
    revert p lend
    decide

theorem SlotEntry.byte_toNat (e : SlotEntry) :
    e.byte.toNat = match e with | .quiet => 0 | .openSlot => 64 | .owned p lend => 128 + bitValue 4 lend + p.val := by
  cases e with
  | quiet => rfl
  | openSlot => rfl
  | owned p lend =>
    revert p lend
    decide

theorem slotEntryOf_eq (b : Byte) :
    slotEntryOf b =
      if b.toNat / 64 = 0 then some .quiet
      else if b.toNat / 64 = 1 then some .openSlot
      else if b.toNat / 64 = 2 ∧ b.toNat % 16 < 8 then some (.owned (Fin.ofNat 8 (b.toNat % 16)) (b.getLsb 4))
      else none := by
  have kind : (b.extractLsb' 6 2).toNat = b.toNat / 64 := by
    have := b.isLt
    rw [BitVec.extractLsb'_toNat, Nat.shiftRight_eq_div_pow]
    omega
  have number : (b.extractLsb' 0 4).toNat = b.toNat % 16 := by
    rw [BitVec.extractLsb'_toNat, Nat.shiftRight_zero]
  have code : ∀ k : BitVec 2, b.extractLsb' 6 2 = k ↔ b.toNat / 64 = k.toNat := fun k => by rw [← kind, BitVec.toNat_inj]
  simp only [slotEntryOf, code, number]
  by_cases owned : b.toNat / 64 = 2
  · by_cases small : b.toNat % 16 < 8
    · simp [owned, small, Fin.ext_iff, Nat.mod_eq_of_lt small]
    · simp [owned, small]
  · simp [owned]

/-! ### Entries of the tables (R177) -/

theorem PartitionRecord.bytes_layout (r : PartitionRecord) : r.Layout r.bytes := by
  refine ⟨rfl, ?_, fun small => ?_, ?_, fun small => ?_⟩
  · rw [fieldAt_one (by exact Nat.zero_lt_succ 3)]
    show _[(r.state.code.setWidth 8).toNat]? = _
    cases r.state <;> rfl
  · exact (bigEndian_singleton _).trans (byte_ofNat_toNat small)
  · exact (bigEndian_singleton _).trans (flagByte_toNat (by decide) r.slack)
  · exact (bigEndian_singleton _).trans (byte_ofNat_toNat small)

theorem granule_toNat (g : Granule) : (g.setWidth 32 : Word).toNat = g.toNat := BitVec.toNat_setWidth_of_le (by decide)

theorem Region.bytes_layout (g : Region) : g.Layout g.bytes := by
  refine ⟨rfl, ?_, ?_, bigEndian_singleton g.mask, ?_⟩
  · exact (bigEndian_wordBytes _).trans (granule_toNat g.base)
  · exact (bigEndian_wordBytes _).trans (granule_toNat g.limit)
  · exact (bigEndian_singleton _).trans (flagBytes_three_toNat _ _ _)

theorem Monitor.bytes_layout (m : Monitor) : m.Layout m.bytes := by
  refine ⟨rfl, ?_, ?_, ?_, bigEndian_singleton m.argument, bigEndian_halfBytes m.threshold⟩
  · exact (bigEndian_singleton _).trans (flagBytes_two_toNat _ _)
  · rw [show fieldAt m.bytes 1 1 = m.object.code.toNat from bigEndian_singleton _]
    cases m.object <;> rfl
  · rw [show fieldAt m.bytes 2 1 = m.condition.code.toNat from bigEndian_singleton _]
    cases m.condition <;> rfl

theorem Trigger.bytes_layout (t : Trigger) : t.Layout t.bytes := by
  refine ⟨rfl, ?_, ?_, bigEndian_singleton t.causeArgument, ?_, bigEndian_singleton t.actionArgument, bigEndian_halfBytes t.fireCount⟩
  · rw [show fieldAt t.bytes 0 1 = _ from (bigEndian_singleton _).trans (flagBytes_mode_toNat _ _ _)]
    cases t.mode <;> rfl
  · rw [show fieldAt t.bytes 1 1 = t.cause.code.toNat from bigEndian_singleton _]
    cases t.cause <;> rfl
  · rw [show fieldAt t.bytes 3 1 = t.action.code.toNat from bigEndian_singleton _]
    cases t.action <;> rfl

theorem mapByte_toNat (v : Option PartitionId) : (mapByte v).toNat = v.elim 0xFF Fin.val := by
  cases v with
  | none => rfl
  | some p => exact byte_ofNat_toNat (by omega)

/-! ### Fault records (R177) -/

theorem FaultRecord.bytes_eq (r : FaultRecord) :
    r.bytes =
      [BitVec.ofNat 8 r.kind.code,
        flagByte 0 r.partition.isSome ||| flagByte 1 r.pair.isSome ||| flagByte 2 r.address.isSome ||| flagByte 3 r.dtag.isSome,
        r.partition.elim 0 fun p => BitVec.ofNat 8 p.val, r.pair.elim 0 fun q => BitVec.ofNat 8 q.initiator.val,
        r.pair.elim 0 fun q => BitVec.ofNat 8 q.tag.val] ++
      r.address.elim [0, 0, 0, 0, 0] addressBytes ++ [r.dtag.elim 0 fun d => BitVec.ofNat 8 d.val] ++ wordBytes r.round ++ [BitVec.ofNat 8 r.slot] := by
  obtain ⟨kind, partition, pair, address, dtag, round, slot⟩ := r
  cases partition <;> cases pair <;> cases address <;> cases dtag <;> rfl

theorem elim_byte_toNat {α : Type} {f : α → Nat} (small : ∀ x, f x < 256) (v : Option α) :
    (v.elim (0 : Byte) fun x => BitVec.ofNat 8 (f x)).toNat = v.elim 0 f := by
  cases v with
  | none => rfl
  | some x => exact byte_ofNat_toNat (small x)

theorem FaultRecord.bytes_layout (r : FaultRecord) : r.Layout r.bytes := by
  have shape : ∃ five : List Byte, five.length = 5 ∧ bigEndian five = r.address.elim 0 BitVec.toNat ∧ r.address.elim [0, 0, 0, 0, 0] addressBytes = five := by
    cases r.address with
    | none => exact ⟨_, rfl, rfl, rfl⟩
    | some a => exact ⟨_, rfl, bigEndian_addressBytes a, rfl⟩
  obtain ⟨five, length, number, here⟩ := shape
  have bytes := r.bytes_eq
  rw [here] at bytes
  obtain ⟨a4, a3, a2, a1, a0, rfl⟩ : ∃ a4 a3 a2 a1 a0, five = [a4, a3, a2, a1, a0] := by
    match five, length with
    | [a4, a3, a2, a1, a0], _ => exact ⟨a4, a3, a2, a1, a0, rfl⟩
  refine ⟨r.bytes_length, ?_, ?_, ?_, ?_, ?_, ?_, ?_, ?_, fun small => ?_⟩ <;> rw [bytes]
  · show _[bigEndian [BitVec.ofNat 8 r.kind.code]]? = _
    rw [bigEndian_singleton]
    cases r.kind <;> rfl
  · exact (bigEndian_singleton _).trans (flagBytes_four_toNat _ _ _ _)
  · exact (bigEndian_singleton _).trans (elim_byte_toNat (fun p => by omega) r.partition)
  · exact (bigEndian_singleton _).trans (elim_byte_toNat (fun q => by omega) r.pair)
  · exact (bigEndian_singleton _).trans (elim_byte_toNat (fun q => by omega) r.pair)
  · exact number
  · exact (bigEndian_singleton _).trans (elim_byte_toNat (fun d => by omega) r.dtag)
  · exact bigEndian_wordBytes r.round
  · exact (bigEndian_singleton _).trans (byte_ofNat_toNat small)

/-! ### Counters and the snapshot (R173) -/

theorem half_ofNat_toNat {n : Nat} (small : n ≤ 65535) : (BitVec.ofNat 16 n).toNat = n := by
  rw [BitVec.toNat_ofNat]
  exact Nat.mod_eq_of_lt (by omega)

theorem PartitionCounters.bytes_layout (c : PartitionCounters) : c.Layout c.bytes := by
  refine ⟨c.bytes_length, ?_, fun small => ?_, fun small => ?_⟩
  · show [bigEndian (wordBytes c.accepted), bigEndian (wordBytes c.retried), bigEndian (wordBytes c.refused), bigEndian (wordBytes c.lateCancels),
      bigEndian (wordBytes c.ownedIssues), bigEndian (wordBytes c.slackIssues), bigEndian (wordBytes c.lostOwned), bigEndian (wordBytes c.completedOk),
      bigEndian (wordBytes c.completedError), bigEndian (wordBytes c.withdrawn)] = _
    simp only [bigEndian_wordBytes, List.map_cons, List.map_nil]
  · exact (bigEndian_halfBytes _).trans (half_ofNat_toNat small)
  · exact (bigEndian_halfBytes _).trans (half_ofNat_toNat small)

theorem globalBytes_layout (round slotCount : Word) (g : GlobalCounters) : g.Layout round slotCount (globalBytes round slotCount g) := by
  refine ⟨globalBytes_length round slotCount g, ?_⟩
  show [bigEndian (wordBytes round), bigEndian (wordBytes slotCount), bigEndian (wordBytes g.stalled), bigEndian (wordBytes g.quiet),
    bigEndian (wordBytes g.idle), bigEndian (wordBytes g.restart), bigEndian (wordBytes g.unmappedRetries),
    bigEndian (wordBytes g.unmappedLateCancels)] = _
  simp only [bigEndian_wordBytes, List.map_cons, List.map_nil]

theorem State.countersBytes_of_partition {s : State} {argument : Byte} {p : PartitionId} (code : argument.toNat = p.val) :
    s.countersBytes argument = some s.counters.parts[p].bytes := by
  simp only [State.countersBytes, code, p.isLt, dite_true]
  rfl

theorem Snapshot.bytes_of_partition {n : Snapshot} {index : Half} {p : PartitionId} (code : index.toNat = p.val + 1) :
    n.bytes index = some n.counters.parts[p].bytes := by
  have other : index ≠ 0 := by
    rintro rfl
    exact absurd code (by simp)
  simp only [Snapshot.bytes, if_neg other, code, Nat.add_sub_cancel, p.isLt, dite_true]
  rfl

/-! ### READ STATUS (R172) -/

theorem tableCode_toNat_iff (t : TableName) :
    ((BitVec.ofNat 8 (tableCode t)).toNat = 0 ↔ t = .a) ∧ ((BitVec.ofNat 8 (tableCode t)).toNat = 1 ↔ t = .b) := by
  cases t <;> decide

theorem targetCode_toNat_iff (t : Option TableName) :
    ((targetCode t).toNat = 0 ↔ t = none) ∧ ((targetCode t).toNat = 1 ↔ t = some .a) ∧ ((targetCode t).toNat = 2 ↔ t = some .b) := by
  rcases t with _ | (_ | _) <;> decide

theorem RestartPhase.code_toNat (x : RestartPhase) : x.code.toNat = match x with | .idle => 0 | .draining => 1 | .releasing => 2 := by
  cases x <;> rfl

/-- The two bits of each partition's state stand in byte 9 for P0 to P3 and in byte 8 for P4 to P7 (R172). -/
theorem State.statusBytes_parts (s : State) (p : PartitionId) :
    ((s.statusBytes.getD (if p.val < 4 then 9 else 8) 0).extractLsb' (2 * (p.val % 4)) 2).toNat = s.parts[p].state.code.toNat := by
  have high := pairs_extract s.parts[7].state.code s.parts[6].state.code s.parts[5].state.code s.parts[4].state.code
  have low := pairs_extract s.parts[3].state.code s.parts[2].state.code s.parts[1].state.code s.parts[0].state.code
  obtain ⟨p4, p5, p6, p7⟩ := high
  obtain ⟨p0, p1, p2, p3⟩ := low
  fin_cases p
  exacts [p0, p1, p2, p3, p4, p5, p6, p7]

theorem State.statusBytes_layout (s : State) (slot : s.sched.slot < 32) (occupancy : s.occupancy ≤ 16) (orphans : s.orphanCount ≤ 16)
    (reserved : s.writes.reserved ≤ 256) :
    (s.statusBytes.getD 6 0).toNat = s.sched.slot ∧ (s.statusBytes.getD 10 0).toNat = s.occupancy ∧
      (s.statusBytes.getD 11 0).toNat = s.orphanCount ∧ fieldAt s.statusBytes 12 2 = s.writes.reserved :=
  ⟨byte_ofNat_toNat (by omega), byte_ofNat_toNat (by omega), byte_ofNat_toNat (by omega),
    (bigEndian_halfBytes _).trans (half_ofNat_toNat (by omega))⟩

theorem causes_byte_toNat (v : BitVec 7) : (v.setWidth 8 : Byte).toNat = v.toNat := BitVec.toNat_setWidth_of_le (by decide)

theorem flag_byte_one_iff (flag : Bool) : (flagByte 0 flag).toNat = 1 ↔ flag = true := by
  cases flag <;> decide

/-! ### Frames as bits (R167) -/

/-- A bit that is shifted in stands lowest, and each other one place higher. -/
theorem shiftIn_getLsbD (v : Byte) (b : Bool) {i : Nat} (inside : i < 8) :
    ((v <<< 1) ||| (if b = true then 1 else 0)).getLsbD i = if i = 0 then b else v.getLsbD (i - 1) := by
  have bit : (if b = true then (1 : Byte) else 0).getLsbD i = (b && decide (i = 0)) := by
    cases b with
    | true => simp [BitVec.getLsbD_one]
    | false => simp
  rw [BitVec.getLsbD_or, BitVec.getLsbD_shiftLeft, bit]
  by_cases low : i = 0
  · simp [low]
  · have above : ¬i < 1 := by omega
    simp [low, above, inside]

theorem byteOfBits_bitsOfByte (b : Byte) :
    byteOfBits (b.getLsbD 7) (b.getLsbD 6) (b.getLsbD 5) (b.getLsbD 4) (b.getLsbD 3) (b.getLsbD 2) (b.getLsbD 1) (b.getLsbD 0) = b := by
  apply BitVec.eq_of_getLsbD_eq
  intro i inside
  simp only [byteOfBits, List.foldl_cons, List.foldl_nil]
  interval_cases i <;> simp only [shiftIn_getLsbD, Nat.reduceLT, Nat.reduceSub, OfNat.ofNat_ne_zero, one_ne_zero, if_true, if_false]

theorem bytesOfBits_short {tail : List Bool} (short : tail.length < 8) : bytesOfBits tail = [] := by
  unfold bytesOfBits
  split
  · simp only [List.length_cons] at short
    omega
  · rfl

theorem bytesOfBits_append (bytes : List Byte) {tail : List Bool} (short : tail.length < 8) :
    bytesOfBits (bytes.flatMap bitsOfByte ++ tail) = bytes := by
  induction bytes with
  | nil => exact bytesOfBits_short short
  | cons b bytes ih =>
    rw [List.flatMap_cons, List.append_assoc]
    exact congrArg₂ List.cons (byteOfBits_bitsOfByte b) ih

/-! ### The statement -/

theorem ScheduleTable.allowance_field {t : ScheduleTable} {p : PartitionId} (small : t.allowance[p] < 256) :
    fieldAt (t.allowance.toList.map (BitVec.ofNat 8)) p.val 1 = t.allowance[p] := by
  rw [fieldAt_one (by simp), List.getElem_map, Vector.getElem_toList]
  exact byte_ofNat_toNat small

/-- Settles O39, layout by layout. -/
theorem bytesOfTheLayouts : Obligations.BytesOfTheLayouts := by
  refine ⟨fun s => ⟨rfl, rfl⟩, fun s slot occupancy orphans reserved => ⟨s.statusBytes, rfl, s.statusBytes_length, ?status⟩,
    fun e => ⟨slotEntryOf_byte e, e.byte_toNat⟩, slotEntryOf_eq, fun s x index => ⟨fun zero => ?schedule, fun k code => ?slot⟩,
    fun s index => ⟨fun p code => ?partition, fun i code => ?initiator, fun k code => ?region, fun m code => ?monitor, fun i code => ?trigger,
      fun zero => ?mask⟩,
    fun s r rs queue => ⟨r.bytes, ?fault, r.bytes_layout⟩, fun s argument => ⟨fun p code => ?counters, fun eight => ?globals⟩,
    fun s index => ⟨fun zero => ?position, fun p code => ?part⟩, ⟨rfl, rfl⟩, fun bytes tail short => bytesOfBits_append bytes short, fun bits => rfl⟩
  case status =>
    obtain ⟨activeA, activeB⟩ := tableCode_toNat_iff s.sched.active
    obtain ⟨pendingNone, pendingA, pendingB⟩ := targetCode_toNat_iff s.sched.pendingTarget
    obtain ⟨atSlot, atOccupancy, atOrphans, atReserved⟩ := s.statusBytes_layout slot occupancy orphans reserved
    exact ⟨activeA, activeB, pendingNone, pendingA, pendingB, bigEndian_wordBytes s.sched.round, atSlot, s.restart.phase.code_toNat,
      fun p => (s.statusBytes_parts p).trans s.parts[p].state.code_toNat, atOccupancy, atOrphans, atReserved,
      causes_byte_toNat s.attention.pendingSet, flag_byte_one_iff _⟩
  case schedule =>
    subst zero
    exact ⟨_, _, rfl, rfl, fun small => (bigEndian_singleton _).trans (byte_ofNat_toNat small),
      fun small => (bigEndian_singleton _).trans (byte_ofNat_toNat small), rfl, by simp, fun p => ScheduleTable.allowance_field⟩
  case slot => rw [State.readData, State.entryBytes, ScheduleTable.bytes, (indexIn_some index k).2 code, Option.map_some]
  case partition =>
    exact ⟨_, by rw [State.readData, State.entryBytes, (indexIn_some index p).2 code, Option.map_some], s.parts[p].bytes_layout⟩
  case initiator =>
    exact ⟨[mapByte s.intake.map[i]], by rw [State.readData, State.entryBytes, (indexIn_some index i).2 code, Option.map_some], rfl,
      (bigEndian_singleton _).trans (mapByte_toNat _)⟩
  case region =>
    exact ⟨_, by rw [State.readData, State.entryBytes, (indexIn_some index k).2 code, Option.map_some], s.intake.regions[k].bytes_layout⟩
  case monitor =>
    exact ⟨_, by rw [State.readData, State.entryBytes, (indexIn_some index m).2 code, Option.map_some], s.monitors[m].bytes_layout⟩
  case trigger =>
    exact ⟨_, by rw [State.readData, State.entryBytes, (indexIn_some index i).2 code, Option.map_some], s.triggers.entries[i].bytes_layout⟩
  case mask =>
    subst zero
    exact ⟨_, rfl, rfl, (bigEndian_singleton _).trans (causes_byte_toNat s.attention.mask)⟩
  case fault =>
    rw [State.readData, queue]
    rfl
  case counters =>
    exact ⟨_, State.countersBytes_of_partition code, s.counters.parts[p].bytes_layout⟩
  case globals =>
    subst eight
    exact ⟨_, rfl, globalBytes_layout _ _ _⟩
  case position =>
    subst zero
    exact ⟨_, rfl, by simp [wordBytes_length, globalBytes_length], bigEndian_wordBytes s.snapshot.round,
      fun small => (bigEndian_singleton _).trans (byte_ofNat_toNat small), globalBytes_layout _ _ _⟩
  case part =>
    exact ⟨_, Snapshot.bytes_of_partition code, s.snapshot.counters.parts[p].bytes_layout⟩

end Machine
end Sys2Proof
end
